-- ==== Sys2Proof/Word.lean ====
section
/-! DEFINITION. The words of the hub: bytes, Deck Time, heat times and their plainest arithmetic. -/

namespace Sys2Proof

/-- One byte of the Deck Loop or of the Board Link. -/
abbrev Byte := BitVec 8

/-- Deck Time, an unsigned 32-bit count of ticks that wraps (R1). -/
abbrev DeckTime := BitVec 32

/-- A heat time: a signed number of ticks measured from the epoch (R7). -/
abbrev HeatTime := Int

/-- A counter that saturates at its greatest value (00_scope.md, Conventions). -/
def satAdd (w : Nat) (c : BitVec w) (k : Nat) : BitVec w :=
  if c.toNat + k < 2 ^ w then BitVec.ofNat w (c.toNat + k) else BitVec.allOnes w

/-- `b` as the byte 1 or 0. -/
def boolByte (b : Bool) : Byte := if b then 1 else 0

/-- `n` as one byte. -/
def byte (n : Nat) : Byte := BitVec.ofNat 8 n

end Sys2Proof
end

