-- ==== Sys2Proof/Syntax.lean ====
section
/-! DEFINITION. The commands of the hub: one constructor for each row of spec/opcode_table.json. -/

namespace Sys2Proof

/-- What the receiver at Loop In decodes a symbol as (R108). -/
inductive LoopSymbol where
  | idle
  | startDelimiter
  | endDelimiter
  | data (b : Byte)
  | error
  deriving DecidableEq, Repr

/-- Every symbol other than a symbol error is a valid symbol (R108). -/
def LoopSymbol.valid : LoopSymbol → Bool
  | .error => false
  | _ => true

/-- The steps of the hub (spec/opcode_table.json, spec/95_what_each_step_holds.md).
A request row is the Management Unit carrying out the request at the head of the Management Queue (R135):
its operands are the bytes of that MANAGE frame. -/
inductive Instr where
  /-- The RESET pin is asserted (R147). -/
  | hardwareReset
  /-- A frame ends at Loop In; `sym` is the symbol that ends it (R108, R110). -/
  | frameReceived (sym : LoopSymbol)
  /-- The loop silence timer expires (R117). -/
  | loopSilenceExpiry
  /-- The first valid symbol in OUTAGE arrives (R118). -/
  | loopRestored (sym : LoopSymbol)
  /-- The start line goes from low to high (R41). -/
  | startLineRisingEdge
  /-- The start-window timer expires (R43). -/
  | startWindowExpiry
  /-- The heat-limit timer expires (R25). -/
  | heatLimitExpiry
  /-- The collection timer of a lane expires (R64). -/
  | lapCollectionExpiry (lane : Nat)
  /-- The exchange timer of a lane expires (R81). -/
  | exchangeWindowExpiry (lane : Nat)
  /-- The clock display timer expires (R158). -/
  | clockDisplayExpiry
  /-- The refresh timer of a row expires (R162). -/
  | rowFullRefreshExpiry (row : Nat)
  /-- The step timer of the running program expires (R173). -/
  | pulseStepExpiry
  /-- The Loop Out Port has sent its frame (R126). -/
  | loopOutCompletion
  /-- The row load in progress completes (R163). -/
  | rowLoadComplete
  /-- The Composer's field write in progress completes (R157). -/
  | fieldWriteComplete
  /-- The console board operation in progress completes (R150). -/
  | boardOperationComplete
  /-- The row frame on the Board Link completes (R164). -/
  | rowSendComplete
  | readStatus
  | readIntakeAnalysis
  | setMeet
  | lockMeet
  | writeNodeEntries
  | selectNodeMap
  | readNodeEntry
  | loadHeatPlan
  | armHeat
  | abortHeat
  | closeHeat
  | clearHeat
  | markDns
  | adjudicateFinish
  | setDq
  | readLane
  | readArrivals
  | setReportDest
  | writeCells
  | fillGroup
  | clearRow
  | loadPattern
  | loadPlaneMask
  | releasePlaneMask
  | writeLayout
  | sendRowNow
  | loadProgram
  | fireProgram
  | setLineFunction
  | setHeldLevel
  | readLines
  | restart
  | unknownRequestCode
  /-- One 10 µs tick of the reference clock (R1). -/
  | tick
  /-- The RESET pin is released (R41, R117). -/
  | hardwareResetEnds
  /-- A symbol is decoded at Loop In (R108). -/
  | loopInSymbol (sym : LoopSymbol)
  /-- The level the deck puts on a line changes, other than a rising edge of the start line (R41). -/
  | lineLevelChange (line : Nat) (level : Bool)
  deriving DecidableEq, Repr

end Sys2Proof
end

