-- ==== Sys2Proof/Config.lean ====
section
/-! DEFINITION. The fixed sizes and intervals of the part, and its one free value. -/

namespace Sys2Proof.Config

/-- The lanes of the part (00_scope.md, Capacities). -/
def lanes : List Nat := [0, 1, 2, 3, 4, 5, 6, 7, 8, 9]

/-- The rows of Board Memory (R148). -/
def boardRows : List Nat := [0, 1, 2, 3, 4, 5, 6, 7, 8, 9, 10, 11, 12, 13, 14, 15]

/-- The cells of a row of Board Memory (R148). -/
def boardColumns : Nat := 48

/-- The frames the Management Queue holds (R134). -/
def mgmtCapacity : Nat := 4

/-- The frames the Outbound Queue holds (R124). -/
def outboundCapacity : Nat := 32

/-- The frames the Transit Queue holds (R125). -/
def transitCapacity : Nat := 16

/-- The records the Arrival Pool holds (R70). -/
def poolCapacity : Nat := 512

/-- The most records a READ_ARRIVALS reply carries (R72). -/
def arrivalsPerReply : Nat := 12

/-- The bytes of the longest frame (R108, R109). -/
def maxFrameBytes : Nat := 127

/-- The pre-start horizon of 10 s in ticks (R8, R9). -/
def preStartHorizon : Int := 1000000

/-- The clock display update interval in ticks (R9). -/
def clockInterval : DeckTime := 10000#32

/-- The row full refresh interval in ticks (R9). -/
def refreshInterval : DeckTime := 100000#32

/-- The loop silence threshold in ticks (R9). -/
def silenceInterval : DeckTime := 2000#32

/-- FREE VALUE. The arrival stamp of a frame that an end delimiter ends before any byte has arrived: R3 and R108
name the last byte, or the symbol that cut the frame, and give no stamp here. DESIGN CHOICE, log entry 8. -/
opaque freeStamp : Nat → DeckTime

end Sys2Proof.Config
end

