-- ==== Sys2Proof/Machine/Types.lean ====
section
/-! DEFINITION. The records the blocks of the hub hold, as the chapters name them. -/

namespace Sys2Proof.Machine

/-! ### Codes in the order of R181 -/

/-- The heat state (R21). -/
inductive HeatState where
  | idle | armed | running | results
  deriving DecidableEq, Repr

/-- The cause of a change of heat state (R21). -/
inductive HeatCause where
  | arm | start | closeAllFinal | closeLimit | closeRequest | abort | clear | disarm | restart
  deriving DecidableEq, Repr

/-- The status of a lane (R91, R92). -/
inductive LaneStatus where
  | waiting | swimming | provisional | final | noFinish | dns
  deriving DecidableEq, Repr

/-- Where a time comes from (R63, R68, R102). -/
inductive Source where
  | pad | backup | missed | referee
  deriving DecidableEq, Repr

/-- The block end or the far end of the pool (00_scope.md, Terms). -/
inductive Wall where
  | start | turn
  deriving DecidableEq, Repr

/-- The stroke of a plan (R17). -/
inductive Stroke where
  | free | back | breast | fly | medley
  deriving DecidableEq, Repr

/-- The split mode of a plan (R17, R61). -/
inductive SplitMode where
  | allWalls | startWall | finishOnly
  deriving DecidableEq, Repr

/-- The mark of a FINISH report (R74). -/
inductive FinishMark where
  | provisional | final
  deriving DecidableEq, Repr

/-- The verdict of an exchange (R79). -/
inductive ExchangeVerdict where
  | ok | early | noTakeover | notJudged
  deriving DecidableEq, Repr

/-- How a pulse program ended (R175). -/
inductive PulseOutcome where
  | completed | preempted | cutByRestart
  deriving DecidableEq, Repr

/-- The verdict of a received frame, in rank order (R110). -/
inductive Verdict where
  | broken | corrupt | inadmissible | orphan | returned | dropped | forwarded | accepted
  deriving DecidableEq, Repr

/-- The qualifier of an INADMISSIBLE frame, in rank order (R111). -/
inductive Qualifier where
  | kindNotTaken | notConsole | unknownNode | badEdgeCount | badSensor
  deriving DecidableEq, Repr

/-- The source of the Active Map (R119). -/
inductive MapSelection where
  | fixed | working
  deriving DecidableEq, Repr

/-- The function of a signal line (R168). -/
inductive LineFunction where
  | input | pulse | held
  deriving DecidableEq, Repr

/-- The state of the loop (R117). -/
inductive LinkState where
  | up | outage
  deriving DecidableEq, Repr

/-- The result of a request (R136). -/
inductive ReplyResult where
  | done | doneClamped | refusedState | refusedLocked | refusedBusy | badRequest | badValue
  | planInvalid | mapInvalid | mapIncomplete
  deriving DecidableEq, Repr

/-- The code of a place lamp (R99). -/
inductive LampCode where
  | off | place1 | place2 | place3 | finished | disqualified
  deriving DecidableEq, Repr

/-- The colour class of a lane (R105). -/
inductive ColourClass where
  | normal | first | second | third | disqualified | review
  deriving DecidableEq, Repr

/-- A sensor of a lane node (R179). -/
inductive Sensor where
  | pad | platform | button1 | button2 | button3
  deriving DecidableEq, Repr

/-! ### Frames -/

/-- A whole loop frame (R178). Its length byte is the length of `payload`. -/
structure Frame where
  dst : Byte
  src : Byte
  kind : Byte
  flags : Byte
  payload : List Byte
  crc : BitVec 16
  deriving DecidableEq, Repr

/-- A frame that has ended at Loop In, as the frame checker gathered it (R108), with its arrival stamp (R3). -/
structure EndedFrame where
  bytes : List Byte
  tooLong : Bool
  cut : Bool
  stamp : DeckTime
  deriving DecidableEq, Repr

/-- The frame checker of Loop In (R108). `lastByte` is the Deck Time at which the last byte arrived (R3). -/
inductive Checker where
  | between
  | inFrame (bytes : List Byte) (tooLong : Bool) (lastByte : Option DeckTime)
  deriving DecidableEq, Repr

/-- The eight verdict counters (R113). -/
structure VerdictCounts where
  broken : BitVec 32 := 0
  corrupt : BitVec 32 := 0
  inadmissible : BitVec 32 := 0
  orphan : BitVec 32 := 0
  returned : BitVec 32 := 0
  dropped : BitVec 32 := 0
  forwarded : BitVec 32 := 0
  accepted : BitVec 32 := 0
  deriving DecidableEq, Repr

/-- The Intake Analysis record; its default is the cold value of every field (R114). -/
structure IntakeAnalysis where
  lastStamp : Option DeckTime := none
  lastVerdict : Option Verdict := none
  qualifier : Option Qualifier := none
  multiple : Bool := false
  refusedStamp : Option DeckTime := none
  refusedDst : Option Byte := none
  refusedSrc : Option Byte := none
  refusedKind : Option Byte := none
  /-- Freshness: SEEN when true, NEW when false. -/
  seen : Bool := false
  deriving DecidableEq, Repr

/-- Loop Intake (R108, R113, R114, R117). -/
structure Intake where
  checker : Checker
  analysis : IntakeAnalysis
  counts : VerdictCounts
  staleCount : BitVec 16
  lostCount : BitVec 16
  outageCount : BitVec 16
  link : LinkState
  silenceTimer : Option DeckTime
  outageStart : DeckTime
  deriving DecidableEq, Repr

/-! ### Node Map -/

/-- An entry of the Active Map (R119). -/
structure ActiveEntry where
  address : Byte
  lane : Nat
  wall : Wall
  delay : Byte
  enabled : Bool
  expected : Option Byte
  deriving DecidableEq, Repr

/-- An entry of the Working Map (R121). -/
structure WorkingEntry where
  address : Byte
  lane : Nat
  wall : Wall
  delay : Byte
  enabled : Bool
  deriving DecidableEq, Repr

/-- The Node Map (R119, R121): 32 slots, 32 entries and the selection. -/
structure NodeMap where
  active : List (Option ActiveEntry)
  working : List WorkingEntry
  selection : MapSelection
  deriving DecidableEq, Repr

/-! ### Heat -/

/-- A lane entry of a plan (R17, field 15). -/
structure LaneEntry where
  lane : Nat
  entryId : BitVec 16
  exhibition : Bool
  deriving DecidableEq, Repr

/-- The Heat Plan (R17), its timing fields in the console's units. -/
structure Plan where
  event : Nat
  heat : Nat
  distance : Nat
  stroke : Stroke
  relay : Bool
  split : SplitMode
  minLap : Nat
  collectionWindow : Nat
  trustWindow : Nat
  exchangeWindow : Nat
  tolerance : Nat
  startWindow : Nat
  reactionFloor : Nat
  heatLimit : Nat
  entries : List LaneEntry
  deriving DecidableEq, Repr

/-- The Heat Controller (R21). -/
structure Heat where
  plan : Option Plan
  state : HeatState
  epoch : Option DeckTime
  startTimer : Option DeckTime
  limitTimer : Option DeckTime
  deriving DecidableEq, Repr

/-- The occupancy a Platform Tracker shows (R37). -/
inductive TrackerState where
  | unknown | pressed | released
  deriving DecidableEq, Repr

/-- A Platform Tracker (R37). -/
structure Tracker where
  state : TrackerState := .unknown
  lastRelease : Option DeckTime := none
  taking : Bool := false
  deriving DecidableEq, Repr

/-- The Start Judge (R37, R42): ten trackers, by lane. -/
structure StartJudge where
  trackers : List Tracker
  strayCount : BitVec 16
  deriving DecidableEq, Repr

/-- The state of a lap collector (R51). -/
inductive CollectorState where
  | dormant | armed | collecting | closed
  deriving DecidableEq, Repr

/-- A lap collector (R51). -/
structure Collector where
  lane : Nat
  lap : Nat := 1
  state : CollectorState := .dormant
  arming : Option HeatTime := none
  openTime : Option DeckTime := none
  timer : Option DeckTime := none
  pad : Option HeatTime := none
  b1 : Option HeatTime := none
  b2 : Option HeatTime := none
  b3 : Option HeatTime := none
  link : Bool := false
  deriving DecidableEq, Repr

/-- The flags of an arrival record (R70). -/
structure ArrivalFlags where
  review : Bool := false
  latePadSeen : Bool := false
  link : Bool := false
  deriving DecidableEq, Repr

/-- An arrival record (R70). -/
structure ArrivalRecord where
  lane : Nat
  lap : Nat
  wall : Wall
  time : Option HeatTime
  source : Source
  buttons : Nat
  flags : ArrivalFlags
  deriving DecidableEq, Repr

/-- The Wall Judge (R51, R70): collectors in lane order, the Arrival Pool in the order of storing. -/
structure WallJudge where
  collectors : List Collector
  pool : List ArrivalRecord
  deriving DecidableEq, Repr

/-- What an OPEN exchange collector holds (R78). -/
structure OpenExchange where
  number : Nat
  lap : Nat
  arming : HeatTime
  touch : HeatTime
  timer : DeckTime
  deriving DecidableEq, Repr

/-- An exchange collector: INACTIVE when `window` is none, OPEN otherwise (R78). -/
structure ExchangeCollector where
  lane : Nat
  window : Option OpenExchange
  deriving DecidableEq, Repr

/-- A judged exchange (R79). -/
structure ExchangeRecord where
  verdict : ExchangeVerdict
  margin : Option Int
  deriving DecidableEq, Repr

/-- The ten lane flags (R94, R181). -/
structure LaneFlags where
  falseStart : Bool := false
  earlyTakeover : Bool := false
  refereeDq : Bool := false
  review : Bool := false
  suspectReaction : Bool := false
  backupUsed : Bool := false
  adjudicated : Bool := false
  linkGap : Bool := false
  splitsLost : Bool := false
  exhibition : Bool := false
  deriving DecidableEq, Repr

/-- A lane result record; its defaults are the values at arming (R91, R23). -/
structure LaneRecord where
  lane : Nat
  entryId : BitVec 16
  status : LaneStatus := .waiting
  flags : LaneFlags := {}
  reaction : Option HeatTime := none
  finish : Option HeatTime := none
  source : Option Source := none
  finishPad : Option HeatTime := none
  finishBackup : Option HeatTime := none
  place : Option Nat := none
  lamp : LampCode := .off
  lapCount : Nat := 0
  early : BitVec 8 := 0
  late : BitVec 8 := 0
  displayed : Option HeatTime := none
  exchange1 : Option ExchangeRecord := none
  exchange2 : Option ExchangeRecord := none
  exchange3 : Option ExchangeRecord := none
  deriving DecidableEq, Repr

/-! ### Management Unit and Loop Out Port -/

/-- The length of the pool (R140). -/
inductive Course where
  | m25 | m50
  deriving DecidableEq, Repr

/-- The unit of a step's duration (R140, R171). -/
inductive PulseBase where
  | ms10 | ms2
  deriving DecidableEq, Repr

/-- The Meet Settings (R140); `startLine7` is true for SL7 and false for SL0. -/
structure MeetSettings where
  course : Course
  laneCount : Nat
  numberingBase : Nat
  pulseBase : PulseBase
  startLine7 : Bool
  fixedPlan : Nat
  deriving DecidableEq, Repr

/-- Which of the two queues of the Loop Out Port (R127). -/
inductive QueueName where
  | outbound | transit
  deriving DecidableEq, Repr

/-- The Loop Out Port with its queues (R124 to R131). `port` is none when IDLE. `cutting` holds while the IDLE port sends
the idle symbol in place of the rest of a frame that RESTART abandoned (R129). -/
structure LoopOut where
  outbound : List Frame
  overflow : BitVec 16
  transit : List Frame
  port : Option (Frame × QueueName)
  cutting : Bool
  lastServed : QueueName
  reportDest : Byte
  reportNumber : Byte
  deriving DecidableEq, Repr

/-! ### Board -/

/-- A cell of Board Memory (R148); its default is the value after hardware reset. -/
structure Cell where
  glyph : Byte := 0x20
  colour : BitVec 3 := 0
  blink : Bool := false
  deriving DecidableEq, Repr

/-- The write enables of the three planes (R152). -/
structure PlaneMask where
  glyph : Bool
  colour : Bool
  blink : Bool
  deriving DecidableEq, Repr

/-- The Layout Table and the Lane Row Map with their defaults (R155). -/
structure Layout where
  eventRow : Nat := 0
  eventCol : Nat := 0
  heatRow : Nat := 0
  heatCol : Nat := 5
  clockRow : Nat := 0
  clockCol : Nat := 41
  laneCol : Nat := 0
  placeCol : Nat := 3
  reactionCol : Nat := 34
  timeCol : Nat := 40
  normal : BitVec 3 := 7
  first : BitVec 3 := 2
  second : BitVec 3 := 3
  third : BitVec 3 := 4
  disqualified : BitVec 3 := 1
  review : BitVec 3 := 5
  laneRows : List (Option Nat) :=
    [some 1, some 2, some 3, some 4, some 5, some 6, some 7, some 8, some 9, some 10]
  deriving DecidableEq, Repr

/-- A board request that has passed its checks and claims the arbiter (R135, R153, R154, R151, R156, R166). -/
inductive BoardRequest where
  | writeCells (row col : Nat) (mask : PlaneMask) (cells : List Cell)
  | fill (firstRow lastRow firstCol lastCol : Nat) (mask : PlaneMask)
  | loadPattern (cell : Cell)
  | writeLayout (layout : Layout)
  | sendRow (row : Nat)
  deriving DecidableEq, Repr

/-- A console operation as the arbiter granted it: with the mask in force, the Pattern and the cells it read (R150). -/
inductive ConsoleOp where
  | writeCells (row col : Nat) (mask : PlaneMask) (cells : List Cell)
  | fill (firstRow lastRow firstCol lastCol : Nat) (mask : PlaneMask) (cell : Cell)
  | loadPattern (cell : Cell)
  | writeLayout (layout : Layout)
  | sendRow (row half : Nat) (cells : List Cell)
  deriving DecidableEq, Repr

/-- The operation Board Memory holds (R150). A row load whose `live` is false was overtaken by a RESTART and its
result is discarded (R167). -/
inductive BoardOperation where
  | rowLoad (row col half : Nat) (cells : List Cell) (live : Bool)
  | fieldWrite (row col : Nat) (cells : List Cell)
  | console (op : ConsoleOp)
  deriving DecidableEq, Repr

/-- Board Memory (R148 to R156): 16 rows, 16 change markers (none is CLEAN). -/
structure Board where
  rows : List (List Cell)
  markers : List (Option Nat)
  pattern : Cell
  maskPersistent : Bool
  loadedMask : PlaneMask
  layout : Layout
  operation : Option BoardOperation
  deriving DecidableEq, Repr

/-- The name of one field write of the Composer (R157). -/
inductive BoardField where
  | event | heat | clock
  | lane (lane : Nat) | place (lane : Nat) | reaction (lane : Nat) | time (lane : Nat)
  deriving DecidableEq, Repr

/-- The Board Composer (R157, R158). -/
structure Composer where
  queue : List BoardField
  clockRunning : Bool
  clockHeld : HeatTime
  clockTimer : Option DeckTime
  deriving DecidableEq, Repr

/-- A half of the Line Buffer (R161). -/
inductive LineHalf where
  | empty
  | loaded (row col : Nat) (cells : List Cell)
  | sending (row col : Nat) (cells : List Cell)
  deriving DecidableEq, Repr

/-- The Board Shifter (R161 to R163): `claim` while its row load waits for the arbiter. -/
structure Shifter where
  half0 : LineHalf
  half1 : LineHalf
  scanner : Nat
  claim : Bool
  lastFull : List DeckTime
  deriving DecidableEq, Repr

/-- The Management Unit (R134, R140, R143). `claim` is the head's board request while it waits for the arbiter. -/
structure Management where
  queue : List Frame
  claim : Option BoardRequest
  settings : MeetSettings
  locked : Bool
  deriving DecidableEq, Repr

/-! ### Pulse Unit -/

/-- A step of a pulse program (R171). -/
structure PulseStep where
  lines : BitVec 8
  code : BitVec 3
  deriving DecidableEq, Repr

/-- A pulse program; its default is the empty program of hardware reset (R171). -/
structure PulseProgram where
  repeats : Nat := 1
  steps : List PulseStep := []
  deriving DecidableEq, Repr

/-- The running state of a program (R173). -/
structure PulseRun where
  program : Nat
  repeatNo : Nat
  step : Nat
  completed : Nat
  timer : DeckTime
  deriving DecidableEq, Repr

/-- The Pulse Status record (R176). -/
structure PulseStatus where
  program : Option Nat := none
  outcome : Option PulseOutcome := none
  completed : Nat := 0
  deriving DecidableEq, Repr

/-- The Pulse Unit (R168 to R176) with the levels the deck puts on the eight lines (R41, R170). -/
structure PulseUnit where
  lines : List LineFunction
  held : List Bool
  sensed : List Bool
  startPrevious : Bool
  programs : List PulseProgram
  running : Option PulseRun
  status : PulseStatus
  skipped : BitVec 16
  deriving DecidableEq, Repr

end Sys2Proof.Machine
end

