-- ==== Sys2Proof/Machine/Flags.lean ====
section
/-! DEFINITION. Lane flags and what is decided from them: disqualification, eligibility, lamp codes and colour classes. -/

namespace Sys2Proof.Machine

/-- A lane is disqualified when it carries one or more of the three flags (R95). -/
def LaneFlags.disqualified (f : LaneFlags) : Bool := f.falseStart || f.earlyTakeover || f.refereeDq

/-- The flags of a lane record at arming and after a recall: EXHIBITION alone (R23, R32, R35). -/
def LaneFlags.onlyExhibition (f : LaneFlags) : LaneFlags := { exhibition := f.exhibition }

/-- CLEAR_ALL of SET_DQ (R103). -/
def LaneFlags.clearDq (f : LaneFlags) : LaneFlags :=
  { f with falseStart := false, earlyTakeover := false, refereeDq := false }

/-- REVIEW set when `b` holds (R94). -/
def LaneFlags.orReview (f : LaneFlags) (b : Bool) : LaneFlags := { f with review := f.review || b }

/-- LINK_GAP and REVIEW, as a sequence gap or a loop restore sets them (R115, R118). -/
def LaneFlags.markGap (f : LaneFlags) : LaneFlags := { f with linkGap := true, review := true }

/-- The lane flags as a set field of 16 bits (R181). -/
def LaneFlags.bits (f : LaneFlags) : Nat :=
  f.falseStart.toNat + 2 * f.earlyTakeover.toNat + 4 * f.refereeDq.toNat + 8 * f.review.toNat
    + 16 * f.suspectReaction.toNat + 32 * f.backupUsed.toNat + 64 * f.adjudicated.toNat + 128 * f.linkGap.toNat
    + 256 * f.splitsLost.toNat + 512 * f.exhibition.toNat

/-- The arrival flags as a set field of 8 bits (R181). -/
def ArrivalFlags.bits (f : ArrivalFlags) : Byte :=
  byte (f.review.toNat + 2 * f.latePadSeen.toNat + 4 * f.link.toNat)

/-- A lane is eligible when it is PROVISIONAL or FINAL, not disqualified and no exhibition lane (R95). -/
def LaneRecord.eligible (r : LaneRecord) : Bool :=
  (r.status == .provisional || r.status == .final) && !r.flags.disqualified && !r.flags.exhibition

/-- The official hundredths of the finish time (R10, R96). -/
def LaneRecord.hundredths (r : LaneRecord) : Int := (r.finish.getD 0).tdiv 1000

/-- The place of a lane among the lanes `rs`: 1 plus the eligible lanes strictly ahead, for an eligible lane (R96). -/
def placeOf (rs : List LaneRecord) (r : LaneRecord) : Option Nat :=
  if r.eligible then some (1 + (rs.filter fun q => q.eligible && decide (q.hundredths < r.hundredths)).length)
  else none

/-- The lamp code of a lane (R99). -/
def LaneRecord.lampOf (r : LaneRecord) : LampCode :=
  if r.status ≠ .final then .off
  else if r.flags.disqualified then .disqualified
  else match r.place with
    | some 1 => .place1
    | some 2 => .place2
    | some 3 => .place3
    | _ => .finished

/-- The colour class of a lane (R105). -/
def LaneRecord.colourClass (r : LaneRecord) : ColourClass :=
  if r.flags.disqualified then .disqualified
  else if r.flags.review then .review
  else match r.place with
    | some 1 => .first
    | some 2 => .second
    | some 3 => .third
    | _ => .normal

/-- Whether a change of a record reaches the Placer: its status, its finish time or one of the three
disqualifying flags (R93). -/
def touchesPlacer (old new : LaneRecord) : Bool :=
  old.status != new.status || old.finish != new.finish || old.flags.falseStart != new.flags.falseStart
    || old.flags.earlyTakeover != new.flags.earlyTakeover || old.flags.refereeDq != new.flags.refereeDq

/-- The exchange record of exchange `k` (R79). -/
def LaneRecord.exchange (r : LaneRecord) (k : Nat) : Option ExchangeRecord :=
  match k with
  | 1 => r.exchange1
  | 2 => r.exchange2
  | 3 => r.exchange3
  | _ => none

/-- Exchange record `k` written (R83). -/
def LaneRecord.setExchange (r : LaneRecord) (k : Nat) (e : ExchangeRecord) : LaneRecord :=
  match k with
  | 1 => { r with exchange1 := some e }
  | 2 => { r with exchange2 := some e }
  | 3 => { r with exchange3 := some e }
  | _ => r

/-- A lane record reset as at arming, a DNS lane staying DNS (R32, R91). -/
def LaneRecord.recalled (r : LaneRecord) : LaneRecord :=
  { lane := r.lane, entryId := r.entryId, flags := r.flags.onlyExhibition
    status := if r.status = .dns then .dns else .waiting }

end Sys2Proof.Machine
end

