-- ==== Sys2Proof/Machine/Display.lean ====
section
/-! DEFINITION. Times, the clock, reactions and lane values as text on the board (R13 to R16, R105, R159). -/

namespace Sys2Proof.Machine

/-- A decimal digit's glyph (R13). -/
def digit (n : Nat) : Byte := byte (0x30 + n % 10)

/-- Two digits. -/
def digits2 (n : Nat) : List Byte := [digit (n / 10), digit n]

/-- A decimal number without leading zeros, of at most `fuel` digits. -/
def decimal : Nat → Nat → List Byte
  | 0, _ => []
  | fuel + 1, n => if n < 10 then [digit n] else decimal fuel (n / 10) ++ [digit n]

def glyphPoint : Byte := 0x2E
def glyphColon : Byte := 0x3A
def glyphMinus : Byte := 0x2D
def glyphSpace : Byte := 0x20

/-- Text right-aligned in a field, with spaces to its left (R13). Text wider than its field, which no reachable state
forms, keeps its rightmost cells (log entry 17). -/
def rightAlign (width : Nat) (text : List Byte) : List Byte :=
  List.replicate (width - text.length) glyphSpace ++ text.drop (text.length - width)

/-- The text of a finish or split time from its hundredths (R14). -/
def timeText (h : Nat) : List Byte :=
  let minutes := h / 6000
  let seconds := h % 6000 / 100
  if minutes = 0 then decimal 2 seconds ++ [glyphPoint] ++ digits2 (h % 100)
  else decimal 4 minutes ++ [glyphColon] ++ digits2 seconds ++ [glyphPoint] ++ digits2 (h % 100)

/-- The text of a clock value in ticks (R15). -/
def clockText (t : HeatTime) : List Byte :=
  let tenths := (t / 10000).toNat
  decimal 4 (tenths / 600) ++ [glyphColon] ++ digits2 (tenths % 600 / 10) ++ [glyphPoint, digit (tenths % 10)]

/-- The text of a reaction in ticks (R16): the largest magnitude shown is 9.99. -/
def reactionText (t : HeatTime) : List Byte :=
  let magnitude := min 999 (t.tdiv 1000).natAbs
  let form := [digit (magnitude / 100), glyphPoint] ++ digits2 (magnitude % 100)
  if t < 0 then glyphMinus :: form else form

/-- "DQ" (R159). -/
def textDq : List Byte := [0x44, 0x51]
/-- "NT" (R159). -/
def textNt : List Byte := [0x4E, 0x54]
/-- "DNS" (R159). -/
def textDns : List Byte := [0x44, 0x4E, 0x53]

/-- The text of the PLACE field (R105). -/
def LaneRecord.placeText (r : LaneRecord) : List Byte :=
  if r.flags.disqualified then textDq else match r.place with
    | some p => decimal 2 p
    | none => []

/-- The text of the TIME field (R105). -/
def LaneRecord.timeFieldText (r : LaneRecord) : List Byte :=
  if r.status = .dns then textDns else if r.status = .noFinish then textNt else match r.displayed with
    | some t => timeText (t.tdiv 1000).toNat
    | none => []

/-- The text of the REACTION field (R105). -/
def LaneRecord.reactionFieldText (r : LaneRecord) : List Byte :=
  match r.reaction with
  | some t => reactionText t
  | none => []

/-- The board values of a lane: the three texts, the colour class, and the blink of a PROVISIONAL time (R105, R159). -/
structure BoardValues where
  place : List Byte
  time : List Byte
  reaction : List Byte
  colour : ColourClass
  blink : Bool
  deriving DecidableEq, Repr

/-- The board values decided from a record (R105, R159). -/
def LaneRecord.boardValues (r : LaneRecord) : BoardValues :=
  { place := r.placeText, time := r.timeFieldText, reaction := r.reactionFieldText, colour := r.colourClass
    blink := r.status == .provisional }

/-- The colour of a class (R155). -/
def Layout.colourOf (l : Layout) : ColourClass → BitVec 3
  | .normal => l.normal
  | .first => l.first
  | .second => l.second
  | .third => l.third
  | .disqualified => l.disqualified
  | .review => l.review

end Sys2Proof.Machine
end

