-- ==== Sys2Proof/Machine/Layouts.lean ====
section
/-! DEFINITION. Codes, frames and report payloads as bytes (R109, R177 to R182) and the row frame (R165, R184). -/

namespace Sys2Proof.Machine

/-! ### Values as bytes, most significant byte first (R177) -/

def be16 (n : Nat) : List Byte := [byte (n / 256), byte n]

def be32 (n : Nat) : List Byte := [byte (n / 16777216), byte (n / 65536), byte (n / 256), byte n]

/-- A Deck Time or a duration: 32 bits, unsigned. -/
def deckBytes (d : DeckTime) : List Byte := be32 d.toNat

/-- A heat time: 32 bits, two's complement. -/
def heatBytes (t : HeatTime) : List Byte := be32 (BitVec.ofInt 32 t).toNat

/-- An optional value wider than a byte: a mark, then the value or zeros. -/
def optHeatBytes : Option HeatTime → List Byte
  | some t => 1 :: heatBytes t
  | none => [0, 0, 0, 0, 0]

def optDeckBytes : Option DeckTime → List Byte
  | some d => 1 :: deckBytes d
  | none => [0, 0, 0, 0, 0]

/-- An optional one-byte code is 0xFF when absent. -/
def optCode {α : Type} (code : α → Byte) : Option α → Byte
  | some a => code a
  | none => 0xFF

/-- A place is 0 when the lane has none. -/
def placeByte (p : Option Nat) : Byte := byte (p.getD 0)

/-! ### Code tables (R181) -/

def HeatState.code : HeatState → Byte
  | .idle => 0 | .armed => 1 | .running => 2 | .results => 3

def HeatCause.code : HeatCause → Byte
  | .arm => 0 | .start => 1 | .closeAllFinal => 2 | .closeLimit => 3 | .closeRequest => 4 | .abort => 5 | .clear => 6
  | .disarm => 7 | .restart => 8

def LaneStatus.code : LaneStatus → Byte
  | .waiting => 0 | .swimming => 1 | .provisional => 2 | .final => 3 | .noFinish => 4 | .dns => 5

def Source.code : Source → Byte
  | .pad => 0 | .backup => 1 | .missed => 2 | .referee => 3

def Wall.code : Wall → Byte
  | .start => 0 | .turn => 1

def Stroke.code : Stroke → Byte
  | .free => 0 | .back => 1 | .breast => 2 | .fly => 3 | .medley => 4

def SplitMode.code : SplitMode → Byte
  | .allWalls => 0 | .startWall => 1 | .finishOnly => 2

def FinishMark.code : FinishMark → Byte
  | .provisional => 0 | .final => 1

def ExchangeVerdict.code : ExchangeVerdict → Byte
  | .ok => 0 | .early => 1 | .noTakeover => 2 | .notJudged => 3

def PulseOutcome.code : PulseOutcome → Byte
  | .completed => 0 | .preempted => 1 | .cutByRestart => 2

/-- The rank of a verdict (R110). -/
def Verdict.code : Verdict → Byte
  | .broken => 0 | .corrupt => 1 | .inadmissible => 2 | .orphan => 3 | .returned => 4 | .dropped => 5 | .forwarded => 6
  | .accepted => 7

/-- The rank of a qualifier (R111). -/
def Qualifier.code : Qualifier → Byte
  | .kindNotTaken => 1 | .notConsole => 2 | .unknownNode => 3 | .badEdgeCount => 4 | .badSensor => 5

def MapSelection.code : MapSelection → Byte
  | .fixed => 0 | .working => 1

def LineFunction.code : LineFunction → Byte
  | .input => 0 | .pulse => 1 | .held => 2

def LinkState.code : LinkState → Byte
  | .up => 0 | .outage => 1

def PulseBase.code : PulseBase → Byte
  | .ms10 => 0 | .ms2 => 1

def LampCode.code : LampCode → Byte
  | .off => 0 | .place1 => 1 | .place2 => 2 | .place3 => 3 | .finished => 4 | .disqualified => 5

def ReplyResult.code : ReplyResult → Byte
  | .done => 0x00 | .doneClamped => 0x01 | .refusedState => 0x10 | .refusedLocked => 0x11 | .refusedBusy => 0x12
  | .badRequest => 0x20 | .badValue => 0x21 | .planInvalid => 0x30 | .mapInvalid => 0x31 | .mapIncomplete => 0x32

/-- The frame kinds the hub reads or sends (R178). -/
def kindSensor : Byte := 0x01
def kindManage : Byte := 0x10
def kindReply : Byte := 0x11
def kindReport : Byte := 0x12
def kindLamp : Byte := 0x13

/-! ### The CRC and the loop frame (R109, R178) -/

/-- One bit into the remainder of x^16 + x^12 + x^5 + 1. -/
def crcBit (crc : BitVec 16) (bit : Bool) : BitVec 16 :=
  if crc.msb != bit then (crc <<< 1) ^^^ 0x1021#16 else crc <<< 1

/-- One byte into the remainder, most significant bit first. -/
def crcByte (crc : BitVec 16) (b : Byte) : BitVec 16 :=
  [7, 6, 5, 4, 3, 2, 1, 0].foldl (fun c i => crcBit c (b.getLsbD i)) crc

/-- The CRC over some bytes, from all ones, without reflection or final inversion (R109). -/
def crc16 (bytes : List Byte) : BitVec 16 := bytes.foldl crcByte 0xFFFF#16

/-- Bytes 0 to 4 of a frame (R178). -/
def frameHead (dst src kind flags : Byte) (payload : List Byte) : List Byte :=
  [dst, src, kind, flags, byte payload.length]

/-- All bytes of a frame (R178). -/
def Frame.bytes (f : Frame) : List Byte :=
  frameHead f.dst f.src f.kind f.flags f.payload ++ f.payload ++ be16 f.crc.toNat

/-- A frame whose CRC is formed over its own bytes (R109, R124). -/
def sealFrame (dst src kind flags : Byte) (payload : List Byte) : Frame :=
  { dst, src, kind, flags, payload, crc := crc16 (frameHead dst src kind flags payload ++ payload) }

/-- A frame of the hub: source 0x00 and flags 0 (R124). -/
def hubFrame (dst kind : Byte) (payload : List Byte) : Frame := sealFrame dst 0 kind 0 payload

/-- A transit frame as it is passed on: the PASSED mark set, the CRC formed anew, every other byte kept (R112). -/
def passOn (f : Frame) : Frame := sealFrame f.dst f.src f.kind (f.flags ||| 0x80) f.payload

/-- The whole frame that sound bytes spell (R178). -/
def frameOf (bytes : List Byte) : Frame :=
  { dst := bytes.getD 0 0, src := bytes.getD 1 0, kind := bytes.getD 2 0, flags := bytes.getD 3 0
    payload := (bytes.drop 5).take (bytes.length - 7)
    crc := BitVec.ofNat 16 ((bytes.getD (bytes.length - 2) 0).toNat * 256 + (bytes.getD (bytes.length - 1) 0).toNat) }

/-! ### Reports (R182) -/

/-- The reports of the hub with what each carries (R132). -/
inductive Report where
  | heatState (state : HeatState) (cause : HeatCause)
  | startJudged (lane : Nat) (reaction : Option HeatTime) (flags : LaneFlags)
  | arrival (a : ArrivalRecord)
  | finish (lane : Nat) (mark : FinishMark) (time : HeatTime) (source : Option Source) (place : Option Nat)
      (flags : LaneFlags)
  | exchange (lane leg : Nat) (verdict : ExchangeVerdict) (marginMs : Option Int)
  | places (entries : List (Nat × Option Nat))
  | loopRestored (duration : DeckTime)
  | pulseDone (program : Nat) (outcome : PulseOutcome)
  deriving DecidableEq, Repr

/-- The code of a report's kind (R181). -/
def Report.kind : Report → Byte
  | .heatState .. => 0x01 | .startJudged .. => 0x02 | .arrival .. => 0x03 | .finish .. => 0x04
  | .exchange .. => 0x05 | .places .. => 0x06 | .loopRestored .. => 0x07 | .pulseDone .. => 0x08

/-- The exchange margin in a report: an optional signed 16-bit value (R84, R177). -/
def optMarginBytes : Option Int → List Byte
  | some m => 1 :: be16 (BitVec.ofInt 16 m).toNat
  | none => [0, 0, 0]

/-- The payload of a report after its kind and number (R182). -/
def Report.payload : Report → List Byte
  | .heatState st c => [st.code, c.code]
  | .startJudged l r f => byte l :: optHeatBytes r ++ be16 f.bits
  | .arrival a =>
    [byte a.lane, byte a.lap, a.wall.code] ++ optHeatBytes a.time ++ [a.source.code, byte a.buttons, a.flags.bits]
  | .finish l m t s p f => [byte l, m.code] ++ heatBytes t ++ [optCode Source.code s, placeByte p] ++ be16 f.bits
  | .exchange l leg v m => [byte l, byte leg, v.code] ++ optMarginBytes m
  | .places es => byte es.length :: es.flatMap fun e => [byte e.1, placeByte e.2]
  | .loopRestored d => deckBytes d
  | .pulseDone p o => [byte p, o.code]

/-- A margin cut to milliseconds toward zero and held within signed 16 bits (R10, R84). -/
def marginMs (m : Int) : Int := max (-32768) (min 32767 (m.tdiv 100))

/-! ### The row frame of the Board Link (R165, R184) -/

/-- The attribute byte of a cell: colour in bits 0 to 2, blink in bit 3. -/
def Cell.attr (c : Cell) : Byte := byte (c.colour.toNat + 8 * c.blink.toNat)

/-- The row frame of a row's cells from a start column, with its exclusive-or check byte. -/
def rowFrame (row col : Nat) (cells : List Cell) : List Byte :=
  let body := [byte row, byte col, byte (Config.boardColumns - col)] ++ cells.flatMap fun c => [c.glyph, c.attr]
  body ++ [body.foldl (· ^^^ ·) 0]

end Sys2Proof.Machine
end

