-- ==== Sys2Proof/Machine/NodeMap.lean ====
section
/-! DEFINITION. The tables of the Node Map: building, validating and resolving (R119 to R123). -/

namespace Sys2Proof.Machine

/-- The addresses no entry of the Active Map holds (R119, R122). -/
def reservedAddress (a : Byte) : Bool := a == 0x00 || a == 0x02 || a == 0x03 || a == 0xFF

/-- The START and TURN addresses of lane `i` in a fixed numbering plan (R120). -/
def fixedAddress (plan i : Nat) : Wall → Byte
  | .start =>
    match plan with
    | 0 => byte (0x10 + i)
    | 1 => byte (0x20 + 2 * i)
    | 2 => byte (0x40 + i)
    | _ => byte (0x80 + i)
  | .turn =>
    match plan with
    | 0 => byte (0x30 + i)
    | 1 => byte (0x21 + 2 * i)
    | 2 => byte (0x50 + i)
    | _ => byte (0xC0 + i)

/-- The entry of a fixed plan for lane `i` at a wall: enabled, link delay 0, no expected sequence (R120). -/
def fixedEntry (plan i : Nat) (w : Wall) : ActiveEntry :=
  { address := fixedAddress plan i w, lane := i, wall := w, delay := 0, enabled := true, expected := none }

/-- The build from a fixed numbering plan: slots 2i and 2i + 1 for each lane below the lane count, the rest of the
32 slots empty (R120). -/
def fixedMap (plan laneCount : Nat) : List (Option ActiveEntry) :=
  (Config.lanes.flatMap fun i =>
    if i < laneCount then [some (fixedEntry plan i .start), some (fixedEntry plan i .turn)] else [none, none])
  ++ List.replicate 12 none

/-- Slot i of a build from the Working Map (R122). -/
def workingSlot (e : WorkingEntry) : Option ActiveEntry :=
  if e.enabled || !reservedAddress e.address then
    some { address := e.address, lane := e.lane, wall := e.wall, delay := e.delay, enabled := e.enabled,
           expected := none }
  else none

/-- Whether some two entries at different positions stand in a relation. -/
def anyPair {α : Type} (rel : α → α → Bool) : List α → Bool
  | [] => false
  | a :: as => as.any (rel a) || anyPair rel as

/-- The lowest reason code among the faults of the enabled Working Map entries (R122). -/
def mapFault (working : List WorkingEntry) (laneCount : Nat) : Option Nat :=
  let on := working.filter (·.enabled)
  if anyPair (fun a b => a.address == b.address) on then some 1
  else if anyPair (fun a b => a.lane == b.lane && a.wall == b.wall) on then some 2
  else if on.any (fun e => decide (laneCount ≤ e.lane)) then some 3
  else if on.any (fun e => reservedAddress e.address) then some 4
  else none

/-- The enabled entry that holds an address (R119). -/
def resolveAddress (active : List (Option ActiveEntry)) (a : Byte) : Option ActiveEntry :=
  active.findSome? fun slot => slot.bind fun e => if e.enabled && e.address == a then some e else none

/-- The enabled entry of a lane at a wall (R22, R133). -/
def resolvePlace (active : List (Option ActiveEntry)) (lane : Nat) (w : Wall) : Option ActiveEntry :=
  active.findSome? fun slot =>
    slot.bind fun e => if e.enabled && e.lane == lane && e.wall == w then some e else none

/-- Every expected sequence cleared to absent (R119). -/
def clearExpected (active : List (Option ActiveEntry)) : List (Option ActiveEntry) :=
  active.map fun slot => slot.map fun e => { e with expected := none }

/-- The expected sequence of the enabled entry with an address becomes `x` (R115). -/
def recordExpected (active : List (Option ActiveEntry)) (a x : Byte) : List (Option ActiveEntry) :=
  active.map fun slot => slot.map fun e => if e.enabled && e.address == a then { e with expected := some x } else e

end Sys2Proof.Machine
end

