-- ==== Sys2Proof/Machine/State.lean ====
section
/-! DEFINITION. The state of the hub, its reset value, and the reasons a step can stop. -/

namespace Sys2Proof.Machine

/-- The faults of the machine. There are none: every rule of the spec goes on (R109 to R112, R124, R134, R136 answer,
count or discard), so no meaning raises one and no run is stopped; safe. -/
inductive Fault where
  deriving DecidableEq, Repr

/-- The refusals of the machine. -/
inductive Refusal where
  /-- Raised by `exec` alone, for a command that has no meaning yet; safe. No command is left without one. -/
  | notModelled (mnemonic : String)
  deriving DecidableEq, Repr

/-- The whole state of the hub, block by block, with the queue of the commands that wait (first in, first out). -/
structure State where
  /-- The commands that wait, first in, first out: the model's own. -/
  pending : List Instr
  /-- How many free values have been taken: the model's own (log entry 8). -/
  freeDraws : Nat
  /-- The RESET pin is held (R1). -/
  resetHeld : Bool
  /-- Deck Time (R1). -/
  deckTime : DeckTime
  intake : Intake
  nodes : NodeMap
  heat : Heat
  starts : StartJudge
  walls : WallJudge
  exchanges : List ExchangeCollector
  results : List LaneRecord
  mgmt : Management
  out : LoopOut
  board : Board
  composer : Composer
  shifter : Shifter
  pulse : PulseUnit
  deriving DecidableEq, Repr

/-- The hub as hardware reset leaves it, the RESET pin still held (R147): every block at the value its chapter gives
'after hardware reset'. HARDWARE_RESET_ENDS then lets Deck Time run (log entry 1). -/
def State.reset : State where
  pending := []
  freeDraws := 0
  resetHeld := true
  deckTime := 0
  intake :=
    { checker := .between, analysis := {}, counts := {}, staleCount := 0, lostCount := 0, outageCount := 0,
      link := .up, silenceTimer := none, outageStart := 0 }
  nodes :=
    { active := fixedMap 0 10
      working := List.replicate 32 { address := 0, lane := 0, wall := .start, delay := 0, enabled := false }
      selection := .fixed }
  heat := { plan := none, state := .idle, epoch := none, startTimer := none, limitTimer := none }
  starts := { trackers := List.replicate 10 {}, strayCount := 0 }
  walls := { collectors := [], pool := [] }
  exchanges := []
  results := []
  mgmt :=
    { queue := [], claim := none
      settings :=
        { course := .m50, laneCount := 10, numberingBase := 0, pulseBase := .ms10, startLine7 := false, fixedPlan := 0 }
      locked := false }
  out :=
    { outbound := [], overflow := 0, transit := [], port := none, cutting := false, lastServed := .transit,
      reportDest := 0x02, reportNumber := 0 }
  board :=
    { rows := List.replicate 16 (List.replicate 48 {})
      markers := List.replicate 16 (some 0)
      pattern := {}
      maskPersistent := false
      loadedMask := { glyph := true, colour := true, blink := true }
      layout := {}
      operation := none }
  composer := { queue := [], clockRunning := false, clockHeld := 0, clockTimer := none }
  shifter := { half0 := .empty, half1 := .empty, scanner := 15, claim := false, lastFull := List.replicate 16 0 }
  pulse :=
    { lines := List.replicate 8 .input
      held := List.replicate 8 false
      sensed := List.replicate 8 false
      startPrevious := false
      programs := List.replicate 8 {}
      running := none
      status := {}
      skipped := 0 }

end Sys2Proof.Machine
end

