-- ==== Sys2Proof/Machine/Ops.lean ====
section
/-! DEFINITION. The named operations every meaning is built from: running a command, timers, heat time, plan ticks,
offering frames, the lane records and the Composer's pending list. -/

namespace Sys2Proof.Machine

/-! ### Running a command -/

/-- A command's effect on the state; while the RESET pin is held it has none (log entry 2). -/
def State.run (s : State) (f : State → State) : Host.Outcome State Fault Refusal :=
  .next (if s.resetHeld then s else f s)

/-! ### Time (R2, R7, R9) -/

/-- A timer is due when its expiry value less Deck Time is 0 or lies from 2^31 up, modulo 2^32 (R2). -/
def timerDue (now expiry : DeckTime) : Bool :=
  let d := (expiry - now).toNat
  d == 0 || decide (2 ^ 31 ≤ d)

/-- A timer that runs and is due. A stopped timer does not expire. -/
def State.expired (s : State) : Option DeckTime → Bool
  | some e => timerDue s.deckTime e
  | none => false

/-- The heat time of a Deck Time against an epoch (R7). -/
def heatTimeFrom (epoch x : DeckTime) : HeatTime := (x - epoch).toInt

/-- The heat time of a Deck Time (R7). In a state without an epoch, which forms no heat time, it reads 0 for the
epoch (log entry 16). -/
def State.heatTime (s : State) (x : DeckTime) : HeatTime := heatTimeFrom (s.heat.epoch.getD 0) x

/-- A number of ticks as a Deck Time difference. -/
def ticks (n : Nat) : DeckTime := BitVec.ofNat 32 n

/-- A plan with every field at 0 and no lane, read only in states where a heat runs without a plan, which no run
reaches (log entry 16). -/
def Plan.blank : Plan :=
  { event := 0, heat := 0, distance := 0, stroke := .free, relay := false, split := .allWalls, minLap := 0,
    collectionWindow := 0, trustWindow := 0, exchangeWindow := 0, tolerance := 0, startWindow := 0, reactionFloor := 0,
    heatLimit := 0, entries := [] }

/-- The loaded plan. -/
def State.plan (s : State) : Plan := s.heat.plan.getD .blank

/-- Plan fields in ticks (R9): tens of milliseconds times 1,000, milliseconds times 100, minutes times 6,000,000. -/
def Plan.minLapTicks (p : Plan) : Nat := p.minLap * 1000
def Plan.collectionTicks (p : Plan) : Nat := p.collectionWindow * 1000
def Plan.trustTicks (p : Plan) : Nat := p.trustWindow * 100
def Plan.exchangeTicks (p : Plan) : Nat := p.exchangeWindow * 1000
def Plan.toleranceTicks (p : Plan) : Nat := p.tolerance * 100
def Plan.startWindowTicks (p : Plan) : Nat := p.startWindow * 1000
def Plan.floorTicks (p : Plan) : Nat := p.reactionFloor * 100
def Plan.limitTicks (p : Plan) : Nat := p.heatLimit * 6000000

/-- The course in metres (R140). -/
def Course.metres : Course → Nat
  | .m25 => 25
  | .m50 => 50

/-- The lap count L of the heat: distance divided by course (R17, R50). -/
def State.laps (s : State) : Nat := s.plan.distance / s.mgmt.settings.course.metres

/-- The wall at which lap n ends: odd laps at TURN, even laps at START (R50). -/
def lapWall (n : Nat) : Wall := if n % 2 = 1 then .turn else .start

/-- The number k of the exchange that falls at the end of lap n, in a relay (R50). -/
def exchangeAt (relay : Bool) (laps n : Nat) : Option Nat :=
  if relay && decide (0 < laps / 4) && decide (n % (laps / 4) = 0) then
    let k := n / (laps / 4)
    if 1 ≤ k ∧ k ≤ 3 then some k else none
  else none

/-- The sensor whose release marks the start (R38). -/
def Plan.startSensor (p : Plan) : Sensor :=
  match p.stroke with
  | .back => .pad
  | .medley => if p.relay then .pad else .platform
  | _ => .platform

/-- The plan names the lane: it is a lane in use (R17). -/
def State.laneInUse (s : State) (lane : Nat) : Bool :=
  match s.heat.plan with
  | some p => p.entries.any (·.lane == lane)
  | none => false

/-! ### The Loop Out Port (R124 to R131) -/

/-- A choice of the arbiter, made while the port is IDLE: the queue that is not the queue last served when both hold
frames, else the one that does (R127). While the idle symbol of an abandoned frame is on the line the choice waits for
its end (R129; log entry 14). -/
def LoopOut.choose (o : LoopOut) : LoopOut :=
  match o.port, o.cutting with
  | some _, _ | none, true => o
  | none, false =>
    match o.outbound, o.transit with
    | [], [] => o
    | f :: fs, [] => { o with outbound := fs, port := some (f, .outbound), lastServed := .outbound }
    | [], g :: gs => { o with transit := gs, port := some (g, .transit), lastServed := .transit }
    | f :: fs, g :: gs =>
      match o.lastServed with
      | .transit => { o with outbound := fs, port := some (f, .outbound), lastServed := .outbound }
      | .outbound => { o with transit := gs, port := some (g, .transit), lastServed := .transit }

/-- A frame offered to the Outbound Queue joins it, or is discarded and counted when the queue is full (R124). -/
def LoopOut.offer (o : LoopOut) (f : Frame) : LoopOut :=
  if o.outbound.length < Config.outboundCapacity then LoopOut.choose { o with outbound := o.outbound ++ [f] }
  else { o with overflow := satAdd 16 o.overflow 1 }

/-- The symbols of a frame on Loop Out: a start delimiter, its bytes as data symbols in order, an end delimiter (R126). -/
def Frame.symbols (f : Frame) : List LoopSymbol := [.startDelimiter] ++ f.bytes.map .data ++ [.endDelimiter]

/-- What the port sends up to its next completion (R126): the frame in transmission and the idle symbol that at least
parts it from the next, or an idle symbol, again and again while the port stays IDLE. -/
def LoopOut.line (o : LoopOut) : List LoopSymbol :=
  match o.port with
  | some (f, _) => f.symbols ++ [.idle]
  | none => [.idle]

/-- What the port has sent of the frame in transmission when RESTART abandons it after `sent` of its symbols, with the
idle symbol in place of the rest (R129). How many are out by then is the line's timing (log entry 23). -/
def LoopOut.abandoned (o : LoopOut) (sent : Nat) : List LoopSymbol :=
  match o.port with
  | some (f, _) => f.symbols.take sent ++ [.idle]
  | none => [.idle]

/-- The REPORT frame of a report under a destination and a number (R131, R180). -/
def reportFrame (dst number : Byte) (r : Report) : Frame := hubFrame dst kindReport (r.kind :: number :: r.payload)

/-- A report offered: one that joins takes the destination and the number, and the number advances (R131). -/
def LoopOut.report (o : LoopOut) (r : Report) : LoopOut :=
  if o.outbound.length < Config.outboundCapacity then
    { o.offer (reportFrame o.reportDest o.reportNumber r) with reportNumber := o.reportNumber + 1 }
  else o.offer (reportFrame o.reportDest o.reportNumber r)

/-- A transit frame joins the tail of the Transit Queue (R112, R125). -/
def LoopOut.forward (o : LoopOut) (f : Frame) : LoopOut :=
  LoopOut.choose { o with transit := o.transit ++ [f] }

def State.offer (s : State) (f : Frame) : State := { s with out := s.out.offer f }

def State.report (s : State) (r : Report) : State := { s with out := s.out.report r }

/-- A report that a change may or may not have. -/
def State.reportOpt (s : State) : Option Report → State
  | some r => s.report r
  | none => s

/-- The LAMP frame of a code (R180, R133). -/
def lampFrame (dst : Byte) (c : LampCode) : Frame := hubFrame dst kindLamp [c.code]

/-- A LAMP frame offered to the START node of a lane, when the Active Map has an enabled one (R100, R133). -/
def State.offerLamp (s : State) (lane : Nat) (c : LampCode) : State :=
  match resolvePlace s.nodes.active lane .start with
  | some e => s.offer (lampFrame e.address c)
  | none => s

/-- A LAMP frame with code OFF for each lane of the meet, in lane order (R23, R32). -/
def State.lampsOff (s : State) : State :=
  (Config.lanes.filter (· < s.mgmt.settings.laneCount)).foldl (fun t l => t.offerLamp l .off) s

/-- A request as the head of the Management Queue carries it (R180). -/
structure Request where
  src : Byte
  code : Byte
  tag : Byte
  fields : List Byte
  deriving DecidableEq, Repr

/-- The REPLY frame of a request (R130, R136, R180). -/
def replyFrame (q : Request) (r : ReplyResult) (detail : Nat) (fields : List Byte) : Frame :=
  hubFrame q.src kindReply ([q.code, q.tag, r.code, byte detail] ++ fields)

/-- The REPLY of a request offered (R130). -/
def State.reply (s : State) (q : Request) (r : ReplyResult) (detail : Nat := 0) (fields : List Byte := []) : State :=
  s.offer (replyFrame q r detail fields)

/-- The heat state changes, with its HEAT_STATE report (R21). -/
def State.enterHeat (s : State) (st : HeatState) (c : HeatCause) : State :=
  State.report { s with heat := { s.heat with state := st } } (.heatState st c)

/-! ### Lane records (R91) -/

/-- The record of a lane, when it has one. -/
def State.record? (s : State) (lane : Nat) : Option LaneRecord := s.results.find? (·.lane == lane)

/-- A lane's record changed, the other records kept. -/
def writeRecord (rs : List LaneRecord) (lane : Nat) (f : LaneRecord → LaneRecord) : List LaneRecord :=
  rs.map fun r => if r.lane = lane then f r else r

/-! ### The Composer's pending list (R157, R160) -/

/-- The lane of a lane field. -/
def BoardField.lane? : BoardField → Option Nat
  | .event | .heat | .clock => none
  | .lane l | .place l | .reaction l | .time l => some l

/-- The row that shows a lane, unless the Lane Row Map hides it (R155). -/
def Layout.rowOf (l : Layout) (lane : Nat) : Option Nat := (l.laneRows[lane]?).join

/-- A field is hidden when it belongs to a lane without a row (R157). -/
def Layout.hides (l : Layout) (f : BoardField) : Bool :=
  match f.lane? with
  | some lane => (l.rowOf lane).isNone
  | none => false

/-- A field made pending: added at the tail, unless it is hidden or already on the list (R157). -/
def State.makePending (s : State) (f : BoardField) : State :=
  if s.board.layout.hides f || s.composer.queue.contains f then s
  else { s with composer := { s.composer with queue := s.composer.queue ++ [f] } }

def State.makeAllPending (s : State) (fs : List BoardField) : State := fs.foldl State.makePending s

/-- The four fields of a lane in the order of R160. -/
def laneFields (lane : Nat) : List BoardField := [.lane lane, .place lane, .reaction lane, .time lane]

/-- All four fields of every lane from 0 to 9 that has a row (R160). -/
def State.makeLaneRowsPending (s : State) : State := s.makeAllPending (Config.lanes.flatMap laneFields)

/-- The clock stops at a held value, its display timer is stopped, and CLOCK is made pending (R158). -/
def State.stopClock (s : State) (held : HeatTime) : State :=
  State.makePending
    { s with composer := { s.composer with clockRunning := false, clockHeld := held, clockTimer := none } } .clock

/-- Every tracker UNKNOWN with no release time, in a mode (R37). -/
def freshTrackers (taking : Bool) : List Tracker := List.replicate 10 { taking := taking }

end Sys2Proof.Machine
end

