-- ==== Sys2Proof/Machine/Pulse.lean ====
section
/-! DEFINITION. The Pulse Unit: line functions, pulse programs and their ends (R168 to R176). -/

namespace Sys2Proof.Machine

/-- The number of the start line (R140). -/
def MeetSettings.startLine (m : MeetSettings) : Nat := if m.startLine7 then 7 else 0

/-- The resolved function of a line: the start line is INPUT, any other its configured function (R168). -/
def State.lineFunction (s : State) (line : Nat) : LineFunction :=
  if line = s.mgmt.settings.startLine then .input else s.pulse.lines.getD line .input

/-- A program of the Signal Program Table (R171). -/
def PulseUnit.program (p : PulseUnit) (n : Nat) : PulseProgram := p.programs.getD n {}

/-- The step a running program is in; steps count from 1 (R173). -/
def PulseUnit.currentStep (p : PulseUnit) : Option PulseStep :=
  p.running.bind fun r => (p.program r.program).steps[r.step - 1]?

/-- The output value of a line; none when it is not driven (R168). -/
def State.lineOutput (s : State) (line : Nat) : Option Bool :=
  match s.lineFunction line with
  | .input => none
  | .held => some (s.pulse.held.getD line false)
  | .pulse => some (match s.pulse.currentStep with
    | some st => st.lines.getLsbD line
    | none => false)

/-- The level of a line: sensed on an INPUT line, the output value otherwise (R170). -/
def State.lineLevel (s : State) (line : Nat) : Bool := (s.lineOutput line).getD (s.pulse.sensed.getD line false)

/-- The duration of a step in ticks: 2^x times the pulse base (R171). -/
def stepTicks (b : PulseBase) (code : BitVec 3) : Nat :=
  2 ^ code.toNat * match b with
    | .ms10 => 1000
    | .ms2 => 200

/-- The expiry of the timer of a step that begins now (R171, R173). -/
def State.stepExpiry (s : State) (st : PulseStep) : DeckTime :=
  s.deckTime + ticks (stepTicks s.mgmt.settings.pulseBase st.code)

/-- A program begins at step 1 of repeat 1 with no step completed; an empty program is never begun (R173, R174). -/
def State.beginProgram (s : State) (n : Nat) : State :=
  match (s.pulse.program n).steps with
  | [] => s
  | st :: _ =>
    { s with pulse := { s.pulse with
        running := some { program := n, repeatNo := 1, step := 1, completed := 0, timer := s.stepExpiry st } } }

/-- The running program ends with an outcome: the Pulse Status record is written and the running state discarded
(R175, R176). -/
def State.stopProgram (s : State) (o : PulseOutcome) : State :=
  match s.pulse.running with
  | none => s
  | some r =>
    { s with pulse := { s.pulse with
        running := none, status := { program := some r.program, outcome := some o, completed := r.completed } } }

/-- The PULSE_DONE report that an end of the running program queues (R175). -/
def State.pulseDone (s : State) (o : PulseOutcome) : Option Report :=
  s.pulse.running.map fun r => .pulseDone r.program o

/-- The running program ends and its PULSE_DONE report is queued (R175). -/
def State.endProgram (s : State) (o : PulseOutcome) : State := (s.stopProgram o).reportOpt (s.pulseDone o)

/-- A fire of program 0 by the start event or of program 1 by a recall: a running program ends PREEMPTED (R174). -/
def State.firePreempting (s : State) (n : Nat) : State :=
  if (s.pulse.program n).steps.isEmpty then s else (s.endProgram .preempted).beginProgram n

/-- A fire of program 2 by a close: it begins, or is skipped and counted when a program runs (R174). -/
def State.fireEnd (s : State) : State :=
  if (s.pulse.program 2).steps.isEmpty then s
  else if s.pulse.running.isSome then { s with pulse := { s.pulse with skipped := satAdd 16 s.pulse.skipped 1 } }
  else s.beginProgram 2

/-- A step of the running program begins (R173). -/
def State.beginStep (s : State) (r : PulseRun) (repeatNo step : Nat) : State :=
  match (s.pulse.program r.program).steps[step - 1]? with
  | none => s
  | some st =>
    { s with pulse := { s.pulse with
        running := some { r with repeatNo := repeatNo, step := step, timer := s.stepExpiry st } } }

/-- The step timer expires: the next step, the next repeat, or the end COMPLETED (R173). -/
def State.stepBoundary (s : State) (r : PulseRun) : State :=
  let r' := { r with completed := r.completed + 1 }
  let prog := s.pulse.program r.program
  if r.step < prog.steps.length then s.beginStep r' r.repeatNo (r.step + 1)
  else if r.repeatNo < prog.repeats then s.beginStep r' (r.repeatNo + 1) 1
  else State.endProgram { s with pulse := { s.pulse with running := some r' } } .completed

/-- The step timer's expiry: it acts when a program runs and its step timer is due (R173; log entry 4). -/
def State.stepExpires (s : State) : State :=
  match s.pulse.running with
  | none => s
  | some r => if timerDue s.deckTime r.timer then s.stepBoundary r else s

/-- PULSE_STEP_EXPIRY (R173). -/
def execPulseStepExpiry (s : State) : Host.Outcome State Fault Refusal := s.run State.stepExpires

end Sys2Proof.Machine
end

