-- ==== Sys2Proof/Machine/Results.lean ====
section
/-! DEFINITION. The Result Table and the Placer: a writer's change, places, lamps and board values (R93 to R105). -/

namespace Sys2Proof.Machine

/-- Every lane's place recomputed (R96, R97). -/
def rankAll (rs : List LaneRecord) : List LaneRecord := rs.map fun r => { r with place := placeOf rs r }

/-- The entries of a PLACES report: every lane in use in lane order (R98). -/
def placesReport (rs : List LaneRecord) : Report := .places (rs.map fun r => (r.lane, r.place))

/-- One lane's lamp: a LAMP frame when the decided code differs, and the code written (R100). -/
def State.decideLamp (s : State) (lane : Nat) : State :=
  match s.record? lane with
  | none => s
  | some r =>
    if r.lampOf = r.lamp then s
    else
      let t := s.offerLamp lane r.lampOf
      { t with results := writeRecord t.results lane fun q => { q with lamp := r.lampOf } }

/-- The lamp codes of every lane in use decided in increasing lane order (R100). -/
def State.decideLamps (s : State) : State := Config.lanes.foldl State.decideLamp s

/-- A lane is handed to the Composer by a change that alters its board values (R105), and by a change that R160 names,
altered or not: `named` is the lane of such a change (DEDUCED, log entry 20). -/
def LaneRecord.handsOver (named : Option Nat) (old new : LaneRecord) : Bool :=
  named == some new.lane || decide (old.boardValues ≠ new.boardValues)

/-- The lanes that a change hands to the Composer, in lane order (R105, R160). A command that makes several changes hands
over after each of them, so the lane order holds within a change and not over the whole command (DESIGN CHOICE, log
entry 30). -/
def State.handOver (s : State) (old : List LaneRecord) (named : Option Nat) : State :=
  s.makeAllPending <| (old.zip s.results).flatMap fun p =>
    if p.1.handsOver named p.2 then laneFields p.2.lane else []

/-- Of a change and the record after it: it is none of the changes that R160 names, so only altered board values hand the
lane over (R105). -/
def unnamed (_ _ : LaneRecord) : Bool := false

/-- A judged reaction (R45), a provisional or final finish, MARK_DNS, or an adjudication that sets a finish: it hands the
lane over by its name (R160). -/
def alwaysNamed (_ _ : LaneRecord) : Bool := true

/-- What follows a change that reaches the Placer: places, then the writer's own report with the place computed,
then PLACES when a place changed, then the lamps (R93, R97, R100). `written` holds the change, with the places the
lanes held. -/
def State.placerPass (s : State) (written : List LaneRecord) (lane : Nat) (rep : LaneRecord → Option Report) : State :=
  let ranked := rankAll written
  let s1 := State.reportOpt { s with results := ranked } ((ranked.find? (·.lane == lane)).bind rep)
  let s2 := if written.map (·.place) = ranked.map (·.place) then s1 else s1.report (placesReport ranked)
  s2.decideLamps

/-- A writer's change to a lane's record, handled by R93: written; handed to the Placer when it reaches it; the writer's
report before PLACES and LAMP frames; the lanes it hands over given to the Composer, with `lane` among them when `names`
says that R160 names the change. The closing condition is left to the caller, since a close is one transition (R28). -/
def State.commit (s : State) (lane : Nat) (f : LaneRecord → LaneRecord) (reaches names : LaneRecord → LaneRecord → Bool)
    (rep : LaneRecord → Option Report) : State :=
  match s.record? lane with
  | none => s
  | some r =>
    let written := writeRecord s.results lane f
    let t :=
      if reaches r (f r) then s.placerPass written lane rep
      else State.reportOpt { s with results := written } (rep (f r))
    t.handOver s.results (if names r (f r) then some lane else none)

/-- A change that touches no field of R93 step 2: it reaches no Placer and has no report of its own. -/
def State.note (s : State) (lane : Nat) (f : LaneRecord → LaneRecord) : State :=
  s.commit lane f (fun _ _ => false) unnamed (fun _ => none)

/-- The FINISH report of a record (R74). -/
def finishReport (m : FinishMark) (r : LaneRecord) : Report :=
  .finish r.lane m (r.finish.getD 0) r.source r.place r.flags

end Sys2Proof.Machine
end

