-- ==== Sys2Proof/Machine/Scoreboard.lean ====
section
/-! DEFINITION. Board Memory and its arbiter, the Composer's field writes and the Board Shifter (R148 to R167). -/

namespace Sys2Proof.Machine

/-! ### Cells, rows and change markers (R148, R149, R152) -/

/-- A cell written through a plane mask (R152). -/
def PlaneMask.blend (m : PlaneMask) (old new : Cell) : Cell :=
  { glyph := if m.glyph then new.glyph else old.glyph
    colour := if m.colour then new.colour else old.colour
    blink := if m.blink then new.blink else old.blink }

/-- All three planes, as the Composer writes them (R152). -/
def PlaneMask.all : PlaneMask := { glyph := true, colour := true, blink := true }

/-- A run of cells written into a row from a column; cells past the row's end are not written (R153). -/
def overlay (m : PlaneMask) : List Cell → Nat → List Cell → List Cell
  | row, _, [] => row
  | [], _, _ => []
  | x :: xs, 0, c :: cs => m.blend x c :: overlay m xs 0 cs
  | x :: xs, k + 1, cs => x :: overlay m xs k cs

/-- The lowest column at which two rows differ, counted from `k`. -/
def firstChange : List Cell → List Cell → Nat → Option Nat
  | x :: xs, y :: ys, k => if x = y then firstChange xs ys (k + 1) else some k
  | _, _, _ => none

/-- A marker lowered to a changed column, if one changed (R149). -/
def lowerMarker (marker changed : Option Nat) : Option Nat :=
  match marker, changed with
  | m, none => m
  | none, some c => some c
  | some m, some c => some (min m c)

/-- The cells of a row. -/
def Board.row (b : Board) (r : Nat) : List Cell := b.rows.getD r []

/-- The change marker of a row. -/
def Board.marker (b : Board) (r : Nat) : Option Nat := b.markers.getD r none

/-- A row takes new cells and its marker is lowered to the lowest changed column (R149). -/
def Board.putRow (b : Board) (r : Nat) (cells : List Cell) : Board :=
  { b with
    rows := b.rows.set r cells
    markers := b.markers.set r (lowerMarker (b.marker r) (firstChange (b.row r) cells 0)) }

/-- A run of cells written into one row (R149, R153). -/
def Board.writeRun (b : Board) (r col : Nat) (m : PlaneMask) (cells : List Cell) : Board :=
  b.putRow r (overlay m (b.row r) col cells)

/-- A rectangle filled with one cell value through a mask (R154). -/
def Board.fillRect (b : Board) (r0 r1 c0 c1 : Nat) (m : PlaneMask) (c : Cell) : Board :=
  (Config.boardRows.filter fun r => decide (r0 ≤ r) && decide (r ≤ r1)).foldl
    (fun b r => b.writeRun r c0 m (List.replicate (c1 + 1 - c0) c)) b

/-- The mask in force for a console write (R152). -/
def Board.maskInForce (b : Board) (own : PlaneMask) : PlaneMask := if b.maskPersistent then b.loadedMask else own

/-! ### The Line Buffer and the rows that are due (R161, R162) -/

def LineHalf.isEmpty : LineHalf → Bool
  | .empty => true
  | _ => false

def LineHalf.isSending : LineHalf → Bool
  | .sending .. => true
  | _ => false

/-- A LOADED half starts sending (R164). -/
def LineHalf.start : LineHalf → LineHalf
  | .loaded r c cs => .sending r c cs
  | h => h

/-- A half of the Line Buffer by its number. -/
def Shifter.half (h : Shifter) (n : Nat) : LineHalf := if n = 0 then h.half0 else h.half1

def Shifter.setHalf (h : Shifter) (n : Nat) (v : LineHalf) : Shifter :=
  if n = 0 then { h with half0 := v } else { h with half1 := v }

/-- The Shifter is SENDING when a half is (R161). -/
def Shifter.isSending (h : Shifter) : Bool := h.half0.isSending || h.half1.isSending

/-- A half becomes LOADED, and SENDING at once when the Shifter is IDLE (R164). -/
def Shifter.load (h : Shifter) (n row col : Nat) (cells : List Cell) : Shifter :=
  h.setHalf n (if h.isSending then .loaded row col cells else .sending row col cells)

/-- A row's refresh timer (R162). -/
def State.refreshDue (s : State) (r : Nat) : Bool :=
  timerDue s.deckTime (s.shifter.lastFull.getD r 0 + Config.refreshInterval)

/-- A row is due when its marker is a column or its refresh timer is due (R162). -/
def State.rowDue (s : State) (r : Nat) : Bool := (s.board.marker r).isSome || s.refreshDue r

/-- The rows in the order that begins after the scanner position and runs round (R163). -/
def scanOrder (scanner : Nat) : List Nat := Config.boardRows.map fun k => (scanner + 1 + k) % 16

/-- The EMPTY half a row load takes: half 0 when both are (R163). -/
def Shifter.emptyHalf (h : Shifter) : Option Nat :=
  if h.half0.isEmpty then some 0 else if h.half1.isEmpty then some 1 else none

/-- The Shifter holds a claim while its row load waits or is in progress (R163). -/
def State.shifterClaims (s : State) : Bool :=
  s.shifter.claim || match s.board.operation with
    | some (.rowLoad ..) => true
    | _ => false

/-- The scanner's conditions examined: a claim when a half is EMPTY, a row is due and no claim is held (R163). -/
def State.examineShifter (s : State) : State :=
  if s.shifter.emptyHalf.isSome && Config.boardRows.any s.rowDue && !s.shifterClaims then
    { s with shifter := { s.shifter with claim := true } }
  else s

/-! ### The arbiter's grants (R150) -/

/-- The row load chosen at its grant, if a half is EMPTY and a row is due (R163). -/
def State.chooseLoad (s : State) : Option BoardOperation :=
  match s.shifter.emptyHalf, (scanOrder s.shifter.scanner).find? s.rowDue with
  | some h, some r =>
    let col := (s.board.marker r).getD 0
    some (.rowLoad r col h ((s.board.row r).drop col) true)
  | _, _ => none

/-- The cells of a text in a field (R157, R159). -/
def fieldCells (width : Nat) (colour : BitVec 3) (blink : Bool) (text : List Byte) : List Cell :=
  (rightAlign width text).map fun g => { glyph := g, colour := colour, blink := blink }

/-- The row, start column and width of a field in the Layout Table (R155). -/
def Layout.position (l : Layout) : BoardField → Option (Nat × Nat × Nat)
  | .event => some (l.eventRow, l.eventCol, 3)
  | .heat => some (l.heatRow, l.heatCol, 2)
  | .clock => some (l.clockRow, l.clockCol, 7)
  | .lane n => (l.rowOf n).map fun r => (r, l.laneCol, 2)
  | .place n => (l.rowOf n).map fun r => (r, l.placeCol, 3)
  | .reaction n => (l.rowOf n).map fun r => (r, l.reactionCol, 5)
  | .time n => (l.rowOf n).map fun r => (r, l.timeCol, 8)

/-- The clock value at a grant: the heat time in RUNNING, the held value in STOPPED (R158). -/
def State.clockValue (s : State) : HeatTime :=
  if s.composer.clockRunning then s.heatTime s.deckTime else s.composer.clockHeld

/-- The text of a field from the state at its grant (R158, R159). -/
def State.fieldText (s : State) (f : BoardField) : List Byte :=
  match f with
  | .event => (s.heat.plan.map fun p => decimal 3 p.event).getD []
  | .heat => (s.heat.plan.map fun p => decimal 2 p.heat).getD []
  | .clock => clockText s.clockValue
  | .lane n => ((s.record? n).map fun _ => decimal 2 (n + s.mgmt.settings.numberingBase)).getD []
  | .place n => ((s.record? n).map fun r => r.placeText).getD []
  | .reaction n => ((s.record? n).map fun r => r.reactionFieldText).getD []
  | .time n => ((s.record? n).map fun r => r.timeFieldText).getD []

/-- The colour of a field: a lane's colour class when it has a record, else normal (R158, R159). -/
def State.fieldColour (s : State) (f : BoardField) : BitVec 3 :=
  match f.lane?.bind s.record? with
  | some r => s.board.layout.colourOf r.colourClass
  | none => s.board.layout.normal

/-- The blink of a field: the TIME field of a PROVISIONAL lane (R159). -/
def State.fieldBlink (s : State) (f : BoardField) : Bool :=
  match f with
  | .time n => ((s.record? n).map fun r => r.status == .provisional).getD false
  | _ => false

/-- The field write the Composer is granted, formed from the state as it stands (R157). -/
def State.fieldWrite (s : State) (f : BoardField) : BoardOperation :=
  match s.board.layout.position f with
  | some (row, col, width) => .fieldWrite row col (fieldCells width (s.fieldColour f) (s.fieldBlink f) (s.fieldText f))
  | none => .fieldWrite 0 0 []

/-- The half SEND_ROW_NOW loads: the one that is not SENDING, half 0 when neither is (R166). -/
def Shifter.target (h : Shifter) : Nat := if h.half0.isSending then 1 else 0

/-- A LOADED target half is displaced: its contents are discarded and its row's marker lowered (R166). The half has
become EMPTY, so the scanner's conditions are examined (R163). -/
def State.displace (s : State) (n : Nat) : State :=
  match s.shifter.half n with
  | .loaded r c _ =>
    State.examineShifter
      { s with
        shifter := s.shifter.setHalf n .empty
        board := { s.board with markers := s.board.markers.set r (lowerMarker (s.board.marker r) (some c)) } }
  | _ => s

/-- A console operation as it is granted, with the mask in force, the Pattern and the cells it reads (R150, R152). -/
def State.consoleOp (s : State) : BoardRequest → ConsoleOp
  | .writeCells r c m cells => .writeCells r c (s.board.maskInForce m) cells
  | .fill r0 r1 c0 c1 m => .fill r0 r1 c0 c1 (s.board.maskInForce m) s.board.pattern
  | .loadPattern c => .loadPattern c
  | .writeLayout l => .writeLayout l
  | .sendRow r => .sendRow r s.shifter.target (s.board.row r)

/-- The console's claim granted; a SEND_ROW_NOW displaces its target half at the grant (R166). -/
def State.grantConsole (s : State) (q : BoardRequest) : State :=
  let op := s.consoleOp q
  let t := match op with
    | .sendRow _ h _ => s.displace h
    | _ => s
  { t with board := { t.board with operation := some (.console op) }, mgmt := { t.mgmt with claim := none } }

/-- The Shifter's waiting claim taken up: a chosen load is granted, and a claim that finds no EMPTY half or no due row
completes at once and changes nothing (R163). -/
def State.grantShifter (s : State) : State :=
  if s.shifter.claim then
    { s with
      shifter := { s.shifter with claim := false }
      board := { s.board with operation := s.chooseLoad } }
  else s

/-- The Composer's or the console's waiting claim granted, the Composer's first (R150). -/
def State.grantWriter (s : State) : State :=
  match s.composer.queue with
  | f :: fs =>
    { s with
      board := { s.board with operation := some (s.fieldWrite f) }
      composer := { s.composer with queue := fs } }
  | [] =>
    match s.mgmt.claim with
    | some q => s.grantConsole q
    | none => s

/-- While Board Memory is free, the arbiter grants one waiting claim by priority: the Shifter's, the Composer's, the
console's (R150). It acts when the event that raised the claims has been taken whole (log entry 12). -/
def State.arbitrate (s : State) : State :=
  if s.board.operation.isSome then s
  else
    let t := s.grantShifter
    if t.board.operation.isSome then t else t.grantWriter

/-- Board Memory becomes free, the scanner's conditions are examined and the arbiter grants the next claim (R150, R163). -/
def State.freeBoard (s : State) : State :=
  (State.examineShifter { s with board := { s.board with operation := none } }).arbitrate

/-! ### Completions (R150, R157, R163, R164) -/

/-- A completed load of a row: the half is LOADED, the marker CLEAN, and a load from column 0 is a full send (R162). -/
def State.loadHalf (s : State) (row col half : Nat) (cells : List Cell) : State :=
  { s with
    shifter := { s.shifter.load half row col cells with
      lastFull := if col = 0 then s.shifter.lastFull.set row s.deckTime else s.shifter.lastFull }
    board := { s.board with markers := s.board.markers.set row none } }

/-- The scanner moves to the row of its load (R163). -/
def State.moveScanner (s : State) (row : Nat) : State := { s with shifter := { s.shifter with scanner := row } }

/-- ROW_LOAD_COMPLETE (R163). The result of a load that a RESTART overtook is discarded (R167). -/
def execRowLoadComplete (s : State) : Host.Outcome State Fault Refusal :=
  s.run fun s =>
    match s.board.operation with
    | some (.rowLoad row col half cells live) =>
      (if live then (s.loadHalf row col half cells).moveScanner row else s).freeBoard
    | _ => s

/-- FIELD_WRITE_COMPLETE (R157): the field's cells take their values and the row's marker is lowered. -/
def execFieldWriteComplete (s : State) : Host.Outcome State Fault Refusal :=
  s.run fun s =>
    match s.board.operation with
    | some (.fieldWrite row col cells) =>
      State.freeBoard { s with board := s.board.writeRun row col .all cells }
    | _ => s

/-- ROW_SEND_COMPLETE (R164): the SENDING half becomes EMPTY and a LOADED half starts sending. -/
def Shifter.sendDone (h : Shifter) : Shifter :=
  if h.half0.isSending then { h with half0 := .empty, half1 := h.half1.start }
  else { h with half0 := h.half0.start, half1 := .empty }

def execRowSendComplete (s : State) : Host.Outcome State Fault Refusal :=
  s.run fun s =>
    if s.shifter.isSending then (State.examineShifter { s with shifter := s.shifter.sendDone }).arbitrate else s

/-- The expiry of a row's refresh timer: the row is due, and the scanner's conditions are examined (R162, R163). It acts
when the row exists and its timer is due (log entry 4). -/
def State.refreshExpires (s : State) (row : Nat) : State :=
  if decide (row < 16) && s.refreshDue row then s.examineShifter.arbitrate else s

/-- ROW_FULL_REFRESH_EXPIRY (R162). -/
def execRowFullRefreshExpiry (row : Nat) (s : State) : Host.Outcome State Fault Refusal :=
  s.run fun s => s.refreshExpires row

/-- The result and detail of a completed console operation (R151, R153, R154, R156, R166). -/
def ConsoleOp.result : ConsoleOp → ReplyResult × Nat
  | .writeCells _ c _ cells =>
    if Config.boardColumns < c + cells.length then (.doneClamped, Config.boardColumns - c) else (.done, 0)
  | _ => (.done, 0)

/-- The changes of a completed console operation (R150). -/
def State.applyConsole (s : State) : ConsoleOp → State
  | .writeCells r c m cells => { s with board := s.board.writeRun r c m cells }
  | .fill r0 r1 c0 c1 m c => { s with board := s.board.fillRect r0 r1 c0 c1 m c }
  | .loadPattern c => { s with board := { s.board with pattern := c } }
  | .writeLayout l => { s with board := { s.board with layout := l } }
  | .sendRow r h cells => s.loadHalf r 0 h cells

/-- The bytes of the row frame on the Board Link, while a half is SENDING (R165). -/
def Shifter.boardLink (h : Shifter) : Option (List Byte) :=
  match h.half0, h.half1 with
  | .sending r c cs, _ => some (rowFrame r c cs)
  | _, .sending r c cs => some (rowFrame r c cs)
  | _, _ => none

/-- What the Board Link has sent of its row frame when RESTART cuts it: `whole` bytes, and the byte in progress after them
(R167). How many are out by then is the Link's timing (log entry 23). -/
def Shifter.cutFrame (h : Shifter) (whole : Nat) : Option (List Byte) := h.boardLink.map (·.take (whole + 1))

/-- The clock display timer's expiry: while RUNNING, CLOCK is made pending and the timer is set 10,000 ticks beyond its
expiry value. It acts when the timer is due (R158; log entry 4). -/
def State.clockExpires (s : State) : State :=
  match s.composer.clockTimer with
  | none => s
  | some e =>
    if timerDue s.deckTime e && s.heat.state == .running then
      (State.makePending { s with composer := { s.composer with clockTimer := some (e + Config.clockInterval) } }
        .clock).arbitrate
    else s

/-- CLOCK_DISPLAY_EXPIRY (R158). -/
def execClockDisplayExpiry (s : State) : Host.Outcome State Fault Refusal := s.run State.clockExpires

end Sys2Proof.Machine
end

