-- ==== Sys2Proof/Machine/Exchange.lean ====
section
/-! DEFINITION. The Exchange Judge: exchange windows, verdicts and missed exchange laps (R78 to R90). -/

namespace Sys2Proof.Machine

/-- The Platform Tracker of a lane (R37). -/
def State.tracker (s : State) (lane : Nat) : Tracker := s.starts.trackers.getD lane {}

/-- The last release time a judgement can read: the state decides before the time does (R44, R81). -/
def Tracker.release (t : Tracker) : Option DeckTime := if t.state = .released then t.lastRelease else none

/-- The exchange collector of a lane is OPEN with this window (R78). -/
def State.openExchange (s : State) (lane : Nat) : Option OpenExchange :=
  (s.exchanges.find? (·.lane == lane)).bind (·.window)

/-- A lane's exchange collector becomes OPEN with a window, or INACTIVE (R80, R83). -/
def State.setWindow (s : State) (lane : Nat) (w : Option OpenExchange) : State :=
  { s with exchanges := s.exchanges.map fun c => if c.lane = lane then { c with window := w } else c }

/-- The verdict and the margin of an exchange from the last release, if it is usable (R81, R82). -/
def exchangeVerdict (tolerance : Nat) (o : OpenExchange) (tj : HeatTime) : Option HeatTime → ExchangeRecord
  | none => { verdict := .noTakeover, margin := none }
  | some tr =>
    if o.arming ≤ tr ∧ tr ≤ tj then
      { verdict := if -(tolerance : Int) ≤ tr - o.touch then .ok else .early, margin := some (tr - o.touch) }
    else { verdict := .noTakeover, margin := none }

/-- The flags a verdict sets on the lane (R82, R85). -/
def LaneFlags.afterVerdict (f : LaneFlags) : ExchangeVerdict → LaneFlags
  | .ok => f
  | .early => { f with earlyTakeover := true }
  | .noTakeover | .notJudged => { f with review := true }

/-- A judged exchange written into the lane record, its flags set and its EXCHANGE report queued (R83, R84). -/
def State.writeExchange (s : State) (lane k : Nat) (e : ExchangeRecord) : State :=
  s.commit lane (fun r => { r.setExchange k e with flags := r.flags.afterVerdict e.verdict }) touchesPlacer unnamed
    fun _ => some (.exchange lane (k + 1) e.verdict (e.margin.map marginMs))

/-- An OPEN exchange of a lane is judged at a Deck Time and its collector returns to INACTIVE (R81 to R83). -/
def State.judgeExchange (s : State) (lane : Nat) (dj : DeckTime) : State :=
  match s.openExchange lane with
  | none => s
  | some o =>
    (s.writeExchange lane o.number
      (exchangeVerdict s.plan.toleranceTicks o (s.heatTime dj) ((s.tracker lane).release.map s.heatTime))).setWindow
      lane none

/-- The handoff of an exchange lap decided with a time (R80): an OPEN exchange is judged first, then the window of
exchange `k` opens and its timer is set E beyond the decision. -/
def State.handoff (s : State) (lane k lap : Nat) (arming touch : HeatTime) (dd : DeckTime) : State :=
  (s.judgeExchange lane dd).setWindow lane
    (some { number := k, lap := lap, arming := arming, touch := touch, timer := dd + ticks s.plan.exchangeTicks })

/-- A missed exchange lap: an OPEN exchange is judged first, then exchange `k` gets NOT_JUDGED with REVIEW and its
report (R85). -/
def State.missedExchange (s : State) (lane k : Nat) : State :=
  (s.judgeExchange lane s.deckTime).writeExchange lane k { verdict := .notJudged, margin := none }

/-- The expiry of a lane's exchange timer: it acts when the lane's window is open and its timer is due (R81; log
entry 4). -/
def State.exchangeExpires (s : State) (lane : Nat) : State :=
  match s.openExchange lane with
  | none => s
  | some o => if timerDue s.deckTime o.timer then (s.judgeExchange lane o.timer).arbitrate else s

/-- EXCHANGE_WINDOW_EXPIRY (R81). -/
def execExchangeWindowExpiry (lane : Nat) (s : State) : Host.Outcome State Fault Refusal :=
  s.run fun s => s.exchangeExpires lane

end Sys2Proof.Machine
end

