-- ==== Sys2Proof/Machine/Wall.lean ====
section
/-! DEFINITION. The Wall Judge: lap collectors, presses, decided arrivals and the Arrival Pool (R50 to R77). -/

namespace Sys2Proof.Machine

/-! ### Collectors and the pool -/

/-- The lap collector of a lane, which lanes not in use have not (R51). -/
def State.collector? (s : State) (lane : Nat) : Option Collector := s.walls.collectors.find? (·.lane == lane)

/-- A lane's collector replaced. -/
def State.setCollector (s : State) (c : Collector) : State :=
  { s with walls := { s.walls with collectors := s.walls.collectors.map fun d => if d.lane = c.lane then c else d } }

/-- The value a collection holds for a sensor (R51). -/
def Collector.value (c : Collector) : Sensor → Option HeatTime
  | .pad => c.pad
  | .button1 => c.b1
  | .button2 => c.b2
  | .button3 => c.b3
  | .platform => none

/-- The value of a sensor written (R55, R56). -/
def Collector.setValue (c : Collector) (t : HeatTime) : Sensor → Collector
  | .pad => { c with pad := some t }
  | .button1 => { c with b1 := some t }
  | .button2 => { c with b2 := some t }
  | .button3 => { c with b3 := some t }
  | .platform => c

/-- A collector that moves to a lap: ARMED, no values, the LINK mark clear (R52, R64). -/
def Collector.armedAt (lane lap : Nat) (arming : HeatTime) : Collector :=
  { lane := lane, lap := lap, state := .armed, arming := some arming }

/-- The Arrival Pool holds 512 records (R70). -/
def WallJudge.full (w : WallJudge) : Bool := decide (Config.poolCapacity ≤ w.pool.length)

/-- An arrival record offered to the pool: stored at the end, or not stored when the pool is full (R71). -/
def WallJudge.store (w : WallJudge) (a : ArrivalRecord) : WallJudge :=
  if w.full then w else { w with pool := w.pool ++ [a] }

def State.store (s : State) (a : ArrivalRecord) : State := { s with walls := s.walls.store a }

/-- The stored record of a lane's lap gets LATE_PAD_SEEN (R58). -/
def WallJudge.markLate (w : WallJudge) (lane lap : Nat) : WallJudge :=
  { w with pool := w.pool.map fun a =>
      if a.lane = lane ∧ a.lap = lap then { a with flags := { a.flags with latePadSeen := true } } else a }

/-! ### The split mode (R61) -/

/-- The lap's time is displayed. -/
def SplitMode.shows (m : SplitMode) (laps lap : Nat) : Bool :=
  match m with
  | .allWalls => true
  | .startWall => lapWall lap == .start || lap == laps
  | .finishOnly => lap == laps

/-- The decided lap gets an ARRIVAL report. -/
def SplitMode.reports (m : SplitMode) (laps lap : Nat) : Bool :=
  match m with
  | .allWalls => lap != laps
  | .startWall => lapWall lap == .start && lap != laps
  | .finishOnly => false

/-! ### A press (R53 to R60, R67 to R69) -/

/-- A timed PRESS of a pad or button, as Loop Intake hands it on. -/
structure Press where
  lane : Nat
  wall : Wall
  sensor : Sensor
  deck : DeckTime
  time : HeatTime
  deriving DecidableEq, Repr

/-- An early press (R57). -/
def State.earlyPress (s : State) (lane : Nat) : State :=
  s.note lane fun r => { r with early := satAdd 8 r.early 1 }

/-- A late press (R58): counted; a pad press marks the stored record of its closed lap, and sets REVIEW when `review`
says that it fell at the finish wall of a decided or held lane. -/
def State.latePress (s : State) (p : Press) (closedLap : Option Nat) (review : Bool) : State :=
  let onPad := p.sensor == .pad
  let t := s.note p.lane fun r => { r with late := satAdd 8 r.late 1, flags := r.flags.orReview (onPad && review) }
  match closedLap with
  | some n => if onPad then { t with walls := t.walls.markLate p.lane n } else t
  | none => t

/-- A taken pad press that sets or lowers P: the provisional finish on the finish lap (R60), the displayed time on a
displayed lap (R61). -/
def State.padTaken (s : State) (lane lap : Nat) (p : HeatTime) : State :=
  if lap = s.laps then
    s.commit lane
      (fun r => { r with status := .provisional, finish := some p, source := some .pad, displayed := some p })
      touchesPlacer alwaysNamed fun r => some (finishReport .provisional r)
  else if s.plan.split.shows s.laps lap then s.note lane fun r => { r with displayed := some p }
  else s

/-- What a taken press does beyond its collector (R55, R56). -/
def State.afterTaken (s : State) (p : Press) (lap : Nat) : State :=
  if p.sensor = .pad then s.padTaken p.lane lap p.time else s

/-- A press opens the collection of an ARMED collector (R55). -/
def State.openCollection (s : State) (c : Collector) (p : Press) : State :=
  State.afterTaken
    (s.setCollector
      { c.setValue p.time p.sensor with
        state := .collecting
        openTime := some p.deck
        timer := some (p.deck + ticks s.plan.collectionTicks) })
    p c.lap

/-- A press at or above the value already held leaves it (R56). -/
def Collector.keeps (c : Collector) (p : Press) : Bool :=
  match c.value p.sensor with
  | some v => decide (v ≤ p.time)
  | none => false

/-- A press joins an open collection (R56). -/
def State.joinCollection (s : State) (c : Collector) (p : Press) : State :=
  if c.keeps p then s else (s.setCollector (c.setValue p.time p.sensor)).afterTaken p c.lap

/-- The record of a missed lap (R68). -/
def missedArrival (lane lap : Nat) : ArrivalRecord :=
  { lane := lane, lap := lap, wall := lapWall lap, time := none, source := .missed, buttons := 0
    flags := { review := true } }

/-- Steps 1 to 3 of a skip-ahead: lap n is recorded MISSED, reported, and its exchange not judged (R68). -/
def State.recordMissed (s : State) (lane lap : Nat) : State :=
  let a := missedArrival lane lap
  let t := State.report
    (State.note (s.store a) lane fun r =>
      { r with
        lapCount := r.lapCount + 1
        flags := { r.flags with review := true, splitsLost := r.flags.splitsLost || s.walls.full } })
    (.arrival a)
  match exchangeAt s.plan.relay s.laps lap with
  | some k => t.missedExchange lane k
  | none => t

/-- A skip-ahead press: lap n is missed, the collector moves to lap n + 1 and the press opens it (R67, R68). -/
def State.skipAhead (s : State) (c : Collector) (p : Press) (arming : HeatTime) : State :=
  (s.recordMissed p.lane c.lap).openCollection (.armedAt p.lane (c.lap + 1) (arming + s.plan.minLapTicks)) p

/-- A timed press of a lane whose collector is ARMED or COLLECTING, classified by its wall and its time (R54). -/
def State.classify (s : State) (c : Collector) (p : Press) : State :=
  let arming := c.arming.getD 0
  if p.wall = lapWall c.lap then
    if p.time < arming then s.earlyPress p.lane
    else if c.state = .armed then s.openCollection c p
    else s.joinCollection c p
  else if 2 ≤ c.lap ∧ p.time < arming then s.latePress p (some (c.lap - 1)) false
  else if c.state = .armed ∧ c.lap < s.laps ∧ arming + s.plan.minLapTicks ≤ p.time then s.skipAhead c p arming
  else s.earlyPress p.lane

/-- A late press of a CLOSED collector, or of any lane in RESULTS (R53, R58). -/
def State.lateAfterClose (s : State) (c : Collector) (p : Press) : State :=
  s.latePress p (if p.wall = lapWall c.lap then some c.lap else none) (p.wall == lapWall s.laps)

/-- The disposal of a timed press by the heat state and the lane's collector (R53). -/
def State.takePress (s : State) (p : Press) : State :=
  match s.collector? p.lane, s.heat.state with
  | none, _ => s
  | some _, .idle | some _, .armed => s
  | some c, .results => s.lateAfterClose c p
  | some c, .running =>
    match c.state with
    | .dormant => s
    | .closed => s.lateAfterClose c p
    | .armed | .collecting => s.classify c p

/-! ### Deciding an arrival (R62 to R66) -/

/-- The button values a collection holds. -/
def Collector.buttons (c : Collector) : List HeatTime := [c.b1, c.b2, c.b3].filterMap id

/-- The backup value B (R62). -/
def backupValue : List HeatTime → Option HeatTime
  | [a] => some a
  | [a, b] => some ((a + b).fdiv 2)
  | [a, b, c] => some (max (min a b) (min (max a b) c))
  | _ => none

/-- A decided arrival (R63). -/
structure Arrival where
  time : HeatTime
  source : Source
  review : Bool
  backupUsed : Bool
  deriving DecidableEq, Repr

/-- The arrival of a decided collection from P, B and the trust window (R63). -/
def decideArrival (trust : Nat) : Option HeatTime → Option HeatTime → Option Arrival
  | some p, some b =>
    some { time := p, source := .pad, review := decide (trust < (p - b).natAbs), backupUsed := false }
  | some p, none => some { time := p, source := .pad, review := false, backupUsed := false }
  | none, some b => some { time := b, source := .backup, review := false, backupUsed := true }
  | none, none => none

/-- The flags a decided arrival sets on the lane (R63, R71). -/
def LaneFlags.afterArrival (f : LaneFlags) (a : Arrival) (lost : Bool) : LaneFlags :=
  { f with
    review := f.review || a.review, backupUsed := f.backupUsed || a.backupUsed, splitsLost := f.splitsLost || lost }

/-- The arrival record of a decided collection (R64, R77). -/
def Collector.record (c : Collector) (a : Arrival) : ArrivalRecord :=
  { lane := c.lane, lap := c.lap, wall := lapWall c.lap, time := some a.time, source := a.source
    buttons := c.buttons.length, flags := { review := a.review, link := c.link } }

/-- A collector CLOSED: it keeps its lap, its arming time and its values, and its timer is stopped (R51, R65, R66). -/
def Collector.close (c : Collector) : Collector := { c with state := .closed, timer := none }

/-- The collection of a lap below L is decided, in the steps of R64; at a close the collector becomes CLOSED in place of
arming the next lap (R66). -/
def State.decideLap (s : State) (c : Collector) (a : Arrival) (closing : Bool) : State :=
  let shown := s.plan.split.shows s.laps c.lap
  let s1 := State.note (s.store (c.record a)) c.lane fun r =>
    { r with
      lapCount := r.lapCount + 1
      flags := r.flags.afterArrival a s.walls.full
      displayed := if shown then some a.time else r.displayed }
  let s2 := if s.plan.split.reports s.laps c.lap then s1.report (.arrival (c.record a)) else s1
  let s3 := match exchangeAt s.plan.relay s.laps c.lap with
    | some k => s2.handoff c.lane k c.lap (c.arming.getD 0) a.time s.deckTime
    | none => s2
  s3.setCollector (if closing then c.close else .armedAt c.lane (c.lap + 1) (a.time + s.plan.minLapTicks))

/-- The finish collection is decided, in the steps of R65. -/
def State.decideFinish (s : State) (c : Collector) (a : Arrival) : State :=
  State.setCollector
    (State.commit (s.store (c.record a)) c.lane
      (fun r =>
        { r with
          lapCount := r.lapCount + 1
          status := .final
          finish := some a.time
          source := some a.source
          finishPad := c.pad
          finishBackup := backupValue c.buttons
          flags := r.flags.afterArrival a s.walls.full
          displayed := some a.time })
      touchesPlacer alwaysNamed fun r => some (finishReport .final r))
    c.close

/-- A COLLECTING collector of a lane is decided on the values it holds (R64 to R66). -/
def State.decideCollection (s : State) (lane : Nat) (closing : Bool) : State :=
  match s.collector? lane with
  | none => s
  | some c =>
    if c.state = .collecting then
      match decideArrival s.plan.trustTicks c.pad (backupValue c.buttons) with
      | none => s
      | some a => if c.lap < s.laps then s.decideLap c a closing else s.decideFinish c a
    else s

/-- The LINK mark of a collector set (R75, R76). -/
def State.markLinks (s : State) (p : Collector → Bool) : State :=
  { s with walls := { s.walls with
      collectors := s.walls.collectors.map fun c => if p c then { c with link := true } else c } }

end Sys2Proof.Machine
end

