-- ==== Sys2Proof/Machine/Start.lean ====
section
/-! DEFINITION. The Start Judge: Platform Trackers and the judgement of a start (R37 to R49). -/

namespace Sys2Proof.Machine

/-- A tracker takes an edge of its start sensor; a stale edge has no time (R39, R40). -/
def Tracker.take (t : Tracker) (press : Bool) (deck : Option DeckTime) : Tracker :=
  if !t.taking then t
  else if press then { t with state := .pressed }
  else { t with state := .released, lastRelease := deck }

/-- An edge of the start sensor reaches the lane's tracker (R39). -/
def State.trackerEdge (s : State) (lane : Nat) (press : Bool) (deck : Option DeckTime) : State :=
  { s with starts := { s.starts with trackers := s.starts.trackers.modify lane (·.take press deck) } }

/-- The reaction that a tracker gives at a judgement: a usable release is at most 10 s before the epoch and not after
the judgement (R8, R44). -/
def State.reaction (s : State) (lane : Nat) (tj : HeatTime) : Option HeatTime :=
  ((s.tracker lane).release.map s.heatTime).filter fun t =>
    decide (-Config.preStartHorizon ≤ t) && decide (t ≤ tj)

/-- The start flags of a reaction under the reaction floor (R45). -/
def LaneFlags.afterStart (f : LaneFlags) (floor : Nat) : Option HeatTime → LaneFlags
  | none => { f with review := true }
  | some t =>
    if t < 0 then { f with falseStart := true }
    else if t < (floor : Int) then { f with suspectReaction := true, review := true }
    else f

/-- One lane of the judgement: skipped when it is DNS, else judged and reported, and handed to the Composer, which writes
the reaction or blanks it (R43 to R46; log entry 20). -/
def State.judgeStartLane (tj : HeatTime) (s : State) (lane : Nat) : State :=
  match s.record? lane with
  | none => s
  | some r =>
    if r.status = .dns then s
    else
      s.commit lane
        (fun r =>
          { r with
            reaction := s.reaction lane tj
            flags := r.flags.afterStart s.plan.floorTicks (s.reaction lane tj) })
        touchesPlacer alwaysNamed fun r => some (.startJudged lane r.reaction r.flags)

/-- The start is judged at a Deck Time: the start-window timer is stopped and the lanes in use are taken in increasing
order (R25, R43). -/
def State.judgeStart (s : State) (dj : DeckTime) : State :=
  Config.lanes.foldl (State.judgeStartLane (s.heatTime dj)) { s with heat := { s.heat with startTimer := none } }

/-- The start-window timer's expiry: it acts when the timer is due in RUNNING (R25, R43; log entry 4). -/
def State.startWindowExpires (s : State) : State :=
  match s.heat.startTimer with
  | none => s
  | some e => if timerDue s.deckTime e && s.heat.state == .running then (s.judgeStart e).arbitrate else s

/-- START_WINDOW_EXPIRY (R25, R43). -/
def execStartWindowExpiry (s : State) : Host.Outcome State Fault Refusal := s.run State.startWindowExpires

end Sys2Proof.Machine
end

