-- ==== Sys2Proof/Machine/Operands.lean ====
section
/-! DEFINITION. The request at the head of the Management Queue: its form, its fields and its completion
(R134 to R137, R180, R183). -/

namespace Sys2Proof.Machine

/-! ### Fields of a request (R177, R183) -/

/-- The byte at a place of the fields. -/
def byteAt (fs : List Byte) (i : Nat) : Nat := (fs.getD i 0).toNat

/-- Two bytes, most significant first. -/
def wordAt (fs : List Byte) (i : Nat) : Nat := byteAt fs i * 256 + byteAt fs (i + 1)

/-- Four bytes, most significant first. -/
def longAt (fs : List Byte) (i : Nat) : Nat := wordAt fs i * 65536 + wordAt fs (i + 2)

/-- The first `n` groups of `k` bytes. -/
def groups (k : Nat) : Nat → List Byte → List (List Byte)
  | 0, _ => []
  | n + 1, fs => fs.take k :: groups k n (fs.drop k)

/-- The fields have a fixed length (R137). -/
def sized (n : Nat) (fs : List Byte) : Bool := fs.length == n

/-- The fields have the length that the count at place `i` requires, and the count is an allowed one (R137). -/
def counted (i base each least most : Nat) (fs : List Byte) : Bool :=
  decide (least ≤ byteAt fs i) && decide (byteAt fs i ≤ most) && fs.length == base + each * byteAt fs i

def Stroke.ofCode? : Nat → Option Stroke
  | 0 => some .free | 1 => some .back | 2 => some .breast | 3 => some .fly | 4 => some .medley
  | _ => none

def SplitMode.ofCode? : Nat → Option SplitMode
  | 0 => some .allWalls | 1 => some .startWall | 2 => some .finishOnly
  | _ => none

def LineFunction.ofCode? : Nat → Option LineFunction
  | 0 => some .input | 1 => some .pulse | 2 => some .held
  | _ => none

/-- A no or yes byte (R181). -/
def yesNo? : Nat → Option Bool
  | 0 => some false | 1 => some true
  | _ => none

/-- A plane mask: glyph, colour and blink in bits 0 to 2 (R181). -/
def PlaneMask.ofByte (b : Nat) : PlaneMask :=
  { glyph := b.testBit 0, colour := b.testBit 1, blink := b.testBit 2 }

/-- A cell of WRITE_CELLS: a glyph and an attribute with the colour in bits 0 to 2 and the blink in bit 3 (R183). -/
def Cell.ofBytes (fs : List Byte) : Cell :=
  { glyph := fs.getD 0 0, colour := BitVec.ofNat 3 (byteAt fs 1), blink := (byteAt fs 1).testBit 3 }

/-- The request that a MANAGE frame carries (R180). A code or a tag that the payload is too short for reads 0x00: R137 says
so for the BAD_REQUEST of a head, and the model does the same for REFUSED_BUSY (DEDUCED, log entry 28). -/
def Frame.request (f : Frame) : Request :=
  { src := f.src, code := f.payload.getD 0 0, tag := f.payload.getD 1 0, fields := f.payload.drop 2 }

/-! ### The head of the queue (R135, R137) -/

/-- A board request of the head waits for the arbiter or holds Board Memory (R135). -/
def State.boardHolds (s : State) : Bool :=
  s.mgmt.claim.isSome || match s.board.operation with
    | some (.console _) => true
    | _ => false

/-- The head of the Management Queue, unless a board request holds it. -/
def State.freeHead (s : State) : Option Frame := if s.boardHolds then none else s.mgmt.queue.head?

/-- The request completes: its frame leaves the queue (R135). -/
def State.popHead (s : State) : State := { s with mgmt := { s.mgmt with queue := s.mgmt.queue.tail } }

/-- The head's payload carries a code and a tag, and this request code. -/
def Frame.carries (f : Frame) (code : Byte) : Bool := decide (2 ≤ f.payload.length) && f.payload.getD 0 0 == code

/-- The request at the head is carried out as one event when it has this code: a wrong form is answered BAD_REQUEST with
detail 2, and otherwise the request's own rule answers; then its frame leaves the queue (R135, R137). A head of another
code, or none, is left (log entry 6). -/
def State.request (s : State) (code : Byte) (form : List Byte → Bool) (body : State → Request → State) : State :=
  match s.freeHead with
  | none => s
  | some f =>
    if f.carries code then
      (if form f.request.fields then body s f.request else s.reply f.request .badRequest 2).popHead
    else s

end Sys2Proof.Machine
end

