-- ==== Sys2Proof/Machine/BoardRequests.lean ====
section
/-! DEFINITION. The requests on the board and the console's turn at Board Memory (R135, R150 to R156, R166). -/

namespace Sys2Proof.Machine

/-! ### Claiming the arbiter (R135) -/

/-- The outcome of a board request's checks: it claims the arbiter, or it is refused with a result and a detail. -/
inductive BoardCheck where
  | claim (op : BoardRequest)
  | refuse (r : ReplyResult) (detail : Nat)
  deriving DecidableEq, Repr

/-- A board request of the head: its form, then its checks; refused, it completes at once; passed, it holds the head and
claims the arbiter (R135, R137). A head of another code, or none, is left (log entry 6). -/
def State.boardRequest (s : State) (code : Byte) (form : List Byte → Bool) (check : State → List Byte → BoardCheck) :
    State :=
  match s.freeHead with
  | none => s
  | some f =>
    if f.carries code then
      if form f.request.fields then
        match check s f.request.fields with
        | .claim op => State.arbitrate { s with mgmt := { s.mgmt with claim := some op } }
        | .refuse r d => (s.reply f.request r d).popHead
      else (s.reply f.request .badRequest 2).popHead
    else s

/-! ### The requests -/

/-- The checks of WRITE_CELLS (R153). -/
def checkWriteCells (_ : State) (fs : List Byte) : BoardCheck :=
  if 15 < byteAt fs 0 then .refuse .badValue 1
  else if 47 < byteAt fs 1 then .refuse .badValue 2
  else
    .claim (.writeCells (byteAt fs 0) (byteAt fs 1) (.ofByte (byteAt fs 2))
      ((groups 2 (byteAt fs 3) (fs.drop 4)).map Cell.ofBytes))

/-- WRITE_CELLS (R153). -/
def execWriteCells (s : State) : Host.Outcome State Fault Refusal :=
  s.run fun s => s.boardRequest 0x18 (counted 3 4 2 1 48) checkWriteCells

/-- The checks of FILL_GROUP (R154; the order of the details is log entry 15). -/
def checkFillGroup (_ : State) (fs : List Byte) : BoardCheck :=
  if 15 < byteAt fs 0 ∨ 15 < byteAt fs 1 ∨ byteAt fs 1 < byteAt fs 0 then .refuse .badValue 1
  else if 47 < byteAt fs 2 ∨ 47 < byteAt fs 3 ∨ byteAt fs 3 < byteAt fs 2 then .refuse .badValue 2
  else .claim (.fill (byteAt fs 0) (byteAt fs 1) (byteAt fs 2) (byteAt fs 3) (.ofByte (byteAt fs 4)))

/-- FILL_GROUP (R154). -/
def execFillGroup (s : State) : Host.Outcome State Fault Refusal :=
  s.run fun s => s.boardRequest 0x19 (sized 5) checkFillGroup

/-- The checks of CLEAR_ROW: all 48 cells of one row (R154). -/
def checkClearRow (_ : State) (fs : List Byte) : BoardCheck :=
  if 15 < byteAt fs 0 then .refuse .badValue 1
  else .claim (.fill (byteAt fs 0) (byteAt fs 0) 0 47 (.ofByte (byteAt fs 1)))

/-- CLEAR_ROW (R154). -/
def execClearRow (s : State) : Host.Outcome State Fault Refusal :=
  s.run fun s => s.boardRequest 0x1A (sized 2) checkClearRow

/-- The checks of LOAD_PATTERN (R151). -/
def checkLoadPattern (_ : State) (fs : List Byte) : BoardCheck :=
  if 7 < byteAt fs 1 then .refuse .badValue 2
  else if 1 < byteAt fs 2 then .refuse .badValue 3
  else
    .claim (.loadPattern
      { glyph := fs.getD 0 0, colour := BitVec.ofNat 3 (byteAt fs 1), blink := byteAt fs 2 == 1 })

/-- LOAD_PATTERN (R151). -/
def execLoadPattern (s : State) : Host.Outcome State Fault Refusal :=
  s.run fun s => s.boardRequest 0x1B (sized 3) checkLoadPattern

/-- The fields of R155 with what puts each at fault in WRITE_LAYOUT, in number order, and 14 for the Lane Row Map
(R156, R183). -/
def layoutFaults (fs : List Byte) : List (Nat × Bool) :=
  let wide (i w : Nat) : Bool := decide (47 < byteAt fs i + w - 1)
  let row (i : Nat) : Bool := decide (15 < byteAt fs i)
  let colour (i : Nat) : Bool := decide (7 < byteAt fs i)
  [(1, row 0 || wide 1 3), (2, row 2 || wide 3 2), (3, row 4 || wide 5 7), (4, wide 6 2), (5, wide 7 3),
    (6, wide 8 5), (7, wide 9 8), (8, colour 10), (9, colour 11), (10, colour 12), (11, colour 13), (12, colour 14),
    (13, colour 15), (14, (fs.drop 16).any fun b => decide (15 < b.toNat) && b != 0xFF)]

/-- The layout a request carries (R183). -/
def Layout.ofBytes (fs : List Byte) : Layout :=
  let colour (i : Nat) : BitVec 3 := BitVec.ofNat 3 (byteAt fs i)
  { eventRow := byteAt fs 0, eventCol := byteAt fs 1, heatRow := byteAt fs 2, heatCol := byteAt fs 3
    clockRow := byteAt fs 4, clockCol := byteAt fs 5, laneCol := byteAt fs 6, placeCol := byteAt fs 7
    reactionCol := byteAt fs 8, timeCol := byteAt fs 9, normal := colour 10, first := colour 11, second := colour 12
    third := colour 13, disqualified := colour 14, review := colour 15
    laneRows := (fs.drop 16).map fun b => if b = 0xFF then none else some b.toNat }

/-- The checks of WRITE_LAYOUT (R156). -/
def checkWriteLayout (s : State) (fs : List Byte) : BoardCheck :=
  if s.heat.state ≠ .idle then .refuse .refusedState 0
  else match (layoutFaults fs).find? (·.2) with
    | some (d, _) => .refuse .badValue d
    | none => .claim (.writeLayout (.ofBytes fs))

/-- WRITE_LAYOUT (R156). -/
def execWriteLayout (s : State) : Host.Outcome State Fault Refusal :=
  s.run fun s => s.boardRequest 0x1E (sized 26) checkWriteLayout

/-- The checks of SEND_ROW_NOW (R166). -/
def checkSendRowNow (_ : State) (fs : List Byte) : BoardCheck :=
  if 15 < byteAt fs 0 then .refuse .badValue 1 else .claim (.sendRow (byteAt fs 0))

/-- SEND_ROW_NOW (R166). -/
def execSendRowNow (s : State) : Host.Outcome State Fault Refusal :=
  s.run fun s => s.boardRequest 0x1F (sized 1) checkSendRowNow

/-! ### The plane mask, carried out without the arbiter (R152) -/

/-- LOAD_PLANE_MASK's own rule (R152). -/
def loadPlaneMask (s : State) (q : Request) : State :=
  State.reply
    { s with board := { s.board with loadedMask := .ofByte (byteAt q.fields 0), maskPersistent := true } } q .done

/-- LOAD_PLANE_MASK (R152). -/
def execLoadPlaneMask (s : State) : Host.Outcome State Fault Refusal :=
  s.run fun s => s.request 0x1C (sized 1) loadPlaneMask

/-- RELEASE_PLANE_MASK's own rule (R152). -/
def releasePlaneMask (s : State) (q : Request) : State :=
  State.reply { s with board := { s.board with maskPersistent := false } } q .done

/-- RELEASE_PLANE_MASK (R152). -/
def execReleasePlaneMask (s : State) : Host.Outcome State Fault Refusal :=
  s.run fun s => s.request 0x1D (sized 0) releasePlaneMask

/-! ### The completion of a console operation (R150) -/

/-- The REPLY of the head's request with a console operation's result, and its completion (R135, R150). -/
def State.answerHead (s : State) (op : ConsoleOp) : State :=
  match s.mgmt.queue with
  | f :: _ => (s.reply f.request op.result.1 op.result.2).popHead
  | [] => s

/-- BOARD_OPERATION_COMPLETE (R150): the changes are seen, the REPLY is offered, the request leaves the queue, and the
arbiter grants the next claim. It has an effect while a console operation is in progress (log entry 4). -/
def execBoardOperationComplete (s : State) : Host.Outcome State Fault Refusal :=
  s.run fun s =>
    match s.board.operation with
    | some (.console op) => ((s.applyConsole op).answerHead op).freeBoard
    | _ => s

end Sys2Proof.Machine
end

