-- ==== Sys2Proof/Machine/Heat.lean ====
section
/-! DEFINITION. The Heat Controller: the start event, the closes and their timers (R21 to R30). -/

namespace Sys2Proof.Machine

/-! ### Closing (R26, R28) -/

/-- Step 3 of a close for one lane: SWIMMING becomes NO_FINISH. -/
def State.noFinish (s : State) (lane : Nat) : State :=
  match s.record? lane with
  | none => s
  | some r =>
    if r.status = .swimming then s.commit lane (fun r => { r with status := .noFinish }) touchesPlacer unnamed fun _ => none
    else s

/-- Step 1 of a close: a start still to be judged is judged at the Deck Time of the close. -/
def State.closeStart (s : State) : State := if s.heat.startTimer.isSome then s.judgeStart s.deckTime else s

/-- Steps 2 to 4 of a close: open collections decided, lanes without a finish, exchange windows. R28, R66 and R86 give the
order of the steps and none of the lanes within one: each step takes the lanes from 0 to 9 (DESIGN CHOICE, log
entry 26). -/
def State.closeLanes (s : State) : State :=
  let s2 := Config.lanes.foldl (fun t l => t.decideCollection l true) s
  let s3 := Config.lanes.foldl State.noFinish s2
  Config.lanes.foldl (fun t l => t.judgeExchange l t.deckTime) s3

/-- A close of the heat (R28), with the fire of program 2 that CLOSE_ALL_FINAL makes (R26, R174). -/
def State.closeHeat (s : State) (cause : HeatCause) : State :=
  let s4 := s.closeStart.closeLanes
  let s6 := State.enterHeat { s4 with heat := { s4.heat with limitTimer := none } } .results cause
  let s7 := s6.stopClock (s6.heatTime s6.deckTime)
  if cause = .closeAllFinal then s7.fireEnd else s7

/-- The closing condition: every lane in use is FINAL, NO_FINISH or DNS (R26). -/
def State.allClosed (s : State) : Bool :=
  s.results.all fun r => r.status == .final || r.status == .noFinish || r.status == .dns

/-- The closing condition examined while the heat is RUNNING (R26). -/
def State.examineClosing (s : State) : State :=
  if s.heat.state == .running && s.allClosed then s.closeHeat .closeAllFinal else s

/-- The heat-limit timer's expiry: it acts when the timer is due in RUNNING (R25; log entry 4). -/
def State.limitExpires (s : State) : State :=
  if s.expired s.heat.limitTimer && s.heat.state == .running then (s.closeHeat .closeLimit).arbitrate else s

/-- HEAT_LIMIT_EXPIRY (R25). -/
def execHeatLimitExpiry (s : State) : Host.Outcome State Fault Refusal := s.run State.limitExpires

/-- The lane's collection is open and its timer is due. -/
def State.collectionDue (s : State) (lane : Nat) : Bool :=
  match s.collector? lane with
  | some c => c.state == .collecting && s.expired c.timer
  | none => false

/-- The expiry of a lane's collection timer: the arrival is decided, then the closing condition is examined. It acts when
the lane's collection is open and its timer is due (R64, R65; log entry 4). -/
def State.collectionExpires (s : State) (lane : Nat) : State :=
  if s.collectionDue lane then ((s.decideCollection lane false).examineClosing).arbitrate else s

/-- LAP_COLLECTION_EXPIRY (R64, R65). -/
def execLapCollectionExpiry (lane : Nat) (s : State) : Host.Outcome State Fault Refusal :=
  s.run fun s => s.collectionExpires lane

/-! ### The start (R24, R41, R42) -/

/-- A WAITING lane becomes SWIMMING (R24). -/
def LaneRecord.started (r : LaneRecord) : LaneRecord :=
  if r.status = .waiting then { r with status := .swimming } else r

/-- The lane is DNS. -/
def State.isDns (s : State) (lane : Nat) : Bool := (s.record? lane).any fun r => r.status == .dns

/-- The collectors of lanes that are not DNS arm for lap 1 (R24, R51). -/
def State.armCollectors (s : State) : State :=
  { s with walls := { s.walls with
      collectors := s.walls.collectors.map fun c =>
        if s.isDns c.lane then c else .armedAt c.lane 1 s.plan.minLapTicks } }

/-- The start event: epoch, lanes, collectors, timers, clock, program 0 and its report (R24, R158, R174, R175); then the
closing condition is examined. -/
def State.startEvent (s : State) : State :=
  let s1 := State.armCollectors
    { s with
      heat := { s.heat with
        epoch := some s.deckTime
        startTimer := some (s.deckTime + ticks s.plan.startWindowTicks)
        limitTimer := some (s.deckTime + ticks s.plan.limitTicks) }
      results := s.results.map LaneRecord.started
      composer := { s.composer with clockRunning := true, clockTimer := some (s.deckTime + Config.clockInterval) } }
  ((s1.firePreempting 0).enterHeat .running .start).examineClosing

/-- A stray start is counted (R42). -/
def State.strayStart (s : State) : State :=
  { s with starts := { s.starts with strayCount := satAdd 16 s.starts.strayCount 1 } }

/-- The level sensed on a line becomes `level` (R41, R170). -/
def State.senseLine (s : State) (line : Nat) (level : Bool) : State :=
  { s with pulse := { s.pulse with sensed := s.pulse.sensed.set line level } }

/-- The start line's previous level becomes `level` (R41). -/
def State.notePrevious (s : State) (level : Bool) : State :=
  { s with pulse := { s.pulse with startPrevious := level } }

/-- A rising edge of the start line: the start event in ARMED, a stray start in every other heat state (R41, R42). -/
def State.risingEdge (s : State) : State :=
  if s.heat.state = .armed then s.startEvent.arbitrate else s.strayStart

/-- START_LINE_RISING_EDGE (R41): the start line is sensed high, and its level was low. While the RESET pin is held the
level alone is sensed (log entry 2). A line whose previous level is high gives no rising edge. -/
def execStartLineRisingEdge (s : State) : Host.Outcome State Fault Refusal :=
  let t := s.senseLine s.mgmt.settings.startLine true
  .next (if s.resetHeld || s.pulse.startPrevious then t else (t.notePrevious true).risingEdge)

/-- The start line goes high from a low previous level: that change is START_LINE_RISING_EDGE's own. -/
def State.isRising (s : State) (line : Nat) (level : Bool) : Bool :=
  !s.resetHeld && line == s.mgmt.settings.startLine && level && !s.pulse.startPrevious

/-- LINE_LEVEL_CHANGE (R41): the level the deck puts on a line is sensed. A falling edge of the start line is not an event,
and its previous level becomes low; a rising edge of the start line is left to START_LINE_RISING_EDGE
(log entry 4). -/
def execLineLevelChange (line : Nat) (level : Bool) (s : State) : Host.Outcome State Fault Refusal :=
  .next
    (if s.isRising line level then s
    else
      let t := s.senseLine line level
      if line = s.mgmt.settings.startLine ∧ s.resetHeld = false then t.notePrevious level else t)

end Sys2Proof.Machine
end

