-- ==== Sys2Proof/Machine/Intake.lean ====
section
/-! DEFINITION. Loop Intake: the frame checker, verdicts, sensor frames, loop silence, and Loop Out completions
(R3 to R6, R108 to R118, R126, R134). -/

namespace Sys2Proof.Machine

/-! ### Integrity and verdicts (R109 to R111) -/

/-- A fault of R109 other than the CRC's. -/
def EndedFrame.broken (e : EndedFrame) : Bool :=
  e.cut || decide (e.bytes.length < 7) || e.tooLong || e.bytes.length != 7 + (e.bytes.getD 4 0).toNat

/-- The CRC fault (R109). -/
def EndedFrame.corrupt (e : EndedFrame) : Bool :=
  (frameOf e.bytes).crc != crc16 (e.bytes.take (e.bytes.length - 2))

/-- The PASSED mark, bit 7 of the flags (R178). -/
def Frame.passed (f : Frame) : Bool := f.flags.getLsbD 7

/-- The edge count of a SENSOR payload (R179). -/
def Frame.edgeCount (f : Frame) : Nat := (f.payload.getD 1 0).toNat

/-- The edge records of a SENSOR payload, three bytes each (R179). -/
def Frame.edges (f : Frame) : List (List Byte) := groups 3 f.edgeCount (f.payload.drop 2)

/-- The sensor code of an edge record (R179). -/
def sensorCode (edge : List Byte) : Nat := byteAt edge 0 / 16

/-- The sensor of a code; codes above 4 name none (R179). -/
def Sensor.ofCode? : Nat → Option Sensor
  | 0 => some .pad | 1 => some .platform | 2 => some .button1 | 3 => some .button2 | 4 => some .button3
  | _ => none

/-- BAD_EDGE_COUNT (R111). -/
def Frame.badEdgeCount (f : Frame) : Bool :=
  decide (f.payload.length < 2) || f.edgeCount == 0 || decide (8 < f.edgeCount)
    || f.payload.length != 2 + 3 * f.edgeCount

/-- BAD_SENSOR (R111). -/
def Frame.badSensor (active : List (Option ActiveEntry)) (f : Frame) : Bool :=
  !f.badEdgeCount && f.edges.any fun e =>
    decide (4 < sensorCode e)
      || (sensorCode e == 1 && (resolveAddress active f.src).any fun n => n.wall == .turn)

/-- The condition of each qualifier (R111). -/
def Frame.meets (active : List (Option ActiveEntry)) (f : Frame) : Qualifier → Bool
  | .kindNotTaken => f.kind != kindSensor && f.kind != kindManage
  | .notConsole => f.kind == kindManage && f.src != 0x02 && f.src != 0x03
  | .unknownNode => f.kind == kindSensor && (resolveAddress active f.src).isNone
  | .badEdgeCount => f.kind == kindSensor && f.badEdgeCount
  | .badSensor => f.kind == kindSensor && f.badSensor active

/-- The qualifiers that apply to a frame, lowest rank first (R111). -/
def Frame.qualifiers (active : List (Option ActiveEntry)) (f : Frame) : List Qualifier :=
  [Qualifier.kindNotTaken, .notConsole, .unknownNode, .badEdgeCount, .badSensor].filter (f.meets active)

/-- The verdict of a frame: the one of lowest rank whose condition holds (R110). -/
def State.verdict (s : State) (e : EndedFrame) : Verdict :=
  let f := frameOf e.bytes
  if e.broken then .broken
  else if e.corrupt then .corrupt
  else if f.dst = 0 ∧ f.qualifiers s.nodes.active ≠ [] then .inadmissible
  else if f.dst ≠ 0 ∧ f.passed = true then .orphan
  else if f.src = 0 then .returned
  else if f.dst ≠ 0 ∧ Config.transitCapacity ≤ s.out.transit.length then .dropped
  else if f.dst ≠ 0 then .forwarded
  else .accepted

/-! ### Counters and the analysis record (R113, R114) -/

/-- The counter of a verdict gains one and wraps (R113). -/
def VerdictCounts.bump (c : VerdictCounts) : Verdict → VerdictCounts
  | .broken => { c with broken := c.broken + 1 }
  | .corrupt => { c with corrupt := c.corrupt + 1 }
  | .inadmissible => { c with inadmissible := c.inadmissible + 1 }
  | .orphan => { c with orphan := c.orphan + 1 }
  | .returned => { c with returned := c.returned + 1 }
  | .dropped => { c with dropped := c.dropped + 1 }
  | .forwarded => { c with forwarded := c.forwarded + 1 }
  | .accepted => { c with accepted := c.accepted + 1 }

/-- The verdicts that refuse a frame (R114). -/
def Verdict.refuses : Verdict → Bool
  | .broken | .corrupt | .inadmissible | .orphan | .dropped => true
  | .returned | .forwarded | .accepted => false

/-- The analysis record after a frame's verdict (R114). -/
def IntakeAnalysis.record (a : IntakeAnalysis) (v : Verdict) (qs : List Qualifier) (e : EndedFrame) : IntakeAnalysis :=
  if v.refuses then
    { lastStamp := some e.stamp
      lastVerdict := some v
      qualifier := if v = .inadmissible then qs.head? else none
      multiple := v == .inadmissible && decide (1 < qs.length)
      refusedStamp := some e.stamp
      refusedDst := e.bytes[0]?
      refusedSrc := e.bytes[1]?
      refusedKind := e.bytes[2]?
      seen := false }
  else { a with lastStamp := some e.stamp }

/-- A verdict counted and recorded (R113, R114). -/
def State.recordVerdict (s : State) (v : Verdict) (e : EndedFrame) : State :=
  { s with intake := { s.intake with
      counts := s.intake.counts.bump v
      analysis := s.intake.analysis.record v ((frameOf e.bytes).qualifiers s.nodes.active) e } }

/-! ### Sensor frames (R5, R6, R115, R116) -/

/-- The edge deck time of a record, none for a stale one (R5, R6). -/
def edgeDeck (stamp : DeckTime) (delay : Byte) (edge : List Byte) : Option DeckTime :=
  if wordAt edge 1 = 65535 then none else some (stamp - ticks (wordAt edge 1) - ticks delay.toNat)

/-- A stale edge is counted, and sets REVIEW on a lane in use in RUNNING (R6). -/
def State.staleEdge (s : State) (lane : Nat) : State :=
  let t := { s with intake := { s.intake with staleCount := satAdd 16 s.intake.staleCount 1 } }
  if s.heat.state = .running then t.note lane fun r => { r with flags := r.flags.orReview true } else t

/-- An edge of the node at `wall` reaches the Start Judge, which takes those of the start sensor (R38, R116). -/
def State.toStartJudge (s : State) (lane : Nat) (wall : Wall) (sensor : Sensor) (press : Bool) (deck : Option DeckTime) :
    State :=
  if wall = .start ∧ sensor = s.plan.startSensor then s.trackerEdge lane press deck else s

/-- An edge reaches the Wall Judge, which ignores releases, platform edges and stale presses (R53, R116). -/
def State.toWallJudge (s : State) (lane : Nat) (wall : Wall) (sensor : Sensor) (press : Bool) (deck : Option DeckTime) :
    State :=
  match deck with
  | none => s
  | some d =>
    if press && sensor != .platform then
      s.takePress { lane := lane, wall := wall, sensor := sensor, deck := d, time := s.heatTime d }
    else s

/-- One edge record rebuilt and handed on whole (R5, R6, R116). -/
def State.handEdge (n : ActiveEntry) (stamp : DeckTime) (s : State) (edge : List Byte) : State :=
  match Sensor.ofCode? (sensorCode edge) with
  | none => s
  | some sensor =>
    let press := (byteAt edge 0).testBit 0
    let deck := edgeDeck stamp n.delay edge
    let s1 := if deck.isNone then s.staleEdge n.lane else s
    (s1.toStartJudge n.lane n.wall sensor press deck).toWallJudge n.lane n.wall sensor press deck

/-- A sequence gap of `g` frames: counted, and in RUNNING marked on the lane and its collector (R75, R115). -/
def State.sequenceGap (s : State) (n : ActiveEntry) (g : Nat) : State :=
  let t := { s with intake := { s.intake with lostCount := satAdd 16 s.intake.lostCount g } }
  if s.heat.state = .running then
    State.markLinks
      (match s.record? n.lane with
      | some r => if r.status = .dns then t else t.note n.lane fun r => { r with flags := r.flags.markGap }
      | none => t)
      fun c => c.lane == n.lane && (c.state == .armed || c.state == .collecting) && lapWall c.lap == n.wall
  else t

/-- The gap between a frame's sequence number and the expected one (R115). -/
def sequenceDistance (expected : Option Byte) (seq : Byte) : Nat :=
  match expected with
  | some x => (seq - x).toNat
  | none => 0

/-- An accepted SENSOR frame: resolved, its sequence checked and recorded, its edges handed on (R115). Every edge of the
frame is handed on before any expiry is taken, that of a collection timer already due when an edge of the frame set it among
them: R55 lets that expiry be taken before or after the frame's further edges (DESIGN CHOICE, log entry 31). -/
def State.sensorFrame (s : State) (f : Frame) (stamp : DeckTime) : State :=
  match resolveAddress s.nodes.active f.src with
  | none => s
  | some n =>
    let seq := f.payload.getD 0 0
    let g := sequenceDistance n.expected seq
    let s1 := { s with nodes := { s.nodes with active := recordExpected s.nodes.active f.src (seq + 1) } }
    let s2 := if g = 0 then s1 else s1.sequenceGap n g
    f.edges.foldl (State.handEdge n stamp) s2

/-! ### Disposal (R112, R134) -/

/-- An accepted MANAGE frame joins the queue, or is answered at once when the queue is full (R134). -/
def State.manageFrame (s : State) (f : Frame) : State :=
  if s.mgmt.queue.length < Config.mgmtCapacity then { s with mgmt := { s.mgmt with queue := s.mgmt.queue ++ [f] } }
  else s.reply f.request .refusedBusy 1

/-- The disposal of a frame by its verdict (R112). -/
def State.dispose (s : State) (v : Verdict) (e : EndedFrame) : State :=
  let f := frameOf e.bytes
  match v with
  | .forwarded => { s with out := s.out.forward (passOn f) }
  | .accepted => if f.kind = kindSensor then s.sensorFrame f e.stamp else s.manageFrame f
  | .broken | .corrupt | .inadmissible | .orphan | .returned | .dropped => s

/-- A frame that has ended receives its one verdict and is disposed of by it (R110, R112 to R114). -/
def State.receiveFrame (s : State) (e : EndedFrame) : State := (s.recordVerdict (s.verdict e) e).dispose (s.verdict e) e

/-! ### The frame checker (R3, R108) -/

/-- The open frame ends: it is stamped and receives its verdict (R3, R108). A frame cut before any byte is stamped with
the Deck Time of the cut; one ended whole before any byte takes a free stamp (log entry 8). -/
def State.endFrame (s : State) (bytes : List Byte) (tooLong : Bool) (lastByte : Option DeckTime) (cut : Bool) : State :=
  match lastByte with
  | some d => s.receiveFrame { bytes := bytes, tooLong := tooLong, cut := cut, stamp := d }
  | none =>
    if cut then s.receiveFrame { bytes := bytes, tooLong := tooLong, cut := cut, stamp := s.deckTime }
    else
      State.receiveFrame { s with freeDraws := s.freeDraws + 1 }
        { bytes := bytes, tooLong := tooLong, cut := cut, stamp := Config.freeStamp s.freeDraws }

def State.setChecker (s : State) (c : Checker) : State := { s with intake := { s.intake with checker := c } }

/-- A frame with no bytes begins (R108). -/
def Checker.fresh : Checker := .inFrame [] false none

/-- A symbol decoded by the frame checker (R108). -/
def State.decodeSymbol (s : State) (sym : LoopSymbol) : State :=
  match s.intake.checker, sym with
  | .between, .startDelimiter => s.setChecker .fresh
  | .between, _ => s
  | .inFrame bytes long _, .data b =>
    s.setChecker
      (if bytes.length < Config.maxFrameBytes then .inFrame (bytes ++ [b]) long (some s.deckTime)
      else .inFrame bytes true (some s.deckTime))
  | .inFrame bytes long last, .startDelimiter => (s.setChecker .fresh).endFrame bytes long last true
  | .inFrame bytes long last, .endDelimiter => (s.setChecker .between).endFrame bytes long last false
  | .inFrame bytes long last, .idle => (s.setChecker .between).endFrame bytes long last true
  | .inFrame bytes long last, .error => (s.setChecker .between).endFrame bytes long last true

/-! ### Loop silence (R117, R118) -/

/-- A valid symbol restarts the silence watch (R117). -/
def State.restartSilence (s : State) : State :=
  { s with intake := { s.intake with silenceTimer := some (s.deckTime + Config.silenceInterval) } }

/-- A lane still in the water when the loop is restored (R118). -/
def State.flagRestored (s : State) (lane : Nat) : State :=
  match s.record? lane with
  | some r =>
    if r.status = .swimming ∨ r.status = .provisional then s.note lane fun r => { r with flags := r.flags.markGap } else s
  | none => s

/-- The loop is restored (R118). -/
def State.restoreLoop (s : State) : State :=
  let t := State.restartSilence { s with intake := { s.intake with link := .up } }
  let u := if s.heat.state = .running then Config.lanes.foldl State.flagRestored t else t
  u.report (.loopRestored (s.deckTime - s.intake.outageStart))

/-- A symbol decoded at Loop In: the silence watch or the restore, then the frame checker (R108, R117, R118). -/
def State.symbolArrives (s : State) (sym : LoopSymbol) : State :=
  let t :=
    if sym.valid then if s.intake.link = .outage then s.restoreLoop else s.restartSilence else s
  t.decodeSymbol sym

/-- LOOP_IN_SYMBOL (R108). -/
def execLoopInSymbol (sym : LoopSymbol) (s : State) : Host.Outcome State Fault Refusal :=
  s.run fun s => (s.symbolArrives sym).arbitrate

/-- A symbol ends the open frame (R108). -/
def State.endsFrame (s : State) (sym : LoopSymbol) : Bool :=
  match s.intake.checker, sym with
  | .between, _ => false
  | .inFrame .., .data _ => false
  | .inFrame .., _ => true

/-- FRAME_RECEIVED (R110): the symbol that ends the open frame arrives. It has an effect when a frame is open and the
symbol ends it (log entries 4 and 7). -/
def execFrameReceived (sym : LoopSymbol) (s : State) : Host.Outcome State Fault Refusal :=
  s.run fun s => if s.endsFrame sym then (s.symbolArrives sym).arbitrate else s

/-- LOOP_RESTORED (R118): the first valid symbol in OUTAGE arrives. It has an effect in OUTAGE for a valid symbol
(log entries 4 and 7). -/
def execLoopRestored (sym : LoopSymbol) (s : State) : Host.Outcome State Fault Refusal :=
  s.run fun s => if s.intake.link = .outage ∧ sym.valid = true then (s.symbolArrives sym).arbitrate else s

/-- A frame open when the outage begins ends, cut by a symbol error (R117). -/
def State.cutFrame (s : State) : State :=
  match s.intake.checker with
  | .between => s
  | .inFrame bytes long last => (s.setChecker .between).endFrame bytes long last true

/-- The outage begins (R76, R117). -/
def State.beginOutage (s : State) : State :=
  let t := State.cutFrame
    { s with intake := { s.intake with link := .outage, silenceTimer := none, outageStart := s.deckTime } }
  State.markLinks { t with intake := { t.intake with outageCount := satAdd 16 t.intake.outageCount 1 } }
    fun c => c.state == .collecting

/-- The silence timer's expiry: it acts in UP when the timer is due (R117; log entry 4). -/
def State.silenceExpires (s : State) : State :=
  if s.intake.link = .up ∧ s.expired s.intake.silenceTimer = true then s.beginOutage.arbitrate else s

/-- LOOP_SILENCE_EXPIRY (R117). -/
def execLoopSilenceExpiry (s : State) : Host.Outcome State Fault Refusal := s.run State.silenceExpires

/-! ### The Loop Out Port (R126) -/

/-- LOOP_OUT_COMPLETION (R126): the port becomes IDLE and the arbiter chooses. It has an effect while the port sends a
frame, or the idle symbol of a frame that RESTART abandoned (R129; log entries 4 and 14). -/
def execLoopOutCompletion (s : State) : Host.Outcome State Fault Refusal :=
  s.run fun s =>
    if s.out.port.isSome || s.out.cutting then
      { s with out := LoopOut.choose { s.out with port := none, cutting := false } }
    else s

end Sys2Proof.Machine
end

