-- ==== Sys2Proof/Machine/HeatRequests.lean ====
section
/-! DEFINITION. The requests of the heat: plan, arming, abort, close, clear and did-not-start (R17 to R36). -/

namespace Sys2Proof.Machine

/-! ### LOAD_HEAT_PLAN (R18 to R20) -/

/-- A plan as LOAD_HEAT_PLAN carries it: the enumerations still as bytes. -/
structure PlanFields where
  event : Nat
  heat : Nat
  distance : Nat
  stroke : Nat
  relay : Nat
  split : Nat
  minLap : Nat
  collectionWindow : Nat
  trustWindow : Nat
  exchangeWindow : Nat
  tolerance : Nat
  startWindow : Nat
  reactionFloor : Nat
  heatLimit : Nat
  entries : List (List Byte)
  deriving DecidableEq, Repr

/-- The fields of LOAD_HEAT_PLAN in the order of R183. -/
def planFields (fs : List Byte) : PlanFields :=
  { event := wordAt fs 0, heat := byteAt fs 2, distance := wordAt fs 3, stroke := byteAt fs 5, relay := byteAt fs 6
    split := byteAt fs 7, minLap := wordAt fs 8, collectionWindow := wordAt fs 10, trustWindow := byteAt fs 12
    exchangeWindow := wordAt fs 13, tolerance := byteAt fs 15, startWindow := wordAt fs 16
    reactionFloor := byteAt fs 18, heatLimit := byteAt fs 19, entries := groups 4 (byteAt fs 20) (fs.drop 21) }

/-- The lowest-numbered field of step 3 of R18 at fault. -/
def PlanFields.valueFault (p : PlanFields) : Option Nat :=
  if (yesNo? p.relay).isNone then some 5
  else if (SplitMode.ofCode? p.split).isNone then some 6
  else if p.entries.any fun e => (yesNo? (byteAt e 3)).isNone then some 15
  else none

/-- Whether some value stands twice in a list. -/
def hasRepeat : List Nat → Bool
  | [] => false
  | a :: as => as.contains a || hasRepeat as

/-- The lowest reason code among the structural faults of a plan (R19). -/
def planFault (m : MeetSettings) (event heat distance : Nat) (relay strokeKnown : Bool) (lanes : List Nat) : Option Nat :=
  let laps := distance / m.course.metres
  if distance = 0 ∨ 1500 < distance ∨ distance % m.course.metres ≠ 0 then some 1
  else if 60 < laps then some 2
  else if relay = true ∧ (laps % 4 ≠ 0 ∨ laps / 4 % 2 = 1) then some 3
  else if lanes.any fun l => decide (m.laneCount ≤ l) then some 4
  else if hasRepeat lanes then some 5
  else if lanes = [] then some 6
  else if strokeKnown = false then some 7
  else if event = 0 ∨ 999 < event ∨ heat = 0 ∨ 99 < heat then some 8
  else none

/-- The structural faults of a request's plan (R19). -/
def PlanFields.fault (p : PlanFields) (m : MeetSettings) : Option Nat :=
  planFault m p.event p.heat p.distance (p.relay == 1) (Stroke.ofCode? p.stroke).isSome
    (p.entries.map fun e => byteAt e 0)

/-- The structural faults of a loaded plan, checked again at arming (R19, R22). -/
def Plan.fault (p : Plan) (m : MeetSettings) : Option Nat :=
  planFault m p.event p.heat p.distance p.relay true (p.entries.map (·.lane))

/-- A value clamped into a range (R20). -/
def clampTo (lo hi v : Nat) : Nat := max lo (min hi v)

/-- The plan that a request without faults loads, each timing field clamped (R17, R20). -/
def PlanFields.load (p : PlanFields) : Plan :=
  { event := p.event, heat := p.heat, distance := p.distance
    stroke := (Stroke.ofCode? p.stroke).getD .free
    relay := p.relay == 1
    split := (SplitMode.ofCode? p.split).getD .allWalls
    minLap := clampTo 0 60000 p.minLap
    collectionWindow := clampTo 10 300 p.collectionWindow
    trustWindow := clampTo 0 250 p.trustWindow
    exchangeWindow := clampTo 10 500 p.exchangeWindow
    tolerance := clampTo 0 100 p.tolerance
    startWindow := clampTo 50 500 p.startWindow
    reactionFloor := clampTo 0 250 p.reactionFloor
    heatLimit := clampTo 1 60 p.heatLimit
    entries := p.entries.map fun e =>
      { lane := byteAt e 0, entryId := BitVec.ofNat 16 (wordAt e 1), exhibition := byteAt e 3 == 1 } }

/-- The number of the lowest-numbered clamped field (R20). -/
def PlanFields.clamped (p : PlanFields) : Option Nat :=
  let q := p.load
  if q.minLap ≠ p.minLap then some 7
  else if q.collectionWindow ≠ p.collectionWindow then some 8
  else if q.trustWindow ≠ p.trustWindow then some 9
  else if q.exchangeWindow ≠ p.exchangeWindow then some 10
  else if q.tolerance ≠ p.tolerance then some 11
  else if q.startWindow ≠ p.startWindow then some 12
  else if q.reactionFloor ≠ p.reactionFloor then some 13
  else if q.heatLimit ≠ p.heatLimit then some 14
  else none

/-- Steps 2 to 5 of R18. -/
def loadHeatPlan (s : State) (q : Request) : State :=
  let p := planFields q.fields
  if s.heat.state ≠ .idle then s.reply q .refusedState
  else match p.valueFault with
    | some d => s.reply q .badValue d
    | none => match p.fault s.mgmt.settings with
      | some d => s.reply q .planInvalid d
      | none =>
        let t := { s with heat := { s.heat with plan := some p.load } }
        match p.clamped with
        | some d => t.reply q .doneClamped d
        | none => t.reply q .done

/-- LOAD_HEAT_PLAN (R18). -/
def execLoadHeatPlan (s : State) : Host.Outcome State Fault Refusal :=
  s.run fun s => s.request 0x08 (counted 20 21 4 0 10) loadHeatPlan

/-! ### ARM_HEAT (R22, R23) -/

/-- The lanes in use of a plan, in increasing order. -/
def Plan.lanes (p : Plan) : List Nat := Config.lanes.filter fun l => p.entries.any (·.lane == l)

/-- The first lane in use that lacks an enabled START or TURN entry (R22). -/
def Plan.lackingNode (p : Plan) (active : List (Option ActiveEntry)) : Option Nat :=
  p.lanes.find? fun l => (resolvePlace active l .start).isNone || (resolvePlace active l .turn).isNone

/-- The record of a lane in use at arming (R23, R91). -/
def LaneEntry.record (e : LaneEntry) : LaneRecord :=
  { lane := e.lane, entryId := e.entryId, flags := { exhibition := e.exhibition } }

/-- The records at arming, in lane order (R23). -/
def Plan.records (p : Plan) : List LaneRecord :=
  Config.lanes.filterMap fun l => (p.entries.find? (·.lane == l)).map LaneEntry.record

/-- The blocks as arming sets them (R23, R37, R51, R78, R119, R158, R160). -/
def State.armed (s : State) (p : Plan) : State :=
  let t := { s with
    results := p.records
    walls := { s.walls with collectors := p.lanes.map fun l => { lane := l } }
    exchanges := if p.relay then p.lanes.map fun l => { lane := l, window := none } else []
    starts := { s.starts with trackers := freshTrackers true }
    nodes := { s.nodes with active := clearExpected s.nodes.active } }
  ((t.makeAllPending [.event, .heat]).stopClock 0).makeLaneRowsPending

/-- ARM_HEAT carried out: the REPLY, the blocks, the lamps and the report (R21, R23). -/
def State.arm (s : State) (q : Request) (p : Plan) : State :=
  ((((s.reply q .done).armed p).lampsOff).enterHeat .armed .arm).arbitrate

/-- The checks of R22. -/
def armHeat (s : State) (q : Request) : State :=
  match s.heat.plan with
  | none => s.reply q .refusedState
  | some p =>
    if s.heat.state ≠ .idle then s.reply q .refusedState
    else match p.fault s.mgmt.settings with
      | some d => s.reply q .planInvalid d
      | none => match p.lackingNode s.nodes.active with
        | some l => s.reply q .mapIncomplete l
        | none => s.arm q p

/-- ARM_HEAT (R22). -/
def execArmHeat (s : State) : Host.Outcome State Fault Refusal :=
  s.run fun s => s.request 0x09 (sized 0) armHeat

/-! ### ABORT_HEAT and CLEAR_HEAT (R31 to R34) -/

/-- The heat's epoch discarded and its timers stopped. -/
def State.stopHeat (s : State) : State :=
  { s with heat := { s.heat with epoch := none, startTimer := none, limitTimer := none } }

/-- The records of the heat discarded: the Result Table, the collectors and the Arrival Pool; the trackers UNKNOWN and
not taking (R31, R34, R37, R51, R78). -/
def State.discardHeat (s : State) : State :=
  { s with
    results := []
    walls := { collectors := [], pool := [] }
    exchanges := []
    starts := { s.starts with trackers := freshTrackers false } }

/-- The heat returns to IDLE: by a disarm or a clear (R31, R34, R160). -/
def State.toIdle (s : State) (q : Request) (cause : HeatCause) : State :=
  (((s.reply q .done).stopHeat.discardHeat.makeLaneRowsPending).enterHeat .idle cause).arbitrate

/-- The blocks as a recall sets them, but for the board, the lamps and the programs (R32, R51, R78, R91). -/
def State.recalled (s : State) : State :=
  { s.stopHeat with
    walls := { collectors := s.walls.collectors.map fun c => { lane := c.lane }, pool := [] }
    exchanges := s.exchanges.map fun c => { c with window := none }
    results := s.results.map LaneRecord.recalled }

/-- The PLACE, REACTION and TIME fields of every lane in use, in lane order (R160). R32 blanks them; a lane that stays DNS shows "DNS"
again in TIME, as R159 forms it from its record (DEDUCED, log entry 27). -/
def State.recallFields (s : State) : List BoardField :=
  (Config.lanes.filter fun l => (s.record? l).isSome).flatMap fun l => [.place l, .reaction l, .time l]

/-- A recall: REPLY, the blocks, the board, LAMP OFF frames, program 1, the report (R21, R32, R160, R174, R175). -/
def State.recall (s : State) (q : Request) : State :=
  let t := (s.reply q .done).recalled.stopClock 0
  (((t.makeAllPending t.recallFields).lampsOff.firePreempting 1).enterHeat .armed .abort).arbitrate

/-- ABORT_HEAT by heat state (R31 to R33). -/
def abortHeat (s : State) (q : Request) : State :=
  match s.heat.state with
  | .armed => s.toIdle q .disarm
  | .running => s.recall q
  | .idle | .results => s.reply q .refusedState

/-- ABORT_HEAT (R31, R32). -/
def execAbortHeat (s : State) : Host.Outcome State Fault Refusal :=
  s.run fun s => s.request 0x0A (sized 0) abortHeat

/-- CLEAR_HEAT by heat state (R34). -/
def clearHeat (s : State) (q : Request) : State :=
  match s.heat.state with
  | .armed | .results => s.toIdle q .clear
  | .idle | .running => s.reply q .refusedState

/-- CLEAR_HEAT (R34). -/
def execClearHeat (s : State) : Host.Outcome State Fault Refusal :=
  s.run fun s => s.request 0x0C (sized 0) clearHeat

/-! ### CLOSE_HEAT (R27) -/

/-- CLOSE_HEAT by heat state: the REPLY stands before the close's reports (R21, R27). -/
def closeHeatRequest (s : State) (q : Request) : State :=
  if s.heat.state = .running then ((s.reply q .done).closeHeat .closeRequest).arbitrate else s.reply q .refusedState

/-- CLOSE_HEAT (R27). -/
def execCloseHeat (s : State) : Host.Outcome State Fault Refusal :=
  s.run fun s => s.request 0x0B (sized 0) closeHeatRequest

/-! ### MARK_DNS (R35) -/

/-- The lane's collector DORMANT, an open collection cancelled and its values discarded (R35, R51, R77). -/
def State.dropCollector (s : State) (lane : Nat) : State :=
  { s with walls := { s.walls with
      collectors := s.walls.collectors.map fun c => if c.lane = lane then { lane := c.lane, lap := c.lap } else c } }

/-- The record of a lane marked DNS (R35). -/
def LaneRecord.didNotStart (r : LaneRecord) : LaneRecord :=
  { r with status := .dns, reaction := none, finish := none, flags := r.flags.onlyExhibition }

/-- MARK_DNS carried out, with the closing condition examined in RUNNING (R26, R35). -/
def State.markLaneDns (s : State) (q : Request) (lane : Nat) : State :=
  (((((s.reply q .done).dropCollector lane).commit lane LaneRecord.didNotStart touchesPlacer
    alwaysNamed fun _ => none).examineClosing).arbitrate)

/-- A lane that can be marked DNS (R35). -/
def LaneRecord.canMark (r : LaneRecord) : Bool := (r.status == .waiting || r.status == .swimming) && r.lapCount == 0

/-- The checks of R35. -/
def markDns (s : State) (q : Request) : State :=
  let lane := byteAt q.fields 0
  if 9 < lane ∨ s.laneInUse lane = false then s.reply q .badValue
  else if (s.heat.state = .armed ∨ s.heat.state = .running) ∧ (s.record? lane).any LaneRecord.canMark = true then
    s.markLaneDns q lane
  else s.reply q .refusedState

/-- MARK_DNS (R35). -/
def execMarkDns (s : State) : Host.Outcome State Fault Refusal :=
  s.run fun s => s.request 0x0D (sized 1) markDns

end Sys2Proof.Machine
end

