-- ==== Sys2Proof/Machine/NodeRequests.lean ====
section
/-! DEFINITION. The requests on the Node Map (R121 to R123). -/

namespace Sys2Proof.Machine

/-! ### WRITE_NODE_ENTRIES (R121) -/

/-- An entry of the request is at fault (R121). -/
def nodeEntryFault (e : List Byte) : Bool :=
  decide (9 < byteAt e 1) || decide (1 < byteAt e 2) || decide (1 < byteAt e 4)

/-- The Working Map entry of five bytes (R183). -/
def WorkingEntry.ofBytes (e : List Byte) : WorkingEntry :=
  { address := e.getD 0 0, lane := byteAt e 1, wall := if byteAt e 2 = 1 then .turn else .start, delay := e.getD 3 0
    enabled := byteAt e 4 == 1 }

/-- Entries written from an index on (R121). -/
def writeEntries : List WorkingEntry → Nat → List WorkingEntry → List WorkingEntry
  | m, _, [] => m
  | m, i, e :: es => writeEntries (m.set i e) (i + 1) es

/-- The detail of a BAD_VALUE: 0 for the indices, else the position from 1 of the first entry at fault (R121). -/
def nodeEntriesFault (fs : List Byte) : Option Nat :=
  if 32 < byteAt fs 0 + byteAt fs 1 then some 0
  else ((groups 5 (byteAt fs 1) (fs.drop 2)).findIdx? nodeEntryFault).map (· + 1)

/-- WRITE_NODE_ENTRIES's own rule (R121). -/
def writeNodeEntries (s : State) (q : Request) : State :=
  match nodeEntriesFault q.fields with
  | some d => s.reply q .badValue d
  | none =>
    State.reply
      { s with nodes := { s.nodes with
          working := writeEntries s.nodes.working (byteAt q.fields 0)
            ((groups 5 (byteAt q.fields 1) (q.fields.drop 2)).map WorkingEntry.ofBytes) } }
      q .done

/-- WRITE_NODE_ENTRIES (R121). -/
def execWriteNodeEntries (s : State) : Host.Outcome State Fault Refusal :=
  s.run fun s => s.request 0x05 (counted 1 2 5 1 8) writeNodeEntries

/-! ### SELECT_NODE_MAP (R122) -/

/-- The Active Map built from the fixed plan of the Meet Settings (R120). -/
def MeetSettings.fixedMap (m : MeetSettings) : List (Option ActiveEntry) := Machine.fixedMap m.fixedPlan m.laneCount

/-- A build: the Active Map and the selection replaced (R122). -/
def State.buildMap (s : State) (active : List (Option ActiveEntry)) (sel : MapSelection) : State :=
  { s with nodes := { s.nodes with active := active, selection := sel } }

/-- SELECT_NODE_MAP's own rule (R122). -/
def selectNodeMap (s : State) (q : Request) : State :=
  if 1 < byteAt q.fields 0 then s.reply q .badValue
  else if s.heat.state = .armed ∨ s.heat.state = .running then s.reply q .refusedState
  else if byteAt q.fields 0 = 0 then (s.buildMap s.mgmt.settings.fixedMap .fixed).reply q .done
  else match mapFault s.nodes.working s.mgmt.settings.laneCount with
    | some d => s.reply q .mapInvalid d
    | none => (s.buildMap (s.nodes.working.map workingSlot) .working).reply q .done

/-- SELECT_NODE_MAP (R122). -/
def execSelectNodeMap (s : State) : Host.Outcome State Fault Refusal :=
  s.run fun s => s.request 0x06 (sized 1) selectNodeMap

/-! ### READ_NODE_ENTRY (R123, R183) -/

/-- The reply fields of an Active Map slot; an empty slot is sent as zeros after its mark (R177, R183). -/
def NodeMap.activeFields (n : NodeMap) (i : Nat) : List Byte :=
  n.selection.code :: match (n.active[i]?).join with
    | none => [0, 0, 0, 0, 0, 0, 0, 0]
    | some e =>
      [1, e.address, byte e.lane, e.wall.code, e.delay, boolByte e.enabled] ++ match e.expected with
        | some x => [1, x]
        | none => [0, 0]

/-- The reply fields of a Working Map entry (R183). -/
def NodeMap.workingFields (n : NodeMap) (i : Nat) : List Byte :=
  match n.working[i]? with
  | some e => [e.address, byte e.lane, e.wall.code, e.delay, boolByte e.enabled]
  | none => []

/-- READ_NODE_ENTRY's own rule (R123). -/
def readNodeEntry (s : State) (q : Request) : State :=
  if 1 < byteAt q.fields 0 ∨ 31 < byteAt q.fields 1 then s.reply q .badValue
  else if byteAt q.fields 0 = 0 then s.reply q .done 0 (s.nodes.activeFields (byteAt q.fields 1))
  else s.reply q .done 0 (s.nodes.workingFields (byteAt q.fields 1))

/-- READ_NODE_ENTRY (R123). -/
def execReadNodeEntry (s : State) : Host.Outcome State Fault Refusal :=
  s.run fun s => s.request 0x07 (sized 2) readNodeEntry

end Sys2Proof.Machine
end

