-- ==== Sys2Proof/Machine/MeetRequests.lean ====
section
/-! DEFINITION. The requests on the part as a whole: status reads, Meet Settings, the report destination, RESTART and
unknown requests (R137 to R147). -/

namespace Sys2Proof.Machine

/-! ### READ_STATUS (R138, R183) -/

/-- A lane entry as four bytes (R183). -/
def LaneEntry.bytes (e : LaneEntry) : List Byte := byte e.lane :: be16 e.entryId.toNat ++ [boolByte e.exhibition]

/-- Fields 1 to 14 of a plan as in LOAD_HEAT_PLAN, 20 bytes (R183). -/
def Plan.fixedBytes (p : Plan) : List Byte :=
  be16 p.event ++ [byte p.heat] ++ be16 p.distance ++ [p.stroke.code, boolByte p.relay, p.split.code]
    ++ be16 p.minLap ++ be16 p.collectionWindow ++ [byte p.trustWindow] ++ be16 p.exchangeWindow ++ [byte p.tolerance]
    ++ be16 p.startWindow ++ [byte p.reactionFloor, byte p.heatLimit]

/-- The ten lane entries of READ_STATUS, zeros beyond the count (R183). -/
def Plan.entryBytes (p : Plan) : List Byte :=
  ((p.entries.flatMap LaneEntry.bytes) ++ List.replicate 40 0).take 40

/-- The plan in READ_STATUS: a mark, the plan fields, the entry count and the entries; zeros when none is loaded
(R138, R183). -/
def planBytes : Option Plan → List Byte
  | some p => 1 :: p.fixedBytes ++ [byte p.entries.length] ++ p.entryBytes
  | none => List.replicate 62 0

/-- The six Meet Settings, coded as SET_MEET codes them (R183; log entry 21). -/
def MeetSettings.bytes (m : MeetSettings) : List Byte :=
  [byte m.course.metres, byte m.laneCount, byte m.numberingBase, m.pulseBase.code, byte m.startLine, byte m.fixedPlan]

/-- The reply fields of READ_STATUS (R138, R183). -/
def State.statusFields (s : State) : List Byte :=
  deckBytes s.deckTime ++ [s.heat.state.code] ++ optDeckBytes s.heat.epoch ++ planBytes s.heat.plan
    ++ s.mgmt.settings.bytes
    ++ [boolByte s.mgmt.locked, s.out.reportDest, s.out.reportNumber, s.nodes.selection.code, s.intake.link.code]
    ++ be16 s.starts.strayCount.toNat
    ++ [byte s.mgmt.queue.length, byte s.out.outbound.length, byte s.out.transit.length]
    ++ be16 s.out.overflow.toNat

/-- READ_STATUS's own rule (R138). -/
def readStatus (s : State) (q : Request) : State := s.reply q .done 0 s.statusFields

/-- READ_STATUS (R138). -/
def execReadStatus (s : State) : Host.Outcome State Fault Refusal :=
  s.run fun s => s.request 0x01 (sized 0) readStatus

/-! ### READ_INTAKE_ANALYSIS (R139, R183) -/

/-- The fields of the Intake Analysis record (R183). A refused destination, source or kind that is absent is sent as 0x00
beside its clear presence bit: R183 gives no filler (DESIGN CHOICE, log entry 29). -/
def IntakeAnalysis.bytes (a : IntakeAnalysis) : List Byte :=
  optDeckBytes a.lastStamp
    ++ [optCode Verdict.code a.lastVerdict, (a.qualifier.map Qualifier.code).getD 0, boolByte a.multiple]
    ++ optDeckBytes a.refusedStamp
    ++ [byte (a.refusedDst.isSome.toNat + 2 * a.refusedSrc.isSome.toNat + 4 * a.refusedKind.isSome.toNat),
      a.refusedDst.getD 0, a.refusedSrc.getD 0, a.refusedKind.getD 0, boolByte a.seen]

/-- The eight verdict counters in rank order (R139). -/
def VerdictCounts.bytes (c : VerdictCounts) : List Byte :=
  [c.broken, c.corrupt, c.inadmissible, c.orphan, c.returned, c.dropped, c.forwarded, c.accepted].flatMap deckBytes

/-- The reply fields of READ_INTAKE_ANALYSIS (R139, R183). -/
def Intake.fields (i : Intake) : List Byte :=
  i.analysis.bytes ++ i.counts.bytes ++ be16 i.staleCount.toNat ++ be16 i.lostCount.toNat ++ be16 i.outageCount.toNat

/-- READ_INTAKE_ANALYSIS's own rule: the freshness becomes SEEN after the fields are formed (R139). -/
def readIntakeAnalysis (s : State) (q : Request) : State :=
  State.reply { s with intake := { s.intake with analysis := { s.intake.analysis with seen := true } } }
    q .done 0 s.intake.fields

/-- READ_INTAKE_ANALYSIS (R139). -/
def execReadIntakeAnalysis (s : State) : Host.Outcome State Fault Refusal :=
  s.run fun s => s.request 0x02 (sized 0) readIntakeAnalysis

/-! ### SET_MEET and LOCK_MEET (R141 to R143) -/

/-- The number of the lowest-numbered setting outside its values (R140, R141). -/
def meetFault (fs : List Byte) : Option Nat :=
  if byteAt fs 0 ≠ 25 ∧ byteAt fs 0 ≠ 50 then some 1
  else if byteAt fs 1 < 6 ∨ 10 < byteAt fs 1 then some 2
  else if 1 < byteAt fs 2 then some 3
  else if 1 < byteAt fs 3 then some 4
  else if byteAt fs 4 ≠ 0 ∧ byteAt fs 4 ≠ 7 then some 5
  else if 3 < byteAt fs 5 then some 6
  else none

/-- The settings that SET_MEET carries (R183). -/
def MeetSettings.ofBytes (fs : List Byte) : MeetSettings :=
  { course := if byteAt fs 0 = 25 then .m25 else .m50, laneCount := byteAt fs 1, numberingBase := byteAt fs 2
    pulseBase := if byteAt fs 3 = 1 then .ms2 else .ms10, startLine7 := byteAt fs 4 == 7, fixedPlan := byteAt fs 5 }

/-- A change of the lane count or the fixed plan rebuilds a FIXED Active Map (R120, R142). -/
def State.remap (s : State) (old new : MeetSettings) : State :=
  if s.nodes.selection = .fixed ∧ (old.laneCount ≠ new.laneCount ∨ old.fixedPlan ≠ new.fixedPlan) then
    s.buildMap new.fixedMap .fixed
  else s

/-- A change of the start line takes the new line's level as its previous level (R41, R142; log entry 10). -/
def State.moveStartLine (s : State) (old new : MeetSettings) : State :=
  if old.startLine7 = new.startLine7 then s else s.notePrevious (s.pulse.sensed.getD new.startLine false)

/-- The Meet Settings replaced whole, with the effects of R142. -/
def State.setMeet (s : State) (new : MeetSettings) : State :=
  (State.remap { s with mgmt := { s.mgmt with settings := new } } s.mgmt.settings new).moveStartLine s.mgmt.settings new

/-- SET_MEET's own rule (R141). -/
def setMeet (s : State) (q : Request) : State :=
  if s.mgmt.locked then s.reply q .refusedLocked
  else if s.heat.state ≠ .idle then s.reply q .refusedState
  else match meetFault q.fields with
    | some d => s.reply q .badValue d
    | none => (s.setMeet (.ofBytes q.fields)).reply q .done

/-- SET_MEET (R141). -/
def execSetMeet (s : State) : Host.Outcome State Fault Refusal :=
  s.run fun s => s.request 0x03 (sized 6) setMeet

/-- LOCK_MEET's own rule (R143). -/
def lockMeet (s : State) (q : Request) : State :=
  State.reply { s with mgmt := { s.mgmt with locked := true } } q .done

/-- LOCK_MEET (R143). -/
def execLockMeet (s : State) : Host.Outcome State Fault Refusal :=
  s.run fun s => s.request 0x04 (sized 0) lockMeet

/-! ### SET_REPORT_DEST (R144) -/

/-- SET_REPORT_DEST's own rule (R144). -/
def setReportDest (s : State) (q : Request) : State :=
  let a := q.fields.getD 0 0
  if a = 0x02 ∨ a = 0x03 ∨ a = 0xFF then State.reply { s with out := { s.out with reportDest := a } } q .done
  else s.reply q .badValue 1

/-- SET_REPORT_DEST (R144). -/
def execSetReportDest (s : State) : Host.Outcome State Fault Refusal :=
  s.run fun s => s.request 0x12 (sized 1) setReportDest

/-! ### RESTART (R36, R129, R145, R146, R167) -/

/-- A granted row load that a RESTART overtakes: it completes, and its result is discarded (R167). -/
def BoardOperation.overtaken : BoardOperation → BoardOperation
  | .rowLoad r c h cells _ => .rowLoad r c h cells false
  | op => op

/-- The heat, the judges and the results as RESTART sets them (R36, R146). -/
def State.restartHeat (s : State) : State :=
  let t := s.stopHeat.discardHeat
  { t with heat := { t.heat with state := .idle } }

/-- Loop Intake and the Node Map as RESTART sets them (R114, R119, R146). -/
def State.restartIntake (s : State) : State :=
  { s with
    intake := { s.intake with analysis := {} }
    nodes := { s.nodes with active := clearExpected s.nodes.active } }

/-- The Management Unit and the Loop Out Port as RESTART sets them: a frame in transmission is abandoned, an idle symbol
goes out in place of its rest, both queues are emptied and the port is IDLE (R129, R146; log entry 14). -/
def State.restartTraffic (s : State) : State :=
  { s with
    mgmt := { s.mgmt with queue := [], claim := none }
    out := { s.out with
      outbound := [], transit := [], port := none, cutting := s.out.cutting || s.out.port.isSome } }

/-- Board Memory, the Composer and the Shifter as RESTART sets them (R146, R152, R157, R158, R167; log entry 13). -/
def State.restartBoard (s : State) : State :=
  { s with
    board := { s.board with
      maskPersistent := false
      markers := List.replicate 16 (some 0)
      operation := s.board.operation.map BoardOperation.overtaken }
    composer := { s.composer with queue := [], clockRunning := false, clockTimer := none }
    shifter := { s.shifter with half0 := .empty, half1 := .empty } }

/-- The Pulse Unit as RESTART sets it: a running program is cut and every held level is 0 (R146, R168, R176). -/
def State.restartPulse (s : State) : State :=
  let t := s.stopProgram .cutByRestart
  { t with pulse := { t.pulse with held := List.replicate 8 false } }

/-- Every change of R146. -/
def State.restartBlocks (s : State) : State :=
  s.restartHeat.restartIntake.restartTraffic.restartBoard.restartPulse

/-- RESTART's own rule: the changes, then its three frames in the order of R145, then the scanner's conditions (R163). -/
def restart (s : State) (q : Request) : State :=
  let t := (s.restartBlocks.reply q .done).enterHeat .idle .restart
  ((t.reportOpt (s.pulseDone .cutByRestart)).examineShifter).arbitrate

/-- RESTART (R145). -/
def execRestart (s : State) : Host.Outcome State Fault Refusal :=
  s.run fun s => s.request 0x30 (sized 0) restart

/-! ### Requests of no known code (R136, R137) -/

/-- The request codes of the part (R183). -/
def requestCodes : List Byte :=
  [0x01, 0x02, 0x03, 0x04, 0x05, 0x06, 0x07, 0x08, 0x09, 0x0A, 0x0B, 0x0C, 0x0D, 0x0E, 0x0F, 0x10, 0x11, 0x12, 0x18,
    0x19, 0x1A, 0x1B, 0x1C, 0x1D, 0x1E, 0x1F, 0x20, 0x21, 0x22, 0x23, 0x24, 0x30]

/-- UNKNOWN_REQUEST_CODE (R137): a payload too short for a code and a tag, or an unknown code, is answered BAD_REQUEST
with detail 3 or 1. -/
def execUnknownRequestCode (s : State) : Host.Outcome State Fault Refusal :=
  s.run fun s =>
    match s.freeHead with
    | none => s
    | some f =>
      if f.payload.length < 2 then (s.reply f.request .badRequest 3).popHead
      else if requestCodes.contains f.request.code then s
      else (s.reply f.request .badRequest 1).popHead

end Sys2Proof.Machine
end

