-- ==== Sys2Proof/Machine/PulseRequests.lean ====
section
/-! DEFINITION. The requests on pulse programs and signal lines (R169 to R172, R174, R176). -/

namespace Sys2Proof.Machine

/-! ### LOAD_PROGRAM and FIRE_PROGRAM (R172, R174) -/

/-- A step of two bytes: its line set and its duration code (R183). -/
def PulseStep.ofBytes (e : List Byte) : PulseStep :=
  { lines := e.getD 0 0, code := BitVec.ofNat 3 (byteAt e 1) }

/-- The steps that LOAD_PROGRAM carries. -/
def programSteps (fs : List Byte) : List (List Byte) := groups 2 (byteAt fs 2) (fs.drop 3)

/-- LOAD_PROGRAM's own rule (R172). -/
def loadProgram (s : State) (q : Request) : State :=
  let n := byteAt q.fields 0
  let repeats := byteAt q.fields 1
  if 7 < n then s.reply q .badValue 1
  else if repeats = 0 ∨ 8 < repeats then s.reply q .badValue 2
  else if (programSteps q.fields).any fun e => decide (7 < byteAt e 1) then s.reply q .badValue 3
  else if s.pulse.running.any fun r => r.program == n then s.reply q .refusedBusy 2
  else
    State.reply
      { s with pulse := { s.pulse with
          programs := s.pulse.programs.set n
            { repeats := repeats, steps := (programSteps q.fields).map PulseStep.ofBytes } } }
      q .done

/-- LOAD_PROGRAM (R172). -/
def execLoadProgram (s : State) : Host.Outcome State Fault Refusal :=
  s.run fun s => s.request 0x20 (counted 2 3 2 0 16) loadProgram

/-- FIRE_PROGRAM's own rule (R174). -/
def fireProgram (s : State) (q : Request) : State :=
  let n := byteAt q.fields 0
  if 7 < n then s.reply q .badValue 1
  else if s.pulse.running.isSome then s.reply q .refusedBusy 2
  else if (s.pulse.program n).steps.isEmpty then s.reply q .done 1
  else (s.beginProgram n).reply q .done

/-- FIRE_PROGRAM (R174). -/
def execFireProgram (s : State) : Host.Outcome State Fault Refusal :=
  s.run fun s => s.request 0x21 (sized 1) fireProgram

/-! ### SET_LINE_FUNCTION and SET_HELD_LEVEL (R169) -/

/-- SET_LINE_FUNCTION's own rule (R169). -/
def setLineFunction (s : State) (q : Request) : State :=
  let line := byteAt q.fields 0
  if 7 < line then s.reply q .badValue 1
  else match LineFunction.ofCode? (byteAt q.fields 1) with
    | none => s.reply q .badValue 2
    | some f =>
      if line = s.mgmt.settings.startLine then s.reply q .badValue 1
      else State.reply { s with pulse := { s.pulse with lines := s.pulse.lines.set line f } } q .done

/-- SET_LINE_FUNCTION (R169). -/
def execSetLineFunction (s : State) : Host.Outcome State Fault Refusal :=
  s.run fun s => s.request 0x22 (sized 2) setLineFunction

/-- SET_HELD_LEVEL's own rule (R169). -/
def setHeldLevel (s : State) (q : Request) : State :=
  let line := byteAt q.fields 0
  if 7 < line then s.reply q .badValue 1
  else if 1 < byteAt q.fields 1 then s.reply q .badValue 2
  else
    State.reply { s with pulse := { s.pulse with held := s.pulse.held.set line (byteAt q.fields 1 == 1) } } q .done

/-- SET_HELD_LEVEL (R169). -/
def execSetHeldLevel (s : State) : Host.Outcome State Fault Refusal :=
  s.run fun s => s.request 0x23 (sized 2) setHeldLevel

/-! ### READ_LINES (R170, R183) -/

/-- The four bytes of a line in READ_LINES (R183). -/
def State.lineBytes (s : State) (line : Nat) : List Byte :=
  [(s.pulse.lines.getD line .input).code, (s.lineFunction line).code, boolByte (s.pulse.held.getD line false),
    boolByte (s.lineLevel line)]

/-- The running program in READ_LINES: a mark, then its number, repeat and step, or zeros (R177, R183). -/
def PulseUnit.runBytes (p : PulseUnit) : List Byte :=
  match p.running with
  | some r => [1, byte r.program, byte r.repeatNo, byte r.step]
  | none => [0, 0, 0, 0]

/-- The reply fields of READ_LINES (R183). -/
def State.linesFields (s : State) : List Byte :=
  [0, 1, 2, 3, 4, 5, 6, 7].flatMap s.lineBytes ++ s.pulse.runBytes
    ++ [optCode byte s.pulse.status.program, optCode PulseOutcome.code s.pulse.status.outcome,
      byte s.pulse.status.completed]
    ++ be16 s.pulse.skipped.toNat

/-- READ_LINES's own rule (R170). -/
def readLines (s : State) (q : Request) : State := s.reply q .done 0 s.linesFields

/-- READ_LINES (R170). -/
def execReadLines (s : State) : Host.Outcome State Fault Refusal :=
  s.run fun s => s.request 0x24 (sized 0) readLines

end Sys2Proof.Machine
end

