-- ==== Sys2Proof/Machine/Reset.lean ====
section
/-! DEFINITION. The RESET pin (R1, R41, R117, R147). -/

namespace Sys2Proof.Machine

/-- HARDWARE_RESET (R147): every block returns to its hardware-reset values and the pin is held. The levels the deck
puts on the lines are kept (log entry 10), and the commands that wait are the senders'. -/
def execHardwareReset (s : State) : Host.Outcome State Fault Refusal :=
  .next
    { State.reset with
      pending := s.pending
      freeDraws := s.freeDraws
      pulse := { State.reset.pulse with sensed := s.pulse.sensed } }

/-- The pin is released: Deck Time runs from 0, the silence timer is set, the start line's level is taken (R1, R41,
R117). -/
def State.released (s : State) : State :=
  { s with
    resetHeld := false
    deckTime := 0
    intake := { s.intake with link := .up, silenceTimer := some Config.silenceInterval }
    pulse := { s.pulse with startPrevious := s.pulse.sensed.getD s.mgmt.settings.startLine false } }

/-- HARDWARE_RESET_ENDS (R1, R41, R117), with the scanner's conditions examined (R163; log entry 11). It has an effect
while the pin is held (log entry 4). -/
def execHardwareResetEnds (s : State) : Host.Outcome State Fault Refusal :=
  .next (if s.resetHeld then s.released.examineShifter.arbitrate else s)

end Sys2Proof.Machine
end

