-- ==== Sys2Proof/Machine/ResultRequests.lean ====
section
/-! DEFINITION. The requests on the results: adjudication, disqualification and the reads of lanes and arrivals
(R72, R101 to R104). -/

namespace Sys2Proof.Machine

/-! ### ADJUDICATE_FINISH (R101, R102) -/

/-- The arming time of the lane's CLOSED finish collector, a(L) (R51, R101). -/
def State.finishArming (s : State) (lane : Nat) : HeatTime := ((s.collector? lane).bind (·.arming)).getD 0

/-- A given time that USE_TIME accepts (R101). -/
def State.acceptsTime (s : State) (lane time : Nat) : Bool :=
  decide (s.finishArming lane ≤ (time : Int)) && decide (time ≤ s.plan.limitTicks)

/-- The record of a lane whose finish a referee set (R102). -/
def LaneRecord.adjudicated (r : LaneRecord) (time : Option HeatTime) (source : Source) : LaneRecord :=
  { r with
    finish := time, source := some source, displayed := time, flags := { r.flags with adjudicated := true } }

/-- REPLY, then the finish written and handed to the Placer, with its FINISH report (R102). -/
def State.setFinish (s : State) (q : Request) (lane : Nat) (time : Option HeatTime) (source : Source) : State :=
  ((s.reply q .done).commit lane (·.adjudicated time source) (fun _ _ => true)
    alwaysNamed fun r => some (finishReport .final r)).arbitrate

/-- The record of a lane whose REVIEW was cleared (R102). -/
def LaneRecord.reviewed (r : LaneRecord) : LaneRecord := { r with flags := { r.flags with review := false } }

/-- CLEAR_REVIEW (R102): it reaches no Placer. Clearing a REVIEW that is set is an adjudication that hands the lane over;
clearing a clear one is no change (R94, R160; log entry 20). -/
def State.clearReview (s : State) (q : Request) (lane : Nat) : State :=
  ((s.reply q .done).commit lane LaneRecord.reviewed (fun _ _ => false) (fun r _ => r.flags.review)
    fun _ => none).arbitrate

/-- Steps 4 to 6 of R101 for a FINAL lane. -/
def adjudicateFinal (s : State) (q : Request) (r : LaneRecord) (lane : Nat) : State :=
  match byteAt q.fields 1 with
  | 0 => if r.finishPad.isNone then s.reply q .badValue else s.setFinish q lane r.finishPad .pad
  | 1 => if r.finishBackup.isNone then s.reply q .badValue else s.setFinish q lane r.finishBackup .backup
  | 2 =>
    if s.acceptsTime lane (longAt q.fields 2) then s.setFinish q lane (some (longAt q.fields 2 : Int)) .referee
    else s.reply q .badValue
  | _ => s.clearReview q lane

/-- The heat holds results that a referee may change (R101, R103). -/
def State.refereeTime (s : State) : Bool := s.heat.state == .running || s.heat.state == .results

/-- The checks of R101. -/
def adjudicateFinish (s : State) (q : Request) : State :=
  let lane := byteAt q.fields 0
  if 9 < lane ∨ s.laneInUse lane = false ∨ 3 < byteAt q.fields 1 then s.reply q .badValue
  else if s.refereeTime = false then s.reply q .refusedState
  else match s.record? lane with
    | none => s.reply q .refusedState
    | some r => if r.status = .final then adjudicateFinal s q r lane else s.reply q .refusedState

/-- ADJUDICATE_FINISH (R101). -/
def execAdjudicateFinish (s : State) : Host.Outcome State Fault Refusal :=
  s.run fun s => s.request 0x0E (sized 6) adjudicateFinish

/-! ### SET_DQ (R103) -/

/-- The record of a lane after SET_DQ (R103): SET for action 0, CLEAR_ALL for action 1. -/
def LaneRecord.setDq (r : LaneRecord) (action : Nat) : LaneRecord :=
  { r with flags := if action = 0 then { r.flags with refereeDq := true } else r.flags.clearDq }

/-- The Placer is reached when the lane's disqualification changes (R103; log entry 22). -/
def dqChanges (old new : LaneRecord) : Bool := old.flags.disqualified != new.flags.disqualified

/-- The checks of R103. -/
def setDq (s : State) (q : Request) : State :=
  let lane := byteAt q.fields 0
  if 9 < lane ∨ s.laneInUse lane = false ∨ 1 < byteAt q.fields 1 then s.reply q .badValue
  else if s.refereeTime = false then s.reply q .refusedState
  else match s.record? lane with
    | none => s.reply q .refusedState
    | some r =>
      if r.status = .dns then s.reply q .refusedState
      else
        ((s.reply q .done).commit lane (·.setDq (byteAt q.fields 1)) dqChanges unnamed fun _ => none).arbitrate

/-- SET_DQ (R103). -/
def execSetDq (s : State) : Host.Outcome State Fault Refusal :=
  s.run fun s => s.request 0x0F (sized 2) setDq

/-! ### READ_LANE (R104, R183) -/

/-- An exchange record: its verdict, 0xFF when absent, and its margin (R183). -/
def exchangeBytes (e : Option ExchangeRecord) : List Byte :=
  optCode (fun x : ExchangeRecord => x.verdict.code) e :: optHeatBytes (e.bind (·.margin))

/-- The fields of a lane record in READ_LANE (R183). -/
def LaneRecord.bytes (r : LaneRecord) : List Byte :=
  be16 r.entryId.toNat ++ [r.status.code] ++ be16 r.flags.bits ++ optHeatBytes r.reaction ++ optHeatBytes r.finish
    ++ [optCode Source.code r.source] ++ optHeatBytes r.finishPad ++ optHeatBytes r.finishBackup
    ++ [placeByte r.place, r.lamp.code, byte r.lapCount, r.early, r.late] ++ optHeatBytes r.displayed
    ++ exchangeBytes r.exchange1 ++ exchangeBytes r.exchange2 ++ exchangeBytes r.exchange3

/-- The reply fields of READ_LANE (R104). -/
def State.laneFields (s : State) (lane : Nat) : List Byte :=
  match s.record? lane with
  | some r => 1 :: r.bytes
  | none => [0]

/-- READ_LANE's own rule (R104). -/
def readLane (s : State) (q : Request) : State :=
  if 9 < byteAt q.fields 0 then s.reply q .badValue
  else s.reply q .done 0 (s.laneFields (byteAt q.fields 0))

/-- READ_LANE (R104). -/
def execReadLane (s : State) : Host.Outcome State Fault Refusal :=
  s.run fun s => s.request 0x10 (sized 1) readLane

/-! ### READ_ARRIVALS (R72, R183) -/

/-- An arrival record in READ_ARRIVALS: an absent time is sent as 0 (R183). -/
def ArrivalRecord.bytes (a : ArrivalRecord) : List Byte :=
  [byte a.lap, a.wall.code] ++ heatBytes (a.time.getD 0) ++ [a.source.code, byte a.buttons, a.flags.bits]

/-- The stored records of a lane from a lap on, in lap order (R71, R72). -/
def WallJudge.chain (w : WallJudge) (lane first : Nat) : List ArrivalRecord :=
  w.pool.filter fun a => a.lane == lane && decide (first ≤ a.lap)

/-- The reply fields of READ_ARRIVALS: at most 12 records and the MORE mark (R72). -/
def WallJudge.arrivalFields (w : WallJudge) (lane first : Nat) : List Byte :=
  let all := w.chain lane first
  let sent := all.take Config.arrivalsPerReply
  [byte lane, byte sent.length, boolByte (decide (Config.arrivalsPerReply < all.length))]
    ++ sent.flatMap ArrivalRecord.bytes

/-- READ_ARRIVALS's own rule (R72). -/
def readArrivals (s : State) (q : Request) : State :=
  let lane := byteAt q.fields 0
  let first := byteAt q.fields 1
  if 9 < lane ∨ first = 0 ∨ 60 < first then s.reply q .badValue
  else s.reply q .done 0 (s.walls.arrivalFields lane first)

/-- READ_ARRIVALS (R72). -/
def execReadArrivals (s : State) : Host.Outcome State Fault Refusal :=
  s.run fun s => s.request 0x11 (sized 2) readArrivals

end Sys2Proof.Machine
end

