-- ==== Sys2Proof/Machine/Timebase.lean ====
section
/-! DEFINITION. The reference clock: a tick, and the expiries of the tick it ends (R1, R2, R12). -/

namespace Sys2Proof.Machine

/-- The expiries that are due and have not been taken, each once: the loop silence, the start window, the collections and
the exchange windows in lane order, the heat limit, the clock, the refreshes in row order and the pulse step. R2 gives
each its tick, not their order within it (DESIGN CHOICE, log entry 5). -/
def State.takeDue (s : State) : State :=
  let s1 := s.silenceExpires.startWindowExpires
  let s2 := Config.lanes.foldl State.collectionExpires s1
  let s3 := Config.lanes.foldl State.exchangeExpires s2
  let s4 := s3.limitExpires.clockExpires
  (Config.boardRows.foldl State.refreshExpires s4).stepExpires

/-- TICK (R1): Deck Time counts one and wraps. A timer expires at the tick at which Deck Time reaches its value (R2), so the
expiries that this tick has left are taken before Deck Time goes on; a heat is closed no later than its limit (R12). -/
def execTick (s : State) : Host.Outcome State Fault Refusal :=
  s.run fun s => let t := s.takeDue; { t with deckTime := t.deckTime + 1 }

end Sys2Proof.Machine
end

