-- ==== Sys2Proof/Machine/Dispatch.lean ====
section
/-! DEFINITION. Which meaning each command has: one arm for each row of spec/opcode_table.json. -/

namespace Sys2Proof.Machine

/-- The effect of a command on everything but the queue of waiting commands. -/
def exec (i : Instr) (s : State) : Host.Outcome State Fault Refusal :=
  match i with
  | .hardwareReset => Sys2Proof.Machine.execHardwareReset s
  | .frameReceived sym => Sys2Proof.Machine.execFrameReceived sym s
  | .loopSilenceExpiry => Sys2Proof.Machine.execLoopSilenceExpiry s
  | .loopRestored sym => Sys2Proof.Machine.execLoopRestored sym s
  | .startLineRisingEdge => Sys2Proof.Machine.execStartLineRisingEdge s
  | .startWindowExpiry => Sys2Proof.Machine.execStartWindowExpiry s
  | .heatLimitExpiry => Sys2Proof.Machine.execHeatLimitExpiry s
  | .lapCollectionExpiry lane => Sys2Proof.Machine.execLapCollectionExpiry lane s
  | .exchangeWindowExpiry lane => Sys2Proof.Machine.execExchangeWindowExpiry lane s
  | .clockDisplayExpiry => Sys2Proof.Machine.execClockDisplayExpiry s
  | .rowFullRefreshExpiry row => Sys2Proof.Machine.execRowFullRefreshExpiry row s
  | .pulseStepExpiry => Sys2Proof.Machine.execPulseStepExpiry s
  | .loopOutCompletion => Sys2Proof.Machine.execLoopOutCompletion s
  | .rowLoadComplete => Sys2Proof.Machine.execRowLoadComplete s
  | .fieldWriteComplete => Sys2Proof.Machine.execFieldWriteComplete s
  | .boardOperationComplete => Sys2Proof.Machine.execBoardOperationComplete s
  | .rowSendComplete => Sys2Proof.Machine.execRowSendComplete s
  | .readStatus => Sys2Proof.Machine.execReadStatus s
  | .readIntakeAnalysis => Sys2Proof.Machine.execReadIntakeAnalysis s
  | .setMeet => Sys2Proof.Machine.execSetMeet s
  | .lockMeet => Sys2Proof.Machine.execLockMeet s
  | .writeNodeEntries => Sys2Proof.Machine.execWriteNodeEntries s
  | .selectNodeMap => Sys2Proof.Machine.execSelectNodeMap s
  | .readNodeEntry => Sys2Proof.Machine.execReadNodeEntry s
  | .loadHeatPlan => Sys2Proof.Machine.execLoadHeatPlan s
  | .armHeat => Sys2Proof.Machine.execArmHeat s
  | .abortHeat => Sys2Proof.Machine.execAbortHeat s
  | .closeHeat => Sys2Proof.Machine.execCloseHeat s
  | .clearHeat => Sys2Proof.Machine.execClearHeat s
  | .markDns => Sys2Proof.Machine.execMarkDns s
  | .adjudicateFinish => Sys2Proof.Machine.execAdjudicateFinish s
  | .setDq => Sys2Proof.Machine.execSetDq s
  | .readLane => Sys2Proof.Machine.execReadLane s
  | .readArrivals => Sys2Proof.Machine.execReadArrivals s
  | .setReportDest => Sys2Proof.Machine.execSetReportDest s
  | .writeCells => Sys2Proof.Machine.execWriteCells s
  | .fillGroup => Sys2Proof.Machine.execFillGroup s
  | .clearRow => Sys2Proof.Machine.execClearRow s
  | .loadPattern => Sys2Proof.Machine.execLoadPattern s
  | .loadPlaneMask => Sys2Proof.Machine.execLoadPlaneMask s
  | .releasePlaneMask => Sys2Proof.Machine.execReleasePlaneMask s
  | .writeLayout => Sys2Proof.Machine.execWriteLayout s
  | .sendRowNow => Sys2Proof.Machine.execSendRowNow s
  | .loadProgram => Sys2Proof.Machine.execLoadProgram s
  | .fireProgram => Sys2Proof.Machine.execFireProgram s
  | .setLineFunction => Sys2Proof.Machine.execSetLineFunction s
  | .setHeldLevel => Sys2Proof.Machine.execSetHeldLevel s
  | .readLines => Sys2Proof.Machine.execReadLines s
  | .restart => Sys2Proof.Machine.execRestart s
  | .unknownRequestCode => Sys2Proof.Machine.execUnknownRequestCode s
  | .tick => Sys2Proof.Machine.execTick s
  | .hardwareResetEnds => Sys2Proof.Machine.execHardwareResetEnds s
  | .loopInSymbol sym => Sys2Proof.Machine.execLoopInSymbol sym s
  | .lineLevelChange line level => Sys2Proof.Machine.execLineLevelChange line level s

end Sys2Proof.Machine
end

