-- ==== Sys2Proof/Safety.lean ====
section
/-! DEFINITION. What a sound state of the hub is, rule by rule, and the words the statements use: a request that is asked,
a record but for its place and lamp, a count of frames. -/

namespace Sys2Proof.Machine

/-! ### Words of the statements -/

/-- The RESET pin is free. -/
def State.Live (s : State) : Prop := s.resetHeld = false

/-- The hub runs, and `f` at the head of the Management Queue is a request of this code and of a right form (R135,
R137). -/
def State.Asks (s : State) (f : Frame) (code : Byte) (form : List Byte → Bool) : Prop :=
  s.Live ∧ s.freeHead = some f ∧ f.carries code = true ∧ form f.request.fields = true

/-- The Management Unit after the head has completed with settings, lock and claim kept (R135). -/
def Management.popped (m : Management) : Management := { m with queue := m.queue.tail }

/-- A lane record but for what the Placer writes: its place and its lamp code. -/
def LaneRecord.unplaced (r : LaneRecord) : LaneRecord := { r with place := none, lamp := .off }

/-- The records of the lanes but for places and lamp codes. -/
def State.unplaced (s : State) : List LaneRecord := s.results.map LaneRecord.unplaced

/-- The records with one lane's record changed, but for places and lamp codes. -/
def State.changed (s : State) (lane : Nat) (f : LaneRecord → LaneRecord) : List LaneRecord :=
  (writeRecord s.results lane f).map LaneRecord.unplaced

/-- How many frames the eight verdict counters have counted, modulo 2^32 (R113). -/
def VerdictCounts.total (c : VerdictCounts) : BitVec 32 :=
  c.broken + c.corrupt + c.inadmissible + c.orphan + c.returned + c.dropped + c.forwarded + c.accepted

/-- The kinds of state that judge a race, all but the lane records: time, intake, maps, heat, trackers, collectors,
exchange windows and signal lines are as they were. -/
def State.SameRace (s t : State) : Prop :=
  t.deckTime = s.deckTime ∧ t.resetHeld = s.resetHeld ∧ t.intake = s.intake ∧ t.nodes = s.nodes ∧ t.heat = s.heat
    ∧ t.starts = s.starts ∧ t.walls = s.walls ∧ t.exchanges = s.exchanges ∧ t.pulse = s.pulse

/-- The settings of the meet, the lock, the report destination, and what Board Memory holds are as they were. -/
def State.SameMeet (s t : State) : Prop :=
  t.mgmt.settings = s.mgmt.settings ∧ t.mgmt.locked = s.mgmt.locked ∧ t.out.reportDest = s.out.reportDest
    ∧ t.board.rows = s.board.rows ∧ t.board.pattern = s.board.pattern ∧ t.board.layout = s.board.layout
    ∧ t.board.maskPersistent = s.board.maskPersistent ∧ t.board.loadedMask = s.board.loadedMask

/-- The condition of each verdict, by itself (R110). -/
def State.meetsVerdict (s : State) (e : EndedFrame) : Verdict → Prop
  | .broken => e.broken = true
  | .corrupt => e.corrupt = true
  | .inadmissible => (frameOf e.bytes).dst = 0 ∧ (frameOf e.bytes).qualifiers s.nodes.active ≠ []
  | .orphan => (frameOf e.bytes).dst ≠ 0 ∧ (frameOf e.bytes).passed = true
  | .returned => (frameOf e.bytes).src = 0
  | .dropped => (frameOf e.bytes).dst ≠ 0 ∧ 16 ≤ s.out.transit.length
  | .forwarded => (frameOf e.bytes).dst ≠ 0
  | .accepted => (frameOf e.bytes).dst = 0

/-- The timing fields of a plan are within their ranges, its codes in their bytes, and its entries at most ten (R17). -/
def Plan.InRange (p : Plan) : Prop :=
  p.event < 65536 ∧ p.heat < 256 ∧ p.distance < 65536 ∧ p.minLap ≤ 60000
    ∧ 10 ≤ p.collectionWindow ∧ p.collectionWindow ≤ 300 ∧ p.trustWindow ≤ 250
    ∧ 10 ≤ p.exchangeWindow ∧ p.exchangeWindow ≤ 500 ∧ p.tolerance ≤ 100
    ∧ 50 ≤ p.startWindow ∧ p.startWindow ≤ 500 ∧ p.reactionFloor ≤ 250 ∧ 1 ≤ p.heatLimit ∧ p.heatLimit ≤ 60
    ∧ p.entries.length ≤ 10 ∧ ∀ e ∈ p.entries, e.lane < 256

/-- `d` is the lowest of the numbers that are present, if one is: how a reply names one of several faults (R18, R19, R22,
R122, R141, R156). -/
def Lowest (present : Nat → Prop) (d : Option Nat) : Prop :=
  (d = none ↔ ∀ k, ¬present k) ∧ ∀ k, d = some k ↔ present k ∧ ∀ j < k, ¬present j

/-- A lane is handed to the Composer: each of its four fields is pending or granted, unless the lane is hidden (R155,
R157, R160). -/
def State.HandedOver (s : State) (lane : Nat) : Prop :=
  ∀ x : BoardField, x ∈ [.lane lane, .place lane, .reaction lane, .time lane] →
    x ∈ s.composer.queue ∨ s.board.operation = some (s.fieldWrite x) ∨ (s.board.layout.laneRows[lane]?).join = none

/-- A command that makes these fields pending: they stand on the list after those already there, in this order, the hidden
ones and those on the list before left out (R155, R157, R160); or the arbiter, finding Board Memory free, has granted the
first of the list. -/
def State.Pends (s t : State) (fields : List BoardField) : Prop :=
  let hidden (x : BoardField) : Bool := x.lane?.any fun l => (s.board.layout.laneRows[l]?).join.isNone
  let full := s.composer.queue ++ fields.filter fun x => !hidden x && !s.composer.queue.contains x
  (s.board.operation.isSome = true → t.composer.queue = full)
    ∧ (t.composer.queue = full ∨ ∃ x, full = x :: t.composer.queue ∧ t.board.operation = some (t.fieldWrite x))

/-- The four fields of each lane from 0 to 9, which R160 makes pending at arming, at a disarm and at a clear. -/
def allLaneFields : List BoardField :=
  [0, 1, 2, 3, 4, 5, 6, 7, 8, 9].flatMap fun l => [.lane l, .place l, .reaction l, .time l]

/-- Frames offered to the Outbound Queue one after the other. -/
def LoopOut.offers (o : LoopOut) (fs : List Frame) : LoopOut := fs.foldl LoopOut.offer o

/-- A report that may be there, queued. -/
def LoopOut.reports (o : LoopOut) : Option Report → LoopOut
  | some r => o.report r
  | none => o

/-- The LAMP OFF frames for the lanes of the meet that have an enabled START node, in lane order (R23, R32). -/
def State.offFrames (s : State) : List Frame :=
  ([0, 1, 2, 3, 4, 5, 6, 7, 8, 9].filter (· < s.mgmt.settings.laneCount)).filterMap fun l =>
    (resolvePlace s.nodes.active l .start).map fun e => hubFrame e.address 0x13 [0]

/-- The LAMP frames of a recompute: one for each lane whose decided code differs from the one its record holds, and that
has an enabled START node, in lane order (R100). -/
def State.lampFrames (s : State) (ranked : List LaneRecord) : List Frame :=
  [0, 1, 2, 3, 4, 5, 6, 7, 8, 9].filterMap fun l =>
    (ranked.find? (·.lane == l)).bind fun r =>
      if r.lampOf = r.lamp then none
      else (resolvePlace s.nodes.active l .start).map fun e => hubFrame e.address 0x13 [r.lampOf.code]

/-- The frames of a change that reaches the Placer, in the order of R93: the writer's report, from the record with its
place computed; PLACES when a place changed (R97, R98); the LAMP frames (R100). -/
def State.afterPlacer (s : State) (written : List LaneRecord) (lane : Nat) (rep : LaneRecord → Option Report) :
    LoopOut :=
  let ranked := written.map fun r => { r with place := placeOf written r }
  let own := s.out.reports ((ranked.find? (·.lane == lane)).bind rep)
  let told := own.reports
    (if written.map (·.place) = ranked.map (·.place) then none else some (.places (ranked.map fun r => (r.lane, r.place))))
  told.offers (s.lampFrames ranked)

/-- The frames of a writer's change to one lane's record: those of the Placer when the status, the finish time or one of
the three disqualifying flags changes, else the writer's own report alone (R93). -/
def State.framesOf (s : State) (lane : Nat) (f : LaneRecord → LaneRecord) (rep : LaneRecord → Option Report) : LoopOut :=
  match s.record? lane with
  | none => s.out
  | some r =>
    if (f r).status = r.status ∧ (f r).finish = r.finish ∧ (f r).flags.falseStart = r.flags.falseStart
        ∧ (f r).flags.earlyTakeover = r.flags.earlyTakeover ∧ (f r).flags.refereeDq = r.flags.refereeDq then
      s.out.reports (rep (f r))
    else s.afterPlacer (writeRecord s.results lane f) lane rep

/-- The takeover at an open exchange, judged at the present Deck Time from the lane's tracker (R80, R81, R85). -/
def State.takeover (s : State) (lane : Nat) (o : OpenExchange) : ExchangeRecord :=
  exchangeVerdict (s.plan.tolerance * 100) o (s.heatTime s.deckTime) ((s.tracker lane).release.map s.heatTime)

/-- A record with exchange `k` judged: its exchange record and its flags (R82, R83, R85). -/
def LaneRecord.judged (r : LaneRecord) (k : Nat) (e : ExchangeRecord) : LaneRecord :=
  { r.setExchange k e with flags := r.flags.afterVerdict e.verdict }

/-- A SENSOR payload of fewer than 2 bytes, with an edge count k of 0 or above 8, or of a length that is not 2 + 3k
(R111). -/
def Frame.wrongCount (f : Frame) : Prop :=
  f.payload.length < 2 ∨ byteAt f.payload 1 = 0 ∨ 8 < byteAt f.payload 1
    ∨ f.payload.length ≠ 2 + 3 * byteAt f.payload 1

/-- The condition of each qualifier, by itself (R111). -/
def Frame.meetsQualifier (active : List (Option ActiveEntry)) (f : Frame) : Qualifier → Prop
  | .kindNotTaken => f.kind ≠ 0x01 ∧ f.kind ≠ 0x10
  | .notConsole => f.kind = 0x10 ∧ f.src ≠ 0x02 ∧ f.src ≠ 0x03
  | .unknownNode => f.kind = 0x01 ∧ ∀ e, some e ∈ active → e.enabled = true → e.address ≠ f.src
  | .badEdgeCount => f.kind = 0x01 ∧ f.wrongCount
  | .badSensor => f.kind = 0x01 ∧ ¬f.wrongCount ∧ ∃ j < byteAt f.payload 1,
      4 < byteAt f.payload (2 + 3 * j) / 16
        ∨ (byteAt f.payload (2 + 3 * j) / 16 = 1
          ∧ ∃ e, resolveAddress active f.src = some e ∧ e.wall = .turn)

/-- No timer is set and due, and no row's refresh is (R2). -/
def State.NoneDue (s : State) : Prop :=
  s.expired s.intake.silenceTimer = false ∧ s.expired s.heat.startTimer = false ∧ s.expired s.heat.limitTimer = false
    ∧ s.expired s.composer.clockTimer = false ∧ (∀ c ∈ s.walls.collectors, s.expired c.timer = false)
    ∧ (∀ x ∈ s.exchanges, ∀ o, x.window = some o → timerDue s.deckTime o.timer = false)
    ∧ (∀ row < 16, s.refreshDue row = false) ∧ ∀ r, s.pulse.running = some r → timerDue s.deckTime r.timer = false

/-- No expiry that its rule takes is left to take (R2): the silence timer while the loop is UP, the two heat timers in
RUNNING, a collection that holds a value, an exchange window, and a due row while a half is EMPTY, which the Shifter
claims. -/
def State.NoneLeft (s : State) : Prop :=
  (s.intake.link = .up → s.expired s.intake.silenceTimer = false)
    ∧ (s.heat.state = .running → s.expired s.heat.startTimer = false ∧ s.expired s.heat.limitTimer = false)
    ∧ (∀ lane < 10, ∀ c, s.collector? lane = some c → c.state = .collecting → c.pad ≠ none ∨ c.buttons ≠ [] →
        s.expired c.timer = false)
    ∧ (∀ lane < 10, ∀ o, s.openExchange lane = some o → timerDue s.deckTime o.timer = false)
    ∧ ∀ row < 16, s.refreshDue row = true → s.shifter.emptyHalf.isSome = true → s.shifterClaims = true

/-- The lowest column at which two rows differ. -/
def changedColumn (old new : List Cell) : Option Nat := (List.range 48).find? fun k => old[k]? != new[k]?

/-- A change marker after an operation that changed the row at this lowest column, or nowhere (R149). -/
def markerAfter : Option Nat → Option Nat → Option Nat
  | m, none => m
  | none, some k => some k
  | some m, some k => some (min m k)

/-! ### Words of the reply fields and report payloads (R177, R181 to R183) -/

/-- Five bytes from a place carry an optional value of four bytes: a mark, then the value, or zeros (R177). -/
def carriesOpt (b : List Byte) (i : Nat) (v : Option Nat) : Prop :=
  byteAt b i = v.isSome.toNat ∧ longAt b (i + 1) = v.getD 0

/-- A heat time as the four bytes of it read: modulo 2^32 (R177). -/
def heatWord (t : HeatTime) : Nat := (t % 4294967296).toNat

/-- The reply fields of READ_STATUS after the plan's place, and before it (R138, R183). -/
def State.StatusFields (s : State) (b : List Byte) : Prop :=
  b.length = 90 ∧ longAt b 0 = s.deckTime.toNat ∧ byteAt b 4 = s.heat.state.code.toNat
    ∧ carriesOpt b 5 (s.heat.epoch.map (·.toNat)) ∧ (b.drop 10).take 62 = planBytes s.heat.plan
    ∧ byteAt b 72 = s.mgmt.settings.course.metres ∧ byteAt b 73 = s.mgmt.settings.laneCount % 256
    ∧ byteAt b 74 = s.mgmt.settings.numberingBase % 256 ∧ byteAt b 75 = s.mgmt.settings.pulseBase.code.toNat
    ∧ byteAt b 76 = s.mgmt.settings.startLine ∧ byteAt b 77 = s.mgmt.settings.fixedPlan % 256
    ∧ byteAt b 78 = s.mgmt.locked.toNat ∧ b.getD 79 0 = s.out.reportDest ∧ b.getD 80 0 = s.out.reportNumber
    ∧ byteAt b 81 = s.nodes.selection.code.toNat ∧ byteAt b 82 = s.intake.link.code.toNat
    ∧ wordAt b 83 = s.starts.strayCount.toNat ∧ byteAt b 85 = s.mgmt.queue.length % 256
    ∧ byteAt b 86 = s.out.outbound.length % 256 ∧ byteAt b 87 = s.out.transit.length % 256
    ∧ wordAt b 88 = s.out.overflow.toNat

/-- The reply fields of READ_INTAKE_ANALYSIS; what a refused byte reads that is absent is left open here (R139, R183; log
entry 29). -/
def Intake.AnalysisFields (i : Intake) (b : List Byte) : Prop :=
  let a := i.analysis
  b.length = 56 ∧ carriesOpt b 0 (a.lastStamp.map (·.toNat))
    ∧ byteAt b 5 = (a.lastVerdict.map (·.code.toNat)).getD 255 ∧ byteAt b 6 = (a.qualifier.map (·.code.toNat)).getD 0
    ∧ byteAt b 7 = a.multiple.toNat ∧ carriesOpt b 8 (a.refusedStamp.map (·.toNat))
    ∧ byteAt b 13 = a.refusedDst.isSome.toNat + 2 * a.refusedSrc.isSome.toNat + 4 * a.refusedKind.isSome.toNat
    ∧ (∀ x, a.refusedDst = some x → b.getD 14 0 = x) ∧ (∀ x, a.refusedSrc = some x → b.getD 15 0 = x)
    ∧ (∀ x, a.refusedKind = some x → b.getD 16 0 = x) ∧ byteAt b 17 = a.seen.toNat
    ∧ [longAt b 18, longAt b 22, longAt b 26, longAt b 30, longAt b 34, longAt b 38, longAt b 42, longAt b 46]
      = [i.counts.broken, i.counts.corrupt, i.counts.inadmissible, i.counts.orphan, i.counts.returned,
          i.counts.dropped, i.counts.forwarded, i.counts.accepted].map (·.toNat)
    ∧ wordAt b 50 = i.staleCount.toNat ∧ wordAt b 52 = i.lostCount.toNat ∧ wordAt b 54 = i.outageCount.toNat

/-- Six bytes from a place carry an exchange record: its verdict, 0xFF when absent, and its margin in ticks (R183). -/
def carriesExchange (b : List Byte) (i : Nat) (e : Option ExchangeRecord) : Prop :=
  byteAt b i = (e.map (·.verdict.code.toNat)).getD 255 ∧ carriesOpt b (i + 1) ((e.bind (·.margin)).map heatWord)

/-- The bits of a set of lane flags (R181). -/
def LaneFlags.ReadAs (f : LaneFlags) (n : Nat) : Prop :=
  n < 1024 ∧ [0, 1, 2, 3, 4, 5, 6, 7, 8, 9].map n.testBit =
    [f.falseStart, f.earlyTakeover, f.refereeDq, f.review, f.suspectReaction, f.backupUsed, f.adjudicated, f.linkGap,
      f.splitsLost, f.exhibition]

/-- The reply fields of READ_LANE for a lane with a record (R104, R183). -/
def LaneRecord.ReplyFields (r : LaneRecord) (b : List Byte) : Prop :=
  b.length = 55 ∧ byteAt b 0 = 1 ∧ wordAt b 1 = r.entryId.toNat ∧ byteAt b 3 = r.status.code.toNat
    ∧ r.flags.ReadAs (wordAt b 4) ∧ carriesOpt b 6 (r.reaction.map heatWord) ∧ carriesOpt b 11 (r.finish.map heatWord)
    ∧ byteAt b 16 = (r.source.map (·.code.toNat)).getD 255 ∧ carriesOpt b 17 (r.finishPad.map heatWord)
    ∧ carriesOpt b 22 (r.finishBackup.map heatWord) ∧ byteAt b 27 = r.place.getD 0 % 256
    ∧ byteAt b 28 = r.lamp.code.toNat ∧ byteAt b 29 = r.lapCount % 256 ∧ b.getD 30 0 = r.early ∧ b.getD 31 0 = r.late
    ∧ carriesOpt b 32 (r.displayed.map heatWord) ∧ carriesExchange b 37 r.exchange1 ∧ carriesExchange b 43 r.exchange2
    ∧ carriesExchange b 49 r.exchange3

/-- The nine bytes of an arrival in READ_ARRIVALS (R72, R183). -/
def ArrivalRecord.ReplyFields (a : ArrivalRecord) (b : List Byte) : Prop :=
  byteAt b 0 = a.lap % 256 ∧ byteAt b 1 = a.wall.code.toNat ∧ longAt b 2 = heatWord (a.time.getD 0)
    ∧ byteAt b 6 = a.source.code.toNat ∧ byteAt b 7 = a.buttons % 256
    ∧ byteAt b 8 = a.flags.review.toNat + 2 * a.flags.latePadSeen.toNat + 4 * a.flags.link.toNat

/-- The payload of a report after its kind and number (R182). -/
def Report.PayloadFields (r : Report) (b : List Byte) : Prop :=
  match r with
  | .heatState st c => b.length = 2 ∧ byteAt b 0 = st.code.toNat ∧ byteAt b 1 = c.code.toNat
  | .startJudged lane reaction f =>
    b.length = 8 ∧ byteAt b 0 = lane % 256 ∧ carriesOpt b 1 (reaction.map heatWord) ∧ f.ReadAs (wordAt b 6)
  | .arrival a =>
    b.length = 11 ∧ byteAt b 0 = a.lane % 256 ∧ byteAt b 1 = a.lap % 256 ∧ byteAt b 2 = a.wall.code.toNat
      ∧ carriesOpt b 3 (a.time.map heatWord) ∧ byteAt b 8 = a.source.code.toNat ∧ byteAt b 9 = a.buttons % 256
      ∧ byteAt b 10 = a.flags.review.toNat + 2 * a.flags.latePadSeen.toNat + 4 * a.flags.link.toNat
  | .finish lane mark time source place f =>
    b.length = 10 ∧ byteAt b 0 = lane % 256 ∧ byteAt b 1 = (match mark with
        | .provisional => 0
        | .final => 1)
      ∧ longAt b 2 = heatWord time ∧ byteAt b 6 = (source.map (·.code.toNat)).getD 255
      ∧ byteAt b 7 = place.getD 0 % 256 ∧ f.ReadAs (wordAt b 8)
  | .exchange lane leg v margin =>
    b.length = 6 ∧ byteAt b 0 = lane % 256 ∧ byteAt b 1 = leg % 256 ∧ byteAt b 2 = v.code.toNat
      ∧ byteAt b 3 = margin.isSome.toNat ∧ wordAt b 4 = ((margin.getD 0) % 65536).toNat
  | .places es =>
    b.length = 1 + 2 * es.length ∧ byteAt b 0 = es.length % 256
      ∧ ∀ i lane place, es[i]? = some (lane, place) →
        byteAt b (1 + 2 * i) = lane % 256 ∧ byteAt b (2 + 2 * i) = place.getD 0 % 256
  | .loopRestored d => b.length = 4 ∧ longAt b 0 = d.toNat
  | .pulseDone program outcome => b.length = 2 ∧ byteAt b 0 = program % 256 ∧ byteAt b 1 = outcome.code.toNat

/-- The reply fields of READ_ARRIVALS: the lane, the count, the MORE mark and the first twelve stored records of the lane
from the first lap on (R72, R183). -/
def WallJudge.ReplyFields (w : WallJudge) (lane first : Nat) (b : List Byte) : Prop :=
  let stored := w.pool.filter fun a => decide (a.lane = lane) && decide (first ≤ a.lap)
  b.length = 3 + 9 * min 12 stored.length ∧ byteAt b 0 = lane % 256 ∧ byteAt b 1 = min 12 stored.length
    ∧ byteAt b 2 = (decide (12 < stored.length)).toNat
    ∧ ∀ i < 12, ∀ a, stored[i]? = some a → a.ReplyFields ((b.drop (3 + 9 * i)).take 9)

/-- The reply fields of READ_LINES (R170, R183). -/
def State.LinesFields (s : State) (b : List Byte) : Prop :=
  b.length = 41
    ∧ (∀ l < 8, byteAt b (4 * l) = (s.pulse.lines.getD l .input).code.toNat
      ∧ byteAt b (4 * l + 1) = (if l = s.mgmt.settings.startLine then 0 else (s.pulse.lines.getD l .input).code.toNat)
      ∧ byteAt b (4 * l + 2) = (s.pulse.held.getD l false).toNat
      ∧ byteAt b (4 * l + 3) = (match s.lineOutput l with
        | some v => v.toNat
        | none => (s.pulse.sensed.getD l false).toNat))
    ∧ (s.pulse.running = none → (b.drop 32).take 4 = [0, 0, 0, 0])
    ∧ (∀ r, s.pulse.running = some r → byteAt b 32 = 1 ∧ byteAt b 33 = r.program % 256 ∧ byteAt b 34 = r.repeatNo % 256
      ∧ byteAt b 35 = r.step % 256)
    ∧ byteAt b 36 = (s.pulse.status.program.map (· % 256)).getD 255
    ∧ byteAt b 37 = (s.pulse.status.outcome.map (·.code.toNat)).getD 255
    ∧ byteAt b 38 = s.pulse.status.completed % 256 ∧ wordAt b 39 = s.pulse.skipped.toNat

/-- The reply fields of READ_NODE_ENTRY for the Active Map; an empty slot and an absent sequence read zeros (R123, R177,
R183). -/
def NodeMap.ActiveFields (n : NodeMap) (i : Nat) (b : List Byte) : Prop :=
  b.length = 9 ∧ byteAt b 0 = n.selection.code.toNat
    ∧ ((n.active[i]?).join = none → b.drop 1 = [0, 0, 0, 0, 0, 0, 0, 0])
    ∧ ∀ e, (n.active[i]?).join = some e → byteAt b 1 = 1 ∧ b.getD 2 0 = e.address ∧ byteAt b 3 = e.lane % 256
      ∧ byteAt b 4 = e.wall.code.toNat ∧ b.getD 5 0 = e.delay ∧ byteAt b 6 = e.enabled.toNat
      ∧ byteAt b 7 = e.expected.isSome.toNat ∧ b.getD 8 0 = e.expected.getD 0

/-- The reply fields of READ_NODE_ENTRY for the Working Map (R123, R183). -/
def WorkingEntry.ReplyFields (e : WorkingEntry) (b : List Byte) : Prop :=
  b.length = 5 ∧ b.getD 0 0 = e.address ∧ byteAt b 1 = e.lane % 256 ∧ byteAt b 2 = e.wall.code.toNat
    ∧ b.getD 3 0 = e.delay ∧ byteAt b 4 = e.enabled.toNat

/-- The codes of the code tables, in their order (R181). -/
def CodeTables : Prop :=
  [HeatState.idle, .armed, .running, .results].map (·.code.toNat) = [0, 1, 2, 3]
    ∧ [HeatCause.arm, .start, .closeAllFinal, .closeLimit, .closeRequest, .abort, .clear, .disarm, .restart].map
      (·.code.toNat) = [0, 1, 2, 3, 4, 5, 6, 7, 8]
    ∧ [LaneStatus.waiting, .swimming, .provisional, .final, .noFinish, .dns].map (·.code.toNat) = [0, 1, 2, 3, 4, 5]
    ∧ [Source.pad, .backup, .missed, .referee].map (·.code.toNat) = [0, 1, 2, 3]
    ∧ [Wall.start, .turn].map (·.code.toNat) = [0, 1]
    ∧ [Stroke.free, .back, .breast, .fly, .medley].map (·.code.toNat) = [0, 1, 2, 3, 4]
    ∧ [SplitMode.allWalls, .startWall, .finishOnly].map (·.code.toNat) = [0, 1, 2]
    ∧ [LampCode.off, .place1, .place2, .place3, .finished, .disqualified].map (·.code.toNat) = [0, 1, 2, 3, 4, 5]
    ∧ [ExchangeVerdict.ok, .early, .noTakeover, .notJudged].map (·.code.toNat) = [0, 1, 2, 3]
    ∧ [Verdict.broken, .corrupt, .inadmissible, .orphan, .returned, .dropped, .forwarded, .accepted].map
      (·.code.toNat) = [0, 1, 2, 3, 4, 5, 6, 7]
    ∧ [Qualifier.kindNotTaken, .notConsole, .unknownNode, .badEdgeCount, .badSensor].map (·.code.toNat) = [1, 2, 3, 4, 5]
    ∧ [LineFunction.input, .pulse, .held].map (·.code.toNat) = [0, 1, 2]
    ∧ [PulseOutcome.completed, .preempted, .cutByRestart].map (·.code.toNat) = [0, 1, 2]
    ∧ [MapSelection.fixed, .working].map (·.code.toNat) = [0, 1] ∧ [LinkState.up, .outage].map (·.code.toNat) = [0, 1]
    ∧ [PulseBase.ms10, .ms2].map (·.code.toNat) = [0, 1]
    ∧ [ReplyResult.done, .doneClamped, .refusedState, .refusedLocked, .refusedBusy, .badRequest, .badValue, .planInvalid,
        .mapInvalid, .mapIncomplete].map (·.code.toNat) = [0, 1, 16, 17, 18, 32, 33, 48, 49, 50]
    ∧ [Report.heatState .idle .arm, .startJudged 0 none {}, .arrival ⟨0, 0, .start, none, .pad, 0, {}⟩,
        .finish 0 .final 0 none none {}, .exchange 0 0 .ok none, .places [], .loopRestored 0, .pulseDone 0 .completed].map
      (·.kind.toNat) = [1, 2, 3, 4, 5, 6, 7, 8]

/-! ### Words of the board (R14 to R16, R105, R155, R159) -/

/-- The glyph of a decimal digit (R13). -/
def glyphOf (n : Nat) : Byte := BitVec.ofNat 8 (0x30 + n)

/-- A number below 1,000 without leading zeros. -/
def plainNumber (n : Nat) : List Byte :=
  if n < 10 then [glyphOf n]
  else if n < 100 then [glyphOf (n / 10), glyphOf (n % 10)]
  else [glyphOf (n / 100), glyphOf (n / 10 % 10), glyphOf (n % 10)]

/-- The text a lane's field shows of its record (R105, R159). -/
def State.shownText (s : State) (r : LaneRecord) : BoardField → List Byte
  | .lane n => plainNumber (n + s.mgmt.settings.numberingBase)
  | .place _ =>
    if r.flags.falseStart ∨ r.flags.earlyTakeover ∨ r.flags.refereeDq then [0x44, 0x51]
    else match r.place with
      | some p => plainNumber p
      | none => []
  | .reaction _ => match r.reaction with
    | some t => reactionText t
    | none => []
  | .time _ =>
    match r.status, r.displayed with
    | .dns, _ => [0x44, 0x4E, 0x53]
    | .noFinish, _ => [0x4E, 0x54]
    | _, some t => timeText (t / 1000).toNat
    | _, none => []
  | .event | .heat | .clock => []

/-- The colour a lane's fields take of its record (R105, R155). -/
def Layout.shownColour (l : Layout) (r : LaneRecord) : BitVec 3 :=
  if r.flags.falseStart ∨ r.flags.earlyTakeover ∨ r.flags.refereeDq then l.disqualified
  else if r.flags.review then l.review
  else match r.place with
    | some 1 => l.first
    | some 2 => l.second
    | some 3 => l.third
    | _ => l.normal

/-! ### Sound states -/

/-- The queues, the pool and the tables hold no more than the part has room for, and the tables keep their sizes
(R70, R119, R121, R124, R125, R134, R148, R149, R157, R162, R168, R171). -/
def State.WithinCapacity (s : State) : Prop :=
  s.out.outbound.length ≤ 32 ∧ s.out.transit.length ≤ 16 ∧ s.mgmt.queue.length ≤ 4 ∧ s.walls.pool.length ≤ 512
    ∧ s.composer.queue.Nodup
    ∧ s.starts.trackers.length = 10 ∧ s.nodes.active.length = 32 ∧ s.nodes.working.length = 32
    ∧ s.board.rows.length = 16 ∧ (∀ row ∈ s.board.rows, row.length = 48) ∧ s.board.markers.length = 16 ∧ s.shifter.lastFull.length = 16
    ∧ s.pulse.lines.length = 8 ∧ s.pulse.held.length = 8 ∧ s.pulse.programs.length = 8

/-- At most one record for each lane, lanes 0 to 9; each record's place is the one R96 gives, and its lamp code the one
R99 gives. -/
def State.ResultsSound (s : State) : Prop :=
  (s.results.map (·.lane)).Nodup ∧ ∀ r ∈ s.results,
    r.lane < 10 ∧ r.place = placeOf s.results r ∧ r.lamp = r.lampOf

/-- What a heat state says of the other blocks (R4, R21, R23, R25, R31, R34, R36, R37, R51, R78): the epoch is present in
RUNNING and RESULTS alone; the two timers run in RUNNING alone; in IDLE there are no records, collectors, arrivals or
exchange collectors; in ARMED no arrival, no open collection and no open window; the trackers take edges in every state
but IDLE. -/
def State.HeatSound (s : State) : Prop :=
  (s.heat.epoch.isSome = true ↔ s.heat.state = .running ∨ s.heat.state = .results)
    ∧ (s.heat.state ≠ .running → s.heat.startTimer = none ∧ s.heat.limitTimer = none)
    ∧ (s.heat.state = .idle → s.results = [] ∧ s.walls.collectors = [] ∧ s.walls.pool = [] ∧ s.exchanges = [])
    ∧ (s.heat.state = .armed → s.walls.pool = [] ∧ (∀ c ∈ s.walls.collectors, c.state = .dormant)
        ∧ ∀ x ∈ s.exchanges, x.window = none)
    ∧ ∀ k ∈ s.starts.trackers, k.taking = decide (s.heat.state ≠ .idle)

/-- The laps of the arrivals (R50, R51, R70): one collector for each record, in the same lanes; each collector at a lap from 1 to L;
each stored arrival belongs to a lane with a decided lap and to a lap before its collector's, or to the collector's own
when it is CLOSED; and of two records of a lane the later stored has the greater lap. -/
def State.ArrivalsSound (s : State) : Prop :=
  s.walls.collectors.map (·.lane) = s.results.map (·.lane) ∧ (s.results.map (·.lane)).Nodup
    ∧ (∀ c ∈ s.walls.collectors, 1 ≤ c.lap ∧ c.lap ≤ s.laps)
    ∧ (∀ a ∈ s.walls.pool, (∃ r ∈ s.results, r.lane = a.lane ∧ 0 < r.lapCount) ∧
        ∃ c ∈ s.walls.collectors, c.lane = a.lane ∧ (a.lap < c.lap ∨ (c.state = .closed ∧ a.lap = c.lap)))
    ∧ s.walls.pool.Pairwise fun a b => a.lane = b.lane → a.lap < b.lap

/-- A heat time from 0 to the heat limit (R12). -/
def State.inLimit (s : State) (t : HeatTime) : Prop := 0 ≤ t ∧ t ≤ (s.plan.heatLimit * 6000000 : Nat)

/-- Every stored time lies from 0 to the heat limit (R12): the values of the collections, the arrivals and the times of
the lane records; with what holds it there: a plan's limit of at most 60 minutes (R17), a RUNNING heat no later than its
limit, which its timer names (R25), a frame at Loop In whose last byte is at most 2,000 ticks old (R117), and a part held
in reset with no heat and no frame. -/
def State.TimesBounded (s : State) : Prop :=
  (∀ p, s.heat.plan = some p → p.heatLimit ≤ 60)
    ∧ (s.resetHeld = true → s.heat.state = .idle ∧ s.intake.checker = .between)
    ∧ (s.heat.state = .running → ∃ e, s.heat.epoch = some e
        ∧ s.heat.limitTimer = some (e + ticks (s.plan.heatLimit * 6000000))
        ∧ (s.deckTime - e).toNat ≤ s.plan.heatLimit * 6000000)
    ∧ (∀ bytes long d, s.intake.checker = .inFrame bytes long (some d) →
        s.intake.link = .up ∧ s.intake.silenceTimer = some (d + 2000) ∧ (s.deckTime - d).toNat ≤ 2000)
    ∧ (∀ c ∈ s.walls.collectors, (∀ a, c.arming = some a → 0 ≤ a)
        ∧ ∀ t, (c.pad = some t ∨ c.b1 = some t ∨ c.b2 = some t ∨ c.b3 = some t) → s.inLimit t)
    ∧ (∀ a ∈ s.walls.pool, ∀ t, a.time = some t → s.inLimit t)
    ∧ ∀ r ∈ s.results, ∀ t, (r.finish = some t ∨ r.finishPad = some t ∨ r.finishBackup = some t ∨ r.displayed = some t) →
        s.inLimit t

/-- The three forms of the Line Buffer (R161). -/
def Shifter.InForm (h : Shifter) : Prop :=
  match h.half0, h.half1 with
  | .empty, .empty => True
  | .sending .., .empty | .empty, .sending .. => True
  | .sending .., .loaded .. | .loaded .., .sending .. => True
  | _, _ => False

/-- The Line Buffer has one of its three forms, and the half that a load in progress fills is EMPTY (R161, R163, R166). -/
def State.LineBufferSound (s : State) : Prop :=
  s.shifter.InForm ∧ match s.board.operation with
    | some (.rowLoad _ _ h _ true) => h < 2 ∧ s.shifter.half h = .empty
    | some (.console (.sendRow _ h _)) => h < 2 ∧ s.shifter.half h = .empty
    | _ => True

/-- The Signal Program Table is within its ranges, and a running program's step, repeat and count agree (R171, R173). -/
def State.PulseSound (s : State) : Prop :=
  (∀ p ∈ s.pulse.programs, 1 ≤ p.repeats ∧ p.repeats ≤ 8 ∧ p.steps.length ≤ 16)
    ∧ ∀ r, s.pulse.running = some r →
      1 ≤ r.step ∧ r.step ≤ (s.pulse.program r.program).steps.length
        ∧ 1 ≤ r.repeatNo ∧ r.repeatNo ≤ (s.pulse.program r.program).repeats
        ∧ r.completed = (r.repeatNo - 1) * (s.pulse.program r.program).steps.length + (r.step - 1)

/-- The Active Map holds no reserved address, and no two enabled entries with one address or one lane and wall
(R119). -/
def State.MapSound (s : State) : Prop :=
  (∀ e, some e ∈ s.nodes.active → reservedAddress e.address = false)
    ∧ s.nodes.active.Pairwise fun a b => ∀ x y, a = some x → b = some y → x.enabled = true → y.enabled = true →
      x.address ≠ y.address ∧ ¬(x.lane = y.lane ∧ x.wall = y.wall)

end Sys2Proof.Machine
end

