-- ==== Sys2Proof/Certificates/Slice0/Obligations.lean ====
section
/-! DEFINITION. The statements of this model for the provers. -/

open Sys2Proof Sys2Proof.Machine

/-! ### The queue of commands, the pin and the clock -/

/-- A step takes the command at the front of the queue and runs it with the queue's rest; on an empty queue the hub
idles (log entry 3). No command stops the hub, and none touches the queue of commands that wait. -/
def Obligations.StepRunsFrontCommand : Prop :=
  (∀ c rest s, s.pending = c :: rest → step s = exec c { s with pending := rest })
    ∧ (∀ s : State, s.pending = [] → step s = .next s)
    ∧ ∀ c s, ∃ t, exec c s = .next t ∧ t.pending = s.pending

/-- HARDWARE_RESET gives every block the values its chapter names for hardware reset, whatever the state was: Deck Time 0,
the heat, the judges, the records, Loop Intake, both node maps, the Meet Settings, the Loop Out Port, Board Memory with
the default layout, the Composer, the Shifter and the Pulse Unit. The levels on the lines are the deck's and stay (log
entry 10). -/
def Obligations.HardwareResetReturnsEveryBlock : Prop :=
  ∀ s, ∃ t, exec .hardwareReset s = .next t
    ∧ t.deckTime = 0 ∧ t.resetHeld = true
    ∧ t.heat = { plan := none, state := .idle, epoch := none, startTimer := none, limitTimer := none }
    ∧ (∀ k ∈ t.starts.trackers, k = { state := .unknown, lastRelease := none, taking := false })
    ∧ t.starts.trackers.length = 10 ∧ t.starts.strayCount = 0
    ∧ t.walls.collectors = [] ∧ t.walls.pool = [] ∧ t.exchanges = [] ∧ t.results = []
    ∧ t.intake.checker = .between ∧ t.intake.counts = ⟨0, 0, 0, 0, 0, 0, 0, 0⟩ ∧ t.intake.staleCount = 0
    ∧ t.intake.lostCount = 0 ∧ t.intake.outageCount = 0 ∧ t.intake.link = .up
    ∧ t.intake.analysis = ⟨none, none, none, false, none, none, none, none, false⟩
    ∧ t.nodes.active = fixedMap 0 10 ∧ t.nodes.selection = .fixed
    ∧ t.nodes.working.length = 32
    ∧ (∀ e ∈ t.nodes.working, e = { address := 0, lane := 0, wall := .start, delay := 0, enabled := false })
    ∧ t.mgmt = ⟨[], none, ⟨.m50, 10, 0, .ms10, false, 0⟩, false⟩
    ∧ t.out = ⟨[], 0, [], none, false, .transit, 0x02, 0⟩
    ∧ (∀ r < 16, t.board.row r = List.replicate 48 { glyph := 0x20, colour := 0, blink := false } ∧ t.board.marker r = some 0)
    ∧ t.board.pattern = { glyph := 0x20, colour := 0, blink := false } ∧ t.board.maskPersistent = false
    ∧ t.board.loadedMask = ⟨true, true, true⟩ ∧ t.board.operation = none
    ∧ t.board.layout = ⟨0, 0, 0, 5, 0, 41, 0, 3, 34, 40, 7, 2, 3, 4, 1, 5,
        [some 1, some 2, some 3, some 4, some 5, some 6, some 7, some 8, some 9, some 10]⟩
    ∧ t.composer = ⟨[], false, 0, none⟩
    ∧ t.shifter = ⟨.empty, .empty, 15, false, List.replicate 16 0⟩
    ∧ t.pulse.lines.length = 8 ∧ t.pulse.held.length = 8 ∧ t.pulse.programs.length = 8
    ∧ (∀ l < 8, t.pulse.lines.getD l .held = .input ∧ t.pulse.held.getD l true = false
        ∧ t.pulse.program l = { repeats := 1, steps := [] })
    ∧ t.pulse.running = none ∧ t.pulse.status = ⟨none, none, 0⟩ ∧ t.pulse.skipped = 0
    ∧ t.pulse.sensed = s.pulse.sensed

/-- HARDWARE_RESET_ENDS: Deck Time runs from 0, the loop is UP with its silence timer 2,000 ticks ahead, the start line's
previous level is the one sensed. The heat, the records, the maps, the Management Queue, Loop Out, the cells, the scanner position, the
full-send
times and the clock are as they were, and so are the halves and markers unless a SEND_ROW_NOW waits. On an idle board row 0
is due and its load is granted, as after HARDWARE_RESET. That these things happen at this moment is the model's inference
(log entries 1 and 11). -/
def Obligations.ResetEndsStartsTime : Prop :=
  (∀ s, s.resetHeld = true → ∃ t, exec .hardwareResetEnds s = .next t
    ∧ t.Live ∧ t.deckTime = 0 ∧ t.intake.link = .up ∧ t.intake.silenceTimer = some 2000
    ∧ t.pulse.startPrevious = s.pulse.sensed.getD s.mgmt.settings.startLine false
    ∧ t.intake.checker = s.intake.checker ∧ t.intake.counts = s.intake.counts ∧ t.heat = s.heat ∧ t.starts = s.starts
    ∧ t.walls = s.walls ∧ t.exchanges = s.exchanges ∧ t.results = s.results ∧ t.nodes = s.nodes ∧ t.out = s.out
    ∧ t.mgmt.queue = s.mgmt.queue ∧ s.SameMeet t ∧ t.pulse.running = s.pulse.running
    ∧ t.shifter.scanner = s.shifter.scanner ∧ t.shifter.lastFull = s.shifter.lastFull
    ∧ t.composer.clockRunning = s.composer.clockRunning ∧ t.composer.clockHeld = s.composer.clockHeld
    ∧ t.composer.clockTimer = s.composer.clockTimer
    ∧ ((∀ r, s.mgmt.claim ≠ some (.sendRow r)) → t.shifter.half0 = s.shifter.half0 ∧ t.shifter.half1 = s.shifter.half1
        ∧ t.board.markers = s.board.markers)
    ∧ (∀ col, s.board.operation = none → s.shifter.half0 = .empty → s.shifter.scanner = 15 →
        s.board.marker 0 = some col →
        t.board = { s.board with operation := some (.rowLoad 0 col 0 ((s.board.row 0).drop col) true) }
          ∧ t.shifter = { s.shifter with claim := false } ∧ t.composer = s.composer ∧ t.mgmt = s.mgmt))
  ∧ ∀ s r, exec .hardwareReset s = .next r → r.resetHeld = true ∧ r.board.operation = none ∧ r.shifter.half0 = .empty
    ∧ r.shifter.scanner = 15 ∧ r.board.marker 0 = some 0

/-- TICK takes the expiries of its tick that no command has taken, and then counts Deck Time by one modulo 2^32 (log entry
5): no timer that its rule takes is left due behind, the clock runs on 10,000 ticks beyond its expiry value, a running
program stands in a step that is not over, and a heat that has reached its limit is closed. While no timer is due nothing
else changes. A timer is pending exactly while its expiry value lies 1 to 2^31 - 1 ticks ahead, and due otherwise; the
signed heat time of a Deck Time; and the edge deck time of a record: stamp less age less link delay modulo 2^32, none for
the stale age. -/
def Obligations.DeckTimeArithmetic : Prop :=
  (∀ s, s.Live → ∃ u : State, exec .tick s = .next { u with deckTime := s.deckTime + 1 }
      ∧ u.deckTime = s.deckTime ∧ u.NoneLeft
      ∧ (s.heat.state = .running → s.expired s.heat.limitTimer = true → u.heat.state = .results)
      ∧ (∀ e, s.composer.clockTimer = some e → timerDue s.deckTime e = true → u.heat.state = .running →
          u.composer.clockTimer = some (e + 10000))
      ∧ (s.PulseSound → ∀ r, u.pulse.running = some r → timerDue s.deckTime r.timer = false))
    ∧ (∀ s, s.Live → s.NoneDue → exec .tick s = .next { s with deckTime := s.deckTime + 1 })
    ∧ (∀ d : DeckTime, (d + 1).toNat = (d.toNat + 1) % 2 ^ 32)
    ∧ (∀ now expiry : DeckTime,
      timerDue now expiry = false ↔
        1 ≤ (expiry.toNat + 2 ^ 32 - now.toNat) % 2 ^ 32 ∧ (expiry.toNat + 2 ^ 32 - now.toNat) % 2 ^ 32 ≤ 2 ^ 31 - 1)
    ∧ (∀ epoch x : DeckTime, let u : Nat := (x.toNat + 2 ^ 32 - epoch.toNat) % 2 ^ 32
      heatTimeFrom epoch x = if u < 2 ^ 31 then (u : Int) else (u : Int) - 2 ^ 32)
    ∧ (∀ stamp delay edge, wordAt edge 1 = 65535 → edgeDeck stamp delay edge = none)
    ∧ ∀ (stamp : DeckTime) (delay : Byte) (edge : List Byte), wordAt edge 1 ≠ 65535 →
      ∃ d, edgeDeck stamp delay edge = some d
        ∧ d.toNat = (stamp.toNat + 2 * 2 ^ 32 - wordAt edge 1 - delay.toNat) % 2 ^ 32

/-! ### Loop Intake -/

/-- A frame as the hub lays it out, received whole, is neither BROKEN nor CORRUPT and reads as the frame that was laid
out: every address, kind, flags, payload of at most 120 bytes and CRC. -/
def Obligations.LaidOutFrameReadsBack : Prop :=
  ∀ (dst src kind flags : Byte) (payload : List Byte) (stamp : DeckTime), payload.length ≤ 120 →
    let f := sealFrame dst src kind flags payload
    let e : EndedFrame := { bytes := f.bytes, tooLong := false, cut := false, stamp := stamp }
    e.broken = false ∧ e.corrupt = false ∧ frameOf f.bytes = f

/-- A symbol at Loop In while the loop is UP: between frames a start delimiter opens a frame and any other symbol is
discarded; in a frame a data byte is stored while fewer than 127 are, and marks the frame too long beyond; a valid symbol
sets the silence timer 2,000 ticks ahead. That a symbol which ends the frame does, sent as LOOP_IN_SYMBOL, what
FRAME_RECEIVED does is the model's choice of commands (log entry 7). -/
def Obligations.SymbolsGatherFrame : Prop :=
  ∀ (s : State) (sym : LoopSymbol), s.Live → s.intake.link = .up →
    let watched (t : State) : Prop :=
      t.intake.silenceTimer = (if sym = .error then s.intake.silenceTimer else some (s.deckTime + 2000))
        ∧ t.intake.link = .up ∧ t.intake.counts = s.intake.counts ∧ t.heat = s.heat ∧ t.results = s.results
        ∧ t.walls = s.walls ∧ t.out = s.out ∧ t.nodes = s.nodes ∧ t.pulse = s.pulse ∧ s.SameMeet t
    (s.intake.checker = .between → ∃ t, exec (.loopInSymbol sym) s = .next t ∧ watched t
      ∧ t.intake.checker = if sym = .startDelimiter then .inFrame [] false none else .between)
    ∧ (∀ bytes long last b, s.intake.checker = .inFrame bytes long last → sym = .data b →
      ∃ t, exec (.loopInSymbol sym) s = .next t ∧ watched t
        ∧ t.intake.checker = .inFrame (if bytes.length < 127 then bytes ++ [b] else bytes)
            (long || decide (127 ≤ bytes.length)) (some s.deckTime))
    ∧ (∀ bytes long last, s.intake.checker = .inFrame bytes long last → (∀ b, sym ≠ .data b) →
      exec (.loopInSymbol sym) s = exec (.frameReceived sym) s)

/-- A frame that ends at Loop In is received with its one verdict in the state that watches the loop anew and is between
frames, or in a new frame when a start delimiter cut it: counted under the verdict and disposed of by it. A refused frame
overwrites the analysis record with its verdict, its lowest qualifier and the MULTIPLE mark when INADMISSIBLE, its stamp
and the first three bytes it had, and makes it NEW; any other writes the last stamp alone. -/
def Obligations.EndedFrameGetsOneVerdict : Prop :=
  ∀ (s : State) (bytes : List Byte) (long : Bool) (d : DeckTime) (sym : LoopSymbol),
    s.Live → s.intake.link = .up → s.intake.checker = .inFrame bytes long (some d) → (∀ b, sym ≠ .data b) →
    let e : EndedFrame := { bytes := bytes, tooLong := long, cut := decide (sym ≠ .endDelimiter), stamp := d }
    let v := s.verdict e
    let qs := (frameOf bytes).qualifiers s.nodes.active
    let u : State := { s with intake := { s.intake with
      checker := if sym = .startDelimiter then .inFrame [] false none else .between
      silenceTimer := if sym = .error then s.intake.silenceTimer else some (s.deckTime + 2000) } }
    ∃ t, exec (.frameReceived sym) s = .next t
      ∧ t = (u.receiveFrame e).arbitrate
      ∧ t.intake.counts = s.intake.counts.bump v
      ∧ t.intake.counts.total = s.intake.counts.total + 1
      ∧ (v.refuses = true → t.intake.analysis =
          { lastStamp := some d, lastVerdict := some v
            qualifier := if v = .inadmissible then qs.head? else none
            multiple := decide (v = .inadmissible ∧ 2 ≤ qs.length)
            refusedStamp := some d, refusedDst := bytes[0]?, refusedSrc := bytes[1]?, refusedKind := bytes[2]?
            seen := false })
      ∧ (v.refuses = false → t.intake.analysis = { s.intake.analysis with lastStamp := some d })
      ∧ t.intake.checker = u.intake.checker
      ∧ t.deckTime = s.deckTime ∧ t.heat.plan = s.heat.plan ∧ s.SameMeet t ∧ t.pulse.programs = s.pulse.programs

/-- The verdict of a frame is the one of lowest rank whose condition holds; the qualifiers it carries are exactly those
whose condition holds, in rank order. -/
def Obligations.VerdictIsLowestRank : Prop :=
  (∀ (s : State) (e : EndedFrame), s.meetsVerdict e (s.verdict e)
    ∧ ∀ v, s.meetsVerdict e v → (s.verdict e).code.toNat ≤ v.code.toNat)
  ∧ ∀ (active : List (Option ActiveEntry)) (f : Frame),
    (∀ q, q ∈ f.qualifiers active ↔ f.meetsQualifier active q)
      ∧ (f.qualifiers active).Pairwise fun p q => p.code.toNat < q.code.toNat

/-- A refused or returned frame changes nothing but the counters and the analysis record; a forwarded one joins the
Transit Queue with its PASSED mark set, every other flag, address, kind and payload byte kept and a CRC formed anew; a
MANAGE frame handed over joins the tail of a queue of fewer than four, or is answered REFUSED_BUSY with detail 1 (what that
REPLY echoes of a payload too short for a code and a tag is the model's inference, log entry 28). -/
def Obligations.FramesAreDisposedOf : Prop :=
  ∀ (s : State) (e : EndedFrame), let f := frameOf e.bytes
    ((s.verdict e).refuses = true ∨ s.verdict e = .returned → s.receiveFrame e = s.recordVerdict (s.verdict e) e)
    ∧ (s.verdict e = .forwarded →
        let g := passOn f
        s.receiveFrame e =
            { s.recordVerdict .forwarded e with out := LoopOut.choose { s.out with transit := s.out.transit ++ [g] } }
          ∧ g.passed = true ∧ (∀ i < 7, g.flags.getLsbD i = f.flags.getLsbD i)
          ∧ g.dst = f.dst ∧ g.src = f.src ∧ g.kind = f.kind ∧ g.payload = f.payload
          ∧ g.crc = crc16 (frameHead g.dst g.src g.kind g.flags g.payload ++ g.payload))
    ∧ (s.verdict e = .accepted → f.kind = 0x10 → s.mgmt.queue.length < 4 →
        s.receiveFrame e =
          { s.recordVerdict .accepted e with mgmt := { s.mgmt with queue := s.mgmt.queue ++ [f] } })
    ∧ (s.verdict e = .accepted → f.kind = 0x10 → 4 ≤ s.mgmt.queue.length →
        s.receiveFrame e =
          { s.recordVerdict .accepted e with out := s.out.offer (replyFrame f.request .refusedBusy 1 []) })
    ∧ (s.verdict e = .accepted → f.kind ≠ 0x10 →
        s.receiveFrame e = (s.recordVerdict .accepted e).sensorFrame f e.stamp)

/-- An accepted SENSOR frame: its node's expected sequence becomes the next number, every frame of a gap and every stale
edge is counted, and the maps, the heat, the meet and the programs are otherwise as they were; its edges are handed on in
order, after the gap is reported and before any expiry (the model's choice, log entry 31). A gap in RUNNING gives the lane LINK_GAP and REVIEW unless it is DNS, and the LINK mark
to its collector when that waits or collects at the node's wall; in another heat state it is counted alone. -/
def Obligations.SensorFrameIsCounted : Prop :=
  (∀ (s : State) (f : Frame) (stamp : DeckTime) (n : ActiveEntry),
    resolveAddress s.nodes.active f.src = some n → (∀ e ∈ f.edges, (Sensor.ofCode? (sensorCode e)).isSome = true) →
    let seq := f.payload.getD 0 0
    let gap := sequenceDistance n.expected seq
    let u : State := { s with nodes := { s.nodes with active := recordExpected s.nodes.active f.src (seq + 1) } }
    let t := s.sensorFrame f stamp
    t = f.edges.foldl (State.handEdge n stamp) (if gap = 0 then u else u.sequenceGap n gap)
      ∧ t.nodes = u.nodes
      ∧ t.intake = { s.intake with
          lostCount := satAdd 16 s.intake.lostCount gap
          staleCount := satAdd 16 s.intake.staleCount
            (f.edges.filter fun e => (edgeDeck stamp n.delay e).isNone).length }
      ∧ t.heat = s.heat ∧ t.mgmt = s.mgmt ∧ t.board = s.board ∧ t.pulse = s.pulse ∧ t.deckTime = s.deckTime)
  ∧ (∀ x seq : Byte, sequenceDistance (some x) seq = (seq.toNat + 256 - x.toNat) % 256
      ∧ sequenceDistance none seq = 0)
  ∧ ∀ (s : State) (n : ActiveEntry) (g : Nat),
    let counted : State := { s with intake := { s.intake with lostCount := satAdd 16 s.intake.lostCount g } }
    let t := s.sequenceGap n g
    (s.heat.state ≠ .running → t = counted)
      ∧ (s.heat.state = .running →
        t.walls = { s.walls with collectors := s.walls.collectors.map fun c =>
            if c.lane = n.lane ∧ (c.state = .armed ∨ c.state = .collecting) ∧ lapWall c.lap = n.wall then
              { c with link := true }
            else c }
          ∧ (∀ r, s.record? n.lane = some r → t.unplaced =
              if r.status = .dns then s.unplaced
              else s.changed n.lane fun x => { x with flags := { x.flags with linkGap := true, review := true } })
          ∧ (s.record? n.lane = none → t.results = s.results)
          ∧ t.intake = counted.intake ∧ t.out = s.out ∧ t.heat = s.heat ∧ t.starts = s.starts)

/-- The silence timer's expiry begins an outage: counted, dated, an open frame cut and BROKEN, open collections marked
LINK; lane records, heat and maps are as they were. -/
def Obligations.SilenceBeginsOutage : Prop :=
  ∀ s : State, s.Live → s.intake.link = .up → s.expired s.intake.silenceTimer = true →
    ∃ t, exec .loopSilenceExpiry s = .next t
      ∧ t.intake.link = .outage ∧ t.intake.silenceTimer = none ∧ t.intake.outageStart = s.deckTime
      ∧ t.intake.outageCount = satAdd 16 s.intake.outageCount 1 ∧ t.intake.checker = .between
      ∧ t.intake.counts =
        (if s.intake.checker = .between then s.intake.counts else s.intake.counts.bump .broken)
      ∧ t.walls.collectors = s.walls.collectors.map (fun c =>
          if c.state = .collecting then { c with link := true } else c)
      ∧ t.walls.pool = s.walls.pool ∧ t.heat = s.heat ∧ t.results = s.results ∧ t.nodes = s.nodes ∧ t.out = s.out
      ∧ t.pulse = s.pulse ∧ s.SameMeet t

/-- The first valid symbol in OUTAGE restores the loop: UP, the silence watch set, the outage's duration reported, and in
RUNNING every lane still in the water flagged LINK_GAP and REVIEW; other records and the heat are as they were. -/
def Obligations.ValidSymbolRestoresLoop : Prop :=
  ∀ (s : State) (sym : LoopSymbol), s.Live → s.ResultsSound → s.intake.link = .outage → s.intake.checker = .between →
    sym.valid = true →
    ∃ t, exec (.loopRestored sym) s = .next t
      ∧ t.intake.link = .up ∧ t.intake.silenceTimer = some (s.deckTime + 2000)
      ∧ t.intake.checker = (if sym = .startDelimiter then .inFrame [] false none else .between)
      ∧ t.out = s.out.report (.loopRestored (s.deckTime - s.intake.outageStart))
      ∧ t.results = s.results.map (fun r =>
          if s.heat.state = .running ∧ (r.status = .swimming ∨ r.status = .provisional) then
            { r with flags := { r.flags with linkGap := true, review := true } }
          else r)
      ∧ t.heat = s.heat ∧ t.walls = s.walls ∧ t.nodes = s.nodes ∧ t.pulse = s.pulse ∧ s.SameMeet t

/-! ### The Loop Out Port -/

/-- A completion at the Loop Out Port, of a frame or of the idle symbol that stands for the rest of an abandoned one (log
entry 14): the port stays IDLE on empty queues, serves the queue that holds frames, and of two that hold frames the one
not served last. A frame offered to a full Outbound Queue is discarded and counted, and otherwise joins; a report that
joins carries the report destination and number and advances the number, one discarded takes none. Loop Out carries an
idle symbol while the port is IDLE, and a frame between its delimiters with an idle symbol after it; of an abandoned frame
what was sent and an idle symbol. -/
def Obligations.LoopOutPortServesQueues : Prop :=
  (∀ s : State, s.Live → s.out.port.isSome = true ∨ s.out.cutting = true →
    ∃ o, exec .loopOutCompletion s = .next { s with out := o }
      ∧ (s.out.outbound = [] → s.out.transit = [] → o = { s.out with port := none, cutting := false })
      ∧ (∀ f fs, s.out.outbound = f :: fs → s.out.transit = [] ∨ s.out.lastServed = .transit →
          o = { s.out with
            port := some (f, .outbound), cutting := false, outbound := fs, lastServed := .outbound })
      ∧ (∀ g gs, s.out.transit = g :: gs → s.out.outbound = [] ∨ s.out.lastServed = .outbound →
          o = { s.out with port := some (g, .transit), cutting := false, transit := gs, lastServed := .transit }))
    ∧ (∀ (o : LoopOut) (f : Frame), 32 ≤ o.outbound.length → o.offer f = { o with overflow := satAdd 16 o.overflow 1 })
    ∧ (∀ (o : LoopOut) (f : Frame), o.outbound.length < 32 → o.port.isSome = true ∨ o.cutting = true →
        o.offer f = { o with outbound := o.outbound ++ [f] })
    ∧ (∀ (o : LoopOut) (f : Frame), o.outbound = [] → o.transit = [] → o.port = none → o.cutting = false →
        o.offer f = { o with port := some (f, .outbound), lastServed := .outbound })
    ∧ (∀ (o : LoopOut) (r : Report), o.outbound.length < 32 →
        o.report r = { o.offer (hubFrame o.reportDest 0x12 (r.kind :: o.reportNumber :: r.payload)) with
          reportNumber := o.reportNumber + 1 })
    ∧ (∀ (o : LoopOut) (r : Report), 32 ≤ o.outbound.length → (o.report r).reportNumber = o.reportNumber)
    ∧ ∀ o : LoopOut, (o.port = none → o.line = [.idle]) ∧ ∀ f q, o.port = some (f, q) →
        let sent := [LoopSymbol.startDelimiter] ++ f.bytes.map LoopSymbol.data ++ [.endDelimiter]
        o.line = sent ++ [.idle] ∧ f.bytes.length = 7 + f.payload.length
          ∧ ∀ k, k ≤ sent.length → (o.abandoned k).length = k + 1 ∧ (o.abandoned k).getLast? = some .idle
            ∧ ∀ i < k, (o.abandoned k)[i]? = sent[i]?

/-! ### The heat -/

/-- LOAD_HEAT_PLAN of a plan without faults in IDLE replaces the plan, each timing field clamped into its range, and is
answered DONE, or DONE_CLAMPED with the number of the lowest field that lay outside its range; nothing else changes. The
fields are read from the request's bytes in the order of R183, and repeated groups of fields one after the other. -/
def Obligations.LoadHeatPlanClamps : Prop :=
  (∀ (s : State) (f : Frame), s.Asks f 0x08 (counted 20 21 4 0 10) → s.heat.state = .idle →
    let p := planFields f.request.fields
    p.valueFault = none → p.fault s.mgmt.settings = none →
    let outside : List (Nat × Bool) :=
      [(7, decide (60000 < p.minLap)), (8, decide (p.collectionWindow < 10 ∨ 300 < p.collectionWindow)),
        (9, decide (250 < p.trustWindow)), (10, decide (p.exchangeWindow < 10 ∨ 500 < p.exchangeWindow)),
        (11, decide (100 < p.tolerance)), (12, decide (p.startWindow < 50 ∨ 500 < p.startWindow)),
        (13, decide (250 < p.reactionFloor)), (14, decide (p.heatLimit < 1 ∨ 60 < p.heatLimit))]
    ∃ plan r d, exec .loadHeatPlan s =
        .next { s with
          heat := { s.heat with plan := some plan }
          mgmt := s.mgmt.popped
          out := s.out.offer (replyFrame f.request r d []) }
      ∧ plan.event = p.event ∧ plan.heat = p.heat ∧ plan.distance = p.distance ∧ plan.stroke.code.toNat = p.stroke
      ∧ plan.relay.toNat = p.relay ∧ plan.split.code.toNat = p.split
      ∧ plan.minLap = min 60000 p.minLap
      ∧ plan.collectionWindow = max 10 (min 300 p.collectionWindow)
      ∧ plan.trustWindow = min 250 p.trustWindow
      ∧ plan.exchangeWindow = max 10 (min 500 p.exchangeWindow)
      ∧ plan.tolerance = min 100 p.tolerance
      ∧ plan.startWindow = max 50 (min 500 p.startWindow)
      ∧ plan.reactionFloor = min 250 p.reactionFloor
      ∧ plan.heatLimit = max 1 (min 60 p.heatLimit)
      ∧ plan.entries = p.entries.map (fun e =>
          { lane := byteAt e 0, entryId := BitVec.ofNat 16 (wordAt e 1), exhibition := byteAt e 3 == 1 })
      ∧ plan.entries.length = byteAt f.request.fields 20
      ∧ (outside.find? (·.2) = none → r = .done ∧ d = 0)
      ∧ ∀ k, outside.find? (·.2) = some (k, true) → r = .doneClamped ∧ d = k)
  ∧ (∀ fs : List Byte, let p := planFields fs
    [p.event, p.heat, p.distance, p.stroke, p.relay, p.split, p.minLap, p.collectionWindow, p.trustWindow,
        p.exchangeWindow, p.tolerance, p.startWindow, p.reactionFloor, p.heatLimit]
      = [wordAt fs 0, byteAt fs 2, wordAt fs 3, byteAt fs 5, byteAt fs 6, byteAt fs 7, wordAt fs 8, wordAt fs 10,
        byteAt fs 12, wordAt fs 13, byteAt fs 15, wordAt fs 16, byteAt fs 18, byteAt fs 19]
      ∧ p.entries = groups 4 (byteAt fs 20) (fs.drop 21))
  ∧ ∀ (k n : Nat) (fs : List Byte), (groups k n fs).length = n
    ∧ ∀ i < n, (groups k n fs)[i]? = some ((fs.drop (k * i)).take k)

/-- The plan bytes of READ_STATUS are the mark 1, the bytes of a LOAD_HEAT_PLAN of the same plan and zeros up to ten lane
entries, or 62 zeros when no plan is loaded; they stand after Deck Time, heat state and epoch. Sent back as a
LOAD_HEAT_PLAN, those bytes have the right form, carry no bad value and no clamped field, and load the same plan. -/
def Obligations.PlanBytesReadBack : Prop :=
  (∀ p : Plan, p.InRange →
    let fs := p.fixedBytes ++ [byte p.entries.length] ++ p.entries.flatMap LaneEntry.bytes
    counted 20 21 4 0 10 fs = true ∧ (planFields fs).valueFault = none ∧ (planFields fs).clamped = none
      ∧ (planFields fs).load = p
      ∧ planBytes (some p) = [1] ++ fs ++ List.replicate (40 - 4 * p.entries.length) 0)
  ∧ planBytes none = List.replicate 62 0
  ∧ ∀ s : State, (s.statusFields.drop 10).take 62 = planBytes s.heat.plan

/-- ARM_HEAT of a loaded plan that fits the meet and the map: ARMED with a WAITING record and a DORMANT lap-1 collector for
each lane in use, fresh taking trackers, cleared expected sequences and a stopped clock at 0; the plan stays. Its frames
are the REPLY, LAMP OFF for each lane of the meet, and HEAT_STATE with cause ARM. EVENT, HEAT, CLOCK and then every lane's
fields become pending. -/
def Obligations.ArmHeatBuildsHeat : Prop :=
  ∀ (s : State) (f : Frame) (p : Plan), s.Asks f 0x09 (sized 0) → s.heat.state = .idle → s.heat.plan = some p →
    p.fault s.mgmt.settings = none → p.lackingNode s.nodes.active = none →
    ∃ t, exec .armHeat s = .next t
      ∧ t.heat = { s.heat with state := .armed }
      ∧ (∀ l, (t.record? l).isSome = true ↔ l < 10 ∧ ∃ e ∈ p.entries, e.lane = l)
      ∧ (∀ r ∈ t.results, ∃ e ∈ p.entries, e.lane = r.lane ∧ r.entryId = e.entryId ∧ r.status = .waiting
          ∧ r.flags = { exhibition := e.exhibition } ∧ r.reaction = none ∧ r.finish = none ∧ r.source = none
          ∧ r.place = none ∧ r.lapCount = 0 ∧ r.early = 0 ∧ r.late = 0 ∧ r.displayed = none
          ∧ r.exchange1 = none ∧ r.exchange2 = none ∧ r.exchange3 = none)
      ∧ t.walls.collectors = t.results.map (fun r => { lane := r.lane, lap := 1, state := .dormant })
      ∧ t.exchanges = (if p.relay then t.results.map (fun r => { lane := r.lane, window := none }) else [])
      ∧ (∀ k ∈ t.starts.trackers, k = { state := .unknown, lastRelease := none, taking := true })
      ∧ t.nodes.active = s.nodes.active.map (fun x => x.map fun e => { e with expected := none })
      ∧ t.composer.clockRunning = false ∧ t.composer.clockHeld = 0 ∧ t.composer.clockTimer = none
      ∧ s.Pends t ([.event, .heat, .clock] ++ allLaneFields)
      ∧ t.out = ((s.out.offer (replyFrame f.request .done 0 [])).offers s.offFrames).report (.heatState .armed .arm)
      ∧ t.mgmt.queue = s.mgmt.queue.tail ∧ t.walls.pool = s.walls.pool ∧ t.intake = s.intake ∧ t.pulse = s.pulse
      ∧ t.deckTime = s.deckTime ∧ s.SameMeet t

/-- The refusals of LOAD_HEAT_PLAN, ARM_HEAT, ABORT_HEAT, CLEAR_HEAT, MARK_DNS, ADJUDICATE_FINISH (of a lane or an action
out of range, of a lane not in use, or outside the results) and SET_DQ, by heat state, by plan and map, by value and by the
lane's status, change nothing but the REPLY and the queue. The detail of a bad plan value is the lowest field at fault, that
of an invalid plan the lowest reason among its structural faults, and that of an incomplete map the lowest lane in use that
lacks an enabled START or TURN entry. That a lane is in use when the loaded plan names it, in IDLE as well, is the model's
inference (log entry 18). -/
def Obligations.HeatRequestsRefused : Prop :=
  (∀ (s : State) (f : Frame),
    let refusal (r : ReplyResult) (d : Nat) : Host.Outcome State Fault Refusal :=
      .next { s with mgmt := s.mgmt.popped, out := s.out.offer (replyFrame f.request r d []) }
    let lane := byteAt f.request.fields 0
    (s.Asks f 0x08 (counted 20 21 4 0 10) → s.heat.state ≠ .idle → exec .loadHeatPlan s = refusal .refusedState 0)
    ∧ (s.Asks f 0x09 (sized 0) → s.heat.state ≠ .idle ∨ s.heat.plan = none → exec .armHeat s = refusal .refusedState 0)
    ∧ (∀ p d, s.Asks f 0x09 (sized 0) → s.heat.state = .idle → s.heat.plan = some p →
        p.fault s.mgmt.settings = some d → exec .armHeat s = refusal .planInvalid d)
    ∧ (∀ p l, s.Asks f 0x09 (sized 0) → s.heat.state = .idle → s.heat.plan = some p →
        p.fault s.mgmt.settings = none → p.lackingNode s.nodes.active = some l →
        exec .armHeat s = refusal .mapIncomplete l)
    ∧ (s.Asks f 0x0A (sized 0) → s.heat.state = .idle ∨ s.heat.state = .results →
        exec .abortHeat s = refusal .refusedState 0)
    ∧ (s.Asks f 0x0C (sized 0) → s.heat.state = .idle ∨ s.heat.state = .running →
        exec .clearHeat s = refusal .refusedState 0)
    ∧ (∀ d, s.Asks f 0x08 (counted 20 21 4 0 10) → s.heat.state = .idle →
        (planFields f.request.fields).valueFault = some d → exec .loadHeatPlan s = refusal .badValue d)
    ∧ (∀ d, s.Asks f 0x08 (counted 20 21 4 0 10) → s.heat.state = .idle →
        (planFields f.request.fields).valueFault = none → (planFields f.request.fields).fault s.mgmt.settings = some d →
        exec .loadHeatPlan s = refusal .planInvalid d)
    ∧ (s.Asks f 0x0D (sized 1) → 9 < lane ∨ s.laneInUse lane = false → exec .markDns s = refusal .badValue 0)
    ∧ (s.Asks f 0x0D (sized 1) → lane ≤ 9 → s.laneInUse lane = true →
        s.heat.state = .idle ∨ s.heat.state = .results ∨ (∀ r, s.record? lane = some r →
          (r.status ≠ .waiting ∧ r.status ≠ .swimming) ∨ r.lapCount ≠ 0) → exec .markDns s = refusal .refusedState 0)
    ∧ (s.Asks f 0x0E (sized 6) → 9 < lane ∨ s.laneInUse lane = false ∨ 3 < byteAt f.request.fields 1 →
        exec .adjudicateFinish s = refusal .badValue 0)
    ∧ (s.Asks f 0x0E (sized 6) → lane ≤ 9 → s.laneInUse lane = true → byteAt f.request.fields 1 ≤ 3 →
        s.heat.state = .idle ∨ s.heat.state = .armed ∨ (∀ r, s.record? lane = some r → r.status ≠ .final) →
        exec .adjudicateFinish s = refusal .refusedState 0)
    ∧ (s.Asks f 0x0F (sized 2) → 9 < lane ∨ s.laneInUse lane = false ∨ 1 < byteAt f.request.fields 1 →
        exec .setDq s = refusal .badValue 0)
    ∧ (s.Asks f 0x0F (sized 2) → lane ≤ 9 → s.laneInUse lane = true → byteAt f.request.fields 1 ≤ 1 →
        s.heat.state = .idle ∨ s.heat.state = .armed ∨ (∀ r, s.record? lane = some r → r.status = .dns) →
        exec .setDq s = refusal .refusedState 0))
  ∧ (∀ (m : MeetSettings) (p : PlanFields) (q : Plan),
    let present (event heat distance : Nat) (relay : Prop) (stroke : Nat) (lanes : List Nat) (k : Nat) : Prop :=
      let laps := distance / m.course.metres
      (k = 1 ∧ (distance = 0 ∨ 1500 < distance ∨ ¬m.course.metres ∣ distance)) ∨ (k = 2 ∧ 60 < laps)
        ∨ (k = 3 ∧ relay ∧ (¬4 ∣ laps ∨ ¬2 ∣ laps / 4)) ∨ (k = 4 ∧ ∃ l ∈ lanes, m.laneCount ≤ l)
        ∨ (k = 5 ∧ ∃ (i j l : Nat), i < j ∧ lanes[i]? = some l ∧ lanes[j]? = some l) ∨ (k = 6 ∧ lanes.length = 0)
        ∨ (k = 7 ∧ 4 < stroke) ∨ (k = 8 ∧ (event < 1 ∨ 999 < event ∨ heat < 1 ∨ 99 < heat))
    Lowest (fun k => (k = 5 ∧ 1 < p.relay) ∨ (k = 6 ∧ 2 < p.split) ∨ (k = 15 ∧ ∃ e ∈ p.entries, 1 < byteAt e 3))
        p.valueFault
      ∧ Lowest (present p.event p.heat p.distance (p.relay = 1) p.stroke (p.entries.map fun e => byteAt e 0)) (p.fault m)
      ∧ Lowest (present q.event q.heat q.distance (q.relay = true) q.stroke.code.toNat (q.entries.map (·.lane)))
        (q.fault m))
  ∧ ∀ (p : Plan) (active : List (Option ActiveEntry)),
    let has (lane : Nat) (wall : Wall) : Prop :=
      ∃ x, some x ∈ active ∧ x.enabled = true ∧ x.lane = lane ∧ x.wall = wall
    Lowest (fun l => l < 10 ∧ (∃ e ∈ p.entries, e.lane = l) ∧ (¬has l .start ∨ ¬has l .turn)) (p.lackingNode active)

/-- A rising edge of the start line in ARMED is the start event: the epoch, RUNNING, both timers, WAITING lanes SWIMMING,
collectors of lanes not DNS ARMED for lap 1, the clock running; the trackers are kept, and no field becomes pending.
Program 0 begins when it is not empty, and a program that runs then ends PREEMPTED; PULSE_DONE stands before HEAT_STATE with
cause START. With every lane DNS the heat so started closes at once with CLOSE_ALL_FINAL. -/
def Obligations.StartEventStartsHeat : Prop :=
  ∀ s : State, s.Live → s.heat.state = .armed → s.pulse.startPrevious = false →
    let started (t : State) : Prop :=
      t.heat = { s.heat with
          state := .running
          epoch := some s.deckTime
          startTimer := some (s.deckTime + ticks (s.plan.startWindow * 1000))
          limitTimer := some (s.deckTime + ticks (s.plan.heatLimit * 6000000)) }
      ∧ t.results = s.results.map (fun r => if r.status = .waiting then { r with status := .swimming } else r)
      ∧ t.walls.pool = s.walls.pool
      ∧ t.walls.collectors = s.walls.collectors.map (fun c =>
          if (s.record? c.lane).any (fun r => r.status == .dns) then c
          else { lane := c.lane, lap := 1, state := .armed, arming := some (s.plan.minLap * 1000 : Nat) })
      ∧ t.composer.clockRunning = true ∧ t.composer.clockTimer = some (s.deckTime + 10000) ∧ s.Pends t []
      ∧ t.starts = s.starts ∧ t.exchanges = s.exchanges ∧ t.intake = s.intake ∧ t.nodes = s.nodes
      ∧ t.pulse.startPrevious = true ∧ t.pulse.programs = s.pulse.programs ∧ t.pulse.skipped = s.pulse.skipped
      ∧ ((s.pulse.program 0).steps = [] → t.pulse.running = s.pulse.running ∧ t.pulse.status = s.pulse.status
          ∧ t.out = s.out.report (.heatState .running .start))
      ∧ (∀ x xs, (s.pulse.program 0).steps = x :: xs →
          t.pulse.running = some
              { program := 0, repeatNo := 1, step := 1, completed := 0, timer := s.stepExpiry x }
            ∧ (s.pulse.running = none → t.pulse.status = s.pulse.status
                ∧ t.out = s.out.report (.heatState .running .start))
            ∧ ∀ r, s.pulse.running = some r →
                t.pulse.status = { program := some r.program, outcome := some .preempted, completed := r.completed }
                  ∧ t.out = (s.out.report (.pulseDone r.program .preempted)).report (.heatState .running .start))
      ∧ s.SameMeet t
    ((∃ r ∈ s.results, r.status = .waiting) → ∃ t, exec .startLineRisingEdge s = .next t ∧ started t)
    ∧ ((∀ r ∈ s.results, r.status = .dns) → ∃ u, started u
        ∧ exec .startLineRisingEdge s = .next (u.closeHeat .closeAllFinal).arbitrate)

/-- A rising edge in another heat state is a stray start and only counted; a falling edge of the start line changes the
sensed level alone. That the level of every other line is recorded too, driven lines among them, is the model's choice
(log entry 10). -/
def Obligations.StrayStartsAndLineChanges : Prop :=
  (∀ s : State, s.Live → s.heat.state ≠ .armed → s.pulse.startPrevious = false →
    exec .startLineRisingEdge s = .next { s with
      starts := { s.starts with strayCount := satAdd 16 s.starts.strayCount 1 }
      pulse := { s.pulse with
        sensed := s.pulse.sensed.set s.mgmt.settings.startLine true, startPrevious := true } })
    ∧ (∀ s : State, s.Live → exec (.lineLevelChange s.mgmt.settings.startLine false) s = .next { s with
        pulse := { s.pulse with
          sensed := s.pulse.sensed.set s.mgmt.settings.startLine false, startPrevious := false } })
    ∧ ∀ (s : State) (line : Nat) (level : Bool), s.Live → line ≠ s.mgmt.settings.startLine →
      exec (.lineLevelChange line level) s =
        .next { s with pulse := { s.pulse with sensed := s.pulse.sensed.set line level } }

/-- The start window's expiry in RUNNING judges every lane that is not DNS from its tracker, with the expiry value as the
Deck Time of the judgement, stops the timer, and touches no other part of the race. The lanes are judged in lane order,
each with its START_JUDGED report before the PLACES and LAMP frames of its change. A reaction is the held release of a
RELEASED tracker from 10 s before the epoch up to the judgement, and none else; a negative one is a false start, one below
the floor is suspect, an absent one asks for review. Each lane judged is handed to the Composer, which writes or blanks its
REACTION, whatever its board showed before (log entry 20). -/
def Obligations.StartWindowJudgesLanes : Prop :=
  (∀ (s : State) (e : DeckTime), s.Live → s.ResultsSound → s.heat.state = .running → s.heat.startTimer = some e →
    timerDue s.deckTime e = true →
    let lanes : List Nat := [0, 1, 2, 3, 4, 5, 6, 7, 8, 9]
    ∃ t, exec .startWindowExpiry s = .next t
      ∧ t.heat = { s.heat with startTimer := none }
      ∧ t.unplaced = s.results.map (fun r =>
          if r.status = .dns then r.unplaced
          else
            { r.unplaced with
              reaction := s.reaction r.lane (s.heatTime e)
              flags := r.flags.afterStart (s.plan.reactionFloor * 100) (s.reaction r.lane (s.heatTime e)) })
      ∧ t.out = (lanes.foldl (State.judgeStartLane (s.heatTime e))
          { s with heat := { s.heat with startTimer := none } }).out
      ∧ (∀ r ∈ s.results, r.status ≠ .dns → t.HandedOver r.lane)
      ∧ t.walls = s.walls ∧ t.exchanges = s.exchanges ∧ t.starts = s.starts ∧ t.intake = s.intake ∧ t.nodes = s.nodes
      ∧ t.pulse = s.pulse ∧ t.deckTime = s.deckTime ∧ s.SameMeet t)
  ∧ (∀ (s : State) (lane : Nat) (r : LaneRecord) (tj : Int), s.record? lane = some r →
    (r.status = .dns → s.judgeStartLane tj lane = s)
    ∧ (r.status ≠ .dns → (s.judgeStartLane tj lane).out = s.framesOf lane
        (fun x =>
          { x with
            reaction := s.reaction lane tj
            flags := x.flags.afterStart (s.plan.reactionFloor * 100) (s.reaction lane tj) })
        fun x => some (.startJudged lane x.reaction x.flags)))
  ∧ (∀ (s : State) (lane : Nat) (tj : Int),
    (∀ d, (s.tracker lane).state = .released → (s.tracker lane).lastRelease = some d →
      s.reaction lane tj = if -1000000 ≤ s.heatTime d ∧ s.heatTime d ≤ tj then some (s.heatTime d) else none)
    ∧ ((s.tracker lane).state ≠ .released ∨ (s.tracker lane).lastRelease = none → s.reaction lane tj = none))
  ∧ ∀ (f : LaneFlags) (floor : Nat),
    f.afterStart floor none = { f with review := true }
    ∧ (∀ t : Int, t < 0 → f.afterStart floor (some t) = { f with falseStart := true })
    ∧ (∀ t : Int, 0 ≤ t → t < floor → f.afterStart floor (some t) = { f with suspectReaction := true, review := true })
    ∧ ∀ t : Int, 0 ≤ t → (floor : Int) ≤ t → f.afterStart floor (some t) = f

/-- CLOSE_HEAT is carried out in RUNNING, with its REPLY DONE before the close with cause CLOSE_REQUEST, and refused with
REFUSED_STATE in any other heat state. -/
def Obligations.CloseHeatByState : Prop :=
  ∀ (s : State) (f : Frame), s.Asks f 0x0B (sized 0) →
    (s.heat.state = .running → ∃ t, exec .closeHeat s = .next t ∧ t.heat.state = .results
      ∧ t = (((s.reply f.request .done).closeHeat .closeRequest).arbitrate).popHead)
    ∧ (s.heat.state ≠ .running → exec .closeHeat s =
        .next { s with mgmt := s.mgmt.popped, out := s.out.offer (replyFrame f.request .refusedState 0 []) })

/-- A close of the heat, whatever its cause: RESULTS, both timers stopped, a pending start judged at the Deck Time of the
close, open finish collections decided and their lanes FINAL, SWIMMING lanes NO_FINISH and every other status kept, open
collectors CLOSED and the others kept, no exchange window open, the clock stopped at the heat time of the close, HEAT_STATE
with its cause after the frames of the steps (whose order among the lanes is the model's choice, log entry 26); the epoch,
the plan and the trackers are kept. CLOCK becomes pending, and a lane whose status changed or whose start was judged is
handed over. Program 2 is fired by CLOSE_ALL_FINAL alone, and skipped and counted while a program runs. The heat limit
closes with CLOSE_LIMIT. The closing condition holds once every lane in use is FINAL, NO_FINISH or DNS, and not before; the
finish of the last open lane, MARK_DNS of the last open lane in RUNNING and a start with every lane DNS meet it and end in
RESULTS, by the close that the statements on those three commands name. -/
def Obligations.HeatCloses : Prop :=
  (∀ (s : State) (cause : HeatCause), s.ResultsSound → (∀ x ∈ s.exchanges, x.lane < 10) →
    (s.exchanges.map (·.lane)).Nodup → s.heat.state = .running →
    let decided (c : Collector) : Option Arrival :=
      if c.state = .collecting then decideArrival (s.plan.trustWindow * 100) c.pad (backupValue c.buttons) else none
    let finished (lane : Nat) : Option Arrival := (s.collector? lane).bind fun c =>
      if s.laps ≤ c.lap then decided c else none
    let t := s.closeHeat cause
    t.heat = { s.heat with state := .results, startTimer := none, limitTimer := none }
      ∧ t.results.map (·.lane) = s.results.map (·.lane)
      ∧ (∀ r ∈ s.results, ∃ q, t.record? r.lane = some q
          ∧ q.status = (if (finished r.lane).isSome = true then .final
              else if r.status = .swimming then .noFinish else r.status)
          ∧ q.finish = (match finished r.lane with
              | some a => some a.time
              | none => r.finish)
          ∧ q.reaction = (if s.heat.startTimer = none ∨ r.status = .dns then r.reaction
              else s.reaction r.lane (s.heatTime s.deckTime)))
      ∧ (∀ l < 10, ∀ c, s.collector? l = some c →
          t.collector? l = some (if (decided c).isSome = true then { c with state := .closed, timer := none } else c))
      ∧ (∀ x ∈ t.exchanges, x.window = none)
      ∧ t.composer.clockRunning = false ∧ t.composer.clockHeld = s.heatTime s.deckTime ∧ t.composer.clockTimer = none
      ∧ (let before := s.closeStart.closeLanes.composer.queue
        t.composer.queue = if before.contains .clock then before else before ++ [.clock])
      ∧ (∀ r ∈ s.results, ∀ q, t.record? r.lane = some q →
          q.status ≠ r.status ∨ (s.heat.startTimer.isSome = true ∧ r.status ≠ .dns) → t.HandedOver r.lane)
      ∧ t.out = s.closeStart.closeLanes.out.report (.heatState .results cause)
      ∧ (cause ≠ .closeAllFinal ∨ (s.pulse.program 2).steps = [] → t.pulse = s.pulse)
      ∧ (∀ x xs, cause = .closeAllFinal → (s.pulse.program 2).steps = x :: xs →
          (s.pulse.running.isSome = true → t.pulse = { s.pulse with skipped := satAdd 16 s.pulse.skipped 1 })
            ∧ (s.pulse.running = none → t.pulse.running = some
                { program := 2, repeatNo := 1, step := 1, completed := 0, timer := s.stepExpiry x }
              ∧ t.pulse = { s.pulse with running := t.pulse.running }))
      ∧ t.starts = s.starts ∧ t.intake = s.intake ∧ t.nodes = s.nodes ∧ t.mgmt = s.mgmt ∧ s.SameMeet t)
  ∧ (∀ s : State, s.Live → s.heat.state = .running → s.expired s.heat.limitTimer = true →
    exec .heatLimitExpiry s = .next (s.closeHeat .closeLimit).arbitrate)
  ∧ (∀ s : State, s.heat.state = .running →
    (∀ r ∈ s.results, r.status = .final ∨ r.status = .noFinish ∨ r.status = .dns) →
    s.examineClosing = s.closeHeat .closeAllFinal)
  ∧ (∀ s : State,
    let closed (t : State) : Prop := t.heat.state = .results ∧ t.heat.startTimer = none ∧ t.heat.limitTimer = none
      ∧ t.composer.clockRunning = false
    let lastOpen (lane : Nat) : Prop := ∀ q ∈ s.results, q.lane ≠ lane →
      q.status = .final ∨ q.status = .noFinish ∨ q.status = .dns
    (∀ (lane : Nat) (c : Collector), s.Live → s.heat.state = .running → s.collector? lane = some c →
        c.state = .collecting → c.pad ≠ none ∨ c.buttons ≠ [] → s.expired c.timer = true → s.laps ≤ c.lap →
        lastOpen lane → ∃ t, exec (.lapCollectionExpiry lane) s = .next t ∧ closed t)
      ∧ (∀ (f : Frame) (lane : Nat) (r : LaneRecord), s.Asks f 0x0D (sized 1) → s.heat.state = .running →
        byteAt f.request.fields 0 = lane → lane < 10 → s.laneInUse lane = true → s.record? lane = some r →
        r.status = .swimming → r.lapCount = 0 → lastOpen lane → ∃ t, exec .markDns s = .next t ∧ closed t)
      ∧ (s.Live → s.heat.state = .armed → s.pulse.startPrevious = false → (∀ r ∈ s.results, r.status = .dns) →
        ∃ t, exec .startLineRisingEdge s = .next t ∧ closed t))
  ∧ ∀ s : State, s.heat.state ≠ .running ∨ (∃ r ∈ s.results, r.status = .swimming ∨ r.status = .provisional) →
    s.examineClosing = s

/-- CLEAR_HEAT in ARMED or RESULTS and ABORT_HEAT in ARMED return the heat to IDLE: no epoch, timer, record, collector,
arrival or window is left and the trackers stop; the plan, a running program and the maps stay. Every lane's fields become
pending. The frames are the REPLY and HEAT_STATE with cause CLEAR or DISARM. -/
def Obligations.ClearAndDisarmReturnToIdle : Prop :=
  ∀ (s : State) (f : Frame),
    let returns (c : Instr) (cause : HeatCause) : Prop := ∃ t, exec c s = .next t
      ∧ t.heat = { plan := s.heat.plan, state := .idle, epoch := none, startTimer := none, limitTimer := none }
      ∧ t.results = [] ∧ t.walls.collectors = [] ∧ t.walls.pool = [] ∧ t.exchanges = []
      ∧ (∀ k ∈ t.starts.trackers, k = { state := .unknown, lastRelease := none, taking := false })
      ∧ t.out = (s.out.offer (replyFrame f.request .done 0 [])).report (.heatState .idle cause)
      ∧ t.starts.strayCount = s.starts.strayCount ∧ t.pulse = s.pulse ∧ t.nodes = s.nodes ∧ t.intake = s.intake
      ∧ s.Pends t allLaneFields
      ∧ t.mgmt.queue = s.mgmt.queue.tail ∧ t.composer.clockHeld = s.composer.clockHeld ∧ s.SameMeet t
    (s.Asks f 0x0C (sized 0) → s.heat.state = .armed ∨ s.heat.state = .results → returns .clearHeat .clear)
    ∧ (s.Asks f 0x0A (sized 0) → s.heat.state = .armed → returns .abortHeat .disarm)

/-- ABORT_HEAT in RUNNING recalls the start: ARMED without epoch or timers, the records WAITING or DNS with EXHIBITION
alone, collectors DORMANT for lap 1, no arrival and no window; trackers and expected sequences are kept; program 1
runs when it is not empty, and a program that runs then ends PREEMPTED. CLOCK and then PLACE, REACTION and TIME of each lane
in use become pending. The frames are the REPLY, LAMP OFF for each lane of the meet, the PULSE_DONE of a pre-emption, and
HEAT_STATE with cause ABORT. -/
def Obligations.RecallResetsStart : Prop :=
  ∀ (s : State) (f : Frame), s.Asks f 0x0A (sized 0) → s.heat.state = .running →
    let reports : Option Report → LoopOut := fun done =>
      (((s.out.offer (replyFrame f.request .done 0 [])).offers s.offFrames).reports done).report (.heatState .armed .abort)
    ∃ t, exec .abortHeat s = .next t
      ∧ t.heat = { plan := s.heat.plan, state := .armed, epoch := none, startTimer := none, limitTimer := none }
      ∧ t.results = s.results.map (fun r =>
          { lane := r.lane, entryId := r.entryId, status := if r.status = .dns then .dns else .waiting
            flags := { exhibition := r.flags.exhibition } })
      ∧ t.walls.collectors = s.walls.collectors.map (fun c => { lane := c.lane, lap := 1, state := .dormant })
      ∧ t.walls.pool = [] ∧ t.exchanges = s.exchanges.map (fun x => { x with window := none })
      ∧ t.composer.clockRunning = false ∧ t.composer.clockHeld = 0 ∧ t.composer.clockTimer = none
      ∧ s.Pends t (.clock :: ([0, 1, 2, 3, 4, 5, 6, 7, 8, 9].filter fun l => (s.record? l).isSome).flatMap
          fun l => [.place l, .reaction l, .time l])
      ∧ ((s.pulse.program 1).steps ≠ [] →
          (∃ r, t.pulse.running = some r ∧ r.program = 1 ∧ r.repeatNo = 1 ∧ r.step = 1)
            ∧ t.out = reports (s.pulse.running.map fun r => .pulseDone r.program .preempted)
            ∧ ∀ r, s.pulse.running = some r →
                t.pulse.status = { program := some r.program, outcome := some .preempted, completed := r.completed })
      ∧ ((s.pulse.program 1).steps = [] → t.pulse = s.pulse ∧ t.out = reports none)
      ∧ t.starts = s.starts ∧ t.nodes = s.nodes ∧ t.intake = s.intake ∧ t.mgmt.queue = s.mgmt.queue.tail ∧ s.SameMeet t

/-- MARK_DNS of a lane in use that is WAITING or SWIMMING with no decided lap: the lane becomes DNS with no reaction, no
finish and EXHIBITION alone, its collector DORMANT; the other lanes' records but for places and lamps, and the rest of
the race, are as they were. The REPLY stands before the frames of the change, and the lane is handed to the Composer.
When it was the last open lane of a RUNNING heat, the heat closes then with CLOSE_ALL_FINAL. That the displayed time
stays is the model's inference (log entry 19). -/
def Obligations.MarkDnsTakesLaneOut : Prop :=
  ∀ (s : State) (f : Frame) (lane : Nat) (r : LaneRecord), s.Asks f 0x0D (sized 1) →
    byteAt f.request.fields 0 = lane → lane < 10 → s.laneInUse lane = true →
    s.heat.state = .armed ∨ s.heat.state = .running → s.record? lane = some r →
    (r.status = .waiting ∨ r.status = .swimming) ∧ r.lapCount = 0 →
    let gone (x : LaneRecord) : LaneRecord :=
      { x with status := .dns, reaction := none, finish := none, flags := { exhibition := x.flags.exhibition } }
    let goneOut (t : State) : Prop := t.unplaced = s.changed lane gone
      ∧ t.walls = { s.walls with collectors := s.walls.collectors.map fun c =>
          if c.lane = lane then { lane := c.lane, lap := c.lap, state := .dormant } else c }
      ∧ t.out = State.framesOf { s with out := s.out.offer (replyFrame f.request .done 0 []) } lane gone (fun _ => none)
      ∧ t.HandedOver lane
      ∧ t.heat = s.heat ∧ t.starts = s.starts ∧ t.exchanges = s.exchanges ∧ t.intake = s.intake ∧ t.nodes = s.nodes
      ∧ t.pulse = s.pulse ∧ s.SameMeet t
    let isOpen (q : LaneRecord) : Prop := q.status = .waiting ∨ q.status = .swimming ∨ q.status = .provisional
    (s.heat.state = .armed ∨ (∃ q ∈ s.results, q.lane ≠ lane ∧ isOpen q) →
      ∃ t, exec .markDns s = .next t ∧ goneOut t ∧ t.mgmt.queue = s.mgmt.queue.tail)
    ∧ (s.heat.state = .running → (∀ q ∈ s.results, q.lane ≠ lane → ¬isOpen q) →
      ∃ u, goneOut u ∧ exec .markDns s = .next ((u.closeHeat .closeAllFinal).arbitrate).popHead)

/-- Every command keeps what a heat state says of the other blocks. -/
def Obligations.EveryStepKeepsHeatSound : Prop :=
  ∀ s t : State, s.HeatSound → step s = .next t → t.HeatSound

/-! ### Walls, laps and arrivals -/

/-- The backup value of a collection, from the button values it holds, 0 to 3: the median of three, the floor of the mean
of two, the one value, or none; which button gave which value plays no part. -/
def Obligations.BackupValueOfButtons : Prop :=
  (∀ a b c : Int, a ≤ b → b ≤ c → backupValue [a, b, c] = some b)
    ∧ (∀ a b : Int, ∃ m, backupValue [a, b] = some m ∧ 2 * m ≤ a + b ∧ a + b < 2 * m + 2)
    ∧ (∀ a : Int, backupValue [a] = some a) ∧ backupValue [] = none
    ∧ (∀ xs ys : List Int, xs.Perm ys → backupValue xs = backupValue ys)
    ∧ ∀ c : Collector, c.buttons.length = c.b1.isSome.toNat + c.b2.isSome.toNat + c.b3.isSome.toNat
        ∧ ∀ x, x ∈ c.buttons ↔ c.b1 = some x ∨ c.b2 = some x ∨ c.b3 = some x

/-- The decided arrival: the pad value wins, under review when it is further than the trust window from the backup value;
the backup value stands in for an absent pad value. -/
def Obligations.ArrivalFromPadAndBackup : Prop :=
  ∀ (trust : Nat) (p b : Int),
    (p - b ≤ trust ∧ b - p ≤ trust →
      decideArrival trust (some p) (some b) = some { time := p, source := .pad, review := false, backupUsed := false })
    ∧ ((trust : Int) < p - b ∨ (trust : Int) < b - p →
      decideArrival trust (some p) (some b) = some { time := p, source := .pad, review := true, backupUsed := false })
    ∧ decideArrival trust (some p) none = some { time := p, source := .pad, review := false, backupUsed := false }
    ∧ decideArrival trust none (some b) = some { time := b, source := .backup, review := false, backupUsed := true }
    ∧ decideArrival trust none none = none

/-- A press in RUNNING for an ARMED or COLLECTING collector at lap n with arming time a, by its wall and heat time: early,
opening, joining, late for the lap before, or a skip-ahead; it never touches another lane's collector, nor another lane's
record but for places and lamps. A pad press that sets or lowers P makes the lane PROVISIONAL on the finish lap, with its
FINISH report and the lane handed to the Composer however little P fell (log entry 20), and is displayed on a displayed lap;
any other taken press leaves the records. A late pad press marks LATE_PAD_SEEN on the lane's stored record of the lap before
and on no other. A skip-ahead counts the missed lap, sets REVIEW and reports it. -/
def Obligations.PressIsClassified : Prop :=
  ∀ (s : State) (c : Collector) (p : Press) (a : Int), s.heat.state = .running → s.collector? p.lane = some c →
    c.state = .armed ∨ c.state = .collecting → c.arming = some a →
    let early := s.changed p.lane fun r => { r with early := satAdd 8 r.early 1 }
    let late := s.changed p.lane fun r => { r with late := satAdd 8 r.late 1 }
    let own := p.wall = lapWall c.lap
    let lowers := c.state = .armed ∨ ∀ v, c.value p.sensor = some v → p.time < v
    let shows := s.plan.split = .allWalls ∨ (s.plan.split = .startWall ∧ lapWall c.lap = .start)
    let provisional (x : LaneRecord) : LaneRecord :=
      { x with status := .provisional, finish := some p.time, source := some .pad, displayed := some p.time }
    let missed : ArrivalRecord := { lane := p.lane, lap := c.lap, wall := lapWall c.lap, time := none, source := .missed
                                    buttons := 0, flags := { review := true } }
    let t := s.takePress p
    (own → p.time < a → t.unplaced = early ∧ t.walls = s.walls)
    ∧ (own → a ≤ p.time → c.state = .armed → ∃ d, t.collector? p.lane = some d ∧ d.lap = c.lap
        ∧ d.state = .collecting ∧ d.timer = some (p.deck + ticks (s.plan.collectionWindow * 1000))
        ∧ (p.sensor ≠ .platform → d.value p.sensor = some p.time) ∧ t.walls.pool = s.walls.pool)
    ∧ (own → a ≤ p.time → c.state = .collecting → p.sensor ≠ .platform → ∃ d, t.collector? p.lane = some d
        ∧ d.value p.sensor = some (min p.time ((c.value p.sensor).getD p.time)) ∧ d.timer = c.timer
        ∧ d.state = .collecting ∧ d.lap = c.lap ∧ t.walls.pool = s.walls.pool)
    ∧ (own → a ≤ p.time → lowers → p.sensor = .pad → c.lap = s.laps →
        t.unplaced = s.changed p.lane provisional
          ∧ t.out = s.framesOf p.lane provisional (fun r =>
              some (.finish r.lane .provisional (r.finish.getD 0) r.source r.place r.flags))
          ∧ (s.record? p.lane ≠ none → t.HandedOver p.lane))
    ∧ (own → a ≤ p.time → lowers → p.sensor = .pad → c.lap ≠ s.laps → shows →
        t.unplaced = s.changed p.lane (fun x => { x with displayed := some p.time }) ∧ t.out = s.out)
    ∧ (own → a ≤ p.time → ¬lowers ∨ p.sensor ≠ .pad ∨ (c.lap ≠ s.laps ∧ ¬shows) →
        t.results = s.results ∧ t.out = s.out)
    ∧ (¬own → 2 ≤ c.lap → p.time < a → t.unplaced = late ∧ t.walls.collectors = s.walls.collectors
        ∧ t.walls.pool = s.walls.pool.map (fun x => if p.sensor = .pad ∧ x.lane = p.lane ∧ x.lap + 1 = c.lap then
            { x with flags := { x.flags with latePadSeen := true } } else x)
        ∧ (p.sensor ≠ .pad → t.walls = s.walls))
    ∧ (¬own → c.lap = 1 → p.time < a → t.unplaced = early ∧ t.walls = s.walls)
    ∧ (¬own → a ≤ p.time → c.state = .collecting ∨ s.laps ≤ c.lap ∨ p.time < a + (s.plan.minLap * 1000 : Nat) →
        t.unplaced = early ∧ t.walls = s.walls)
    ∧ (¬own → a + (s.plan.minLap * 1000 : Nat) ≤ p.time → c.state = .armed → c.lap < s.laps →
        (∃ d, t.collector? p.lane = some d ∧ d.lap = c.lap + 1 ∧ d.state = .collecting ∧ d.link = false
          ∧ d.arming = some (a + (s.plan.minLap * 1000 : Nat)))
          ∧ t.walls.pool = (if s.walls.pool.length < 512 then s.walls.pool ++ [missed] else s.walls.pool)
          ∧ (∀ r, s.record? p.lane = some r → ∃ q, t.record? p.lane = some q ∧ q.lapCount = r.lapCount + 1
              ∧ q.flags.review = true
              ∧ q.flags.splitsLost = (r.flags.splitsLost || decide (512 ≤ s.walls.pool.length)))
          ∧ (exchangeAt s.plan.relay s.laps c.lap = none → p.sensor ≠ .pad → t.out = s.out.report (.arrival missed)))
    ∧ (∀ l, l ≠ p.lane → t.collector? l = s.collector? l
        ∧ (t.record? l).map LaneRecord.unplaced = (s.record? l).map LaneRecord.unplaced)
    ∧ t.heat = s.heat ∧ t.starts = s.starts ∧ t.intake = s.intake ∧ t.nodes = s.nodes ∧ t.pulse = s.pulse

/-- An edge handed on reaches the lane's Platform Tracker when it is the start sensor's at the START wall, and a timed press
of a pad or button reaches the Wall Judge; a stale edge is counted, sets REVIEW in RUNNING, and gives the tracker no time.
A taking tracker shows PRESSED after a press and RELEASED with the edge's time after a release; the start sensor is the pad
for BACK and a MEDLEY relay, else the platform. A press in IDLE or ARMED, of a lane without a collector, or of a DORMANT
collector in RUNNING changes nothing. A press in RESULTS, or in RUNNING for a CLOSED collector, is late: counted, REVIEW
for a pad press at the finish wall, and the stored record of the collector's lap marked when a pad press falls at its
wall; no time and no lap changes. -/
def Obligations.PressesWithoutCollection : Prop :=
  (∀ (s : State) (n : ActiveEntry) (stamp : DeckTime) (edge : List Byte) (k : Sensor),
    Sensor.ofCode? (byteAt edge 0 / 16) = some k →
    let press := (byteAt edge 0).testBit 0
    let tracked (deck : Option DeckTime) : StartJudge :=
      if n.wall = .start ∧ k = s.plan.startSensor then
        { s.starts with trackers := s.starts.trackers.modify n.lane fun x =>
            if x.taking = false then x
            else if press = true then { x with state := .pressed }
            else { x with state := .released, lastRelease := deck } }
      else s.starts
    let t := s.handEdge n stamp edge
    (∀ d, edgeDeck stamp n.delay edge = some d → press = true → k ≠ .platform →
        t = State.takePress { s with starts := tracked (some d) }
          { lane := n.lane, wall := n.wall, sensor := k, deck := d, time := s.heatTime d })
    ∧ (∀ d, edgeDeck stamp n.delay edge = some d → press = false ∨ k = .platform →
        t = { s with starts := tracked (some d) })
    ∧ (edgeDeck stamp n.delay edge = none → t.starts = tracked none
        ∧ t.intake = { s.intake with staleCount := satAdd 16 s.intake.staleCount 1 }
        ∧ t.walls = s.walls ∧ t.out = s.out ∧ t.heat = s.heat
        ∧ (s.heat.state = .running →
            t.unplaced = s.changed n.lane fun x => { x with flags := { x.flags with review := true } })
        ∧ (s.heat.state ≠ .running → t.results = s.results)))
    ∧ (∀ p : Plan, p.startSensor =
        if p.stroke = .back ∨ (p.stroke = .medley ∧ p.relay = true) then .pad else .platform)
    ∧ (∀ s lane wall sensor deck, State.toWallJudge s lane wall sensor false deck = s)
    ∧ (∀ s lane wall press deck, State.toWallJudge s lane wall .platform press deck = s)
    ∧ (∀ s lane wall sensor press, State.toWallJudge s lane wall sensor press none = s)
    ∧ (∀ (s : State) (p : Press), s.heat.state = .idle ∨ s.heat.state = .armed ∨ s.collector? p.lane = none
        ∨ (s.heat.state = .running ∧ ∃ c, s.collector? p.lane = some c ∧ c.state = .dormant) → s.takePress p = s)
    ∧ ∀ (s : State) (c : Collector) (p : Press), s.collector? p.lane = some c →
      s.heat.state = .results ∨ (s.heat.state = .running ∧ c.state = .closed) →
      let t := s.takePress p
      t.unplaced = s.changed p.lane (fun r =>
          { r with
            late := satAdd 8 r.late 1
            flags := { r.flags with
              review := r.flags.review || (p.sensor == .pad && p.wall == lapWall s.laps) } })
        ∧ t.walls.collectors = s.walls.collectors
        ∧ t.walls.pool = s.walls.pool.map (fun a =>
            if p.sensor = .pad ∧ p.wall = lapWall c.lap ∧ a.lane = p.lane ∧ a.lap = c.lap then
              { a with flags := { a.flags with latePadSeen := true } }
            else a)
        ∧ t.heat = s.heat ∧ t.exchanges = s.exchanges ∧ t.starts = s.starts ∧ t.pulse = s.pulse

/-- The collection expiry of a lap below L that is no exchange lap: the lap is counted, its arrival stored while the pool
has room and reported when the split mode reports the lap, and the collector moves on to the next lap with the decided
time plus minLap; other lanes' collectors and records but for places and lamps are as they were. -/
def Obligations.CollectionExpiryDecidesLap : Prop :=
  ∀ (s : State) (lane : Nat) (c : Collector) (a : Arrival) (r : LaneRecord), s.Live → s.heat.state = .running →
    s.collector? lane = some c → c.state = .collecting → s.expired c.timer = true → c.lap < s.laps →
    exchangeAt s.plan.relay s.laps c.lap = none →
    decideArrival (s.plan.trustWindow * 100) c.pad (backupValue c.buttons) = some a →
    s.record? lane = some r → r.status = .swimming →
    let stored : ArrivalRecord :=
      { lane := lane, lap := c.lap, wall := lapWall c.lap, time := some a.time, source := a.source
        buttons := c.buttons.length, flags := { review := a.review, link := c.link } }
    let shows := s.plan.split = .allWalls ∨ (s.plan.split = .startWall ∧ lapWall c.lap = .start)
    ∃ t, exec (.lapCollectionExpiry lane) s = .next t
      ∧ t.unplaced = s.changed lane (fun x =>
          { x with
            lapCount := x.lapCount + 1
            flags := { x.flags with
              review := x.flags.review || a.review
              backupUsed := x.flags.backupUsed || a.backupUsed
              splitsLost := x.flags.splitsLost || decide (512 ≤ s.walls.pool.length) }
            displayed := if s.plan.split.shows s.laps c.lap then some a.time else x.displayed })
      ∧ (s.plan.split.shows s.laps c.lap = true ↔ shows)
      ∧ (shows → t.out = s.out.report (.arrival stored)) ∧ (¬shows → t.out = s.out)
      ∧ t.walls.pool = (if s.walls.pool.length < 512 then s.walls.pool ++ [stored] else s.walls.pool)
      ∧ t.collector? lane = some { lane := lane, lap := c.lap + 1, state := .armed
                                   arming := some (a.time + (s.plan.minLap * 1000 : Nat)) }
      ∧ (∀ l, l ≠ lane → t.collector? l = s.collector? l)
      ∧ t.heat = s.heat ∧ t.exchanges = s.exchanges ∧ t.starts = s.starts ∧ t.intake = s.intake ∧ t.pulse = s.pulse
      ∧ t.deckTime = s.deckTime ∧ t.nodes = s.nodes ∧ s.SameMeet t

/-- The finish collection's expiry: the lane is FINAL with the decided time and source and the collection's P and B,
with its FINISH report before the PLACES and LAMP frames, and is handed to the Composer; its arrival is stored while the
pool has room, its collector is CLOSED and keeps its lap, arming time and values. When it was the last open lane, the
heat closes then with CLOSE_ALL_FINAL. -/
def Obligations.FinishExpiryMakesFinal : Prop :=
  ∀ (s : State) (lane : Nat) (c : Collector) (a : Arrival) (r : LaneRecord), s.Live → s.heat.state = .running →
    s.collector? lane = some c → c.state = .collecting → s.expired c.timer = true → s.laps ≤ c.lap →
    decideArrival (s.plan.trustWindow * 100) c.pad (backupValue c.buttons) = some a →
    s.record? lane = some r →
    let final (x : LaneRecord) : LaneRecord :=
      { x with
        lapCount := x.lapCount + 1, status := .final, finish := some a.time, source := some a.source
        finishPad := c.pad, finishBackup := backupValue c.buttons, displayed := some a.time
        flags := { x.flags with
          review := x.flags.review || a.review
          backupUsed := x.flags.backupUsed || a.backupUsed
          splitsLost := x.flags.splitsLost || decide (512 ≤ s.walls.pool.length) } }
    let finalOut (t : State) : Prop := t.unplaced = s.changed lane final
      ∧ t.out = s.framesOf lane final (fun x => some (.finish x.lane .final (x.finish.getD 0) x.source x.place x.flags))
      ∧ t.HandedOver lane
      ∧ t.walls.pool = (if s.walls.pool.length < 512 then
          s.walls.pool ++ [{ lane := lane, lap := c.lap, wall := lapWall c.lap, time := some a.time, source := a.source
                             buttons := c.buttons.length, flags := { review := a.review, link := c.link } }]
        else s.walls.pool)
      ∧ t.collector? lane = some { c with state := .closed, timer := none }
      ∧ (∀ l, l ≠ lane → t.collector? l = s.collector? l)
      ∧ t.heat = s.heat ∧ t.exchanges = s.exchanges ∧ t.starts = s.starts ∧ t.intake = s.intake ∧ t.pulse = s.pulse
      ∧ t.nodes = s.nodes ∧ s.SameMeet t
    let isOpen (q : LaneRecord) : Prop := q.status = .waiting ∨ q.status = .swimming ∨ q.status = .provisional
    ((∃ q ∈ s.results, q.lane ≠ lane ∧ isOpen q) → ∃ t, exec (.lapCollectionExpiry lane) s = .next t ∧ finalOut t)
    ∧ ((∀ q ∈ s.results, q.lane ≠ lane → ¬isOpen q) → ∃ u, finalOut u
        ∧ exec (.lapCollectionExpiry lane) s = .next (u.closeHeat .closeAllFinal).arbitrate)

/-- Every command keeps the arrivals sound: lap numbers of a lane strictly increase and never pass the heat's lap
count. Every command keeps each stored time, of a collection, an arrival or a lane record, from 0 to the heat limit (that TICK
closes a heat at its limit before Deck Time goes on is log entry 5). -/
def Obligations.EveryStepKeepsArrivalsSound : Prop :=
  (∀ s t : State, s.HeatSound → s.ArrivalsSound → step s = .next t → t.ArrivalsSound)
    ∧ ∀ s t : State, s.HeatSound → s.TimesBounded → step s = .next t → t.TimesBounded

/-! ### Relay exchanges -/

/-- The exchange timer's expiry judges the takeover from the tracker, with the expiry value as the Deck Time of the
judgement: the lane's exchange record and flags are written, its EXCHANGE report queued before the PLACES and LAMP frames of
the change, and the window closed; the rest of the race is as it was. A usable release gives OK down to exactly minus the
tolerance and EARLY below it, with the margin; every other tracker gives NO_TAKEOVER without one, and REVIEW. -/
def Obligations.ExchangeExpiryJudges : Prop :=
  (∀ (s : State) (lane : Nat) (o : OpenExchange), s.Live → s.openExchange lane = some o →
    timerDue s.deckTime o.timer = true →
    let e := exchangeVerdict (s.plan.tolerance * 100) o (s.heatTime o.timer)
      ((s.tracker lane).release.map s.heatTime)
    let judged (r : LaneRecord) : LaneRecord :=
      { r.setExchange o.number e with flags := r.flags.afterVerdict e.verdict }
    ∃ t, exec (.exchangeWindowExpiry lane) s = .next t
      ∧ t.unplaced = s.changed lane judged
      ∧ t.out = s.framesOf lane judged
          (fun _ => some (.exchange lane (o.number + 1) e.verdict
            (e.margin.map fun m => max (-32768) (min 32767 (m.tdiv 100)))))
      ∧ t.openExchange lane = none ∧ (∀ l, l ≠ lane → t.openExchange l = s.openExchange l)
      ∧ t.walls = s.walls ∧ t.starts = s.starts ∧ t.heat = s.heat ∧ t.intake = s.intake ∧ t.nodes = s.nodes
      ∧ t.pulse = s.pulse ∧ s.SameMeet t)
  ∧ ∀ (tol : Nat) (o : OpenExchange) (tj tr : Int) (f : LaneFlags),
    (o.arming ≤ tr → tr ≤ tj → -(tol : Int) ≤ tr - o.touch →
      exchangeVerdict tol o tj (some tr) = { verdict := .ok, margin := some (tr - o.touch) })
    ∧ (o.arming ≤ tr → tr ≤ tj → tr - o.touch < -(tol : Int) →
      exchangeVerdict tol o tj (some tr) = { verdict := .early, margin := some (tr - o.touch) })
    ∧ (tr < o.arming ∨ tj < tr → exchangeVerdict tol o tj (some tr) = { verdict := .noTakeover, margin := none })
    ∧ exchangeVerdict tol o tj none = { verdict := .noTakeover, margin := none }
    ∧ f.afterVerdict .ok = f ∧ f.afterVerdict .early = { f with earlyTakeover := true }
    ∧ f.afterVerdict .noTakeover = { f with review := true } ∧ f.afterVerdict .notJudged = { f with review := true }
    ∧ ∀ k : Tracker, (k.state ≠ .released → k.release = none) ∧ (k.state = .released → k.release = k.lastRelease)

/-- The collection expiry of an exchange lap decides it as any lap below L and hands it over: the window of exchange k opens
with the lap's arming time and the decided time, E beyond the present Deck Time, and no record is touched by the opening. A
skip-ahead over an exchange lap gives NOT_JUDGED and REVIEW, its EXCHANGE report after the ARRIVAL report of the missed lap,
and opens none. In both, a window still open is judged first, at the present Deck Time, with its record, flags and EXCHANGE
report. The same of the two functions alone, where no window is open. -/
def Obligations.ExchangeLapsOpenOrMiss : Prop :=
  (∀ (s : State) (lane k lap : Nat) (arming touch : Int) (dd : DeckTime), s.openExchange lane = none →
    (∃ x ∈ s.exchanges, x.lane = lane) →
    let t := s.handoff lane k lap arming touch dd
    t.openExchange lane = some
        { number := k, lap := lap, arming := arming, touch := touch
          timer := dd + ticks (s.plan.exchangeWindow * 1000) }
      ∧ t.results = s.results ∧ t.out = s.out ∧ t.walls = s.walls ∧ t.starts = s.starts)
  ∧ (∀ (s : State) (lane k : Nat), s.openExchange lane = none →
    let missed (r : LaneRecord) : LaneRecord :=
      { r.setExchange k { verdict := .notJudged, margin := none } with flags := { r.flags with review := true } }
    let t := s.missedExchange lane k
    t.unplaced = s.changed lane missed
      ∧ t.out = s.framesOf lane missed (fun _ => some (.exchange lane (k + 1) .notJudged none))
      ∧ t.openExchange lane = none ∧ t.walls = s.walls ∧ t.starts = s.starts)
  ∧ (∀ (s : State) (lane k : Nat) (c : Collector) (arming : Int) (a : Arrival) (r : LaneRecord), s.Live →
    s.heat.state = .running → s.collector? lane = some c → c.state = .collecting → c.arming = some arming →
    s.expired c.timer = true → c.lap < s.laps → exchangeAt s.plan.relay s.laps c.lap = some k →
    decideArrival (s.plan.trustWindow * 100) c.pad (backupValue c.buttons) = some a →
    s.record? lane = some r → r.status = .swimming → (∃ x ∈ s.exchanges, x.lane = lane) →
    let stored : ArrivalRecord :=
      { lane := lane, lap := c.lap, wall := lapWall c.lap, time := some a.time, source := a.source
        buttons := c.buttons.length, flags := { review := a.review, link := c.link } }
    let lapped (x : LaneRecord) : LaneRecord :=
      { x with
        lapCount := x.lapCount + 1
        flags := { x.flags with
          review := x.flags.review || a.review
          backupUsed := x.flags.backupUsed || a.backupUsed
          splitsLost := x.flags.splitsLost || decide (512 ≤ s.walls.pool.length) }
        displayed := if s.plan.split.shows s.laps c.lap then some a.time else x.displayed }
    let told : LoopOut := if s.plan.split = .allWalls ∨ (s.plan.split = .startWall ∧ lapWall c.lap = .start) then
      s.out.report (.arrival stored) else s.out
    ∃ t, exec (.lapCollectionExpiry lane) s = .next t
      ∧ t.openExchange lane = some
          { number := k, lap := c.lap, arming := arming, touch := a.time
            timer := s.deckTime + ticks (s.plan.exchangeWindow * 1000) }
      ∧ (∀ l, l ≠ lane → t.openExchange l = s.openExchange l ∧ t.collector? l = s.collector? l)
      ∧ t.collector? lane = some { lane := lane, lap := c.lap + 1, state := .armed
                                   arming := some (a.time + (s.plan.minLap * 1000 : Nat)) }
      ∧ t.walls.pool = (if s.walls.pool.length < 512 then s.walls.pool ++ [stored] else s.walls.pool)
      ∧ (s.openExchange lane = none → t.unplaced = s.changed lane lapped ∧ t.out = told)
      ∧ (∀ o, s.openExchange lane = some o →
          let e := s.takeover lane o
          t.unplaced = s.changed lane (fun x => (lapped x).judged o.number e)
            ∧ t.out = State.framesOf { s with results := writeRecord s.results lane lapped, out := told } lane
                (fun x => x.judged o.number e)
                fun _ => some (.exchange lane (o.number + 1) e.verdict (e.margin.map marginMs)))
      ∧ t.heat = s.heat ∧ t.starts = s.starts ∧ t.intake = s.intake ∧ t.pulse = s.pulse
      ∧ t.deckTime = s.deckTime ∧ t.nodes = s.nodes ∧ s.SameMeet t)
  ∧ ∀ (s : State) (c : Collector) (p : Press) (a : Int) (k : Nat) (r : LaneRecord), s.heat.state = .running →
    s.collector? p.lane = some c → c.state = .armed → c.arming = some a → p.wall ≠ lapWall c.lap →
    a + (s.plan.minLap * 1000 : Nat) ≤ p.time → c.lap < s.laps → exchangeAt s.plan.relay s.laps c.lap = some k →
    s.record? p.lane = some r →
    let arrival : ArrivalRecord := { lane := p.lane, lap := c.lap, wall := lapWall c.lap, time := none, source := .missed
                                     buttons := 0, flags := { review := true } }
    let skipped (x : LaneRecord) : LaneRecord :=
      { x with
        lapCount := x.lapCount + 1
        flags := { x.flags with
          review := true, splitsLost := x.flags.splitsLost || decide (512 ≤ s.walls.pool.length) } }
    let absent : ExchangeRecord := { verdict := .notJudged, margin := none }
    let told : State := { s with results := writeRecord s.results p.lane skipped, out := s.out.report (.arrival arrival) }
    let lost : Report := .exchange p.lane (k + 1) .notJudged none
    let t := s.takePress p
    t.openExchange p.lane = none ∧ (∀ l, l ≠ p.lane → t.openExchange l = s.openExchange l)
      ∧ (∃ q, t.record? p.lane = some q ∧ q.exchange k = some absent ∧ q.flags.review = true
          ∧ q.lapCount = r.lapCount + 1)
      ∧ (p.sensor ≠ .pad → s.openExchange p.lane = none →
          t.unplaced = s.changed p.lane (fun x => (skipped x).judged k absent) ∧ t.out = told.out.report lost)
      ∧ (p.sensor ≠ .pad → ∀ o, s.openExchange p.lane = some o →
          let e := s.takeover p.lane o
          t.unplaced = s.changed p.lane (fun x => ((skipped x).judged o.number e).judged k absent)
            ∧ t.out = (told.framesOf p.lane (fun x => x.judged o.number e) fun _ =>
                some (.exchange p.lane (o.number + 1) e.verdict (e.margin.map marginMs))).report lost)

/-! ### Results and placing -/

/-- A lane has a place exactly when it is eligible: 1 plus the eligible lanes with strictly smaller official hundredths.
Equal hundredths share a place, places lie from 1 to the number of eligible lanes, and some lane is placed 1 when any is
eligible. -/
def Obligations.PlacesFollowHundredths : Prop :=
  ∀ (rs : List LaneRecord) (r : LaneRecord),
    ((placeOf rs r).isSome = true ↔ r.eligible = true)
    ∧ (r.eligible = true → placeOf rs r = some
        (1 + (rs.filter fun q => q.eligible && decide (q.hundredths < r.hundredths)).length))
    ∧ (∀ q, r.eligible = true → q.eligible = true → q.hundredths = r.hundredths → placeOf rs q = placeOf rs r)
    ∧ (∀ q ∈ rs, ∀ m n, placeOf rs q = some m → placeOf rs r = some n → q.hundredths < r.hundredths → m < n)
    ∧ (r ∈ rs → ∀ n, placeOf rs r = some n → 1 ≤ n ∧ n ≤ (rs.filter (·.eligible)).length ∧ (rs.length ≤ 10 → n ≤ 10))
    ∧ ((∃ q ∈ rs, q.eligible = true) → ∃ q ∈ rs, placeOf rs q = some 1)
    ∧ ∀ t : Int, 0 ≤ t → r.finish = some t → r.hundredths = t / 1000

/-- Every command keeps the places and the lamp codes of all lanes as their rules decide them. -/
def Obligations.EveryStepKeepsResultsSound : Prop :=
  ∀ s t : State, s.ResultsSound → step s = .next t → t.ResultsSound

/-- ADJUDICATE_FINISH of a FINAL lane: the finish pad or backup value, a given time between a(L) and the heat limit, or a
cleared REVIEW; the record changes by that action alone, places and lamps aside, and the rest of the race not at all. The
frames are the REPLY, then for a set finish its FINISH report, PLACES and LAMP frames. A set finish, unchanged or not, and
a cleared REVIEW hand the lane to the Composer; a REVIEW that was clear alters no record (log entry 20). -/
def Obligations.AdjudicationSetsFinish : Prop :=
  ∀ (s : State) (f : Frame) (lane : Nat) (r : LaneRecord), s.Asks f 0x0E (sized 6) → byteAt f.request.fields 0 = lane →
    lane < 10 → s.laneInUse lane = true → s.heat.state = .running ∨ s.heat.state = .results →
    s.record? lane = some r → r.status = .final →
    let action := byteAt f.request.fields 1
    let given := longAt f.request.fields 2
    let answered : State := { s with out := s.out.offer (replyFrame f.request .done 0 []) }
    let set (time : Option HeatTime) (source : Source) (x : LaneRecord) : LaneRecord :=
      { x with finish := time, source := some source, displayed := time, flags := { x.flags with adjudicated := true } }
    let kept (t : State) : Prop := s.SameRace t ∧ s.SameMeet t ∧ t.mgmt.queue = s.mgmt.queue.tail
    let sets (time : Option HeatTime) (source : Source) : Prop := ∃ t, exec .adjudicateFinish s = .next t
      ∧ t.unplaced = s.changed lane (set time source) ∧ kept t ∧ t.HandedOver lane
      ∧ t.out = answered.afterPlacer (writeRecord s.results lane (set time source)) lane
          (fun x => some (.finish x.lane .final (x.finish.getD 0) x.source x.place x.flags))
    let refused := exec .adjudicateFinish s =
      .next { s with mgmt := s.mgmt.popped, out := s.out.offer (replyFrame f.request .badValue 0 []) }
    (action = 0 → r.finishPad.isSome = true → sets r.finishPad .pad)
    ∧ (action = 1 → r.finishBackup.isSome = true → sets r.finishBackup .backup)
    ∧ (action = 2 → s.finishArming lane ≤ given → given ≤ s.plan.heatLimit * 6000000 →
      sets (some (given : Int)) .referee)
    ∧ (action = 3 → ∃ t, exec .adjudicateFinish s = .next t
        ∧ t.unplaced = s.changed lane (fun x => { x with flags := { x.flags with review := false } }) ∧ kept t
        ∧ t.out = answered.out
        ∧ (r.flags.review = true → t.HandedOver lane) ∧ (r.flags.review = false → t.unplaced = s.unplaced))
    ∧ (action = 0 ∧ r.finishPad = none ∨ action = 1 ∧ r.finishBackup = none
        ∨ action = 2 ∧ ((given : Int) < s.finishArming lane ∨ s.plan.heatLimit * 6000000 < given) ∨ 3 < action →
      refused)

/-- SET_DQ of a lane that is not DNS: SET sets REFEREE_DQ, CLEAR_ALL clears the three disqualifying flags; nothing else of
the records changes but places and lamps, and those not when the disqualification stays as it was (log entry 22 says
which of two rules the model follows there). The frames are the REPLY and, when the disqualification changes, PLACES and
the LAMP frames. -/
def Obligations.SetDqWritesFlags : Prop :=
  ∀ (s : State) (f : Frame) (lane : Nat) (r : LaneRecord), s.Asks f 0x0F (sized 2) → byteAt f.request.fields 0 = lane →
    lane < 10 → s.laneInUse lane = true → s.heat.state = .running ∨ s.heat.state = .results →
    s.record? lane = some r → r.status ≠ .dns → byteAt f.request.fields 1 ≤ 1 →
    let g (x : LaneFlags) : LaneFlags := if byteAt f.request.fields 1 = 0 then { x with refereeDq := true }
      else { x with falseStart := false, earlyTakeover := false, refereeDq := false }
    let answered : State := { s with out := s.out.offer (replyFrame f.request .done 0 []) }
    let written := writeRecord s.results lane (fun x => { x with flags := g x.flags })
    ∃ t, exec .setDq s = .next t
      ∧ t.unplaced = s.changed lane (fun x => { x with flags := g x.flags })
      ∧ ((g r.flags).disqualified = r.flags.disqualified → t.results = written ∧ t.out = answered.out)
      ∧ ((g r.flags).disqualified ≠ r.flags.disqualified →
          t.out = answered.afterPlacer written lane (fun _ => none))
      ∧ s.SameRace t ∧ s.SameMeet t ∧ t.mgmt.queue = s.mgmt.queue.tail

/-! ### Management requests -/

/-- READ_STATUS, READ_NODE_ENTRY, READ_LANE, READ_ARRIVALS and READ_LINES answer DONE with their fields as they stand, laid
out byte by byte, or BAD_VALUE, and change nothing but the REPLY and the queue; READ_INTAKE_ANALYSIS makes the freshness
SEEN besides. That an empty slot and an idle Pulse Unit read zeros, and that the Meet Settings are coded as SET_MEET codes
them, are the model's inferences (log entries 24 and 21). -/
def Obligations.ReadsAnswerAndKeep : Prop :=
  ∀ (s : State) (f : Frame),
    let fs := f.request.fields
    let answers (c : Instr) (fields : List Byte) : Prop := exec c s = .next
      { s with mgmt := s.mgmt.popped, out := s.out.offer (replyFrame f.request .done 0 fields) }
    let bad : Host.Outcome State Fault Refusal :=
      .next { s with mgmt := s.mgmt.popped, out := s.out.offer (replyFrame f.request .badValue 0 []) }
    (s.Asks f 0x01 (sized 0) → ∃ b, s.StatusFields b ∧ answers .readStatus b)
    ∧ (s.Asks f 0x02 (sized 0) → ∃ b, s.intake.AnalysisFields b ∧ exec .readIntakeAnalysis s = .next
        { s with
          mgmt := s.mgmt.popped
          out := s.out.offer (replyFrame f.request .done 0 b)
          intake := { s.intake with analysis := { s.intake.analysis with seen := true } } })
    ∧ (s.Asks f 0x07 (sized 2) → byteAt fs 0 = 0 → byteAt fs 1 ≤ 31 →
        ∃ b, s.nodes.ActiveFields (byteAt fs 1) b ∧ answers .readNodeEntry b)
    ∧ (∀ e, s.Asks f 0x07 (sized 2) → byteAt fs 0 = 1 → byteAt fs 1 ≤ 31 → s.nodes.working[byteAt fs 1]? = some e →
        ∃ b, e.ReplyFields b ∧ answers .readNodeEntry b)
    ∧ (s.Asks f 0x10 (sized 1) → byteAt fs 0 ≤ 9 → s.record? (byteAt fs 0) = none → answers .readLane [0])
    ∧ (∀ r, s.Asks f 0x10 (sized 1) → byteAt fs 0 ≤ 9 → s.record? (byteAt fs 0) = some r →
        ∃ b, r.ReplyFields b ∧ answers .readLane b)
    ∧ (s.Asks f 0x11 (sized 2) → byteAt fs 0 ≤ 9 → 1 ≤ byteAt fs 1 → byteAt fs 1 ≤ 60 →
        ∃ b, s.walls.ReplyFields (byteAt fs 0) (byteAt fs 1) b ∧ answers .readArrivals b)
    ∧ (s.Asks f 0x24 (sized 0) → ∃ b, s.LinesFields b ∧ answers .readLines b)
    ∧ (s.Asks f 0x07 (sized 2) → 1 < byteAt fs 0 ∨ 31 < byteAt fs 1 → exec .readNodeEntry s = bad)
    ∧ (s.Asks f 0x10 (sized 1) → 9 < byteAt fs 0 → exec .readLane s = bad)
    ∧ (s.Asks f 0x11 (sized 2) → 9 < byteAt fs 0 ∨ byteAt fs 1 = 0 ∨ 60 < byteAt fs 1 → exec .readArrivals s = bad)

/-- The reply fields and the report payloads have the lengths of their layout tables and hold what these say byte by byte,
with the codes of the code tables, and every REPLY fits a payload of 120 bytes; a row frame of 48 - s cells holds its row,
s, 48 - s, each cell's glyph and attribute, and a check byte, 4 + 2 x (48 - s) bytes whose exclusive-or is 0. The zeros of an
empty slot and of an idle Pulse Unit, and the codes of the Meet Settings, are the model's inferences (log entries 24, 21). -/
def Obligations.LayoutLengths : Prop :=
  (∀ s : State, s.statusFields.length = 90 ∧ s.intake.fields.length = 56 ∧ s.linesFields.length = 41
    ∧ (∀ i, (s.nodes.activeFields i).length = 9) ∧ (∀ i < s.nodes.working.length, (s.nodes.workingFields i).length = 5)
    ∧ (∀ r : LaneRecord, (1 :: r.bytes).length = 55)
    ∧ ∀ lane first, ∃ k ≤ 12, (s.walls.arrivalFields lane first).length = 3 + 9 * k
        ∧ k = min 12 (s.walls.pool.filter fun a => a.lane == lane && decide (first ≤ a.lap)).length
        ∧ 4 + (s.walls.arrivalFields lane first).length ≤ 120)
  ∧ (∀ s : State, s.StatusFields s.statusFields ∧ s.intake.AnalysisFields s.intake.fields ∧ s.LinesFields s.linesFields
    ∧ (∀ i, s.nodes.ActiveFields i (s.nodes.activeFields i))
    ∧ (∀ (i : Nat) (e : WorkingEntry), s.nodes.working[i]? = some e → e.ReplyFields (s.nodes.workingFields i))
    ∧ (∀ r : LaneRecord, r.ReplyFields (1 :: r.bytes))
    ∧ ∀ lane first, s.walls.ReplyFields lane first (s.walls.arrivalFields lane first))
  ∧ (∀ r : Report, r.PayloadFields r.payload)
  ∧ CodeTables
  ∧ ∀ (row col : Nat) (cells : List Cell), col ≤ 48 → cells.length = 48 - col →
    let b := rowFrame row col cells
    b.length = 4 + 2 * (48 - col) ∧ b.foldl (· ^^^ ·) 0 = 0
      ∧ byteAt b 0 = row % 256 ∧ byteAt b 1 = col ∧ byteAt b 2 = 48 - col
      ∧ ∀ i c, cells[i]? = some c → b.getD (3 + 2 * i) 0 = c.glyph
        ∧ byteAt b (4 + 2 * i) = c.colour.toNat + 8 * c.blink.toNat

/-- LOCK_MEET sets the lock; SET_MEET is refused while it is set, then refused outside IDLE, then refused with the lowest
number of a setting outside its values, and otherwise replaces the six settings whole, rebuilds a FIXED Active Map whose
plan or lane count changed, and changes nothing else but the REPLY, the queue and, when the start line changes, its previous
level: that becomes the level the new line has. That this level is the one last put on the line, whatever its function, is
the model's choice (log entry 10). -/
def Obligations.MeetSettingsAndLock : Prop :=
  (∀ (s : State) (f : Frame),
    let answer (r : ReplyResult) (d : Nat) : State :=
      { s with mgmt := s.mgmt.popped, out := s.out.offer (replyFrame f.request r d []) }
    let fs := f.request.fields
    (s.Asks f 0x04 (sized 0) → exec .lockMeet s =
      .next { answer .done 0 with mgmt := { s.mgmt.popped with locked := true } })
    ∧ (s.Asks f 0x03 (sized 6) → s.mgmt.locked = true → exec .setMeet s = .next (answer .refusedLocked 0))
    ∧ (s.Asks f 0x03 (sized 6) → s.mgmt.locked = false → s.heat.state ≠ .idle →
        exec .setMeet s = .next (answer .refusedState 0))
    ∧ (∀ d, s.Asks f 0x03 (sized 6) → s.mgmt.locked = false → s.heat.state = .idle → meetFault fs = some d →
        exec .setMeet s = .next (answer .badValue d))
    ∧ (s.Asks f 0x03 (sized 6) → s.mgmt.locked = false → s.heat.state = .idle → meetFault fs = none →
        ∃ (new : MeetSettings) (nodes : NodeMap) (previous : Bool),
          exec .setMeet s = .next { answer .done 0 with
            mgmt := { s.mgmt.popped with settings := new }
            nodes := nodes
            pulse := { s.pulse with startPrevious := previous } }
          ∧ new.course.metres = byteAt fs 0 ∧ new.laneCount = byteAt fs 1 ∧ new.numberingBase = byteAt fs 2
          ∧ new.pulseBase.code.toNat = byteAt fs 3 ∧ new.startLine = byteAt fs 4 ∧ new.fixedPlan = byteAt fs 5
          ∧ (s.nodes.selection = .working → nodes = s.nodes)
          ∧ (s.nodes.selection = .fixed → byteAt fs 1 = s.mgmt.settings.laneCount →
              byteAt fs 5 = s.mgmt.settings.fixedPlan → nodes = s.nodes)
          ∧ (s.nodes.selection = .fixed → byteAt fs 1 ≠ s.mgmt.settings.laneCount
              ∨ byteAt fs 5 ≠ s.mgmt.settings.fixedPlan →
              nodes = { s.nodes with active := fixedMap (byteAt fs 5) (byteAt fs 1) })
          ∧ (byteAt fs 4 = s.mgmt.settings.startLine → previous = s.pulse.startPrevious)
          ∧ (byteAt fs 4 ≠ s.mgmt.settings.startLine → previous = s.pulse.sensed.getD (byteAt fs 4) false)))
  ∧ ∀ fs : List Byte, Lowest (fun k => (k = 1 ∧ byteAt fs 0 ≠ 25 ∧ byteAt fs 0 ≠ 50)
      ∨ (k = 2 ∧ (byteAt fs 1 < 6 ∨ 10 < byteAt fs 1)) ∨ (k = 3 ∧ 1 < byteAt fs 2) ∨ (k = 4 ∧ 1 < byteAt fs 3)
      ∨ (k = 5 ∧ byteAt fs 4 ≠ 0 ∧ byteAt fs 4 ≠ 7) ∨ (k = 6 ∧ 3 < byteAt fs 5)) (meetFault fs)

/-- SET_REPORT_DEST takes 0x02, 0x03 or 0xFF, in every heat state and whatever the lock, and refuses any other address with
BAD_VALUE and detail 1; reports in the queue keep their addresses. -/
def Obligations.ReportDestination : Prop :=
  ∀ (s : State) (f : Frame), s.Asks f 0x12 (sized 1) →
    let a := f.request.fields.getD 0 0
    (a = 0x02 ∨ a = 0x03 ∨ a = 0xFF → exec .setReportDest s = .next { s with
      mgmt := s.mgmt.popped, out := { s.out with reportDest := a }.offer (replyFrame f.request .done 0 []) })
    ∧ (¬(a = 0x02 ∨ a = 0x03 ∨ a = 0xFF) → exec .setReportDest s = .next { s with
      mgmt := s.mgmt.popped, out := s.out.offer (replyFrame f.request .badValue 1 []) })
    ∧ (a = 0x02 ∨ a = 0x03 ∨ a = 0xFF → ∀ t, exec .setReportDest s = .next t → t.out.reportDest = a
        ∧ (∀ g ∈ s.out.outbound, g ∈ t.out.outbound ∨ t.out.port = some (g, .outbound))
        ∧ ∀ r : Report, t.out.outbound.length < 32 → t.out.report r =
          { t.out.offer (hubFrame a 0x12 (r.kind :: t.out.reportNumber :: r.payload)) with
            reportNumber := t.out.reportNumber + 1 })

/-- A request whose length is wrong is answered BAD_REQUEST with detail 2, one of an unknown code with detail 1, and a
payload too short for a code and a tag with detail 3, each missing byte of the two echoed as 0x00 and a lone byte as the
code; nothing else changes. That UNKNOWN_REQUEST_CODE is the command that serves a payload too short is the model's choice
(log entry 6). -/
def Obligations.MalformedRequestsAnswered : Prop :=
  ∀ (s : State) (f : Frame), s.Live → s.freeHead = some f →
    let bad (d : Nat) : Host.Outcome State Fault Refusal :=
      .next { s with mgmt := s.mgmt.popped, out := s.out.offer (replyFrame f.request .badRequest d []) }
    (∀ p ∈ [(0x01, Instr.readStatus), (0x02, .readIntakeAnalysis), (0x04, .lockMeet), (0x09, .armHeat),
        (0x0A, .abortHeat), (0x0B, .closeHeat), (0x0C, .clearHeat), (0x1D, .releasePlaneMask), (0x24, .readLines),
        (0x30, .restart)], f.carries p.1 = true → f.request.fields ≠ [] → exec p.2 s = bad 2)
    ∧ (∀ p ∈ [((0x06 : Byte), Instr.selectNodeMap, 1), (0x07, .readNodeEntry, 2), (0x03, .setMeet, 6), (0x0D, .markDns, 1),
        (0x0E, .adjudicateFinish, 6), (0x0F, .setDq, 2), (0x10, .readLane, 1), (0x11, .readArrivals, 2),
        (0x12, .setReportDest, 1), (0x19, .fillGroup, 5), (0x1A, .clearRow, 2), (0x1B, .loadPattern, 3),
        (0x1C, .loadPlaneMask, 1), (0x1E, .writeLayout, 26), (0x1F, .sendRowNow, 1), (0x21, .fireProgram, 1),
        (0x22, .setLineFunction, 2), (0x23, .setHeldLevel, 2)],
        f.carries p.1 = true → f.request.fields.length ≠ p.2.2 → exec p.2.1 s = bad 2)
    ∧ (f.carries 0x05 = true → ¬(1 ≤ byteAt f.request.fields 1 ∧ byteAt f.request.fields 1 ≤ 8
          ∧ f.request.fields.length = 2 + 5 * byteAt f.request.fields 1) → exec .writeNodeEntries s = bad 2)
    ∧ (f.carries 0x08 = true → ¬(byteAt f.request.fields 20 ≤ 10
          ∧ f.request.fields.length = 21 + 4 * byteAt f.request.fields 20) → exec .loadHeatPlan s = bad 2)
    ∧ (f.carries 0x18 = true → ¬(1 ≤ byteAt f.request.fields 3 ∧ byteAt f.request.fields 3 ≤ 48
          ∧ f.request.fields.length = 4 + 2 * byteAt f.request.fields 3) → exec .writeCells s = bad 2)
    ∧ (f.carries 0x20 = true → ¬(byteAt f.request.fields 2 ≤ 16
          ∧ f.request.fields.length = 3 + 2 * byteAt f.request.fields 2) → exec .loadProgram s = bad 2)
    ∧ (2 ≤ f.payload.length → f.request.code ∉ requestCodes → exec .unknownRequestCode s = bad 1)
    ∧ (f.payload.length < 2 → exec .unknownRequestCode s = bad 3)
    ∧ (f.payload = [] → f.request.code = 0 ∧ f.request.tag = 0)
    ∧ ∀ b, f.payload = [b] → f.request.code = b ∧ f.request.tag = 0

/-- RESTART returns the part to IDLE and keeps the meet: what is discarded, what is cleared and what is kept, block by
block. Its frames are the REPLY, HEAT_STATE and, when a program ran, PULSE_DONE, in this order. That a RUNNING clock keeps
the value it held is the model's inference (log entry 13). A row frame on the Board Link is cut after the byte in progress,
and the Link carries no frame; how many bytes were out is not in the model (log entry 23). That the REPLY is in transmission when the port was IDLE, and
that it waits in the queue for the end of the idle symbol when a frame was abandoned, are the model's choice of when R129's
next service comes (log entry 14). -/
def Obligations.RestartKeepsTheMeet : Prop :=
  (∀ (s : State) (f : Frame), s.Asks f 0x30 (sized 0) →
    let reply := replyFrame f.request .done 0 []
    let told : List Frame :=
      hubFrame s.out.reportDest 0x12 [0x01, s.out.reportNumber, HeatState.idle.code, HeatCause.restart.code] ::
        (s.pulse.running.toList.map fun r => hubFrame s.out.reportDest 0x12
          [0x08, s.out.reportNumber + 1, BitVec.ofNat 8 r.program, PulseOutcome.cutByRestart.code])
    ∃ t, exec .restart s = .next t
      ∧ t.deckTime = s.deckTime
      ∧ t.heat = { plan := s.heat.plan, state := .idle, epoch := none, startTimer := none, limitTimer := none }
      ∧ t.starts.strayCount = s.starts.strayCount
      ∧ (∀ k ∈ t.starts.trackers, k = { state := .unknown, lastRelease := none, taking := false })
      ∧ t.walls.collectors = [] ∧ t.walls.pool = [] ∧ t.exchanges = [] ∧ t.results = []
      ∧ t.intake = { s.intake with analysis := ⟨none, none, none, false, none, none, none, none, false⟩ }
      ∧ t.nodes = { s.nodes with active := s.nodes.active.map fun x => x.map fun e => { e with expected := none } }
      ∧ t.mgmt.queue = [] ∧ t.mgmt.settings = s.mgmt.settings ∧ t.mgmt.locked = s.mgmt.locked
      ∧ t.out.transit = []
      ∧ (s.out.port = none → s.out.cutting = false → t.out.port = some (reply, .outbound) ∧ t.out.cutting = false
          ∧ t.out.lastServed = .outbound ∧ t.out.outbound = told)
      ∧ (s.out.port.isSome = true ∨ s.out.cutting = true → t.out.port = none ∧ t.out.cutting = true
          ∧ t.out.lastServed = s.out.lastServed ∧ t.out.outbound = reply :: told)
      ∧ t.out.reportNumber = s.out.reportNumber + BitVec.ofNat 8 told.length
      ∧ t.out.reportDest = s.out.reportDest ∧ t.out.overflow = s.out.overflow
      ∧ t.board.rows = s.board.rows ∧ t.board.pattern = s.board.pattern ∧ t.board.layout = s.board.layout
      ∧ t.board.loadedMask = s.board.loadedMask ∧ t.board.maskPersistent = false
      ∧ t.board.markers = List.replicate 16 (some 0)
      ∧ t.composer = { s.composer with queue := [], clockRunning := false, clockTimer := none }
      ∧ t.shifter.half0 = .empty ∧ t.shifter.half1 = .empty ∧ t.shifter.scanner = s.shifter.scanner
      ∧ t.shifter.lastFull = s.shifter.lastFull ∧ t.shifter.boardLink = none
      ∧ t.pulse.programs = s.pulse.programs ∧ t.pulse.lines = s.pulse.lines ∧ t.pulse.running = none
      ∧ (∀ l < 8, t.pulse.held.getD l true = false)
      ∧ (∀ r, s.pulse.running = some r →
          t.pulse.status = { program := some r.program, outcome := some .cutByRestart, completed := r.completed })
      ∧ (s.pulse.running = none → t.pulse.status = s.pulse.status))
  ∧ ∀ (h : Shifter) (n r c : Nat) (cs : List Cell), n < 2 → h.half n = .sending r c cs →
    (n = 1 → h.half0.isSending = false) →
    h.boardLink = some (rowFrame r c cs)
      ∧ ∀ whole < (rowFrame r c cs).length, ∃ out, h.cutFrame whole = some out ∧ out.length = whole + 1
        ∧ ∀ i ≤ whole, out[i]? = (rowFrame r c cs)[i]?

/-! ### The Node Map -/

/-- WRITE_NODE_ENTRIES writes the Working Map alone, each entry whole at its index; SELECT_NODE_MAP builds the Active Map
from the fixed plan or from a faultless Working Map, with no expected sequence, and refuses a faulty one whole. A bad
write is refused with detail 0 for indices beyond 31, else with the position of its first entry at fault. A fixed
plan gives lane i slots 2i and 2i + 1 at the addresses of its table; the reason of a refused map is the lowest code among
the faults of its enabled entries; a disabled entry is copied unless its address is reserved. -/
def Obligations.NodeMapRequests : Prop :=
  (∀ (s : State) (f : Frame),
    let fs := f.request.fields
    let answer (r : ReplyResult) (d : Nat) (nodes : NodeMap) : State :=
      { s with nodes := nodes, mgmt := s.mgmt.popped, out := s.out.offer (replyFrame f.request r d []) }
    (s.Asks f 0x05 (counted 1 2 5 1 8) → nodeEntriesFault fs = none → s.nodes.working.length = 32 →
      ∃ working, exec .writeNodeEntries s = .next (answer .done 0 { s.nodes with working := working })
        ∧ working.length = 32
        ∧ ∀ i < 32, working[i]? = if byteAt fs 0 ≤ i ∧ i < byteAt fs 0 + byteAt fs 1 then
            some (.ofBytes ((fs.drop (2 + 5 * (i - byteAt fs 0))).take 5)) else s.nodes.working[i]?)
    ∧ (∀ d, s.Asks f 0x05 (counted 1 2 5 1 8) → nodeEntriesFault fs = some d →
        exec .writeNodeEntries s = .next (answer .badValue d s.nodes))
    ∧ (s.Asks f 0x06 (sized 1) → s.heat.state = .idle ∨ s.heat.state = .results →
        (byteAt fs 0 = 0 → exec .selectNodeMap s = .next (answer .done 0 { s.nodes with
          active := fixedMap s.mgmt.settings.fixedPlan s.mgmt.settings.laneCount, selection := .fixed }))
        ∧ (byteAt fs 0 = 1 → mapFault s.nodes.working s.mgmt.settings.laneCount = none →
            exec .selectNodeMap s = .next (answer .done 0 { s.nodes with
              active := s.nodes.working.map workingSlot, selection := .working }))
        ∧ (∀ d, byteAt fs 0 = 1 → mapFault s.nodes.working s.mgmt.settings.laneCount = some d →
            exec .selectNodeMap s = .next (answer .mapInvalid d s.nodes)))
    ∧ (s.Asks f 0x06 (sized 1) → 1 < byteAt fs 0 → exec .selectNodeMap s = .next (answer .badValue 0 s.nodes))
    ∧ (s.Asks f 0x06 (sized 1) → byteAt fs 0 ≤ 1 → s.heat.state = .armed ∨ s.heat.state = .running →
        exec .selectNodeMap s = .next (answer .refusedState 0 s.nodes)))
  ∧ (∀ plan lanes : Nat, plan ≤ 3 → lanes ≤ 10 → (fixedMap plan lanes).length = 32 ∧ ∀ i < 32,
    (fixedMap plan lanes)[i]? = some (if i < 2 * lanes then
      some
        { address := BitVec.ofNat 8
            ((if i % 2 = 0 then [0x10, 0x20, 0x40, 0x80].getD plan 0 else [0x30, 0x21, 0x50, 0xC0].getD plan 0)
              + (if plan = 1 then 2 * (i / 2) else i / 2))
          lane := i / 2, wall := if i % 2 = 0 then .start else .turn, delay := 0, enabled := true, expected := none }
      else none))
  ∧ (∀ (working : List WorkingEntry) (lanes : Nat),
    let on := working.filter (·.enabled)
    let twice (same : WorkingEntry → WorkingEntry → Prop) : Prop :=
      ∃ (i j : Nat) (x y : WorkingEntry), i < j ∧ on[i]? = some x ∧ on[j]? = some y ∧ same x y
    let present (k : Nat) : Prop :=
      (k = 1 ∧ twice fun x y => x.address = y.address) ∨ (k = 2 ∧ twice fun x y => x.lane = y.lane ∧ x.wall = y.wall)
        ∨ (k = 3 ∧ ∃ e ∈ on, lanes ≤ e.lane)
        ∨ (k = 4 ∧ ∃ e ∈ on, e.address = 0x00 ∨ e.address = 0x02 ∨ e.address = 0x03 ∨ e.address = 0xFF)
    Lowest present (mapFault working lanes))
  ∧ (∀ fs : List Byte, counted 1 2 5 1 8 fs = true →
    let entry (k i : Nat) : Nat := byteAt fs (2 + 5 * (k - 1) + i)
    Lowest (fun k => (k = 0 ∧ 32 < byteAt fs 0 + byteAt fs 1)
      ∨ (1 ≤ k ∧ k ≤ byteAt fs 1 ∧ (9 < entry k 1 ∨ 1 < entry k 2 ∨ 1 < entry k 4))) (nodeEntriesFault fs))
  ∧ ∀ e : WorkingEntry, workingSlot e =
    if e.enabled = false ∧ (e.address = 0x00 ∨ e.address = 0x02 ∨ e.address = 0x03 ∨ e.address = 0xFF) then none
    else some
      { address := e.address, lane := e.lane, wall := e.wall, delay := e.delay, enabled := e.enabled, expected := none }

/-- Every command keeps the Active Map free of reserved addresses and of two enabled entries for one address or place. -/
def Obligations.EveryStepKeepsMapSound : Prop := ∀ s t : State, s.MapSound → step s = .next t → t.MapSound

/-- Every command keeps the queues, the pool, the Composer's list and the tables within what the part holds. -/
def Obligations.EveryStepKeepsCapacity : Prop :=
  ∀ s t : State, s.WithinCapacity → step s = .next t → t.WithinCapacity

/-! ### The board -/

/-- A board request that passes its checks is granted at once while Board Memory is free and no claim waits, and waits with
its claim while an operation is in progress; either way it holds the head of the queue and has not yet changed a cell, the
Pattern or the layout. SEND_ROW_NOW displaces a LOADED target half at its grant: the half is EMPTY and its row's marker
lowered to its start column. A request that fails a check is refused with the check's detail (the order of FILL_GROUP's two
details is log entry 15); a bad layout with the lowest number of a field of it at fault, or 14 for the Lane Row Map. The
cells, the mask and the layout are read from the request's bytes. -/
def Obligations.BoardRequestsGranted : Prop :=
  (∀ (s : State) (f : Frame),
    let fs := f.request.fields
    let bad (k : Nat) : Prop :=
      let past (i width : Nat) : Prop := 47 < byteAt fs i + width - 1
      (k = 1 ∧ (15 < byteAt fs 0 ∨ past 1 3)) ∨ (k = 2 ∧ (15 < byteAt fs 2 ∨ past 3 2))
        ∨ (k = 3 ∧ (15 < byteAt fs 4 ∨ past 5 7)) ∨ (k = 4 ∧ past 6 2) ∨ (k = 5 ∧ past 7 3) ∨ (k = 6 ∧ past 8 5)
        ∨ (k = 7 ∧ past 9 8) ∨ (8 ≤ k ∧ k ≤ 13 ∧ 7 < byteAt fs (k + 2))
        ∨ (k = 14 ∧ ∃ i < 10, 15 < byteAt fs (16 + i) ∧ byteAt fs (16 + i) ≠ 255)
    let free : Prop := s.board.operation = none ∧ s.shifter.claim = false ∧ s.composer.queue = []
    let mask (own : Nat) : PlaneMask := if s.board.maskPersistent then s.board.loadedMask else .ofByte own
    let claims (c : Instr) (q : BoardRequest) (op : ConsoleOp) : Prop :=
      (free → ∃ t, exec c s = .next t
        ∧ t.board.operation = some (.console op) ∧ t.mgmt = { s.mgmt with claim := none } ∧ t.out = s.out
        ∧ s.SameRace t ∧ s.SameMeet t ∧ t.results = s.results)
      ∧ (s.board.operation.isSome = true → exec c s = .next { s with mgmt := { s.mgmt with claim := some q } })
    let refused (c : Instr) (r : ReplyResult) (d : Nat) : Prop := exec c s =
      .next { s with mgmt := s.mgmt.popped, out := s.out.offer (replyFrame f.request r d []) }
    let cells := (groups 2 (byteAt fs 3) (fs.drop 4)).map Cell.ofBytes
    let target := if s.shifter.half0.isSending then 1 else 0
    (s.Asks f 0x18 (counted 3 4 2 1 48) → byteAt fs 0 ≤ 15 → byteAt fs 1 ≤ 47 → claims .writeCells
      (.writeCells (byteAt fs 0) (byteAt fs 1) (.ofByte (byteAt fs 2)) cells)
      (.writeCells (byteAt fs 0) (byteAt fs 1) (mask (byteAt fs 2)) cells))
    ∧ (s.Asks f 0x19 (sized 5) → byteAt fs 0 ≤ byteAt fs 1 → byteAt fs 1 ≤ 15 → byteAt fs 2 ≤ byteAt fs 3 →
        byteAt fs 3 ≤ 47 → claims .fillGroup
          (.fill (byteAt fs 0) (byteAt fs 1) (byteAt fs 2) (byteAt fs 3) (.ofByte (byteAt fs 4)))
          (.fill (byteAt fs 0) (byteAt fs 1) (byteAt fs 2) (byteAt fs 3) (mask (byteAt fs 4)) s.board.pattern))
    ∧ (s.Asks f 0x1A (sized 2) → byteAt fs 0 ≤ 15 → claims .clearRow
        (.fill (byteAt fs 0) (byteAt fs 0) 0 47 (.ofByte (byteAt fs 1)))
        (.fill (byteAt fs 0) (byteAt fs 0) 0 47 (mask (byteAt fs 1)) s.board.pattern))
    ∧ (s.Asks f 0x1B (sized 3) → byteAt fs 1 ≤ 7 → byteAt fs 2 ≤ 1 →
        let cell : Cell := { glyph := fs.getD 0 0, colour := BitVec.ofNat 3 (byteAt fs 1), blink := byteAt fs 2 == 1 }
        claims .loadPattern (.loadPattern cell) (.loadPattern cell))
    ∧ (s.Asks f 0x1E (sized 26) → s.heat.state = .idle → (∀ k, ¬bad k) →
        claims .writeLayout (.writeLayout (.ofBytes fs)) (.writeLayout (.ofBytes fs)))
    ∧ (s.Asks f 0x1F (sized 1) → byteAt fs 0 ≤ 15 → claims .sendRowNow (.sendRow (byteAt fs 0))
        (.sendRow (byteAt fs 0) target (s.board.row (byteAt fs 0))))
    ∧ (s.Asks f 0x1F (sized 1) → byteAt fs 0 ≤ 15 → free → ∀ t, exec .sendRowNow s = .next t →
        (∀ r c cs, s.shifter.half target = .loaded r c cs → t.shifter.half target = .empty
          ∧ t.board.markers = s.board.markers.set r (markerAfter (s.board.marker r) (some c)))
        ∧ ((∀ r c cs, s.shifter.half target ≠ .loaded r c cs) →
          t.shifter = s.shifter ∧ t.board.markers = s.board.markers)
        ∧ (∀ h < 2, h ≠ target → t.shifter.half h = s.shifter.half h)
        ∧ t.shifter.scanner = s.shifter.scanner ∧ t.shifter.lastFull = s.shifter.lastFull)
    ∧ (s.Asks f 0x18 (counted 3 4 2 1 48) → 15 < byteAt fs 0 → refused .writeCells .badValue 1)
    ∧ (s.Asks f 0x18 (counted 3 4 2 1 48) → byteAt fs 0 ≤ 15 → 47 < byteAt fs 1 → refused .writeCells .badValue 2)
    ∧ (s.Asks f 0x19 (sized 5) → 15 < byteAt fs 0 ∨ 15 < byteAt fs 1 ∨ byteAt fs 1 < byteAt fs 0 →
        refused .fillGroup .badValue 1)
    ∧ (s.Asks f 0x19 (sized 5) → byteAt fs 0 ≤ byteAt fs 1 → byteAt fs 1 ≤ 15 →
        47 < byteAt fs 2 ∨ 47 < byteAt fs 3 ∨ byteAt fs 3 < byteAt fs 2 → refused .fillGroup .badValue 2)
    ∧ (s.Asks f 0x1A (sized 2) → 15 < byteAt fs 0 → refused .clearRow .badValue 1)
    ∧ (s.Asks f 0x1B (sized 3) → 7 < byteAt fs 1 → refused .loadPattern .badValue 2)
    ∧ (s.Asks f 0x1B (sized 3) → byteAt fs 1 ≤ 7 → 1 < byteAt fs 2 → refused .loadPattern .badValue 3)
    ∧ (s.Asks f 0x1E (sized 26) → s.heat.state ≠ .idle → refused .writeLayout .refusedState 0)
    ∧ (∀ d, s.Asks f 0x1E (sized 26) → s.heat.state = .idle → bad d → (∀ k < d, ¬bad k) →
        refused .writeLayout .badValue d)
    ∧ (s.Asks f 0x1F (sized 1) → 15 < byteAt fs 0 → refused .sendRowNow .badValue 1))
  ∧ (∀ b : Nat, PlaneMask.ofByte b = { glyph := b.testBit 0, colour := b.testBit 1, blink := b.testBit 2 })
  ∧ (∀ fs : List Byte, Cell.ofBytes fs =
    { glyph := fs.getD 0 0, colour := BitVec.ofNat 3 (byteAt fs 1 % 8), blink := byteAt fs 1 / 8 % 2 == 1 })
  ∧ ∀ fs : List Byte, fs.length = 26 →
    let l := Layout.ofBytes fs
    [l.eventRow, l.eventCol, l.heatRow, l.heatCol, l.clockRow, l.clockCol, l.laneCol, l.placeCol, l.reactionCol,
        l.timeCol] = (fs.take 10).map (·.toNat)
      ∧ [l.normal, l.first, l.second, l.third, l.disqualified, l.review].map (·.toNat)
        = ((fs.drop 10).take 6).map (·.toNat % 8)
      ∧ l.laneRows.length = 10
      ∧ ∀ i < 10, l.laneRows[i]? = some (if byteAt fs (16 + i) = 255 then none else some (byteAt fs (16 + i)))

/-- BOARD_OPERATION_COMPLETE: the operation's changes are seen, cell by cell, and each row's marker falls to the lowest
changed column; its REPLY is offered, DONE, or DONE_CLAMPED with the number of cells written for a WRITE_CELLS cut at the
row's end; and its request leaves the queue. A SEND_ROW_NOW leaves its half LOADED in full, or SENDING when the Shifter is
IDLE, with the row's marker CLEAN and the scanner position kept. -/
def Obligations.BoardOperationCompletes : Prop :=
  ∀ (s : State) (f : Frame) (fs : List Frame) (op : ConsoleOp), s.Live → s.WithinCapacity →
    s.board.operation = some (.console op) → s.mgmt.queue = f :: fs →
    let cut : Option Nat := match op with
      | .writeCells _ c _ cells => if 48 < c + cells.length then some (48 - c) else none
      | _ => none
    let settled : Prop := ∀ r, s.mgmt.claim ≠ some (.sendRow r)
    ∃ t, exec .boardOperationComplete s = .next t
      ∧ t.mgmt.queue = fs
      ∧ (cut = none → t.out = s.out.offer (replyFrame f.request .done 0 []))
      ∧ (∀ k, cut = some k → t.out = s.out.offer (replyFrame f.request .doneClamped k []))
      ∧ s.SameRace t ∧ t.results = s.results
      ∧ (∀ r c m cells, op = .writeCells r c m cells → ∀ i < 16, ∀ k < 48,
          (t.board.row i)[k]? = if i = r ∧ c ≤ k ∧ k < c + cells.length then
              some (m.blend ((s.board.row i).getD k {}) (cells.getD (k - c) {}))
            else (s.board.row i)[k]?)
      ∧ (∀ r0 r1 c0 c1 m x, op = .fill r0 r1 c0 c1 m x → ∀ i < 16, ∀ k < 48,
          (t.board.row i)[k]? = if r0 ≤ i ∧ i ≤ r1 ∧ c0 ≤ k ∧ k ≤ c1 then
              some (m.blend ((s.board.row i).getD k {}) x)
            else (s.board.row i)[k]?)
      ∧ (∀ x, op = .loadPattern x → t.board.pattern = x ∧ t.board.rows = s.board.rows)
      ∧ (∀ l, op = .writeLayout l → t.board.layout = l ∧ t.board.rows = s.board.rows)
      ∧ (settled → (∀ r h cells, op ≠ .sendRow r h cells) → ∀ i < 16,
          t.board.marker i = markerAfter (s.board.marker i) (changedColumn (s.board.row i) (t.board.row i)))
      ∧ (∀ r h cells, op = .sendRow r h cells → t.board.rows = s.board.rows ∧ t.shifter.scanner = s.shifter.scanner
          ∧ (r < 16 → t.shifter.lastFull.getD r 0 = s.deckTime)
          ∧ (settled → h < 2 → t.board.markers = s.board.markers.set r none
            ∧ t.shifter.half h = (if s.shifter.isSending then .loaded r 0 cells else .sending r 0 cells)
            ∧ ∀ k < 2, k ≠ h → t.shifter.half k = s.shifter.half k))

/-- LOAD_PLANE_MASK and RELEASE_PLANE_MASK are carried out at once, set the mode and keep the loaded mask; a plane whose
enable is clear keeps its value in a written cell. A write lowers the row's marker to the lowest changed column and leaves
it when no cell changes; it changes nothing left of the lowered marker and touches no other row. -/
def Obligations.PlaneMasksAndMarkers : Prop :=
  (∀ (s : State) (f : Frame),
    let done (b : Board) : Host.Outcome State Fault Refusal := .next { s with
      board := b, mgmt := s.mgmt.popped, out := s.out.offer (replyFrame f.request .done 0 []) }
    (s.Asks f 0x1C (sized 1) → exec .loadPlaneMask s = done { s.board with
      loadedMask := .ofByte (byteAt f.request.fields 0), maskPersistent := true })
    ∧ (s.Asks f 0x1D (sized 0) → exec .releasePlaneMask s = done { s.board with maskPersistent := false }))
  ∧ (∀ (m : PlaneMask) (old new : Cell), (m.blend old new).glyph = (if m.glyph then new.glyph else old.glyph)
    ∧ (m.blend old new).colour = (if m.colour then new.colour else old.colour)
    ∧ (m.blend old new).blink = (if m.blink then new.blink else old.blink))
  ∧ ∀ (b : Board) (r c : Nat) (m : PlaneMask) (cells : List Cell), r < b.rows.length → r < b.markers.length →
    let d := b.writeRun r c m cells
    (∀ j, d.marker r = some j → ∀ k < j, (d.row r)[k]? = (b.row r)[k]?)
    ∧ (d.marker r = none → d.row r = b.row r)
    ∧ (∀ i, b.marker r = some i → ∃ j ≤ i, d.marker r = some j)
    ∧ ((b.row r).length = 48 → d.marker r = markerAfter (b.marker r) (changedColumn (b.row r) (d.row r)))
    ∧ (d.row r = b.row r → d.marker r = b.marker r)
    ∧ ∀ i, i ≠ r → d.row i = b.row i ∧ d.marker i = b.marker i

/-- While Board Memory is free, a chosen row load goes before a field write, and a field write before a console request;
a claim that waits while an operation is in progress goes on waiting. A row is due when its marker is a column or 100,000
ticks have passed since its last full send. The load chosen is of the first due row from the scanner position plus one
round, from the marker's column, or from column 0 when the marker is CLEAN, into the EMPTY half, half 0 when both are; with
no half EMPTY or no row due the Shifter's claim ends and nothing else changes. -/
def Obligations.ArbiterPriority : Prop :=
  (∀ s : State, s.board.operation.isSome = true → s.arbitrate = s)
    ∧ (∀ (s : State) (op : BoardOperation), s.board.operation = none → s.shifter.claim = true → s.chooseLoad = some op →
        s.arbitrate = { s with
          board := { s.board with operation := some op }, shifter := { s.shifter with claim := false } })
    ∧ (∀ (s : State) (fld : BoardField) (fs : List BoardField), s.board.operation = none → s.shifter.claim = false →
        s.composer.queue = fld :: fs → s.arbitrate = { s with
          board := { s.board with operation := some (s.fieldWrite fld) }, composer := { s.composer with queue := fs } })
    ∧ (∀ (s : State) (q : BoardRequest), s.board.operation = none → s.shifter.claim = false → s.composer.queue = [] →
        s.mgmt.claim = some q → s.arbitrate = s.grantConsole q)
    ∧ (∀ s : State, s.board.operation = none → s.shifter.claim = true → s.chooseLoad = none →
        s.arbitrate = State.arbitrate { s with shifter := { s.shifter with claim := false } })
    ∧ (∀ (s : State) (row : Nat),
        s.refreshDue row = timerDue s.deckTime (s.shifter.lastFull.getD row 0 + 100000)
          ∧ (s.rowDue row = true ↔ (∃ c, s.board.marker row = some c) ∨ s.refreshDue row = true))
    ∧ (∀ (s : State) (h k : Nat),
        let visited (j : Nat) : Nat := (s.shifter.scanner + 1 + j) % 16
        h < 2 → s.shifter.half h = .empty → (h = 1 → s.shifter.half 0 ≠ .empty) →
        k < 16 → s.rowDue (visited k) = true → (∀ j < k, s.rowDue (visited j) = false) →
        (∀ c, s.board.marker (visited k) = some c →
            s.chooseLoad = some (.rowLoad (visited k) c h ((s.board.row (visited k)).drop c) true))
          ∧ (s.board.marker (visited k) = none →
            s.chooseLoad = some (.rowLoad (visited k) 0 h (s.board.row (visited k)) true)))
    ∧ ∀ s : State, (s.shifter.half 0 ≠ .empty ∧ s.shifter.half 1 ≠ .empty) ∨ (∀ row < 16, s.rowDue row = false) →
        s.chooseLoad = none

/-- ROW_LOAD_COMPLETE, FIELD_WRITE_COMPLETE and ROW_SEND_COMPLETE. A load leaves its half LOADED with the row, column and
cells it copied, or SENDING at once when the Shifter is IDLE, the row's marker CLEAN, the scanner at the row and, from
column 0, the row fully sent now; a load that RESTART overtook changes none of them. A field write sets its cells and
lowers its row's marker. A send leaves the SENDING half EMPTY and a LOADED half starts. Each examines the scanner's
conditions anew and keeps the race and Board Memory's other rows. The clauses on halves and markers leave aside a waiting
SEND_ROW_NOW, whose grant displaces a half. -/
def Obligations.BoardCompletions : Prop :=
  let settled (s : State) : Prop := ∀ r, s.mgmt.claim ≠ some (.sendRow r)
  let examined (t : State) : Prop :=
    t.shifter.emptyHalf.isSome = true → (∃ r < 16, t.rowDue r = true) → t.shifterClaims = true
  (∀ (s : State) (row col half : Nat) (cells : List Cell), s.Live →
    s.board.operation = some (.rowLoad row col half cells true) →
    ∃ t, exec .rowLoadComplete s = .next t ∧ t.shifter.scanner = row ∧ t.board.rows = s.board.rows
      ∧ t.shifter.lastFull = (if col = 0 then s.shifter.lastFull.set row s.deckTime else s.shifter.lastFull)
      ∧ (settled s → t.board.markers = s.board.markers.set row none)
      ∧ (settled s → half < 2 →
          t.shifter.half half = (if s.shifter.isSending then .loaded row col cells else .sending row col cells)
            ∧ ∀ k < 2, k ≠ half → t.shifter.half k = s.shifter.half k)
      ∧ examined t ∧ s.SameRace t ∧ t.results = s.results ∧ t.out = s.out)
  ∧ (∀ (s : State) (row col half : Nat) (cells : List Cell), s.Live →
    s.board.operation = some (.rowLoad row col half cells false) →
    ∃ t, exec .rowLoadComplete s = .next t ∧ t.shifter.scanner = s.shifter.scanner ∧ t.board.rows = s.board.rows
      ∧ t.shifter.lastFull = s.shifter.lastFull
      ∧ (settled s → t.board.markers = s.board.markers ∧ t.shifter.half0 = s.shifter.half0
          ∧ t.shifter.half1 = s.shifter.half1)
      ∧ examined t ∧ s.SameRace t ∧ t.results = s.results ∧ t.out = s.out)
  ∧ (∀ (s : State) (row col : Nat) (cells : List Cell), s.Live → s.WithinCapacity → row < 16 →
    s.board.operation = some (.fieldWrite row col cells) →
    ∃ t, exec .fieldWriteComplete s = .next t
      ∧ (∀ i < 16, ∀ k < 48, (t.board.row i)[k]? = if i = row ∧ col ≤ k ∧ k < col + cells.length then cells[k - col]?
          else (s.board.row i)[k]?)
      ∧ (settled s → (∀ i < 16,
          t.board.marker i = markerAfter (s.board.marker i) (changedColumn (s.board.row i) (t.board.row i)))
        ∧ t.shifter.half0 = s.shifter.half0 ∧ t.shifter.half1 = s.shifter.half1)
      ∧ t.shifter.lastFull = s.shifter.lastFull ∧ t.shifter.scanner = s.shifter.scanner
      ∧ examined t ∧ s.SameRace t ∧ t.results = s.results ∧ t.out = s.out)
  ∧ (∀ (s : State) (row col : Nat) (cells : List Cell), s.Live → s.shifter.half0 = .sending row col cells →
    ∃ t, exec .rowSendComplete s = .next t ∧ t.board.rows = s.board.rows
      ∧ (∀ r c cs, s.shifter.half1 = .loaded r c cs → t.shifter.half1 = .sending r c cs)
      ∧ (settled s ∨ s.board.operation.isSome = true → t.shifter.half0 = .empty ∧ t.board.markers = s.board.markers
          ∧ ((∀ r c cs, s.shifter.half1 ≠ .loaded r c cs) → t.shifter.half1 = s.shifter.half1))
      ∧ t.shifter.lastFull = s.shifter.lastFull ∧ t.shifter.scanner = s.shifter.scanner ∧ s.SameRace t
      ∧ examined t ∧ t.results = s.results ∧ t.out = s.out)
  ∧ ∀ (s : State) (row col : Nat) (cells : List Cell), s.Live → s.shifter.half0.isSending = false →
    s.shifter.half1 = .sending row col cells →
    ∃ t, exec .rowSendComplete s = .next t ∧ t.board.rows = s.board.rows
      ∧ (∀ r c cs, s.shifter.half0 = .loaded r c cs → t.shifter.half0 = .sending r c cs)
      ∧ (settled s ∨ s.board.operation.isSome = true → t.shifter.half1 = .empty ∧ t.board.markers = s.board.markers
          ∧ ((∀ r c cs, s.shifter.half0 ≠ .loaded r c cs) → t.shifter.half0 = s.shifter.half0))
      ∧ t.shifter.lastFull = s.shifter.lastFull ∧ t.shifter.scanner = s.shifter.scanner ∧ s.SameRace t
      ∧ examined t ∧ t.results = s.results ∧ t.out = s.out

/-- A due refresh makes the Shifter claim or load when a half is EMPTY; a due clock timer in RUNNING makes CLOCK pending or
written and runs on 10,000 ticks beyond its expiry value. The texts of times, of the clock and of reactions, aligned right;
the text, colour and blink each field shows, of the plan, of the clock or of the lane's record, blank and normal without
one; the field's place in the Layout Table. A change of a record makes pending, unless hidden, the four fields of each lane
whose shown text, colour or blink it alters and of its own lane when R160 names the change, and no other lane's (which
values count as altered, and which changes are named, is the model's inference, log entry 20). -/
def Obligations.RefreshAndClockExpiries : Prop :=
  (∀ (s : State) (row : Nat), s.Live → row < 16 → s.refreshDue row = true → s.shifter.emptyHalf.isSome = true →
    ∃ t, exec (.rowFullRefreshExpiry row) s = .next t ∧ t.shifterClaims = true ∧ t.board.rows = s.board.rows
      ∧ s.SameRace t ∧ t.results = s.results ∧ t.out = s.out)
  ∧ (∀ (s : State) (e : DeckTime), s.Live → s.heat.state = .running → s.composer.clockTimer = some e →
    timerDue s.deckTime e = true →
    ∃ t, exec .clockDisplayExpiry s = .next t ∧ t.composer.clockTimer = some (e + 10000)
      ∧ t.composer.clockRunning = s.composer.clockRunning ∧ t.composer.clockHeld = s.composer.clockHeld
      ∧ (BoardField.clock ∈ t.composer.queue ∨ t.board.operation = some (t.fieldWrite .clock))
      ∧ s.SameRace t ∧ t.results = s.results ∧ t.out = s.out)
  ∧ (∀ h ≤ 360000,
    let tail := [glyphOf (h / 100 % 10), 0x2E, glyphOf (h / 10 % 10), glyphOf (h % 10)]
    (h < 1000 → timeText h = tail)
    ∧ (1000 ≤ h → h < 6000 → timeText h = glyphOf (h / 1000) :: tail)
    ∧ (6000 ≤ h → timeText h = plainNumber (h / 6000) ++ [0x3A, glyphOf (h % 6000 / 1000),
        glyphOf (h % 6000 / 100 % 10), 0x2E, glyphOf (h / 10 % 10), glyphOf (h % 10)]))
  ∧ (∀ n ≤ 36000, ∀ rest < 10000, clockText ((10000 * n + rest : Nat) : Int) =
    plainNumber (n / 600) ++ [0x3A, glyphOf (n % 600 / 100), glyphOf (n % 600 / 10 % 10), 0x2E, glyphOf (n % 10)])
  ∧ (∀ t : Int, -1000000 ≤ t → t ≤ 500000 →
    let m := min 999 (t.natAbs / 1000)
    let form := [glyphOf (m / 100), 0x2E, glyphOf (m / 10 % 10), glyphOf (m % 10)]
    (t < 0 → reactionText t = 0x2D :: form) ∧ (0 ≤ t → reactionText t = form))
  ∧ (∀ (width : Nat) (text : List Byte), text.length ≤ width →
    rightAlign width text = List.replicate (width - text.length) 0x20 ++ text)
  ∧ (∀ (s : State) (fld : BoardField) (r : LaneRecord) (lane : Nat), fld.lane? = some lane →
    (s.record? lane = some r → r.place.getD 0 < 100 → lane + s.mgmt.settings.numberingBase < 100 →
        s.fieldText fld = s.shownText r fld ∧ s.fieldColour fld = s.board.layout.shownColour r
          ∧ (s.fieldBlink fld = true ↔ fld = .time lane ∧ r.status = .provisional))
      ∧ (s.record? lane = none → s.fieldText fld = [] ∧ s.fieldColour fld = s.board.layout.normal
          ∧ s.fieldBlink fld = false))
  ∧ (∀ (s : State) (fld : BoardField), fld.lane? = none →
    s.fieldColour fld = s.board.layout.normal ∧ s.fieldBlink fld = false
      ∧ (∀ p, s.heat.plan = some p → p.event < 1000 → p.heat < 100 →
          s.fieldText .event = plainNumber p.event ∧ s.fieldText .heat = plainNumber p.heat)
      ∧ (s.heat.plan = none → s.fieldText .event = [] ∧ s.fieldText .heat = [])
      ∧ s.fieldText .clock = clockText
          (if s.composer.clockRunning then s.heatTime s.deckTime else s.composer.clockHeld))
  ∧ (∀ (s : State) (fld : BoardField) (row col width : Nat),
    let l := s.board.layout
    (l.position fld = some (row, col, width) → s.fieldWrite fld = .fieldWrite row col
        ((rightAlign width (s.fieldText fld)).map fun g =>
          { glyph := g, colour := s.fieldColour fld, blink := s.fieldBlink fld }))
      ∧ l.position .event = some (l.eventRow, l.eventCol, 3) ∧ l.position .heat = some (l.heatRow, l.heatCol, 2)
      ∧ l.position .clock = some (l.clockRow, l.clockCol, 7)
      ∧ ∀ lane, l.laneRows[lane]? = some (some row) →
        l.position (.lane lane) = some (row, l.laneCol, 2) ∧ l.position (.place lane) = some (row, l.placeCol, 3)
          ∧ l.position (.reaction lane) = some (row, l.reactionCol, 5)
          ∧ l.position (.time lane) = some (row, l.timeCol, 8))
  ∧ ∀ (s : State) (lane : Nat) (g : LaneRecord → LaneRecord) (reaches names : LaneRecord → LaneRecord → Bool)
      (rep : LaneRecord → Option Report), (∀ r, (g r).lane = r.lane) → (s.results.map (·.lane)).Nodup →
    let t := s.commit lane g reaches names rep
    let four (l : Nat) : List BoardField := [.lane l, .place l, .reaction l, .time l]
    let altered (l : Nat) : Prop := ∃ x ∈ four l, t.fieldText x ≠ s.fieldText x ∨ t.fieldColour x ≠ s.fieldColour x
      ∨ t.fieldBlink x ≠ s.fieldBlink x
    (∀ l, altered l → ∀ x ∈ four l, t.composer.queue.contains x = true ∨ (s.board.layout.laneRows[l]?).join = none)
      ∧ (∀ r, s.record? lane = some r → names r (g r) = true → t.HandedOver lane)
      ∧ ∃ joined, t.composer.queue = s.composer.queue ++ joined ∧ ∀ x ∈ joined, ∃ r q, x ∈ four r.lane
        ∧ s.record? r.lane = some r ∧ t.record? r.lane = some q
        ∧ (r.boardValues ≠ q.boardValues ∨ (r.lane = lane ∧ names r (g r) = true))

/-- Every command keeps the Line Buffer in one of its three forms, at most one half SENDING. -/
def Obligations.EveryStepKeepsLineBufferSound : Prop :=
  ∀ s t : State, s.LineBufferSound → step s = .next t → t.LineBufferSound

/-! ### Signal lines and pulse programs -/

/-- The step timer's expiry: the next step, the next repeat, or the end COMPLETED with its status and PULSE_DONE; each step
begun runs 2^x times the pulse base from now. -/
def Obligations.PulseStepBoundary : Prop :=
  ∀ (s : State) (r : PulseRun), s.Live → s.pulse.running = some r → timerDue s.deckTime r.timer = true →
    let p := s.pulse.program r.program
    let base := match s.mgmt.settings.pulseBase with
      | .ms10 => 1000
      | .ms2 => 200
    let begun (repeatNo step : Nat) (x : PulseStep) : State := { s with pulse := { s.pulse with
      running := some
        { program := r.program, repeatNo := repeatNo, step := step, completed := r.completed + 1
          timer := s.deckTime + ticks (2 ^ x.code.toNat * base) } } }
    (∀ x, 1 ≤ r.step → p.steps[r.step]? = some x → exec .pulseStepExpiry s = .next (begun r.repeatNo (r.step + 1) x))
    ∧ (∀ x, p.steps.length ≤ r.step → r.repeatNo < p.repeats → p.steps.head? = some x →
        exec .pulseStepExpiry s = .next (begun (r.repeatNo + 1) 1 x))
    ∧ (p.steps.length ≤ r.step → p.repeats ≤ r.repeatNo → exec .pulseStepExpiry s = .next { s with
        pulse := { s.pulse with
          running := none
          status := { program := some r.program, outcome := some .completed, completed := r.completed + 1 } }
        out := s.out.report (.pulseDone r.program .completed) })

/-- FIRE_PROGRAM begins a program at step 1 of repeat 1, does nothing for an empty one with detail 1, and is refused while a
program runs; LOAD_PROGRAM replaces a program that does not run, whole, and is refused for the one that runs. Its steps are
read from the request's bytes, two a step: the line set and the duration code. -/
def Obligations.ProgramRequests : Prop :=
  (∀ (s : State) (f : Frame),
    let fs := f.request.fields
    let answer (r : ReplyResult) (d : Nat) (p : PulseUnit) : Host.Outcome State Fault Refusal := .next { s with
      pulse := p, mgmt := s.mgmt.popped, out := s.out.offer (replyFrame f.request r d []) }
    (∀ x xs, s.Asks f 0x21 (sized 1) → byteAt fs 0 ≤ 7 → s.pulse.running = none →
        (s.pulse.program (byteAt fs 0)).steps = x :: xs → exec .fireProgram s = answer .done 0 { s.pulse with
          running := some { program := byteAt fs 0, repeatNo := 1, step := 1, completed := 0, timer := s.stepExpiry x } })
    ∧ (s.Asks f 0x21 (sized 1) → byteAt fs 0 ≤ 7 → s.pulse.running = none →
        (s.pulse.program (byteAt fs 0)).steps = [] → exec .fireProgram s = answer .done 1 s.pulse)
    ∧ (s.Asks f 0x21 (sized 1) → byteAt fs 0 ≤ 7 → s.pulse.running.isSome = true →
        exec .fireProgram s = answer .refusedBusy 2 s.pulse)
    ∧ (s.Asks f 0x21 (sized 1) → 7 < byteAt fs 0 → exec .fireProgram s = answer .badValue 1 s.pulse)
    ∧ (s.Asks f 0x20 (counted 2 3 2 0 16) → byteAt fs 0 ≤ 7 → 1 ≤ byteAt fs 1 → byteAt fs 1 ≤ 8 →
        (∀ e ∈ programSteps fs, byteAt e 1 ≤ 7) →
        ((∀ r, s.pulse.running = some r → r.program ≠ byteAt fs 0) → exec .loadProgram s = answer .done 0 { s.pulse with
          programs := s.pulse.programs.set (byteAt fs 0)
            { repeats := byteAt fs 1, steps := (programSteps fs).map PulseStep.ofBytes } })
        ∧ (∀ r, s.pulse.running = some r → r.program = byteAt fs 0 →
            exec .loadProgram s = answer .refusedBusy 2 s.pulse))
    ∧ (s.Asks f 0x20 (counted 2 3 2 0 16) → 7 < byteAt fs 0 → exec .loadProgram s = answer .badValue 1 s.pulse)
    ∧ (s.Asks f 0x20 (counted 2 3 2 0 16) → byteAt fs 0 ≤ 7 → byteAt fs 1 = 0 ∨ 8 < byteAt fs 1 →
        exec .loadProgram s = answer .badValue 2 s.pulse)
    ∧ (s.Asks f 0x20 (counted 2 3 2 0 16) → byteAt fs 0 ≤ 7 → 1 ≤ byteAt fs 1 → byteAt fs 1 ≤ 8 →
        (∃ e ∈ programSteps fs, 7 < byteAt e 1) → exec .loadProgram s = answer .badValue 3 s.pulse))
  ∧ ∀ fs : List Byte, (programSteps fs).length = byteAt fs 2 ∧ ∀ i < byteAt fs 2,
    (programSteps fs)[i]? = some ((fs.drop (3 + 2 * i)).take 2)
      ∧ ∀ e, PulseStep.ofBytes e = { lines := e.getD 0 0, code := BitVec.ofNat 3 (byteAt e 1 % 8) }

/-- SET_LINE_FUNCTION and SET_HELD_LEVEL write one line's configured function or held level; the start line's function is
refused, and a line that resolves to INPUT is never driven, the start line among them. A HELD line is driven at its held
level; a PULSE line at 1 while a program runs whose current step names it, and at 0 otherwise. -/
def Obligations.LineRequestsAndOutputs : Prop :=
  (∀ (s : State) (f : Frame),
    let fs := f.request.fields
    let answer (r : ReplyResult) (d : Nat) (p : PulseUnit) : Host.Outcome State Fault Refusal := .next { s with
      pulse := p, mgmt := s.mgmt.popped, out := s.out.offer (replyFrame f.request r d []) }
    (∀ g, s.Asks f 0x22 (sized 2) → byteAt fs 0 ≤ 7 → LineFunction.ofCode? (byteAt fs 1) = some g →
      byteAt fs 0 ≠ s.mgmt.settings.startLine →
      exec .setLineFunction s = answer .done 0 { s.pulse with lines := s.pulse.lines.set (byteAt fs 0) g })
    ∧ (∀ g, s.Asks f 0x22 (sized 2) → LineFunction.ofCode? (byteAt fs 1) = some g →
        byteAt fs 0 = s.mgmt.settings.startLine → exec .setLineFunction s = answer .badValue 1 s.pulse)
    ∧ (s.Asks f 0x23 (sized 2) → byteAt fs 0 ≤ 7 → byteAt fs 1 ≤ 1 → exec .setHeldLevel s =
        answer .done 0 { s.pulse with held := s.pulse.held.set (byteAt fs 0) (byteAt fs 1 == 1) })
    ∧ (s.Asks f 0x22 (sized 2) → 7 < byteAt fs 0 → exec .setLineFunction s = answer .badValue 1 s.pulse)
    ∧ (s.Asks f 0x22 (sized 2) → byteAt fs 0 ≤ 7 → 2 < byteAt fs 1 → exec .setLineFunction s = answer .badValue 2 s.pulse)
    ∧ (s.Asks f 0x23 (sized 2) → 7 < byteAt fs 0 → exec .setHeldLevel s = answer .badValue 1 s.pulse)
    ∧ (s.Asks f 0x23 (sized 2) → byteAt fs 0 ≤ 7 → 1 < byteAt fs 1 → exec .setHeldLevel s = answer .badValue 2 s.pulse))
  ∧ ∀ (s : State) (line : Nat), (s.lineFunction line = .input → s.lineOutput line = none)
    ∧ s.lineOutput s.mgmt.settings.startLine = none
    ∧ (line ≠ s.mgmt.settings.startLine → s.pulse.lines.getD line .input = .held →
        s.lineOutput line = some (s.pulse.held.getD line false))
    ∧ (line ≠ s.mgmt.settings.startLine → s.pulse.lines.getD line .input = .pulse → s.pulse.running = none →
        s.lineOutput line = some false)
    ∧ (line ≠ s.mgmt.settings.startLine → s.pulse.lines.getD line .input = .pulse → ∀ r x, s.pulse.running = some r →
        1 ≤ r.step → (s.pulse.program r.program).steps[r.step - 1]? = some x →
        s.lineOutput line = some (x.lines.getLsbD line))

/-- Every command keeps the Signal Program Table in range and a running program's step, repeat and count of completed steps
in agreement. -/
def Obligations.EveryStepKeepsPulseSound : Prop := ∀ s t : State, s.PulseSound → step s = .next t → t.PulseSound

/-! ### Reset -/

/-- The state after reset is sound in every respect that the statements above keep. -/
def Obligations.ResetIsSound : Prop :=
  State.reset.HeatSound ∧ State.reset.ArrivalsSound ∧ State.reset.TimesBounded ∧ State.reset.ResultsSound
    ∧ State.reset.MapSound ∧ State.reset.WithinCapacity ∧ State.reset.LineBufferSound ∧ State.reset.PulseSound
end

