-- ==== Sys2Proof/Laws/Shapes.lean ====
section
/-! SUPPORT. What each shared operation can change, said once: an operation's answer is its state with the named parts
replaced, so everything else is kept by rfl. -/

namespace Sys2Proof.Machine

/-- A relation that every step of a fold keeps holds of the whole fold. -/
theorem foldl_keeps {σ α : Type} (R : σ → σ → Prop) (refl : ∀ s, R s s) (trans : ∀ s t u, R s t → R t u → R s u)
    (g : σ → α → σ) (h : ∀ s a, R s (g s a)) (as : List α) (s : σ) : R s (as.foldl g s) := by
  induction as generalizing s with
  | nil => exact refl s
  | cons a as ih => exact trans _ _ _ (h s a) (ih (g s a))

/-! ### Frames and fields offered -/

@[simp] theorem LoopOut.choose_reportDest (o : LoopOut) : o.choose.reportDest = o.reportDest := by
  unfold LoopOut.choose; repeat' split <;> try rfl

@[simp] theorem LoopOut.offer_reportDest (o : LoopOut) (f : Frame) : (o.offer f).reportDest = o.reportDest := by
  unfold LoopOut.offer; split
  · exact LoopOut.choose_reportDest _
  · rfl

@[simp] theorem LoopOut.report_reportDest (o : LoopOut) (r : Report) : (o.report r).reportDest = o.reportDest := by
  unfold LoopOut.report; split <;> simp

/-- `t` is `s` with other frames in and out of the Loop Out Port's queues, the report destination kept. -/
def State.OutOnly (s t : State) : Prop := ∃ o, o.reportDest = s.out.reportDest ∧ t = { s with out := o }

theorem State.OutOnly.refl (s : State) : s.OutOnly s := ⟨s.out, rfl, rfl⟩

theorem State.OutOnly.trans {s t u : State} : s.OutOnly t → t.OutOnly u → s.OutOnly u := by
  rintro ⟨o, h, rfl⟩ ⟨p, k, rfl⟩; exact ⟨p, k.trans h, rfl⟩

theorem offer_outOnly (s : State) (f : Frame) : s.OutOnly (s.offer f) := ⟨_, LoopOut.offer_reportDest _ _, rfl⟩
theorem report_outOnly (s : State) (r : Report) : s.OutOnly (s.report r) := ⟨_, LoopOut.report_reportDest _ _, rfl⟩
theorem reply_outOnly (s : State) (q : Request) (r : ReplyResult) (d : Nat) (fs : List Byte) :
    s.OutOnly (s.reply q r d fs) := ⟨_, LoopOut.offer_reportDest _ _, rfl⟩

theorem reportOpt_outOnly (s : State) (r : Option Report) : s.OutOnly (s.reportOpt r) := by
  cases r with
  | none => exact .refl s
  | some r => exact report_outOnly s r

theorem offerLamp_outOnly (s : State) (l : Nat) (c : LampCode) : s.OutOnly (s.offerLamp l c) := by
  unfold State.offerLamp; split
  · exact offer_outOnly s _
  · exact .refl s

theorem lampsOff_outOnly (s : State) : s.OutOnly s.lampsOff :=
  foldl_keeps State.OutOnly .refl (fun _ _ _ => .trans) _ (fun s l => offerLamp_outOnly s l .off) _ s

/-- `t` is `s` with more fields pending at the Composer. -/
def State.PendingOnly (s t : State) : Prop := ∃ q, t = { s with composer := { s.composer with queue := q } }

theorem State.PendingOnly.refl (s : State) : s.PendingOnly s := ⟨s.composer.queue, rfl⟩

theorem State.PendingOnly.trans {s t u : State} : s.PendingOnly t → t.PendingOnly u → s.PendingOnly u := by
  rintro ⟨o, rfl⟩ ⟨p, rfl⟩; exact ⟨p, rfl⟩

theorem makePending_pendingOnly (s : State) (f : BoardField) : s.PendingOnly (s.makePending f) := by
  unfold State.makePending; split
  · exact .refl s
  · exact ⟨_, rfl⟩

theorem makeAllPending_pendingOnly (s : State) (fs : List BoardField) : s.PendingOnly (s.makeAllPending fs) :=
  foldl_keeps State.PendingOnly .refl (fun _ _ _ => .trans) _ makePending_pendingOnly fs s

/-! ### The lane records -/

/-- `t` is `s` with other lane records, frames offered and fields pending: what a writer's change can do (R93). -/
def State.RecordsOnly (s t : State) : Prop :=
  ∃ rs o q, o.reportDest = s.out.reportDest
    ∧ t = { s with results := rs, out := o, composer := { s.composer with queue := q } }

theorem State.RecordsOnly.refl (s : State) : s.RecordsOnly s := ⟨s.results, s.out, s.composer.queue, rfl, rfl⟩

theorem State.RecordsOnly.trans {s t u : State} : s.RecordsOnly t → t.RecordsOnly u → s.RecordsOnly u := by
  rintro ⟨a, b, c, x, rfl⟩ ⟨d, e, f, y, rfl⟩; exact ⟨d, e, f, y.trans x, rfl⟩

theorem State.OutOnly.records {s t : State} : s.OutOnly t → s.RecordsOnly t := by
  rintro ⟨o, h, rfl⟩; exact ⟨s.results, o, s.composer.queue, h, rfl⟩

theorem State.PendingOnly.records {s t : State} : s.PendingOnly t → s.RecordsOnly t := by
  rintro ⟨q, rfl⟩; exact ⟨s.results, s.out, q, rfl, rfl⟩

theorem results_recordsOnly (s : State) (rs : List LaneRecord) : s.RecordsOnly { s with results := rs } :=
  ⟨rs, s.out, s.composer.queue, rfl, rfl⟩

theorem decideLamp_recordsOnly (s : State) (l : Nat) : s.RecordsOnly (s.decideLamp l) := by
  unfold State.decideLamp; split
  · exact .refl s
  · split
    · exact .refl s
    · exact (offerLamp_outOnly s l _).records.trans (results_recordsOnly _ _)

theorem decideLamps_recordsOnly (s : State) : s.RecordsOnly s.decideLamps :=
  foldl_keeps State.RecordsOnly .refl (fun _ _ _ => .trans) _ decideLamp_recordsOnly _ s

theorem handOver_recordsOnly (s : State) (old : List LaneRecord) (n : Option Nat) :
    s.RecordsOnly (s.handOver old n) :=
  (makeAllPending_pendingOnly s _).records

theorem placerPass_recordsOnly (s : State) (w : List LaneRecord) (l : Nat) (rep : LaneRecord → Option Report) :
    s.RecordsOnly (s.placerPass w l rep) := by
  unfold State.placerPass
  refine .trans ?_ (decideLamps_recordsOnly _)
  have h1 := (results_recordsOnly s (rankAll w)).trans
    (reportOpt_outOnly _ (((rankAll w).find? (·.lane == l)).bind rep)).records
  split
  · exact h1
  · exact h1.trans (report_outOnly _ _).records

theorem commit_recordsOnly (s : State) (l : Nat) (f : LaneRecord → LaneRecord) (reach names : LaneRecord → LaneRecord → Bool)
    (rep : LaneRecord → Option Report) : s.RecordsOnly (s.commit l f reach names rep) := by
  unfold State.commit; split
  · exact .refl s
  · refine .trans ?_ (handOver_recordsOnly _ _ _)
    split
    · exact placerPass_recordsOnly s _ l rep
    · exact (results_recordsOnly s _).trans (reportOpt_outOnly _ _).records

theorem note_recordsOnly (s : State) (l : Nat) (f : LaneRecord → LaneRecord) : s.RecordsOnly (s.note l f) :=
  commit_recordsOnly s l f _ _ _

theorem judgeStartLane_recordsOnly (tj : HeatTime) (s : State) (l : Nat) : s.RecordsOnly (s.judgeStartLane tj l) := by
  unfold State.judgeStartLane; split
  · exact .refl s
  · split
    · exact .refl s
    · exact commit_recordsOnly s l _ _ _ _

theorem noFinish_recordsOnly (s : State) (l : Nat) : s.RecordsOnly (s.noFinish l) := by
  unfold State.noFinish; split
  · exact .refl s
  · split
    · exact commit_recordsOnly s l _ _ _ _
    · exact .refl s

/-! ### The walls and the exchanges -/

/-- `t` is `s` with other lane records, collectors, arrivals and exchange windows, frames offered and fields pending: what
a press or a decision can do (R53 to R90). -/
def State.RaceOnly (s t : State) : Prop :=
  ∃ rs w x o q, o.reportDest = s.out.reportDest ∧
    t = { s with results := rs, walls := w, exchanges := x, out := o, composer := { s.composer with queue := q } }

theorem State.RaceOnly.refl (s : State) : s.RaceOnly s :=
  ⟨s.results, s.walls, s.exchanges, s.out, s.composer.queue, rfl, rfl⟩

theorem State.RaceOnly.trans {s t u : State} : s.RaceOnly t → t.RaceOnly u → s.RaceOnly u := by
  rintro ⟨a, b, c, d, e, x, rfl⟩ ⟨f, g, h, i, j, y, rfl⟩; exact ⟨f, g, h, i, j, y.trans x, rfl⟩

theorem State.RecordsOnly.race {s t : State} : s.RecordsOnly t → s.RaceOnly t := by
  rintro ⟨a, b, c, h, rfl⟩; exact ⟨a, s.walls, s.exchanges, b, c, h, rfl⟩

theorem walls_raceOnly (s : State) (w : WallJudge) : s.RaceOnly { s with walls := w } :=
  ⟨s.results, w, s.exchanges, s.out, s.composer.queue, rfl, rfl⟩

theorem setCollector_raceOnly (s : State) (c : Collector) : s.RaceOnly (s.setCollector c) := walls_raceOnly s _
theorem store_raceOnly (s : State) (a : ArrivalRecord) : s.RaceOnly (s.store a) := walls_raceOnly s _

theorem setWindow_raceOnly (s : State) (l : Nat) (w : Option OpenExchange) : s.RaceOnly (s.setWindow l w) :=
  ⟨s.results, s.walls, _, s.out, s.composer.queue, rfl, rfl⟩

theorem judgeExchange_raceOnly (s : State) (l : Nat) (d : DeckTime) : s.RaceOnly (s.judgeExchange l d) := by
  unfold State.judgeExchange; split
  · exact .refl s
  · exact (commit_recordsOnly s l _ _ _ _).race.trans (setWindow_raceOnly _ _ _)

theorem handoff_raceOnly (s : State) (l k n : Nat) (a t : HeatTime) (d : DeckTime) :
    s.RaceOnly (s.handoff l k n a t d) :=
  (judgeExchange_raceOnly s l d).trans (setWindow_raceOnly _ _ _)

theorem missedExchange_raceOnly (s : State) (l k : Nat) : s.RaceOnly (s.missedExchange l k) :=
  (judgeExchange_raceOnly s l _).trans (commit_recordsOnly _ l _ _ _ _).race

theorem padTaken_raceOnly (s : State) (l n : Nat) (p : HeatTime) : s.RaceOnly (s.padTaken l n p) := by
  unfold State.padTaken; split
  · exact (commit_recordsOnly s l _ _ _ _).race
  · split
    · exact (note_recordsOnly s l _).race
    · exact .refl s

theorem afterTaken_raceOnly (s : State) (p : Press) (n : Nat) : s.RaceOnly (s.afterTaken p n) := by
  unfold State.afterTaken; split
  · exact padTaken_raceOnly s _ n _
  · exact .refl s

theorem openCollection_raceOnly (s : State) (c : Collector) (p : Press) : s.RaceOnly (s.openCollection c p) :=
  (setCollector_raceOnly s _).trans (afterTaken_raceOnly _ p _)

theorem joinCollection_raceOnly (s : State) (c : Collector) (p : Press) : s.RaceOnly (s.joinCollection c p) := by
  unfold State.joinCollection; split
  · exact .refl s
  · exact (setCollector_raceOnly s _).trans (afterTaken_raceOnly _ p _)

theorem latePress_raceOnly (s : State) (p : Press) (n : Option Nat) (b : Bool) : s.RaceOnly (s.latePress p n b) := by
  unfold State.latePress; dsimp only
  split
  · split
    · exact (note_recordsOnly s p.lane _).race.trans (walls_raceOnly _ _)
    · exact (note_recordsOnly s p.lane _).race
  · exact (note_recordsOnly s p.lane _).race

theorem recordMissed_raceOnly (s : State) (l n : Nat) : s.RaceOnly (s.recordMissed l n) := by
  unfold State.recordMissed; dsimp only
  have h := (store_raceOnly s (missedArrival l n)).trans
    ((note_recordsOnly _ l fun r =>
      { r with
        lapCount := r.lapCount + 1
        flags := { r.flags with review := true, splitsLost := r.flags.splitsLost || s.walls.full } }).race.trans
      (report_outOnly _ (.arrival (missedArrival l n))).records.race)
  split
  · exact h.trans (missedExchange_raceOnly _ l _)
  · exact h

theorem skipAhead_raceOnly (s : State) (c : Collector) (p : Press) (a : HeatTime) : s.RaceOnly (s.skipAhead c p a) :=
  (recordMissed_raceOnly s _ _).trans (openCollection_raceOnly _ _ p)

theorem classify_raceOnly (s : State) (c : Collector) (p : Press) : s.RaceOnly (s.classify c p) := by
  unfold State.classify; dsimp only
  split
  · split
    · exact (note_recordsOnly s p.lane _).race
    · split
      · exact openCollection_raceOnly s c p
      · exact joinCollection_raceOnly s c p
  · split
    · exact latePress_raceOnly s p _ _
    · split
      · exact skipAhead_raceOnly s c p _
      · exact (note_recordsOnly s p.lane _).race

theorem takePress_raceOnly (s : State) (p : Press) : s.RaceOnly (s.takePress p) := by
  unfold State.takePress
  split
  · exact .refl s
  · exact .refl s
  · exact .refl s
  · exact latePress_raceOnly s p _ _
  · split
    · exact .refl s
    · exact latePress_raceOnly s p _ _
    · exact classify_raceOnly s _ p
    · exact classify_raceOnly s _ p

theorem decideLap_raceOnly (s : State) (c : Collector) (a : Arrival) (b : Bool) : s.RaceOnly (s.decideLap c a b) := by
  unfold State.decideLap; dsimp only
  refine .trans ?_ (setCollector_raceOnly _ _)
  have h1 := (store_raceOnly s (c.record a)).trans (note_recordsOnly _ c.lane fun r =>
    { r with
      lapCount := r.lapCount + 1
      flags := r.flags.afterArrival a s.walls.full
      displayed := if s.plan.split.shows s.laps c.lap then some a.time else r.displayed }).race
  have h2 := fun t => (State.OutOnly.records (report_outOnly t (.arrival (c.record a)))).race
  split <;> split
  · exact (h1.trans (h2 _)).trans (handoff_raceOnly _ _ _ _ _ _ _)
  · exact h1.trans (handoff_raceOnly _ _ _ _ _ _ _)
  · exact h1.trans (h2 _)
  · exact h1

theorem decideFinish_raceOnly (s : State) (c : Collector) (a : Arrival) : s.RaceOnly (s.decideFinish c a) :=
  (store_raceOnly s _).trans ((commit_recordsOnly _ c.lane _ _ _ _).race.trans (setCollector_raceOnly _ _))

theorem decideCollection_raceOnly (s : State) (l : Nat) (b : Bool) : s.RaceOnly (s.decideCollection l b) := by
  unfold State.decideCollection; split
  · exact .refl s
  · split
    · split
      · exact .refl s
      · split
        · exact decideLap_raceOnly s _ _ b
        · exact decideFinish_raceOnly s _ _
    · exact .refl s

theorem closeLanes_raceOnly (s : State) : s.RaceOnly s.closeLanes := by
  have h2 := foldl_keeps State.RaceOnly .refl (fun _ _ _ => .trans) (fun t l => t.decideCollection l true)
    (fun s l => decideCollection_raceOnly s l true) Config.lanes s
  have h3 := foldl_keeps State.RaceOnly .refl (fun _ _ _ => .trans) State.noFinish
    (fun s l => (noFinish_recordsOnly s l).race) Config.lanes (Config.lanes.foldl (fun t l => t.decideCollection l true) s)
  exact (h2.trans h3).trans (foldl_keeps State.RaceOnly .refl (fun _ _ _ => .trans)
    (fun t l => t.judgeExchange l t.deckTime) (fun s l => judgeExchange_raceOnly s l _) Config.lanes _)

/-! ### The heat and the pulse programs -/

/-- `t` is `s` with another heat, race, clock and running program: what a close, a start and a recall can do
(R24, R28, R32). -/
def State.HeatOnly (s t : State) : Prop :=
  ∃ h rs w x o c p, o.reportDest = s.out.reportDest ∧
    t = { s with heat := h, results := rs, walls := w, exchanges := x, out := o, composer := c, pulse := p }

theorem State.HeatOnly.refl (s : State) : s.HeatOnly s :=
  ⟨s.heat, s.results, s.walls, s.exchanges, s.out, s.composer, s.pulse, rfl, rfl⟩

theorem State.HeatOnly.trans {s t u : State} : s.HeatOnly t → t.HeatOnly u → s.HeatOnly u := by
  rintro ⟨a, b, c, d, e, f, g, x, rfl⟩ ⟨h, i, j, k, l, m, n, y, rfl⟩; exact ⟨h, i, j, k, l, m, n, y.trans x, rfl⟩

theorem State.RaceOnly.heat {s t : State} : s.RaceOnly t → s.HeatOnly t := by
  rintro ⟨a, b, c, d, e, h, rfl⟩; exact ⟨s.heat, a, b, c, d, _, s.pulse, h, rfl⟩

theorem enterHeat_heatOnly (s : State) (st : HeatState) (c : HeatCause) : s.HeatOnly (s.enterHeat st c) :=
  ⟨_, s.results, s.walls, s.exchanges, _, s.composer, s.pulse, LoopOut.report_reportDest _ _, rfl⟩

theorem stopClock_heatOnly (s : State) (t : HeatTime) : s.HeatOnly (s.stopClock t) := by
  unfold State.stopClock
  obtain ⟨q, h⟩ := makePending_pendingOnly
    { s with composer := { s.composer with clockRunning := false, clockHeld := t, clockTimer := none } } .clock
  rw [h]; exact ⟨s.heat, s.results, s.walls, s.exchanges, s.out, _, s.pulse, rfl, rfl⟩

/-- `t` is `s` with another running program and record of the last one, and frames offered. -/
def State.PulseOnly (s t : State) : Prop :=
  ∃ o r st k, o.reportDest = s.out.reportDest
    ∧ t = { s with out := o, pulse := { s.pulse with running := r, status := st, skipped := k } }

theorem State.PulseOnly.refl (s : State) : s.PulseOnly s :=
  ⟨s.out, s.pulse.running, s.pulse.status, s.pulse.skipped, rfl, rfl⟩

theorem State.PulseOnly.trans {s t u : State} : s.PulseOnly t → t.PulseOnly u → s.PulseOnly u := by
  rintro ⟨a, b, c, d, x, rfl⟩ ⟨e, f, g, h, y, rfl⟩; exact ⟨e, f, g, h, y.trans x, rfl⟩

theorem State.OutOnly.pulse {s t : State} : s.OutOnly t → s.PulseOnly t := by
  rintro ⟨o, h, rfl⟩; exact ⟨o, s.pulse.running, s.pulse.status, s.pulse.skipped, h, rfl⟩

theorem State.PulseOnly.heat {s t : State} : s.PulseOnly t → s.HeatOnly t := by
  rintro ⟨o, r, st, k, h, rfl⟩; exact ⟨s.heat, s.results, s.walls, s.exchanges, o, s.composer, _, h, rfl⟩

theorem beginProgram_pulseOnly (s : State) (n : Nat) : s.PulseOnly (s.beginProgram n) := by
  unfold State.beginProgram; split
  · exact .refl s
  · exact ⟨s.out, _, s.pulse.status, s.pulse.skipped, rfl, rfl⟩

theorem stopProgram_pulseOnly (s : State) (o : PulseOutcome) : s.PulseOnly (s.stopProgram o) := by
  unfold State.stopProgram; split
  · exact .refl s
  · exact ⟨s.out, none, _, s.pulse.skipped, rfl, rfl⟩

theorem endProgram_pulseOnly (s : State) (o : PulseOutcome) : s.PulseOnly (s.endProgram o) :=
  (stopProgram_pulseOnly s o).trans (reportOpt_outOnly _ _).pulse

theorem firePreempting_pulseOnly (s : State) (n : Nat) : s.PulseOnly (s.firePreempting n) := by
  unfold State.firePreempting; split
  · exact .refl s
  · exact (endProgram_pulseOnly s _).trans (beginProgram_pulseOnly _ n)

theorem fireEnd_pulseOnly (s : State) : s.PulseOnly s.fireEnd := by
  unfold State.fireEnd; split
  · exact .refl s
  · split
    · exact ⟨s.out, s.pulse.running, s.pulse.status, _, rfl, rfl⟩
    · exact beginProgram_pulseOnly s 2

theorem beginStep_pulseOnly (s : State) (r : PulseRun) (m n : Nat) : s.PulseOnly (s.beginStep r m n) := by
  unfold State.beginStep; split
  · exact .refl s
  · exact ⟨s.out, _, s.pulse.status, s.pulse.skipped, rfl, rfl⟩

theorem stepBoundary_pulseOnly (s : State) (r : PulseRun) : s.PulseOnly (s.stepBoundary r) := by
  unfold State.stepBoundary; dsimp only
  split
  · exact beginStep_pulseOnly s _ _ _
  · split
    · exact beginStep_pulseOnly s _ _ _
    · obtain ⟨o, a, b, c, k, h⟩ := endProgram_pulseOnly
        { s with pulse := { s.pulse with running := some { r with completed := r.completed + 1 } } } .completed
      rw [h]; exact ⟨o, a, b, c, k, rfl⟩

theorem judgeStart_heatOnly (s : State) (d : DeckTime) : s.HeatOnly (s.judgeStart d) := by
  unfold State.judgeStart
  have h := foldl_keeps State.RecordsOnly .refl (fun _ _ _ => .trans) (State.judgeStartLane (s.heatTime d))
    (judgeStartLane_recordsOnly _) Config.lanes { s with heat := { s.heat with startTimer := none } }
  exact .trans ⟨_, s.results, s.walls, s.exchanges, s.out, s.composer, s.pulse, rfl, rfl⟩ h.race.heat

theorem closeStart_heatOnly (s : State) : s.HeatOnly s.closeStart := by
  unfold State.closeStart; split
  · exact judgeStart_heatOnly s _
  · exact .refl s

theorem closeHeat_heatOnly (s : State) (c : HeatCause) : s.HeatOnly (s.closeHeat c) := by
  have h4 := (closeStart_heatOnly s).trans (closeLanes_raceOnly _).heat
  have h5 : State.HeatOnly s.closeStart.closeLanes
      { s.closeStart.closeLanes with heat := { s.closeStart.closeLanes.heat with limitTimer := none } } :=
    ⟨_, _, _, _, _, _, _, rfl, rfl⟩
  have h7 := fun t => (h4.trans (h5.trans (enterHeat_heatOnly _ .results c))).trans (stopClock_heatOnly _ t)
  unfold State.closeHeat
  split
  · exact (h7 _).trans (fireEnd_pulseOnly _).heat
  · exact h7 _

theorem examineClosing_heatOnly (s : State) : s.HeatOnly s.examineClosing := by
  unfold State.examineClosing; split
  · exact closeHeat_heatOnly s _
  · exact .refl s

theorem startEvent_heatOnly (s : State) : s.HeatOnly s.startEvent := by
  unfold State.startEvent
  refine .trans (.trans (.trans ?_ (firePreempting_pulseOnly _ 0).heat) (enterHeat_heatOnly _ _ _))
    (examineClosing_heatOnly _)
  exact ⟨_, _, _, s.exchanges, s.out, _, s.pulse, rfl, rfl⟩

/-! ### The board's arbiter -/

/-- `t` is `s` with other claims, another operation in progress, and a displaced half: what the arbiter and the scanner
can do (R150, R163, R166). -/
def State.ArbiterOnly (s t : State) : Prop :=
  ∃ cl op ms q a b k,
    t = { s with
      mgmt := { s.mgmt with claim := cl }
      board := { s.board with operation := op, markers := ms }
      composer := { s.composer with queue := q }
      shifter := { s.shifter with half0 := a, half1 := b, claim := k } }

theorem State.ArbiterOnly.refl (s : State) : s.ArbiterOnly s :=
  ⟨s.mgmt.claim, s.board.operation, s.board.markers, s.composer.queue, s.shifter.half0, s.shifter.half1,
    s.shifter.claim, rfl⟩

theorem State.ArbiterOnly.trans {s t u : State} : s.ArbiterOnly t → t.ArbiterOnly u → s.ArbiterOnly u := by
  rintro ⟨a, b, c, d, e, f, g, rfl⟩ ⟨h, i, j, k, l, m, n, rfl⟩; exact ⟨h, i, j, k, l, m, n, rfl⟩

theorem examineShifter_arbiterOnly (s : State) : s.ArbiterOnly s.examineShifter := by
  unfold State.examineShifter; split
  · exact ⟨s.mgmt.claim, s.board.operation, s.board.markers, s.composer.queue, s.shifter.half0, s.shifter.half1,
      true, rfl⟩
  · exact .refl s

theorem displace_arbiterOnly (s : State) (n : Nat) : s.ArbiterOnly (s.displace n) := by
  unfold State.displace; split
  · refine .trans ?_ (examineShifter_arbiterOnly _)
    unfold Shifter.setHalf; split
    · exact ⟨s.mgmt.claim, s.board.operation, _, s.composer.queue, .empty, s.shifter.half1, s.shifter.claim, rfl⟩
    · exact ⟨s.mgmt.claim, s.board.operation, _, s.composer.queue, s.shifter.half0, .empty, s.shifter.claim, rfl⟩
  · exact .refl s

theorem grantConsole_arbiterOnly (s : State) (q : BoardRequest) : s.ArbiterOnly (s.grantConsole q) := by
  have h : ∀ (t : State) (op : ConsoleOp), t.ArbiterOnly
      { t with board := { t.board with operation := some (.console op) }, mgmt := { t.mgmt with claim := none } } :=
    fun t op => ⟨none, _, t.board.markers, t.composer.queue, t.shifter.half0, t.shifter.half1, t.shifter.claim, rfl⟩
  unfold State.grantConsole; dsimp only; split
  · exact (displace_arbiterOnly s _).trans (h _ _)
  · exact h _ _

theorem grantShifter_arbiterOnly (s : State) : s.ArbiterOnly s.grantShifter := by
  unfold State.grantShifter; split
  · exact ⟨s.mgmt.claim, _, s.board.markers, s.composer.queue, s.shifter.half0, s.shifter.half1, false, rfl⟩
  · exact .refl s

theorem grantWriter_arbiterOnly (s : State) : s.ArbiterOnly s.grantWriter := by
  unfold State.grantWriter; split
  · exact ⟨s.mgmt.claim, _, s.board.markers, _, s.shifter.half0, s.shifter.half1, s.shifter.claim, rfl⟩
  · split
    · exact grantConsole_arbiterOnly s _
    · exact .refl s

theorem arbitrate_arbiterOnly (s : State) : s.ArbiterOnly s.arbitrate := by
  unfold State.arbitrate; dsimp only; split
  · exact .refl s
  · split
    · exact grantShifter_arbiterOnly s
    · exact (grantShifter_arbiterOnly s).trans (grantWriter_arbiterOnly _)

theorem freeBoard_arbiterOnly (s : State) : s.ArbiterOnly s.freeBoard := by
  refine .trans ?_ ((examineShifter_arbiterOnly _).trans (arbitrate_arbiterOnly _))
  exact ⟨s.mgmt.claim, none, s.board.markers, s.composer.queue, s.shifter.half0, s.shifter.half1, s.shifter.claim, rfl⟩

end Sys2Proof.Machine
end

