-- ==== Sys2Proof/Laws/Requests.lean ====
section
/-! SUPPORT. What a request at the head of the queue comes to, said once. -/

namespace Sys2Proof.Machine

/-- A command runs when the pin is free. -/
theorem run_live {s : State} (h : s.Live) (f : State → State) : s.run f = .next (f s) := by
  have h' : s.resetHeld = false := h
  simp [State.run, h']

/-- While the pin is held a command that only runs has no effect. -/
theorem run_held {s : State} (h : s.resetHeld = true) (f : State → State) : s.run f = .next s := by
  simp [State.run, h]

/-- A request that is asked is answered by its own rule and leaves the queue (R135, R137). -/
theorem request_asked {s : State} {f : Frame} {code : Byte} {form : List Byte → Bool} (h : s.Asks f code form)
    (body : State → Request → State) : s.request code form body = (body s f.request).popHead := by
  obtain ⟨-, h1, h2, h3⟩ := h
  simp [State.request, h1, h2, h3]

/-- A request of a wrong form is answered BAD_REQUEST with detail 2 (R137). -/
theorem request_misformed {s : State} {f : Frame} {code : Byte} {form : List Byte → Bool} (h1 : s.freeHead = some f)
    (h2 : f.carries code = true) (h3 : form f.request.fields = false) (body : State → Request → State) :
    s.request code form body = (s.reply f.request .badRequest 2).popHead := by
  simp [State.request, h1, h2, h3]

/-- Everything a request command can do: nothing, a BAD_REQUEST answer, or the request's own rule. -/
theorem request_cases (s : State) (code : Byte) (form : List Byte → Bool) (body : State → Request → State) :
    s.request code form body = s
      ∨ (∃ f, s.freeHead = some f ∧ s.request code form body = (s.reply f.request .badRequest 2).popHead)
      ∨ ∃ f, s.freeHead = some f ∧ f.carries code = true ∧ form f.request.fields = true
          ∧ s.request code form body = (body s f.request).popHead := by
  cases h1 : s.freeHead with
  | none => left; simp [State.request, h1]
  | some f =>
    by_cases h2 : f.carries code = true
    · by_cases h3 : form f.request.fields = true
      · right; right; exact ⟨f, rfl, h2, h3, by simp [State.request, h1, h2, h3]⟩
      · right; left; exact ⟨f, rfl, by simp [State.request, h1, h2, h3]⟩
    · left; simp [State.request, h1, h2]

/-- A board request that is asked: granted its claim, or refused and completed (R135). -/
theorem boardRequest_asked {s : State} {f : Frame} {code : Byte} {form : List Byte → Bool} (h : s.Asks f code form)
    (check : State → List Byte → BoardCheck) :
    s.boardRequest code form check = match check s f.request.fields with
      | .claim op => State.arbitrate { s with mgmt := { s.mgmt with claim := some op } }
      | .refuse r d => (s.reply f.request r d).popHead := by
  obtain ⟨-, h1, h2, h3⟩ := h
  simp only [State.boardRequest, h1, h2, h3, if_true] <;> cases check s f.request.fields <;> rfl

/-- Everything a board request command can do: nothing, an answer, or a claim of the arbiter. -/
theorem boardRequest_cases (s : State) (code : Byte) (form : List Byte → Bool)
    (check : State → List Byte → BoardCheck) :
    s.boardRequest code form check = s
      ∨ (∃ q r d, s.boardRequest code form check = (s.reply q r d).popHead)
      ∨ ∃ f op, s.freeHead = some f ∧ check s f.request.fields = .claim op
          ∧ s.boardRequest code form check = State.arbitrate { s with mgmt := { s.mgmt with claim := some op } } := by
  cases h1 : s.freeHead with
  | none => left; simp [State.boardRequest, h1]
  | some f =>
    by_cases h2 : f.carries code = true
    · by_cases h3 : form f.request.fields = true
      · cases h4 : check s f.request.fields with
        | claim op => right; right; exact ⟨f, op, rfl, h4, by simp [State.boardRequest, h1, h2, h3, h4]⟩
        | refuse r d => right; left; exact ⟨f.request, r, d, by simp [State.boardRequest, h1, h2, h3, h4]⟩
      · right; left; exact ⟨f.request, .badRequest, 2, by simp [State.boardRequest, h1, h2, h3]⟩
    · left; simp [State.boardRequest, h1, h2]

end Sys2Proof.Machine
end

