-- ==== Sys2Proof/Laws/Board.lean ====
section
/-! SUPPORT. What Board Memory reads after each write, and what its markers then hold; which fields are pending and which load is chosen; said once (R148 to R163). -/

namespace Sys2Proof.Machine

theorem blend_all (old new : Cell) : PlaneMask.all.blend old new = new := rfl

/-! ### A run of cells in one row -/

@[simp] theorem overlay_length (m : PlaneMask) (row : List Cell) (k : Nat) (cs : List Cell) :
    (overlay m row k cs).length = row.length := by
  induction row generalizing k cs with
  | nil => cases cs <;> rfl
  | cons x xs ih =>
    cases cs with
    | nil => cases k <;> rfl
    | cons c cs => cases k with
      | zero => simp [overlay, ih]
      | succ k => simp [overlay, ih]

/-- A written cell reads as its blend, every other cell as before. -/
theorem overlay_get (m : PlaneMask) (row : List Cell) (k : Nat) (cs : List Cell) (i : Nat) (hi : i < row.length) :
    (overlay m row k cs)[i]? =
      if k ≤ i ∧ i < k + cs.length then some (m.blend (row.getD i {}) (cs.getD (i - k) {})) else row[i]? := by
  induction row generalizing k cs i with
  | nil => simp at hi
  | cons x xs ih =>
    cases cs with
    | nil =>
      have h1 : overlay m (x :: xs) k [] = x :: xs := by cases k <;> rfl
      have h2 : ¬(k ≤ i ∧ i < k + ([] : List Cell).length) := by simp
      rw [h1, if_neg h2]
    | cons c cs =>
      cases k with
      | zero =>
        cases i with
        | zero => simp [overlay]
        | succ i =>
          have := ih 0 cs i (by simpa using hi)
          simp only [overlay, List.getElem?_cons_succ, this]
          simp
      | succ k =>
        cases i with
        | zero => simp [overlay]
        | succ i =>
          have := ih k (c :: cs) i (by simpa using hi)
          simp only [overlay, List.getElem?_cons_succ, this]
          by_cases h : k ≤ i ∧ i < k + (c :: cs).length
          · rw [if_pos h, if_pos (by omega)]; simp
          · rw [if_neg h, if_neg (by omega)]

/-! ### Rows and markers -/

theorem writeRun_row_ne (b : Board) {r i : Nat} (h : i ≠ r) (c : Nat) (m : PlaneMask) (cells : List Cell) :
    (b.writeRun r c m cells).row i = b.row i := by
  unfold Board.writeRun Board.putRow Board.row
  simp [List.getD_eq_getElem?_getD, h.symm]

theorem writeRun_marker_ne (b : Board) {r i : Nat} (h : i ≠ r) (c : Nat) (m : PlaneMask) (cells : List Cell) :
    (b.writeRun r c m cells).marker i = b.marker i := by
  unfold Board.writeRun Board.putRow Board.marker
  simp [List.getD_eq_getElem?_getD, h.symm]

theorem writeRun_row (b : Board) {r : Nat} (h : r < b.rows.length) (c : Nat) (m : PlaneMask) (cells : List Cell) :
    (b.writeRun r c m cells).row r = overlay m (b.row r) c cells := by
  unfold Board.writeRun Board.putRow Board.row
  simp [List.getD_eq_getElem?_getD, h]

theorem writeRun_marker (b : Board) {r : Nat} (h : r < b.markers.length) (c : Nat) (m : PlaneMask) (cells : List Cell) :
    (b.writeRun r c m cells).marker r
      = lowerMarker (b.marker r) (firstChange (b.row r) (overlay m (b.row r) c cells) 0) := by
  unfold Board.writeRun Board.putRow Board.marker
  simp [List.getD_eq_getElem?_getD, h]

@[simp] theorem writeRun_rows_length (b : Board) (r c : Nat) (m : PlaneMask) (cells : List Cell) :
    (b.writeRun r c m cells).rows.length = b.rows.length := by simp [Board.writeRun, Board.putRow]

@[simp] theorem writeRun_markers_length (b : Board) (r c : Nat) (m : PlaneMask) (cells : List Cell) :
    (b.writeRun r c m cells).markers.length = b.markers.length := by simp [Board.writeRun, Board.putRow]

/-- Rows of 48 cells stay rows of 48 cells. -/
theorem writeRun_rows_wide (b : Board) (h : ∀ row ∈ b.rows, row.length = 48) (r c : Nat) (m : PlaneMask)
    (cells : List Cell) : ∀ row ∈ (b.writeRun r c m cells).rows, row.length = 48 := by
  intro row hr
  by_cases hb : r < b.rows.length
  · rcases List.mem_or_eq_of_mem_set hr with h1 | rfl
    · exact h row h1
    · rw [overlay_length]
      unfold Board.row
      rw [List.getD_eq_getElem _ _ hb]; exact h _ (List.getElem_mem hb)
  · have : (b.writeRun r c m cells).rows = b.rows := List.set_eq_of_length_le (by omega)
    exact h row (this ▸ hr)

/-- Below the lowest changed column two rows of one length agree, and rows without a change are equal. -/
theorem firstChange_spec (xs ys : List Cell) (k : Nat) (h : xs.length = ys.length) :
    (firstChange xs ys k = none → xs = ys)
      ∧ ∀ j, firstChange xs ys k = some j → k ≤ j ∧ ∀ i, k + i < j → xs[i]? = ys[i]? := by
  induction xs generalizing ys k with
  | nil => cases ys with
    | nil => simp [firstChange]
    | cons y ys => simp at h
  | cons x xs ih =>
    cases ys with
    | nil => simp at h
    | cons y ys =>
      simp only [List.length_cons, Nat.add_right_cancel_iff] at h
      obtain ⟨h1, h2⟩ := ih ys (k + 1) h
      unfold firstChange
      split
      · rename_i e; subst e
        refine ⟨fun hn => by rw [h1 hn], fun j hj => ?_⟩
        obtain ⟨h3, h4⟩ := h2 j hj
        refine ⟨by omega, fun i hi => ?_⟩
        cases i with
        | zero => rfl
        | succ i => exact h4 i (by omega)
      · refine ⟨by simp, fun j hj => ?_⟩
        simp only [Option.some.injEq] at hj
        exact ⟨by omega, fun i hi => by omega⟩

/-! ### The pending list (R157, R160) -/

/-- A field made pending is on the list unless it is hidden; nothing leaves the list. -/
theorem mem_makePending (s : State) (f x : BoardField) :
    x ∈ (s.makePending f).composer.queue ↔
      x ∈ s.composer.queue ∨ (x = f ∧ s.board.layout.hides f = false) := by
  unfold State.makePending
  split
  · rename_i h
    refine ⟨.inl, fun h' => h'.elim id ?_⟩
    rintro ⟨rfl, hx⟩
    simpa [hx] using h
  · rename_i h
    simp only [Bool.or_eq_true, not_or, Bool.not_eq_true] at h
    simp [h.1]

/-- What is pending after several fields are made pending. -/
theorem mem_makeAllPending (s : State) (fs : List BoardField) (x : BoardField) :
    x ∈ (s.makeAllPending fs).composer.queue ↔
      x ∈ s.composer.queue ∨ (x ∈ fs ∧ s.board.layout.hides x = false) := by
  unfold State.makeAllPending
  induction fs generalizing s with
  | nil => simp
  | cons f fs ih =>
    obtain ⟨q, e⟩ := makePending_pendingOnly s f
    rw [List.foldl_cons, ih, mem_makePending, e, List.mem_cons]
    constructor
    · rintro ((h | ⟨rfl, h⟩) | ⟨h, h'⟩)
      · exact .inl h
      · exact .inr ⟨.inl rfl, h⟩
      · exact .inr ⟨.inr h, h'⟩
    · rintro (h | ⟨rfl | h, h'⟩)
      · exact .inl (.inl h)
      · exact .inl (.inr ⟨rfl, h'⟩)
      · exact .inr ⟨h, h'⟩

/-- Several fields made pending, each once, join the list in their order, the hidden ones and those already there left
out. -/
theorem makeAllPending_queue (s : State) (fs : List BoardField) (h : fs.Nodup) :
    (s.makeAllPending fs).composer.queue =
      s.composer.queue ++ fs.filter fun x => !s.board.layout.hides x && !s.composer.queue.contains x := by
  unfold State.makeAllPending
  induction fs generalizing s with
  | nil => simp
  | cons f fs ih =>
    obtain ⟨hf, hn⟩ := List.nodup_cons.mp h
    rw [List.foldl_cons, ih _ hn]
    unfold State.makePending
    by_cases e : s.board.layout.hides f || s.composer.queue.contains f
    · rw [if_pos e, List.filter_cons_of_neg (by simp only [Bool.or_eq_true] at e; rcases e with e | e <;> simp_all)]
    · have e' : (!s.board.layout.hides f && !s.composer.queue.contains f) = true := by simpa using e
      rw [if_neg e, List.filter_cons_of_pos (p := fun x => !s.board.layout.hides x && !s.composer.queue.contains x) e',
        List.append_assoc]
      refine congrArg (fun q => s.composer.queue ++ f :: q) (List.filter_congr fun x hx => ?_)
      have : x ≠ f := fun e => hf (e ▸ hx)
      simp [this]

/-- What is pending after a change is handed over: the four fields of each lane that the change hands over. -/
theorem mem_handOver (s : State) (old : List LaneRecord) (named : Option Nat) (x : BoardField) :
    x ∈ (s.handOver old named).composer.queue ↔ x ∈ s.composer.queue ∨
      ((∃ p ∈ old.zip s.results, p.1.handsOver named p.2 = true ∧ x ∈ laneFields p.2.lane)
        ∧ s.board.layout.hides x = false) := by
  unfold State.handOver
  rw [mem_makeAllPending, List.mem_flatMap]
  simp only [List.mem_ite_nil_right]

/-! ### The chosen load (R162, R163) -/

/-- A chosen load is of the first due row in the scanner's order, from its marker's column or 0, into the EMPTY half. -/
theorem chooseLoad_some {s : State} {op : BoardOperation} (h : s.chooseLoad = some op) :
    ∃ half row, s.shifter.emptyHalf = some half ∧ (scanOrder s.shifter.scanner).find? s.rowDue = some row
      ∧ op = .rowLoad row ((s.board.marker row).getD 0) half
        ((s.board.row row).drop ((s.board.marker row).getD 0)) true := by
  unfold State.chooseLoad at h
  split at h
  · rename_i half row h1 h2
    cases h; exact ⟨half, row, h1, h2, rfl⟩
  · cases h

end Sys2Proof.Machine
end

