-- ==== Sys2Proof/Laws/Expiries.lean ====
section
/-! SUPPORT. What the expiries and the arbiter leave alone, said once: an expiry acts only when its timer is due (R2), and
a grant changes only the claims, unless it displaces a half (R150, R166). -/

namespace Sys2Proof.Machine

/-! ### Expiries without a due timer -/

theorem silenceExpires_idle {s : State} (h : s.expired s.intake.silenceTimer = false) : s.silenceExpires = s := by
  simp [State.silenceExpires, h]

theorem startWindowExpires_idle {s : State} (h : s.expired s.heat.startTimer = false) : s.startWindowExpires = s := by
  unfold State.startWindowExpires
  cases e : s.heat.startTimer with
  | none => rfl
  | some x => rw [e] at h; simp [State.expired] at h; simp [h]

theorem limitExpires_idle {s : State} (h : s.expired s.heat.limitTimer = false) : s.limitExpires = s := by
  simp [State.limitExpires, h]

theorem clockExpires_idle {s : State} (h : s.expired s.composer.clockTimer = false) : s.clockExpires = s := by
  unfold State.clockExpires
  cases e : s.composer.clockTimer with
  | none => rfl
  | some x => rw [e] at h; simp [State.expired] at h; simp [h]

theorem collectionExpires_idle {s : State} (h : ∀ c ∈ s.walls.collectors, s.expired c.timer = false) (lane : Nat) :
    s.collectionExpires lane = s := by
  unfold State.collectionExpires State.collectionDue
  cases e : s.collector? lane with
  | none => rfl
  | some c => simp [h c (List.mem_of_find?_eq_some e)]

theorem exchangeExpires_idle {s : State}
    (h : ∀ x ∈ s.exchanges, ∀ o, x.window = some o → timerDue s.deckTime o.timer = false) (lane : Nat) :
    s.exchangeExpires lane = s := by
  unfold State.exchangeExpires
  cases e : s.openExchange lane with
  | none => rfl
  | some o =>
    obtain ⟨x, hx, ho⟩ := Option.bind_eq_some_iff.mp e
    simp [h x (List.mem_of_find?_eq_some hx) o ho]

theorem refreshExpires_idle {s : State} (h : ∀ row < 16, s.refreshDue row = false) (row : Nat) :
    s.refreshExpires row = s := by
  unfold State.refreshExpires
  by_cases e : row < 16
  · simp [h row e]
  · simp [e]

theorem stepExpires_idle {s : State} (h : ∀ r, s.pulse.running = some r → timerDue s.deckTime r.timer = false) :
    s.stepExpires = s := by
  unfold State.stepExpires
  cases e : s.pulse.running with
  | none => rfl
  | some r => simp [h r e]

theorem foldl_idle {α : Type} {s : State} (g : State → α → State) (h : ∀ a, g s a = s) (as : List α) :
    as.foldl g s = s := by
  induction as with
  | nil => rfl
  | cons a as ih => rw [List.foldl_cons, h, ih]

/-- A tick at which no timer is due takes no expiry. -/
theorem takeDue_idle {s : State} (h : s.NoneDue) : s.takeDue = s := by
  obtain ⟨h1, h2, h3, h4, h5, h6, h7, h8⟩ := h
  simp only [State.takeDue, silenceExpires_idle h1, startWindowExpires_idle h2, foldl_idle _ (collectionExpires_idle h5),
    foldl_idle _ (exchangeExpires_idle h6), limitExpires_idle h3, clockExpires_idle h4,
    foldl_idle _ (refreshExpires_idle h7), stepExpires_idle h8]

/-! ### Grants -/

/-- `t` is `s` with other claims, another pending list and another operation in progress: no half, marker or cell. -/
def State.ClaimsOnly (s t : State) : Prop :=
  ∃ op claim q m, t = { s with
    board := { s.board with operation := op }
    shifter := { s.shifter with claim := claim }
    composer := { s.composer with queue := q }
    mgmt := { s.mgmt with claim := m } }

theorem State.ClaimsOnly.refl (s : State) : s.ClaimsOnly s := ⟨_, _, _, _, rfl⟩

theorem State.ClaimsOnly.trans {s t u : State} : s.ClaimsOnly t → t.ClaimsOnly u → s.ClaimsOnly u := by
  rintro ⟨_, _, _, _, rfl⟩ ⟨_, _, _, _, rfl⟩; exact ⟨_, _, _, _, rfl⟩

theorem examineShifter_claimsOnly (s : State) : s.ClaimsOnly s.examineShifter := by
  unfold State.examineShifter; split <;> exact ⟨_, _, _, _, rfl⟩

/-- While no SEND_ROW_NOW waits, the arbiter's grant leaves halves, markers and cells alone. -/
theorem arbitrate_claimsOnly {s : State} (h : ∀ r, s.mgmt.claim ≠ some (.sendRow r)) : s.ClaimsOnly s.arbitrate := by
  unfold State.arbitrate
  split
  · exact .refl s
  · have h1 : s.ClaimsOnly s.grantShifter := by unfold State.grantShifter; split <;> exact ⟨_, _, _, _, rfl⟩
    have h2 : s.grantShifter.mgmt = s.mgmt := by unfold State.grantShifter; split <;> rfl
    dsimp only
    split
    · exact h1
    · refine h1.trans ?_
      unfold State.grantWriter
      split
      · exact ⟨_, _, _, _, rfl⟩
      · split
        · rename_i q e
          rw [h2] at e
          cases q with
          | sendRow r => exact absurd e (h r)
          | _ => exact ⟨_, _, _, _, rfl⟩
        · exact .refl _

end Sys2Proof.Machine
end

