-- ==== Sys2Proof/Laws/State.lean ====
section
/-! SUPPORT. What each field of the state holds after each named update: one lemma per field per update, by rfl. -/

namespace Sys2Proof.Machine

variable (s : State)

/-! ### State.offer -/

@[simp] theorem offer_pending (f : Frame) : (s.offer f).pending = s.pending := rfl
@[simp] theorem offer_freeDraws (f : Frame) : (s.offer f).freeDraws = s.freeDraws := rfl
@[simp] theorem offer_resetHeld (f : Frame) : (s.offer f).resetHeld = s.resetHeld := rfl
@[simp] theorem offer_deckTime (f : Frame) : (s.offer f).deckTime = s.deckTime := rfl
@[simp] theorem offer_intake (f : Frame) : (s.offer f).intake = s.intake := rfl
@[simp] theorem offer_nodes (f : Frame) : (s.offer f).nodes = s.nodes := rfl
@[simp] theorem offer_heat (f : Frame) : (s.offer f).heat = s.heat := rfl
@[simp] theorem offer_starts (f : Frame) : (s.offer f).starts = s.starts := rfl
@[simp] theorem offer_walls (f : Frame) : (s.offer f).walls = s.walls := rfl
@[simp] theorem offer_exchanges (f : Frame) : (s.offer f).exchanges = s.exchanges := rfl
@[simp] theorem offer_results (f : Frame) : (s.offer f).results = s.results := rfl
@[simp] theorem offer_mgmt (f : Frame) : (s.offer f).mgmt = s.mgmt := rfl
@[simp] theorem offer_out (f : Frame) : (s.offer f).out = s.out.offer f := rfl
@[simp] theorem offer_board (f : Frame) : (s.offer f).board = s.board := rfl
@[simp] theorem offer_composer (f : Frame) : (s.offer f).composer = s.composer := rfl
@[simp] theorem offer_shifter (f : Frame) : (s.offer f).shifter = s.shifter := rfl
@[simp] theorem offer_pulse (f : Frame) : (s.offer f).pulse = s.pulse := rfl

/-! ### State.report -/

@[simp] theorem report_pending (r : Report) : (s.report r).pending = s.pending := rfl
@[simp] theorem report_freeDraws (r : Report) : (s.report r).freeDraws = s.freeDraws := rfl
@[simp] theorem report_resetHeld (r : Report) : (s.report r).resetHeld = s.resetHeld := rfl
@[simp] theorem report_deckTime (r : Report) : (s.report r).deckTime = s.deckTime := rfl
@[simp] theorem report_intake (r : Report) : (s.report r).intake = s.intake := rfl
@[simp] theorem report_nodes (r : Report) : (s.report r).nodes = s.nodes := rfl
@[simp] theorem report_heat (r : Report) : (s.report r).heat = s.heat := rfl
@[simp] theorem report_starts (r : Report) : (s.report r).starts = s.starts := rfl
@[simp] theorem report_walls (r : Report) : (s.report r).walls = s.walls := rfl
@[simp] theorem report_exchanges (r : Report) : (s.report r).exchanges = s.exchanges := rfl
@[simp] theorem report_results (r : Report) : (s.report r).results = s.results := rfl
@[simp] theorem report_mgmt (r : Report) : (s.report r).mgmt = s.mgmt := rfl
@[simp] theorem report_out (r : Report) : (s.report r).out = s.out.report r := rfl
@[simp] theorem report_board (r : Report) : (s.report r).board = s.board := rfl
@[simp] theorem report_composer (r : Report) : (s.report r).composer = s.composer := rfl
@[simp] theorem report_shifter (r : Report) : (s.report r).shifter = s.shifter := rfl
@[simp] theorem report_pulse (r : Report) : (s.report r).pulse = s.pulse := rfl

/-! ### State.reply -/

@[simp] theorem reply_pending (q : Request) (r : ReplyResult) (d : Nat) (fs : List Byte) :
    (s.reply q r d fs).pending = s.pending := rfl
@[simp] theorem reply_freeDraws (q : Request) (r : ReplyResult) (d : Nat) (fs : List Byte) :
    (s.reply q r d fs).freeDraws = s.freeDraws := rfl
@[simp] theorem reply_resetHeld (q : Request) (r : ReplyResult) (d : Nat) (fs : List Byte) :
    (s.reply q r d fs).resetHeld = s.resetHeld := rfl
@[simp] theorem reply_deckTime (q : Request) (r : ReplyResult) (d : Nat) (fs : List Byte) :
    (s.reply q r d fs).deckTime = s.deckTime := rfl
@[simp] theorem reply_intake (q : Request) (r : ReplyResult) (d : Nat) (fs : List Byte) :
    (s.reply q r d fs).intake = s.intake := rfl
@[simp] theorem reply_nodes (q : Request) (r : ReplyResult) (d : Nat) (fs : List Byte) :
    (s.reply q r d fs).nodes = s.nodes := rfl
@[simp] theorem reply_heat (q : Request) (r : ReplyResult) (d : Nat) (fs : List Byte) :
    (s.reply q r d fs).heat = s.heat := rfl
@[simp] theorem reply_starts (q : Request) (r : ReplyResult) (d : Nat) (fs : List Byte) :
    (s.reply q r d fs).starts = s.starts := rfl
@[simp] theorem reply_walls (q : Request) (r : ReplyResult) (d : Nat) (fs : List Byte) :
    (s.reply q r d fs).walls = s.walls := rfl
@[simp] theorem reply_exchanges (q : Request) (r : ReplyResult) (d : Nat) (fs : List Byte) :
    (s.reply q r d fs).exchanges = s.exchanges := rfl
@[simp] theorem reply_results (q : Request) (r : ReplyResult) (d : Nat) (fs : List Byte) :
    (s.reply q r d fs).results = s.results := rfl
@[simp] theorem reply_mgmt (q : Request) (r : ReplyResult) (d : Nat) (fs : List Byte) :
    (s.reply q r d fs).mgmt = s.mgmt := rfl
@[simp] theorem reply_out (q : Request) (r : ReplyResult) (d : Nat) (fs : List Byte) :
    (s.reply q r d fs).out = s.out.offer (replyFrame q r d fs) := rfl
@[simp] theorem reply_board (q : Request) (r : ReplyResult) (d : Nat) (fs : List Byte) :
    (s.reply q r d fs).board = s.board := rfl
@[simp] theorem reply_composer (q : Request) (r : ReplyResult) (d : Nat) (fs : List Byte) :
    (s.reply q r d fs).composer = s.composer := rfl
@[simp] theorem reply_shifter (q : Request) (r : ReplyResult) (d : Nat) (fs : List Byte) :
    (s.reply q r d fs).shifter = s.shifter := rfl
@[simp] theorem reply_pulse (q : Request) (r : ReplyResult) (d : Nat) (fs : List Byte) :
    (s.reply q r d fs).pulse = s.pulse := rfl

/-! ### State.popHead -/

@[simp] theorem popHead_pending : (s.popHead).pending = s.pending := rfl
@[simp] theorem popHead_freeDraws : (s.popHead).freeDraws = s.freeDraws := rfl
@[simp] theorem popHead_resetHeld : (s.popHead).resetHeld = s.resetHeld := rfl
@[simp] theorem popHead_deckTime : (s.popHead).deckTime = s.deckTime := rfl
@[simp] theorem popHead_intake : (s.popHead).intake = s.intake := rfl
@[simp] theorem popHead_nodes : (s.popHead).nodes = s.nodes := rfl
@[simp] theorem popHead_heat : (s.popHead).heat = s.heat := rfl
@[simp] theorem popHead_starts : (s.popHead).starts = s.starts := rfl
@[simp] theorem popHead_walls : (s.popHead).walls = s.walls := rfl
@[simp] theorem popHead_exchanges : (s.popHead).exchanges = s.exchanges := rfl
@[simp] theorem popHead_results : (s.popHead).results = s.results := rfl
@[simp] theorem popHead_mgmt : (s.popHead).mgmt = s.mgmt.popped := rfl
@[simp] theorem popHead_out : (s.popHead).out = s.out := rfl
@[simp] theorem popHead_board : (s.popHead).board = s.board := rfl
@[simp] theorem popHead_composer : (s.popHead).composer = s.composer := rfl
@[simp] theorem popHead_shifter : (s.popHead).shifter = s.shifter := rfl
@[simp] theorem popHead_pulse : (s.popHead).pulse = s.pulse := rfl

/-! ### State.enterHeat -/

@[simp] theorem enterHeat_pending (st : HeatState) (c : HeatCause) : (s.enterHeat st c).pending = s.pending := rfl
@[simp] theorem enterHeat_freeDraws (st : HeatState) (c : HeatCause) :
    (s.enterHeat st c).freeDraws = s.freeDraws := rfl
@[simp] theorem enterHeat_resetHeld (st : HeatState) (c : HeatCause) :
    (s.enterHeat st c).resetHeld = s.resetHeld := rfl
@[simp] theorem enterHeat_deckTime (st : HeatState) (c : HeatCause) : (s.enterHeat st c).deckTime = s.deckTime := rfl
@[simp] theorem enterHeat_intake (st : HeatState) (c : HeatCause) : (s.enterHeat st c).intake = s.intake := rfl
@[simp] theorem enterHeat_nodes (st : HeatState) (c : HeatCause) : (s.enterHeat st c).nodes = s.nodes := rfl
@[simp] theorem enterHeat_heat (st : HeatState) (c : HeatCause) :
    (s.enterHeat st c).heat = { s.heat with state := st } := rfl
@[simp] theorem enterHeat_starts (st : HeatState) (c : HeatCause) : (s.enterHeat st c).starts = s.starts := rfl
@[simp] theorem enterHeat_walls (st : HeatState) (c : HeatCause) : (s.enterHeat st c).walls = s.walls := rfl
@[simp] theorem enterHeat_exchanges (st : HeatState) (c : HeatCause) :
    (s.enterHeat st c).exchanges = s.exchanges := rfl
@[simp] theorem enterHeat_results (st : HeatState) (c : HeatCause) : (s.enterHeat st c).results = s.results := rfl
@[simp] theorem enterHeat_mgmt (st : HeatState) (c : HeatCause) : (s.enterHeat st c).mgmt = s.mgmt := rfl
@[simp] theorem enterHeat_out (st : HeatState) (c : HeatCause) :
    (s.enterHeat st c).out = s.out.report (.heatState st c) := rfl
@[simp] theorem enterHeat_board (st : HeatState) (c : HeatCause) : (s.enterHeat st c).board = s.board := rfl
@[simp] theorem enterHeat_composer (st : HeatState) (c : HeatCause) : (s.enterHeat st c).composer = s.composer := rfl
@[simp] theorem enterHeat_shifter (st : HeatState) (c : HeatCause) : (s.enterHeat st c).shifter = s.shifter := rfl
@[simp] theorem enterHeat_pulse (st : HeatState) (c : HeatCause) : (s.enterHeat st c).pulse = s.pulse := rfl

/-! ### State.stopHeat -/

@[simp] theorem stopHeat_pending : (s.stopHeat).pending = s.pending := rfl
@[simp] theorem stopHeat_freeDraws : (s.stopHeat).freeDraws = s.freeDraws := rfl
@[simp] theorem stopHeat_resetHeld : (s.stopHeat).resetHeld = s.resetHeld := rfl
@[simp] theorem stopHeat_deckTime : (s.stopHeat).deckTime = s.deckTime := rfl
@[simp] theorem stopHeat_intake : (s.stopHeat).intake = s.intake := rfl
@[simp] theorem stopHeat_nodes : (s.stopHeat).nodes = s.nodes := rfl
@[simp] theorem stopHeat_heat :
    (s.stopHeat).heat = { s.heat with epoch := none, startTimer := none, limitTimer := none } := rfl
@[simp] theorem stopHeat_starts : (s.stopHeat).starts = s.starts := rfl
@[simp] theorem stopHeat_walls : (s.stopHeat).walls = s.walls := rfl
@[simp] theorem stopHeat_exchanges : (s.stopHeat).exchanges = s.exchanges := rfl
@[simp] theorem stopHeat_results : (s.stopHeat).results = s.results := rfl
@[simp] theorem stopHeat_mgmt : (s.stopHeat).mgmt = s.mgmt := rfl
@[simp] theorem stopHeat_out : (s.stopHeat).out = s.out := rfl
@[simp] theorem stopHeat_board : (s.stopHeat).board = s.board := rfl
@[simp] theorem stopHeat_composer : (s.stopHeat).composer = s.composer := rfl
@[simp] theorem stopHeat_shifter : (s.stopHeat).shifter = s.shifter := rfl
@[simp] theorem stopHeat_pulse : (s.stopHeat).pulse = s.pulse := rfl

/-! ### State.store -/

@[simp] theorem store_pending (a : ArrivalRecord) : (s.store a).pending = s.pending := rfl
@[simp] theorem store_freeDraws (a : ArrivalRecord) : (s.store a).freeDraws = s.freeDraws := rfl
@[simp] theorem store_resetHeld (a : ArrivalRecord) : (s.store a).resetHeld = s.resetHeld := rfl
@[simp] theorem store_deckTime (a : ArrivalRecord) : (s.store a).deckTime = s.deckTime := rfl
@[simp] theorem store_intake (a : ArrivalRecord) : (s.store a).intake = s.intake := rfl
@[simp] theorem store_nodes (a : ArrivalRecord) : (s.store a).nodes = s.nodes := rfl
@[simp] theorem store_heat (a : ArrivalRecord) : (s.store a).heat = s.heat := rfl
@[simp] theorem store_starts (a : ArrivalRecord) : (s.store a).starts = s.starts := rfl
@[simp] theorem store_walls (a : ArrivalRecord) : (s.store a).walls = s.walls.store a := rfl
@[simp] theorem store_exchanges (a : ArrivalRecord) : (s.store a).exchanges = s.exchanges := rfl
@[simp] theorem store_results (a : ArrivalRecord) : (s.store a).results = s.results := rfl
@[simp] theorem store_mgmt (a : ArrivalRecord) : (s.store a).mgmt = s.mgmt := rfl
@[simp] theorem store_out (a : ArrivalRecord) : (s.store a).out = s.out := rfl
@[simp] theorem store_board (a : ArrivalRecord) : (s.store a).board = s.board := rfl
@[simp] theorem store_composer (a : ArrivalRecord) : (s.store a).composer = s.composer := rfl
@[simp] theorem store_shifter (a : ArrivalRecord) : (s.store a).shifter = s.shifter := rfl
@[simp] theorem store_pulse (a : ArrivalRecord) : (s.store a).pulse = s.pulse := rfl

/-! ### State.setCollector -/

@[simp] theorem setCollector_pending (c : Collector) : (s.setCollector c).pending = s.pending := rfl
@[simp] theorem setCollector_freeDraws (c : Collector) : (s.setCollector c).freeDraws = s.freeDraws := rfl
@[simp] theorem setCollector_resetHeld (c : Collector) : (s.setCollector c).resetHeld = s.resetHeld := rfl
@[simp] theorem setCollector_deckTime (c : Collector) : (s.setCollector c).deckTime = s.deckTime := rfl
@[simp] theorem setCollector_intake (c : Collector) : (s.setCollector c).intake = s.intake := rfl
@[simp] theorem setCollector_nodes (c : Collector) : (s.setCollector c).nodes = s.nodes := rfl
@[simp] theorem setCollector_heat (c : Collector) : (s.setCollector c).heat = s.heat := rfl
@[simp] theorem setCollector_starts (c : Collector) : (s.setCollector c).starts = s.starts := rfl
@[simp] theorem setCollector_walls (c : Collector) :
    (s.setCollector c).walls =
      { s.walls with collectors := s.walls.collectors.map fun d => if d.lane = c.lane then c else d } := rfl
@[simp] theorem setCollector_exchanges (c : Collector) : (s.setCollector c).exchanges = s.exchanges := rfl
@[simp] theorem setCollector_results (c : Collector) : (s.setCollector c).results = s.results := rfl
@[simp] theorem setCollector_mgmt (c : Collector) : (s.setCollector c).mgmt = s.mgmt := rfl
@[simp] theorem setCollector_out (c : Collector) : (s.setCollector c).out = s.out := rfl
@[simp] theorem setCollector_board (c : Collector) : (s.setCollector c).board = s.board := rfl
@[simp] theorem setCollector_composer (c : Collector) : (s.setCollector c).composer = s.composer := rfl
@[simp] theorem setCollector_shifter (c : Collector) : (s.setCollector c).shifter = s.shifter := rfl
@[simp] theorem setCollector_pulse (c : Collector) : (s.setCollector c).pulse = s.pulse := rfl

/-! ### State.markLinks -/

@[simp] theorem markLinks_pending (p : Collector → Bool) : (s.markLinks p).pending = s.pending := rfl
@[simp] theorem markLinks_freeDraws (p : Collector → Bool) : (s.markLinks p).freeDraws = s.freeDraws := rfl
@[simp] theorem markLinks_resetHeld (p : Collector → Bool) : (s.markLinks p).resetHeld = s.resetHeld := rfl
@[simp] theorem markLinks_deckTime (p : Collector → Bool) : (s.markLinks p).deckTime = s.deckTime := rfl
@[simp] theorem markLinks_intake (p : Collector → Bool) : (s.markLinks p).intake = s.intake := rfl
@[simp] theorem markLinks_nodes (p : Collector → Bool) : (s.markLinks p).nodes = s.nodes := rfl
@[simp] theorem markLinks_heat (p : Collector → Bool) : (s.markLinks p).heat = s.heat := rfl
@[simp] theorem markLinks_starts (p : Collector → Bool) : (s.markLinks p).starts = s.starts := rfl
@[simp] theorem markLinks_walls (p : Collector → Bool) :
    (s.markLinks p).walls =
      { s.walls with collectors := s.walls.collectors.map fun c => if p c then { c with link := true } else c } := rfl
@[simp] theorem markLinks_exchanges (p : Collector → Bool) : (s.markLinks p).exchanges = s.exchanges := rfl
@[simp] theorem markLinks_results (p : Collector → Bool) : (s.markLinks p).results = s.results := rfl
@[simp] theorem markLinks_mgmt (p : Collector → Bool) : (s.markLinks p).mgmt = s.mgmt := rfl
@[simp] theorem markLinks_out (p : Collector → Bool) : (s.markLinks p).out = s.out := rfl
@[simp] theorem markLinks_board (p : Collector → Bool) : (s.markLinks p).board = s.board := rfl
@[simp] theorem markLinks_composer (p : Collector → Bool) : (s.markLinks p).composer = s.composer := rfl
@[simp] theorem markLinks_shifter (p : Collector → Bool) : (s.markLinks p).shifter = s.shifter := rfl
@[simp] theorem markLinks_pulse (p : Collector → Bool) : (s.markLinks p).pulse = s.pulse := rfl

/-! ### State.dropCollector -/

@[simp] theorem dropCollector_pending (lane : Nat) : (s.dropCollector lane).pending = s.pending := rfl
@[simp] theorem dropCollector_freeDraws (lane : Nat) : (s.dropCollector lane).freeDraws = s.freeDraws := rfl
@[simp] theorem dropCollector_resetHeld (lane : Nat) : (s.dropCollector lane).resetHeld = s.resetHeld := rfl
@[simp] theorem dropCollector_deckTime (lane : Nat) : (s.dropCollector lane).deckTime = s.deckTime := rfl
@[simp] theorem dropCollector_intake (lane : Nat) : (s.dropCollector lane).intake = s.intake := rfl
@[simp] theorem dropCollector_nodes (lane : Nat) : (s.dropCollector lane).nodes = s.nodes := rfl
@[simp] theorem dropCollector_heat (lane : Nat) : (s.dropCollector lane).heat = s.heat := rfl
@[simp] theorem dropCollector_starts (lane : Nat) : (s.dropCollector lane).starts = s.starts := rfl
@[simp] theorem dropCollector_walls (lane : Nat) :
    (s.dropCollector lane).walls =
      { s.walls with collectors := s.walls.collectors.map fun c => if c.lane = lane then { lane := c.lane, lap := c.lap } else c } := rfl
@[simp] theorem dropCollector_exchanges (lane : Nat) : (s.dropCollector lane).exchanges = s.exchanges := rfl
@[simp] theorem dropCollector_results (lane : Nat) : (s.dropCollector lane).results = s.results := rfl
@[simp] theorem dropCollector_mgmt (lane : Nat) : (s.dropCollector lane).mgmt = s.mgmt := rfl
@[simp] theorem dropCollector_out (lane : Nat) : (s.dropCollector lane).out = s.out := rfl
@[simp] theorem dropCollector_board (lane : Nat) : (s.dropCollector lane).board = s.board := rfl
@[simp] theorem dropCollector_composer (lane : Nat) : (s.dropCollector lane).composer = s.composer := rfl
@[simp] theorem dropCollector_shifter (lane : Nat) : (s.dropCollector lane).shifter = s.shifter := rfl
@[simp] theorem dropCollector_pulse (lane : Nat) : (s.dropCollector lane).pulse = s.pulse := rfl

/-! ### State.setWindow -/

@[simp] theorem setWindow_pending (lane : Nat) (w : Option OpenExchange) :
    (s.setWindow lane w).pending = s.pending := rfl
@[simp] theorem setWindow_freeDraws (lane : Nat) (w : Option OpenExchange) :
    (s.setWindow lane w).freeDraws = s.freeDraws := rfl
@[simp] theorem setWindow_resetHeld (lane : Nat) (w : Option OpenExchange) :
    (s.setWindow lane w).resetHeld = s.resetHeld := rfl
@[simp] theorem setWindow_deckTime (lane : Nat) (w : Option OpenExchange) :
    (s.setWindow lane w).deckTime = s.deckTime := rfl
@[simp] theorem setWindow_intake (lane : Nat) (w : Option OpenExchange) :
    (s.setWindow lane w).intake = s.intake := rfl
@[simp] theorem setWindow_nodes (lane : Nat) (w : Option OpenExchange) : (s.setWindow lane w).nodes = s.nodes := rfl
@[simp] theorem setWindow_heat (lane : Nat) (w : Option OpenExchange) : (s.setWindow lane w).heat = s.heat := rfl
@[simp] theorem setWindow_starts (lane : Nat) (w : Option OpenExchange) :
    (s.setWindow lane w).starts = s.starts := rfl
@[simp] theorem setWindow_walls (lane : Nat) (w : Option OpenExchange) : (s.setWindow lane w).walls = s.walls := rfl
@[simp] theorem setWindow_exchanges (lane : Nat) (w : Option OpenExchange) :
    (s.setWindow lane w).exchanges =
      s.exchanges.map fun c => if c.lane = lane then { c with window := w } else c := rfl
@[simp] theorem setWindow_results (lane : Nat) (w : Option OpenExchange) :
    (s.setWindow lane w).results = s.results := rfl
@[simp] theorem setWindow_mgmt (lane : Nat) (w : Option OpenExchange) : (s.setWindow lane w).mgmt = s.mgmt := rfl
@[simp] theorem setWindow_out (lane : Nat) (w : Option OpenExchange) : (s.setWindow lane w).out = s.out := rfl
@[simp] theorem setWindow_board (lane : Nat) (w : Option OpenExchange) : (s.setWindow lane w).board = s.board := rfl
@[simp] theorem setWindow_composer (lane : Nat) (w : Option OpenExchange) :
    (s.setWindow lane w).composer = s.composer := rfl
@[simp] theorem setWindow_shifter (lane : Nat) (w : Option OpenExchange) :
    (s.setWindow lane w).shifter = s.shifter := rfl
@[simp] theorem setWindow_pulse (lane : Nat) (w : Option OpenExchange) : (s.setWindow lane w).pulse = s.pulse := rfl

/-! ### State.setChecker -/

@[simp] theorem setChecker_pending (c : Checker) : (s.setChecker c).pending = s.pending := rfl
@[simp] theorem setChecker_freeDraws (c : Checker) : (s.setChecker c).freeDraws = s.freeDraws := rfl
@[simp] theorem setChecker_resetHeld (c : Checker) : (s.setChecker c).resetHeld = s.resetHeld := rfl
@[simp] theorem setChecker_deckTime (c : Checker) : (s.setChecker c).deckTime = s.deckTime := rfl
@[simp] theorem setChecker_intake (c : Checker) : (s.setChecker c).intake = { s.intake with checker := c } := rfl
@[simp] theorem setChecker_nodes (c : Checker) : (s.setChecker c).nodes = s.nodes := rfl
@[simp] theorem setChecker_heat (c : Checker) : (s.setChecker c).heat = s.heat := rfl
@[simp] theorem setChecker_starts (c : Checker) : (s.setChecker c).starts = s.starts := rfl
@[simp] theorem setChecker_walls (c : Checker) : (s.setChecker c).walls = s.walls := rfl
@[simp] theorem setChecker_exchanges (c : Checker) : (s.setChecker c).exchanges = s.exchanges := rfl
@[simp] theorem setChecker_results (c : Checker) : (s.setChecker c).results = s.results := rfl
@[simp] theorem setChecker_mgmt (c : Checker) : (s.setChecker c).mgmt = s.mgmt := rfl
@[simp] theorem setChecker_out (c : Checker) : (s.setChecker c).out = s.out := rfl
@[simp] theorem setChecker_board (c : Checker) : (s.setChecker c).board = s.board := rfl
@[simp] theorem setChecker_composer (c : Checker) : (s.setChecker c).composer = s.composer := rfl
@[simp] theorem setChecker_shifter (c : Checker) : (s.setChecker c).shifter = s.shifter := rfl
@[simp] theorem setChecker_pulse (c : Checker) : (s.setChecker c).pulse = s.pulse := rfl

/-! ### State.restartSilence -/

@[simp] theorem restartSilence_pending : (s.restartSilence).pending = s.pending := rfl
@[simp] theorem restartSilence_freeDraws : (s.restartSilence).freeDraws = s.freeDraws := rfl
@[simp] theorem restartSilence_resetHeld : (s.restartSilence).resetHeld = s.resetHeld := rfl
@[simp] theorem restartSilence_deckTime : (s.restartSilence).deckTime = s.deckTime := rfl
@[simp] theorem restartSilence_intake :
    (s.restartSilence).intake = { s.intake with silenceTimer := some (s.deckTime + Config.silenceInterval) } := rfl
@[simp] theorem restartSilence_nodes : (s.restartSilence).nodes = s.nodes := rfl
@[simp] theorem restartSilence_heat : (s.restartSilence).heat = s.heat := rfl
@[simp] theorem restartSilence_starts : (s.restartSilence).starts = s.starts := rfl
@[simp] theorem restartSilence_walls : (s.restartSilence).walls = s.walls := rfl
@[simp] theorem restartSilence_exchanges : (s.restartSilence).exchanges = s.exchanges := rfl
@[simp] theorem restartSilence_results : (s.restartSilence).results = s.results := rfl
@[simp] theorem restartSilence_mgmt : (s.restartSilence).mgmt = s.mgmt := rfl
@[simp] theorem restartSilence_out : (s.restartSilence).out = s.out := rfl
@[simp] theorem restartSilence_board : (s.restartSilence).board = s.board := rfl
@[simp] theorem restartSilence_composer : (s.restartSilence).composer = s.composer := rfl
@[simp] theorem restartSilence_shifter : (s.restartSilence).shifter = s.shifter := rfl
@[simp] theorem restartSilence_pulse : (s.restartSilence).pulse = s.pulse := rfl

/-! ### State.trackerEdge -/

@[simp] theorem trackerEdge_pending (lane : Nat) (press : Bool) (deck : Option DeckTime) :
    (s.trackerEdge lane press deck).pending = s.pending := rfl
@[simp] theorem trackerEdge_freeDraws (lane : Nat) (press : Bool) (deck : Option DeckTime) :
    (s.trackerEdge lane press deck).freeDraws = s.freeDraws := rfl
@[simp] theorem trackerEdge_resetHeld (lane : Nat) (press : Bool) (deck : Option DeckTime) :
    (s.trackerEdge lane press deck).resetHeld = s.resetHeld := rfl
@[simp] theorem trackerEdge_deckTime (lane : Nat) (press : Bool) (deck : Option DeckTime) :
    (s.trackerEdge lane press deck).deckTime = s.deckTime := rfl
@[simp] theorem trackerEdge_intake (lane : Nat) (press : Bool) (deck : Option DeckTime) :
    (s.trackerEdge lane press deck).intake = s.intake := rfl
@[simp] theorem trackerEdge_nodes (lane : Nat) (press : Bool) (deck : Option DeckTime) :
    (s.trackerEdge lane press deck).nodes = s.nodes := rfl
@[simp] theorem trackerEdge_heat (lane : Nat) (press : Bool) (deck : Option DeckTime) :
    (s.trackerEdge lane press deck).heat = s.heat := rfl
@[simp] theorem trackerEdge_starts (lane : Nat) (press : Bool) (deck : Option DeckTime) :
    (s.trackerEdge lane press deck).starts =
      { s.starts with trackers := s.starts.trackers.modify lane (·.take press deck) } := rfl
@[simp] theorem trackerEdge_walls (lane : Nat) (press : Bool) (deck : Option DeckTime) :
    (s.trackerEdge lane press deck).walls = s.walls := rfl
@[simp] theorem trackerEdge_exchanges (lane : Nat) (press : Bool) (deck : Option DeckTime) :
    (s.trackerEdge lane press deck).exchanges = s.exchanges := rfl
@[simp] theorem trackerEdge_results (lane : Nat) (press : Bool) (deck : Option DeckTime) :
    (s.trackerEdge lane press deck).results = s.results := rfl
@[simp] theorem trackerEdge_mgmt (lane : Nat) (press : Bool) (deck : Option DeckTime) :
    (s.trackerEdge lane press deck).mgmt = s.mgmt := rfl
@[simp] theorem trackerEdge_out (lane : Nat) (press : Bool) (deck : Option DeckTime) :
    (s.trackerEdge lane press deck).out = s.out := rfl
@[simp] theorem trackerEdge_board (lane : Nat) (press : Bool) (deck : Option DeckTime) :
    (s.trackerEdge lane press deck).board = s.board := rfl
@[simp] theorem trackerEdge_composer (lane : Nat) (press : Bool) (deck : Option DeckTime) :
    (s.trackerEdge lane press deck).composer = s.composer := rfl
@[simp] theorem trackerEdge_shifter (lane : Nat) (press : Bool) (deck : Option DeckTime) :
    (s.trackerEdge lane press deck).shifter = s.shifter := rfl
@[simp] theorem trackerEdge_pulse (lane : Nat) (press : Bool) (deck : Option DeckTime) :
    (s.trackerEdge lane press deck).pulse = s.pulse := rfl

/-! ### State.strayStart -/

@[simp] theorem strayStart_pending : (s.strayStart).pending = s.pending := rfl
@[simp] theorem strayStart_freeDraws : (s.strayStart).freeDraws = s.freeDraws := rfl
@[simp] theorem strayStart_resetHeld : (s.strayStart).resetHeld = s.resetHeld := rfl
@[simp] theorem strayStart_deckTime : (s.strayStart).deckTime = s.deckTime := rfl
@[simp] theorem strayStart_intake : (s.strayStart).intake = s.intake := rfl
@[simp] theorem strayStart_nodes : (s.strayStart).nodes = s.nodes := rfl
@[simp] theorem strayStart_heat : (s.strayStart).heat = s.heat := rfl
@[simp] theorem strayStart_starts :
    (s.strayStart).starts = { s.starts with strayCount := satAdd 16 s.starts.strayCount 1 } := rfl
@[simp] theorem strayStart_walls : (s.strayStart).walls = s.walls := rfl
@[simp] theorem strayStart_exchanges : (s.strayStart).exchanges = s.exchanges := rfl
@[simp] theorem strayStart_results : (s.strayStart).results = s.results := rfl
@[simp] theorem strayStart_mgmt : (s.strayStart).mgmt = s.mgmt := rfl
@[simp] theorem strayStart_out : (s.strayStart).out = s.out := rfl
@[simp] theorem strayStart_board : (s.strayStart).board = s.board := rfl
@[simp] theorem strayStart_composer : (s.strayStart).composer = s.composer := rfl
@[simp] theorem strayStart_shifter : (s.strayStart).shifter = s.shifter := rfl
@[simp] theorem strayStart_pulse : (s.strayStart).pulse = s.pulse := rfl

/-! ### State.senseLine -/

@[simp] theorem senseLine_pending (line : Nat) (level : Bool) : (s.senseLine line level).pending = s.pending := rfl
@[simp] theorem senseLine_freeDraws (line : Nat) (level : Bool) :
    (s.senseLine line level).freeDraws = s.freeDraws := rfl
@[simp] theorem senseLine_resetHeld (line : Nat) (level : Bool) :
    (s.senseLine line level).resetHeld = s.resetHeld := rfl
@[simp] theorem senseLine_deckTime (line : Nat) (level : Bool) : (s.senseLine line level).deckTime = s.deckTime := rfl
@[simp] theorem senseLine_intake (line : Nat) (level : Bool) : (s.senseLine line level).intake = s.intake := rfl
@[simp] theorem senseLine_nodes (line : Nat) (level : Bool) : (s.senseLine line level).nodes = s.nodes := rfl
@[simp] theorem senseLine_heat (line : Nat) (level : Bool) : (s.senseLine line level).heat = s.heat := rfl
@[simp] theorem senseLine_starts (line : Nat) (level : Bool) : (s.senseLine line level).starts = s.starts := rfl
@[simp] theorem senseLine_walls (line : Nat) (level : Bool) : (s.senseLine line level).walls = s.walls := rfl
@[simp] theorem senseLine_exchanges (line : Nat) (level : Bool) :
    (s.senseLine line level).exchanges = s.exchanges := rfl
@[simp] theorem senseLine_results (line : Nat) (level : Bool) : (s.senseLine line level).results = s.results := rfl
@[simp] theorem senseLine_mgmt (line : Nat) (level : Bool) : (s.senseLine line level).mgmt = s.mgmt := rfl
@[simp] theorem senseLine_out (line : Nat) (level : Bool) : (s.senseLine line level).out = s.out := rfl
@[simp] theorem senseLine_board (line : Nat) (level : Bool) : (s.senseLine line level).board = s.board := rfl
@[simp] theorem senseLine_composer (line : Nat) (level : Bool) : (s.senseLine line level).composer = s.composer := rfl
@[simp] theorem senseLine_shifter (line : Nat) (level : Bool) : (s.senseLine line level).shifter = s.shifter := rfl
@[simp] theorem senseLine_pulse (line : Nat) (level : Bool) :
    (s.senseLine line level).pulse = { s.pulse with sensed := s.pulse.sensed.set line level } := rfl

/-! ### State.notePrevious -/

@[simp] theorem notePrevious_pending (level : Bool) : (s.notePrevious level).pending = s.pending := rfl
@[simp] theorem notePrevious_freeDraws (level : Bool) : (s.notePrevious level).freeDraws = s.freeDraws := rfl
@[simp] theorem notePrevious_resetHeld (level : Bool) : (s.notePrevious level).resetHeld = s.resetHeld := rfl
@[simp] theorem notePrevious_deckTime (level : Bool) : (s.notePrevious level).deckTime = s.deckTime := rfl
@[simp] theorem notePrevious_intake (level : Bool) : (s.notePrevious level).intake = s.intake := rfl
@[simp] theorem notePrevious_nodes (level : Bool) : (s.notePrevious level).nodes = s.nodes := rfl
@[simp] theorem notePrevious_heat (level : Bool) : (s.notePrevious level).heat = s.heat := rfl
@[simp] theorem notePrevious_starts (level : Bool) : (s.notePrevious level).starts = s.starts := rfl
@[simp] theorem notePrevious_walls (level : Bool) : (s.notePrevious level).walls = s.walls := rfl
@[simp] theorem notePrevious_exchanges (level : Bool) : (s.notePrevious level).exchanges = s.exchanges := rfl
@[simp] theorem notePrevious_results (level : Bool) : (s.notePrevious level).results = s.results := rfl
@[simp] theorem notePrevious_mgmt (level : Bool) : (s.notePrevious level).mgmt = s.mgmt := rfl
@[simp] theorem notePrevious_out (level : Bool) : (s.notePrevious level).out = s.out := rfl
@[simp] theorem notePrevious_board (level : Bool) : (s.notePrevious level).board = s.board := rfl
@[simp] theorem notePrevious_composer (level : Bool) : (s.notePrevious level).composer = s.composer := rfl
@[simp] theorem notePrevious_shifter (level : Bool) : (s.notePrevious level).shifter = s.shifter := rfl
@[simp] theorem notePrevious_pulse (level : Bool) :
    (s.notePrevious level).pulse = { s.pulse with startPrevious := level } := rfl

/-! ### State.moveScanner -/

@[simp] theorem moveScanner_pending (row : Nat) : (s.moveScanner row).pending = s.pending := rfl
@[simp] theorem moveScanner_freeDraws (row : Nat) : (s.moveScanner row).freeDraws = s.freeDraws := rfl
@[simp] theorem moveScanner_resetHeld (row : Nat) : (s.moveScanner row).resetHeld = s.resetHeld := rfl
@[simp] theorem moveScanner_deckTime (row : Nat) : (s.moveScanner row).deckTime = s.deckTime := rfl
@[simp] theorem moveScanner_intake (row : Nat) : (s.moveScanner row).intake = s.intake := rfl
@[simp] theorem moveScanner_nodes (row : Nat) : (s.moveScanner row).nodes = s.nodes := rfl
@[simp] theorem moveScanner_heat (row : Nat) : (s.moveScanner row).heat = s.heat := rfl
@[simp] theorem moveScanner_starts (row : Nat) : (s.moveScanner row).starts = s.starts := rfl
@[simp] theorem moveScanner_walls (row : Nat) : (s.moveScanner row).walls = s.walls := rfl
@[simp] theorem moveScanner_exchanges (row : Nat) : (s.moveScanner row).exchanges = s.exchanges := rfl
@[simp] theorem moveScanner_results (row : Nat) : (s.moveScanner row).results = s.results := rfl
@[simp] theorem moveScanner_mgmt (row : Nat) : (s.moveScanner row).mgmt = s.mgmt := rfl
@[simp] theorem moveScanner_out (row : Nat) : (s.moveScanner row).out = s.out := rfl
@[simp] theorem moveScanner_board (row : Nat) : (s.moveScanner row).board = s.board := rfl
@[simp] theorem moveScanner_composer (row : Nat) : (s.moveScanner row).composer = s.composer := rfl
@[simp] theorem moveScanner_shifter (row : Nat) :
    (s.moveScanner row).shifter = { s.shifter with scanner := row } := rfl
@[simp] theorem moveScanner_pulse (row : Nat) : (s.moveScanner row).pulse = s.pulse := rfl

/-! ### State.buildMap -/

@[simp] theorem buildMap_pending (active : List (Option ActiveEntry)) (sel : MapSelection) :
    (s.buildMap active sel).pending = s.pending := rfl
@[simp] theorem buildMap_freeDraws (active : List (Option ActiveEntry)) (sel : MapSelection) :
    (s.buildMap active sel).freeDraws = s.freeDraws := rfl
@[simp] theorem buildMap_resetHeld (active : List (Option ActiveEntry)) (sel : MapSelection) :
    (s.buildMap active sel).resetHeld = s.resetHeld := rfl
@[simp] theorem buildMap_deckTime (active : List (Option ActiveEntry)) (sel : MapSelection) :
    (s.buildMap active sel).deckTime = s.deckTime := rfl
@[simp] theorem buildMap_intake (active : List (Option ActiveEntry)) (sel : MapSelection) :
    (s.buildMap active sel).intake = s.intake := rfl
@[simp] theorem buildMap_nodes (active : List (Option ActiveEntry)) (sel : MapSelection) :
    (s.buildMap active sel).nodes = { s.nodes with active := active, selection := sel } := rfl
@[simp] theorem buildMap_heat (active : List (Option ActiveEntry)) (sel : MapSelection) :
    (s.buildMap active sel).heat = s.heat := rfl
@[simp] theorem buildMap_starts (active : List (Option ActiveEntry)) (sel : MapSelection) :
    (s.buildMap active sel).starts = s.starts := rfl
@[simp] theorem buildMap_walls (active : List (Option ActiveEntry)) (sel : MapSelection) :
    (s.buildMap active sel).walls = s.walls := rfl
@[simp] theorem buildMap_exchanges (active : List (Option ActiveEntry)) (sel : MapSelection) :
    (s.buildMap active sel).exchanges = s.exchanges := rfl
@[simp] theorem buildMap_results (active : List (Option ActiveEntry)) (sel : MapSelection) :
    (s.buildMap active sel).results = s.results := rfl
@[simp] theorem buildMap_mgmt (active : List (Option ActiveEntry)) (sel : MapSelection) :
    (s.buildMap active sel).mgmt = s.mgmt := rfl
@[simp] theorem buildMap_out (active : List (Option ActiveEntry)) (sel : MapSelection) :
    (s.buildMap active sel).out = s.out := rfl
@[simp] theorem buildMap_board (active : List (Option ActiveEntry)) (sel : MapSelection) :
    (s.buildMap active sel).board = s.board := rfl
@[simp] theorem buildMap_composer (active : List (Option ActiveEntry)) (sel : MapSelection) :
    (s.buildMap active sel).composer = s.composer := rfl
@[simp] theorem buildMap_shifter (active : List (Option ActiveEntry)) (sel : MapSelection) :
    (s.buildMap active sel).shifter = s.shifter := rfl
@[simp] theorem buildMap_pulse (active : List (Option ActiveEntry)) (sel : MapSelection) :
    (s.buildMap active sel).pulse = s.pulse := rfl

end Sys2Proof.Machine
end

