-- ==== Sys2Proof/Laws/Records.lean ====
section
/-! SUPPORT. What a writer's change does to the lane records, said once: the change itself, and places and lamps (R93). -/

namespace Sys2Proof.Machine

/-! ### Records but for places and lamps -/

theorem unplaced_idem (r : LaneRecord) : r.unplaced.unplaced = r.unplaced := rfl

@[simp] theorem unplaced_lane (r : LaneRecord) : r.unplaced.lane = r.lane := rfl
@[simp] theorem unplaced_status (r : LaneRecord) : r.unplaced.status = r.status := rfl
@[simp] theorem unplaced_lapCount (r : LaneRecord) : r.unplaced.lapCount = r.lapCount := rfl

theorem map_unplaced_rankAll (rs : List LaneRecord) :
    (rankAll rs).map LaneRecord.unplaced = rs.map LaneRecord.unplaced := by
  simp [rankAll, Function.comp_def, LaneRecord.unplaced]

theorem map_lane_unplaced (rs : List LaneRecord) :
    (rs.map LaneRecord.unplaced).map (·.lane) = rs.map (·.lane) := by simp

/-- Lists of records that agree but for places and lamps have the same lanes. -/
theorem lanes_of_unplaced {rs qs : List LaneRecord} (h : rs.map LaneRecord.unplaced = qs.map LaneRecord.unplaced) :
    rs.map (·.lane) = qs.map (·.lane) := by
  rw [← map_lane_unplaced rs, h, map_lane_unplaced]

/-- They find records that agree but for place and lamp. -/
theorem find_of_unplaced {rs qs : List LaneRecord} (h : rs.map LaneRecord.unplaced = qs.map LaneRecord.unplaced)
    (lane : Nat) :
    (rs.find? (·.lane == lane)).map LaneRecord.unplaced = (qs.find? (·.lane == lane)).map LaneRecord.unplaced := by
  induction rs generalizing qs with
  | nil => cases qs with
    | nil => rfl
    | cons q qs => simp at h
  | cons r rs ih =>
    cases qs with
    | nil => simp at h
    | cons q qs =>
      simp only [List.map_cons, List.cons.injEq] at h
      obtain ⟨h1, h2⟩ := h
      have hl : r.lane = q.lane := by simpa using congrArg LaneRecord.lane h1
      simp only [List.find?_cons, hl]
      cases q.lane == lane
      · exact ih h2
      · simp [h1]

/-! ### Writing one record -/

@[simp] theorem writeRecord_lanes (rs : List LaneRecord) (lane : Nat) (f : LaneRecord → LaneRecord)
    (hf : ∀ r, (f r).lane = r.lane) : (writeRecord rs lane f).map (·.lane) = rs.map (·.lane) := by
  simp only [writeRecord, List.map_map]
  apply List.map_congr_left
  intro r _
  simp only [Function.comp_apply]; split
  · exact hf r
  · rfl

/-- A lane without a record leaves the records as they are. -/
theorem writeRecord_none {rs : List LaneRecord} {lane : Nat} (h : rs.find? (·.lane == lane) = none)
    (f : LaneRecord → LaneRecord) : writeRecord rs lane f = rs := by
  rw [List.find?_eq_none] at h
  unfold writeRecord
  conv_rhs => rw [← List.map_id rs]
  apply List.map_congr_left
  intro r hr
  have := h r hr
  simp only [beq_iff_eq] at this
  simp [this]

/-- The record of the written lane. -/
theorem find_writeRecord {rs : List LaneRecord} {lane : Nat} {r : LaneRecord} {f : LaneRecord → LaneRecord}
    (hf : ∀ r, (f r).lane = r.lane) (h : rs.find? (·.lane == lane) = some r) :
    (writeRecord rs lane f).find? (·.lane == lane) = some (f r) := by
  induction rs with
  | nil => simp at h
  | cons q qs ih =>
    simp only [writeRecord, List.map_cons, List.find?_cons] at h ⊢
    by_cases hq : q.lane = lane
    · simp only [hq, beq_self_eq_true] at h; obtain rfl : q = r := by simpa using h
      simp [hq, hf]
    · have hb : (q.lane == lane) = false := by simpa using hq
      simp only [hb] at h
      simp only [hq, if_false, hb]
      exact ih h

/-- The records of the other lanes. -/
theorem find_writeRecord_ne {rs : List LaneRecord} {lane l : Nat} {f : LaneRecord → LaneRecord}
    (hf : ∀ r, (f r).lane = r.lane) (h : l ≠ lane) :
    (writeRecord rs lane f).find? (·.lane == l) = rs.find? (·.lane == l) := by
  induction rs with
  | nil => rfl
  | cons q qs ih =>
    simp only [writeRecord, List.map_cons, List.find?_cons] at ih ⊢
    by_cases hq : q.lane = lane
    · have : (q.lane == l) = false := by simp; omega
      have h2 : ((f q).lane == l) = false := by rw [hf]; exact this
      simp only [hq, if_true] at *
      rw [h2]; simp only [this]; exact ih
    · simp only [hq, if_false]
      cases q.lane == l
      · exact ih
      · rfl

/-- Writing the same lane of records that agree but for places and lamps. -/
theorem writeRecord_unplaced {rs qs : List LaneRecord} (h : rs.map LaneRecord.unplaced = qs.map LaneRecord.unplaced)
    (lane : Nat) {f : LaneRecord → LaneRecord} (hf : ∀ r, (f r).unplaced = (f r.unplaced).unplaced) :
    (writeRecord rs lane f).map LaneRecord.unplaced = (writeRecord qs lane f).map LaneRecord.unplaced := by
  have key : ∀ xs : List LaneRecord, (writeRecord xs lane f).map LaneRecord.unplaced
      = (xs.map LaneRecord.unplaced).map fun r => if r.lane = lane then (f r).unplaced else r := by
    intro xs
    simp only [writeRecord, List.map_map]
    apply List.map_congr_left
    intro r _
    simp only [Function.comp_apply, unplaced_lane, ← hf r]
    split <;> rfl
  rw [key, key, h]

/-! ### The Placer and the lamps -/

theorem decideLamp_unplaced (s : State) (lane : Nat) : (s.decideLamp lane).unplaced = s.unplaced := by
  unfold State.decideLamp State.unplaced; split
  · rfl
  · split
    · rfl
    · obtain ⟨o, -, e⟩ := offerLamp_outOnly s lane (LaneRecord.lampOf (by assumption))
      simp only [e, writeRecord, List.map_map]
      apply List.map_congr_left
      intro r _
      simp only [Function.comp_apply]; split <;> rfl

theorem decideLamps_unplaced (s : State) : s.decideLamps.unplaced = s.unplaced := by
  have := foldl_keeps (fun a b : State => b.unplaced = a.unplaced) (fun _ => rfl) (fun _ _ _ h1 h2 => h2.trans h1)
    State.decideLamp decideLamp_unplaced Config.lanes s
  exact this

@[simp] theorem handOver_results (s : State) (old : List LaneRecord) (n : Option Nat) :
    (s.handOver old n).results = s.results := by
  obtain ⟨q, e⟩ : s.PendingOnly (s.handOver old n) := makeAllPending_pendingOnly s _
  rw [e]

@[simp] theorem handOver_out (s : State) (old : List LaneRecord) (n : Option Nat) :
    (s.handOver old n).out = s.out := by
  obtain ⟨q, e⟩ : s.PendingOnly (s.handOver old n) := makeAllPending_pendingOnly s _
  rw [e]

@[simp] theorem reportOpt_results (s : State) (r : Option Report) : (s.reportOpt r).results = s.results := by
  cases r <;> rfl

theorem placerPass_unplaced (s : State) (w : List LaneRecord) (lane : Nat) (rep : LaneRecord → Option Report) :
    (s.placerPass w lane rep).unplaced = w.map LaneRecord.unplaced := by
  unfold State.placerPass
  rw [decideLamps_unplaced, ← map_unplaced_rankAll w]
  unfold State.unplaced
  congr 1
  split <;> simp

/-- A writer's change is that change, but for places and lamps. -/
theorem commit_unplaced (s : State) (lane : Nat) (f : LaneRecord → LaneRecord)
    (reach names : LaneRecord → LaneRecord → Bool) (rep : LaneRecord → Option Report) :
    (s.commit lane f reach names rep).unplaced = s.changed lane f := by
  unfold State.commit State.changed
  cases h : s.record? lane with
  | none => rw [writeRecord_none h]; rfl
  | some r =>
    have h1 := placerPass_unplaced s (writeRecord s.results lane f) lane rep
    simp only [State.unplaced, handOver_results] at h1 ⊢
    split
    · exact h1
    · simp

theorem commit_lanes (s : State) (lane : Nat) {f : LaneRecord → LaneRecord} (hf : ∀ r, (f r).lane = r.lane)
    (reach names : LaneRecord → LaneRecord → Bool) (rep : LaneRecord → Option Report) :
    (s.commit lane f reach names rep).results.map (·.lane) = s.results.map (·.lane) := by
  have h := lanes_of_unplaced (rs := (s.commit lane f reach names rep).results) (qs := writeRecord s.results lane f)
    (commit_unplaced s lane f reach names rep)
  rw [h, writeRecord_lanes _ _ _ hf]

/-- A change that does not reach the Placer writes the record and offers its report. -/
theorem commit_unreached {s : State} {lane : Nat} {f : LaneRecord → LaneRecord} {r : LaneRecord}
    (hr : s.record? lane = some r) {reach names : LaneRecord → LaneRecord → Bool} (h : reach r (f r) = false)
    (rep : LaneRecord → Option Report) :
    (s.commit lane f reach names rep).results = writeRecord s.results lane f
      ∧ (s.commit lane f reach names rep).out = (s.reportOpt (rep (f r))).out := by
  unfold State.commit
  simp only [hr, h, Bool.false_eq_true, if_false, handOver_results, handOver_out, reportOpt_results, true_and]
  cases rep (f r) <;> rfl

@[simp] theorem note_results (s : State) (lane : Nat) (f : LaneRecord → LaneRecord) :
    (s.note lane f).results = writeRecord s.results lane f := by
  unfold State.note
  cases h : s.record? lane with
  | none => simp only [State.commit, h]; rw [writeRecord_none h]
  | some r => exact (commit_unreached h rfl _).1

@[simp] theorem note_out (s : State) (lane : Nat) (f : LaneRecord → LaneRecord) : (s.note lane f).out = s.out := by
  unfold State.note
  cases h : s.record? lane with
  | none => simp only [State.commit, h]
  | some r => exact (commit_unreached h rfl _).2

/-! ### Places and lamps stay decided -/

/-- What the Placer and the lamps read of a record. -/
def LaneRecord.standing (r : LaneRecord) : Bool × Int × Bool × Bool :=
  (r.eligible, r.hundredths, r.status == .final, r.flags.disqualified)

theorem placeOf_congr {rs qs : List LaneRecord} (h : rs.map LaneRecord.standing = qs.map LaneRecord.standing)
    {r q : LaneRecord} (hr : r.standing = q.standing) : placeOf rs r = placeOf qs q := by
  have key : ∀ (n : Int) (xs : List LaneRecord),
      (xs.filter fun q => q.eligible && decide (q.hundredths < n)).length
        = ((xs.map LaneRecord.standing).filter fun k => k.1 && decide (k.2.1 < n)).length := by
    intro n xs; rw [List.filter_map, List.length_map]; rfl
  simp only [LaneRecord.standing, Prod.mk.injEq] at hr
  simp only [placeOf, key, h, hr.1, hr.2.1]

theorem lampOf_congr {r q : LaneRecord} (hr : r.standing = q.standing) (hp : r.place = q.place) : r.lampOf = q.lampOf := by
  simp only [LaneRecord.standing, Prod.mk.injEq] at hr
  obtain ⟨-, -, h3, h4⟩ := hr
  have : r.status = .final ↔ q.status = .final := by simpa using congrArg (· = true) h3
  simp only [LaneRecord.lampOf, ne_eq, this, h4, hp]

/-- The places of all lanes are the ones R96 gives. -/
def PlacesDecided (rs : List LaneRecord) : Prop := ∀ r ∈ rs, r.place = placeOf rs r

theorem rankAll_decided (rs : List LaneRecord) : PlacesDecided (rankAll rs) := by
  intro r hr
  obtain ⟨q, -, rfl⟩ := List.mem_map.mp hr
  have h : (rankAll rs).map LaneRecord.standing = rs.map LaneRecord.standing := by
    simp only [rankAll, List.map_map]; rfl
  exact (placeOf_congr (rs := rs) (qs := rankAll rs) h.symm (r := q) (q := { q with place := placeOf rs q }) rfl)

theorem placerPass_ranked (s : State) (w : List LaneRecord) (lane : Nat) (rep : LaneRecord → Option Report) :
    ∃ t : State, t.results = rankAll w ∧ s.placerPass w lane rep = t.decideLamps := by
  unfold State.placerPass
  refine ⟨_, ?_, rfl⟩
  split <;> simp

/-- A record with its lamp decided. -/
def LaneRecord.lit (r : LaneRecord) : LaneRecord := { r with lamp := r.lampOf }

theorem lit_lane (r : LaneRecord) : r.lit.lane = r.lane := rfl

theorem lit_of_decided {r : LaneRecord} (h : r.lampOf = r.lamp) : r.lit = r := by unfold LaneRecord.lit; rw [h]

/-- Deciding one lamp keeps lanes, standings and places, sets that lane's lamp and keeps the others'. -/
theorem decideLamp_results (s : State) (lane : Nat) (hn : (s.results.map (·.lane)).Nodup) :
    (s.decideLamp lane).results = writeRecord s.results lane LaneRecord.lit := by
  unfold State.decideLamp
  cases h : s.record? lane with
  | none => rw [writeRecord_none h]
  | some r =>
    have hm : r ∈ s.results := List.mem_of_find?_eq_some h
    have hl : r.lane = lane := by simpa using List.find?_some h
    have uniq : ∀ q ∈ s.results, q.lane = lane → q = r := fun q hq e =>
      List.inj_on_of_nodup_map hn hq hm (e.trans hl.symm)
    dsimp only
    split
    · rename_i he
      unfold writeRecord
      conv_lhs => rw [← List.map_id s.results]
      apply List.map_congr_left
      intro q hq
      by_cases e : q.lane = lane
      · obtain rfl := uniq q hq e
        simp [e, lit_of_decided he]
      · simp [e]
    · obtain ⟨o, -, e⟩ := offerLamp_outOnly s lane r.lampOf
      rw [e]
      simp only [writeRecord]
      apply List.map_congr_left
      intro q hq
      by_cases e : q.lane = lane
      · obtain rfl := uniq q hq e
        rfl
      · simp only [e, if_false]

/-- The records with the lamps of some lanes decided. -/
def lampsDecided (lanes : List Nat) (rs : List LaneRecord) : List LaneRecord :=
  rs.map fun r => if r.lane ∈ lanes then r.lit else r

theorem foldl_decideLamp_results (lanes : List Nat) (s : State) (hn : (s.results.map (·.lane)).Nodup) :
    (lanes.foldl State.decideLamp s).results = lampsDecided lanes s.results := by
  induction lanes generalizing s with
  | nil => simp [lampsDecided]
  | cons l ls ih =>
    have h1 := decideLamp_results s l hn
    rw [List.foldl_cons, ih _ (by rw [h1, writeRecord_lanes _ _ _ lit_lane]; exact hn), h1]
    simp only [lampsDecided, writeRecord, List.map_map]
    apply List.map_congr_left
    intro r _
    simp only [Function.comp_apply, List.mem_cons]
    by_cases e : r.lane = l
    · simp only [e, if_true, true_or, lit_lane]; split <;> rfl
    · simp only [e, false_or, if_false]

/-- The lamps of all ten lanes decided. -/
theorem decideLamps_results (s : State) (hn : (s.results.map (·.lane)).Nodup) (hl : ∀ r ∈ s.results, r.lane < 10) :
    s.decideLamps.results = s.results.map LaneRecord.lit := by
  unfold State.decideLamps
  rw [foldl_decideLamp_results _ _ hn]
  apply List.map_congr_left
  intro r hr
  have := hl r hr
  rw [if_pos]
  simp only [Config.lanes, List.mem_cons, List.not_mem_nil, or_false]; omega

/-- Lanes, places and lamps are the ones the rules give. -/
def RecordsSound (rs : List LaneRecord) : Prop :=
  (rs.map (·.lane)).Nodup ∧ ∀ r ∈ rs, r.lane < 10 ∧ r.place = placeOf rs r ∧ r.lamp = r.lampOf

theorem resultsSound_iff (s : State) : s.ResultsSound ↔ RecordsSound s.results := Iff.rfl

theorem lanes_lt_of_map {rs qs : List LaneRecord} (h : rs.map (·.lane) = qs.map (·.lane))
    (hq : ∀ q ∈ qs, q.lane < 10) : ∀ r ∈ rs, r.lane < 10 := by
  intro r hr
  have : r.lane ∈ qs.map (·.lane) := h ▸ List.mem_map_of_mem hr
  obtain ⟨q, hq', e⟩ := List.mem_map.mp this
  exact e ▸ hq q hq'

/-- Records that keep standing, place and lamp stay sound. -/
theorem recordsSound_map {rs : List LaneRecord} (h : RecordsSound rs) (g : LaneRecord → LaneRecord)
    (hl : ∀ r ∈ rs, (g r).lane = r.lane)
    (hs : ∀ r ∈ rs, (g r).standing = r.standing ∧ (g r).place = r.place ∧ (g r).lamp = r.lamp) :
    RecordsSound (rs.map g) := by
  have hm : (rs.map g).map (·.lane) = rs.map (·.lane) := by
    simp only [List.map_map]; exact List.map_congr_left hl
  have hst : (rs.map g).map LaneRecord.standing = rs.map LaneRecord.standing := by
    simp only [List.map_map]; exact List.map_congr_left fun r hr => (hs r hr).1
  refine ⟨hm ▸ h.1, fun q hq => ?_⟩
  obtain ⟨r, hr, rfl⟩ := List.mem_map.mp hq
  obtain ⟨h1, h2, h3⟩ := h.2 r hr
  obtain ⟨e1, e2, e3⟩ := hs r hr
  refine ⟨hl r hr ▸ h1, ?_, ?_⟩
  · rw [e2, h2]; exact placeOf_congr hst.symm e1.symm
  · rw [e3, h3]; exact lampOf_congr e1.symm e2.symm

/-- After the Placer and the lamps, the records are sound whatever was written. -/
theorem placerPass_sound (s : State) {w : List LaneRecord} (hn : (w.map (·.lane)).Nodup) (hl : ∀ r ∈ w, r.lane < 10)
    (lane : Nat) (rep : LaneRecord → Option Report) : (s.placerPass w lane rep).ResultsSound := by
  obtain ⟨t, h1, h2⟩ := placerPass_ranked s w lane rep
  have hr : (rankAll w).map (·.lane) = w.map (·.lane) := by simp [rankAll, Function.comp_def]
  have hl' := lanes_lt_of_map hr hl
  rw [resultsSound_iff, h2, decideLamps_results t (h1 ▸ hr ▸ hn) (h1 ▸ hl'), h1]
  have hst : ((rankAll w).map LaneRecord.lit).map LaneRecord.standing
      = (rankAll w).map LaneRecord.standing := by simp only [List.map_map]; rfl
  refine ⟨by rw [List.map_map]; exact hr ▸ hn, fun q hq => ?_⟩
  obtain ⟨r, hr', rfl⟩ := List.mem_map.mp hq
  refine ⟨hl' r hr', ?_, rfl⟩
  exact (rankAll_decided w r hr').trans (placeOf_congr hst.symm rfl)

/-- A writer's change keeps the records sound, when it keeps the lane and, unless it reaches the Placer, the standing,
the place and the lamp. -/
theorem commit_sound {s : State} (h : s.ResultsSound) (lane : Nat) {f : LaneRecord → LaneRecord}
    (hf : ∀ r, (f r).lane = r.lane) (reach names : LaneRecord → LaneRecord → Bool) (rep : LaneRecord → Option Report)
    (hk : ∀ r, s.record? lane = some r → reach r (f r) = false →
      (f r).standing = r.standing ∧ (f r).place = r.place ∧ (f r).lamp = r.lamp) :
    (s.commit lane f reach names rep).ResultsSound := by
  cases hr : s.record? lane with
  | none => unfold State.commit; rw [hr]; exact h
  | some r =>
    by_cases hx : reach r (f r) = true
    · have hw := writeRecord_lanes s.results lane f hf
      have := placerPass_sound s (hw ▸ h.1) (lanes_lt_of_map hw fun q hq => (h.2 q hq).1) lane rep
      unfold State.commit
      simp only [hr, hx, if_true]
      rw [resultsSound_iff, handOver_results]; exact this
    · have hx' : reach r (f r) = false := by simpa using hx
      have hm : r ∈ s.results := List.mem_of_find?_eq_some hr
      have hl : r.lane = lane := by simpa using List.find?_some hr
      rw [resultsSound_iff, (commit_unreached hr hx' rep).1]
      refine recordsSound_map h _ (fun q _ => ?_) fun q hq => ?_
      · split
        · exact hf q
        · rfl
      · split
        · rename_i e
          obtain rfl : q = r := List.inj_on_of_nodup_map h.1 hq hm (e.trans hl.symm)
          exact hk q hr hx'
        · exact ⟨rfl, rfl, rfl⟩

end Sys2Proof.Machine
end

