-- ==== Sys2Proof/Laws/Intake.lean ====
section
/-! SUPPORT. What a received frame can change, said once (R110 to R118). -/

namespace Sys2Proof.Machine

/-- `t` is `s` with the counters of lost frames and stale edges, the expected sequences, the trackers, the race, the
Management Queue and the frames and fields offered changed: what handing a frame on can do (R112, R115, R134). -/
def State.FrameOnly (s t : State) : Prop :=
  ∃ sc lc na tr rs w x q o cq, o.reportDest = s.out.reportDest ∧
    t = { s with
      intake := { s.intake with staleCount := sc, lostCount := lc }
      nodes := { s.nodes with active := na }
      starts := { s.starts with trackers := tr }
      results := rs, walls := w, exchanges := x
      mgmt := { s.mgmt with queue := q }
      out := o
      composer := { s.composer with queue := cq } }

theorem State.FrameOnly.refl (s : State) : s.FrameOnly s :=
  ⟨s.intake.staleCount, s.intake.lostCount, s.nodes.active, s.starts.trackers, s.results, s.walls, s.exchanges,
    s.mgmt.queue, s.out, s.composer.queue, rfl, rfl⟩

theorem State.FrameOnly.trans {s t u : State} : s.FrameOnly t → t.FrameOnly u → s.FrameOnly u := by
  rintro ⟨a, b, c, d, e, f, g, h, i, j, k, rfl⟩ ⟨a', b', c', d', e', f', g', h', i', j', k', rfl⟩
  exact ⟨a', b', c', d', e', f', g', h', i', j', k'.trans k, rfl⟩

theorem State.RaceOnly.frame {s t : State} : s.RaceOnly t → s.FrameOnly t := by
  rintro ⟨rs, w, x, o, q, h, rfl⟩
  exact ⟨s.intake.staleCount, s.intake.lostCount, s.nodes.active, s.starts.trackers, rs, w, x, s.mgmt.queue, o, q, h, rfl⟩

theorem counted_frameOnly (s : State) (a b : BitVec 16) :
    s.FrameOnly { s with intake := { s.intake with staleCount := a, lostCount := b } } :=
  ⟨a, b, s.nodes.active, s.starts.trackers, s.results, s.walls, s.exchanges, s.mgmt.queue, s.out, s.composer.queue,
    rfl, rfl⟩

theorem trackerEdge_frameOnly (s : State) (l : Nat) (p : Bool) (d : Option DeckTime) :
    s.FrameOnly (s.trackerEdge l p d) :=
  ⟨s.intake.staleCount, s.intake.lostCount, s.nodes.active, _, s.results, s.walls, s.exchanges, s.mgmt.queue, s.out,
    s.composer.queue, rfl, rfl⟩

theorem staleEdge_shape (s : State) (lane : Nat) :
    ∃ u : State, u.RecordsOnly (s.staleEdge lane)
      ∧ u = { s with intake := { s.intake with staleCount := satAdd 16 s.intake.staleCount 1 } } := by
  refine ⟨_, ?_, rfl⟩
  unfold State.staleEdge; dsimp only; split
  · exact note_recordsOnly _ lane _
  · exact .refl _

theorem toStartJudge_frameOnly (s : State) (l : Nat) (w : Wall) (k : Sensor) (p : Bool) (d : Option DeckTime) :
    s.FrameOnly (s.toStartJudge l w k p d) ∧ (s.toStartJudge l w k p d).intake = s.intake
      ∧ (s.toStartJudge l w k p d).nodes = s.nodes ∧ (s.toStartJudge l w k p d).mgmt = s.mgmt := by
  unfold State.toStartJudge; split
  · exact ⟨trackerEdge_frameOnly s l p d, rfl, rfl, rfl⟩
  · exact ⟨.refl s, rfl, rfl, rfl⟩

theorem toWallJudge_raceOnly (s : State) (l : Nat) (w : Wall) (k : Sensor) (p : Bool) (d : Option DeckTime) :
    s.RaceOnly (s.toWallJudge l w k p d) := by
  unfold State.toWallJudge; split
  · exact .refl s
  · split
    · exact takePress_raceOnly s _
    · exact .refl s

/-- One edge record of a known sensor handed on: a stale one is counted, and nothing else of the intake, the maps or the
Management Queue changes (R6, R116). -/
theorem handEdge_frameOnly (n : ActiveEntry) (stamp : DeckTime) (s : State) (e : List Byte) :
    s.FrameOnly (s.handEdge n stamp e) ∧ (s.handEdge n stamp e).nodes = s.nodes
      ∧ (s.handEdge n stamp e).mgmt = s.mgmt
      ∧ (s.handEdge n stamp e).intake = { s.intake with
          staleCount := if (edgeDeck stamp n.delay e).isNone && (Sensor.ofCode? (sensorCode e)).isSome then
            satAdd 16 s.intake.staleCount 1 else s.intake.staleCount } := by
  unfold State.handEdge
  cases hk : Sensor.ofCode? (sensorCode e) with
  | none => refine ⟨.refl s, rfl, rfl, ?_⟩; simp
  | some k =>
    dsimp only
    cases hd : edgeDeck stamp n.delay e with
    | none =>
      simp only [Option.isNone_none, if_true, Option.isSome_some, Bool.and_self]
      obtain ⟨u, ⟨rs, o, q, hd', hu⟩, e1⟩ := staleEdge_shape s n.lane
      rw [hu]
      obtain ⟨h1, h2, h3, h4⟩ := toStartJudge_frameOnly
        { u with results := rs, out := o, composer := { u.composer with queue := q } } n.lane n.wall k
        ((byteAt e 0).testBit 0) none
      refine ⟨?_, ?_, ?_, ?_⟩
      · have a0 : s.FrameOnly u := e1 ▸ counted_frameOnly s _ s.intake.lostCount
        have a1 : u.FrameOnly { u with results := rs, out := o, composer := { u.composer with queue := q } } :=
          State.RaceOnly.frame ⟨rs, u.walls, u.exchanges, o, q, hd', rfl⟩
        exact ((a0.trans a1).trans h1).trans (State.RaceOnly.frame (toWallJudge_raceOnly _ _ _ _ _ _))
      · show (State.toStartJudge _ _ _ _ _ _).nodes = _; rw [h3, e1]
      · show (State.toStartJudge _ _ _ _ _ _).mgmt = _; rw [h4, e1]
      · show (State.toStartJudge _ _ _ _ _ _).intake = _; rw [h2, e1]
    | some d =>
      simp only [Option.isNone_some, Bool.false_and, Bool.false_eq_true, if_false]
      obtain ⟨h1, h2, h3, h4⟩ := toStartJudge_frameOnly s n.lane n.wall k ((byteAt e 0).testBit 0) (some d)
      have h5 := toWallJudge_raceOnly (s.toStartJudge n.lane n.wall k ((byteAt e 0).testBit 0) (some d)) n.lane n.wall k
        ((byteAt e 0).testBit 0) (some d)
      refine ⟨h1.trans h5.frame, ?_, ?_, ?_⟩ <;> obtain ⟨rs, w, x, o, q, -, h⟩ := h5 <;> rw [h]
      · exact h3
      · exact h4
      · exact h2

theorem sequenceGap_frameOnly (s : State) (n : ActiveEntry) (g : Nat) :
    s.FrameOnly (s.sequenceGap n g) ∧ (s.sequenceGap n g).nodes = s.nodes ∧ (s.sequenceGap n g).mgmt = s.mgmt
      ∧ (s.sequenceGap n g).intake = { s.intake with lostCount := satAdd 16 s.intake.lostCount g } := by
  have h0 := counted_frameOnly s s.intake.staleCount (satAdd 16 s.intake.lostCount g)
  have key : ∀ u, State.RecordsOnly { s with intake := { s.intake with lostCount := satAdd 16 s.intake.lostCount g } } u →
      ∀ p, s.FrameOnly (u.markLinks p) ∧ (u.markLinks p).nodes = s.nodes ∧ (u.markLinks p).mgmt = s.mgmt
        ∧ (u.markLinks p).intake = { s.intake with lostCount := satAdd 16 s.intake.lostCount g } := by
    intro u hu p
    refine ⟨h0.trans (hu.race.frame.trans (walls_raceOnly u _).frame), ?_⟩
    obtain ⟨rs, o, q, -, rfl⟩ := hu
    exact ⟨rfl, rfl, rfl⟩
  unfold State.sequenceGap; dsimp only; split
  · apply key; split
    · split
      · exact .refl _
      · exact note_recordsOnly _ n.lane _
    · exact .refl _
  · exact ⟨h0, rfl, rfl, rfl⟩

theorem recordExpected_frameOnly (s : State) (a : List (Option ActiveEntry)) :
    s.FrameOnly { s with nodes := { s.nodes with active := a } } :=
  ⟨s.intake.staleCount, s.intake.lostCount, a, s.starts.trackers, s.results, s.walls, s.exchanges, s.mgmt.queue, s.out,
    s.composer.queue, rfl, rfl⟩

theorem foldl_handEdge_frameOnly (n : ActiveEntry) (stamp : DeckTime) (es : List (List Byte)) (s : State) :
    s.FrameOnly (es.foldl (State.handEdge n stamp) s) :=
  foldl_keeps State.FrameOnly .refl (fun _ _ _ => .trans) _ (fun s e => (handEdge_frameOnly n stamp s e).1) es s

theorem sensorFrame_frameOnly (s : State) (f : Frame) (stamp : DeckTime) : s.FrameOnly (s.sensorFrame f stamp) := by
  unfold State.sensorFrame; split
  · exact .refl s
  · dsimp only
    refine .trans (.trans (recordExpected_frameOnly s (recordExpected s.nodes.active f.src (f.payload.getD 0 0 + 1))) ?_)
      (foldl_handEdge_frameOnly _ _ _ _)
    split
    · exact .refl _
    · exact (sequenceGap_frameOnly _ _ _).1

theorem manageFrame_frameOnly (s : State) (f : Frame) : s.FrameOnly (s.manageFrame f) := by
  unfold State.manageFrame; split
  · exact ⟨s.intake.staleCount, s.intake.lostCount, s.nodes.active, s.starts.trackers, s.results, s.walls, s.exchanges,
      _, s.out, s.composer.queue, rfl, rfl⟩
  · exact (reply_outOnly s _ _ _ _).records.race.frame

/-- A frame's disposal changes no more than handing it on can. -/
theorem dispose_frameOnly (s : State) (v : Verdict) (e : EndedFrame) : s.FrameOnly (s.dispose v e) := by
  unfold State.dispose; dsimp only; split
  · exact State.RaceOnly.frame
      ⟨s.results, s.walls, s.exchanges, s.out.forward _, s.composer.queue, LoopOut.choose_reportDest _, rfl⟩
  · split
    · exact sensorFrame_frameOnly s _ _
    · exact manageFrame_frameOnly s _
  all_goals exact .refl s

end Sys2Proof.Machine
end

