-- ==== Sys2Proof/Laws/Walls.lean ====
section
/-! SUPPORT. What the lap collectors and the exchange windows read after each write, said once (R51 to R90). -/

namespace Sys2Proof.Machine

/-! ### The walls are kept by every change of a record -/

@[simp] theorem commit_walls (s : State) (l : Nat) (f : LaneRecord → LaneRecord)
    (reach names : LaneRecord → LaneRecord → Bool) (rep : LaneRecord → Option Report) :
    (s.commit l f reach names rep).walls = s.walls := by
  obtain ⟨rs, o, q, -, e⟩ := commit_recordsOnly s l f reach names rep; rw [e]

@[simp] theorem commit_exchanges (s : State) (l : Nat) (f : LaneRecord → LaneRecord)
    (reach names : LaneRecord → LaneRecord → Bool) (rep : LaneRecord → Option Report) :
    (s.commit l f reach names rep).exchanges = s.exchanges := by
  obtain ⟨rs, o, q, -, e⟩ := commit_recordsOnly s l f reach names rep; rw [e]

@[simp] theorem note_walls (s : State) (l : Nat) (f : LaneRecord → LaneRecord) : (s.note l f).walls = s.walls :=
  commit_walls s l f _ _ _

theorem note_unplaced (s : State) (l : Nat) (f : LaneRecord → LaneRecord) : (s.note l f).unplaced = s.changed l f :=
  commit_unplaced s l f _ _ _

@[simp] theorem afterTaken_walls (s : State) (p : Press) (n : Nat) : (s.afterTaken p n).walls = s.walls := by
  unfold State.afterTaken State.padTaken; repeat' split
  all_goals simp

@[simp] theorem judgeExchange_walls (s : State) (l : Nat) (d : DeckTime) : (s.judgeExchange l d).walls = s.walls := by
  unfold State.judgeExchange State.writeExchange; split <;> simp

@[simp] theorem missedExchange_walls (s : State) (l k : Nat) : (s.missedExchange l k).walls = s.walls := by
  unfold State.missedExchange State.writeExchange; simp

/-! ### Collectors -/

theorem collector?_lane {s : State} {l : Nat} {c : Collector} (h : s.collector? l = some c) : c.lane = l := by
  unfold State.collector? at h; simpa using List.find?_some h

theorem collector?_congr {s t : State} (h : t.walls.collectors = s.walls.collectors) (l : Nat) :
    t.collector? l = s.collector? l := by unfold State.collector?; rw [h]

/-- A collector reads back as it was set. -/
theorem collector?_setCollector {s : State} {c d : Collector} {l : Nat} (h : s.collector? l = some c) (hd : d.lane = l) :
    (s.setCollector d).collector? l = some d := by
  unfold State.collector? at *
  simp only [setCollector_walls]
  generalize s.walls.collectors = cs at h
  induction cs with
  | nil => simp at h
  | cons a cs ih =>
    by_cases ha : a.lane = l
    · simp [ha, hd]
    · have hb : (a.lane == l) = false := by simpa using ha
      simp only [List.find?_cons, hb] at h
      simp only [List.map_cons, hd, ha, if_false, List.find?_cons, hb]
      simpa [hd] using ih h

/-- Setting one lane's collector keeps the others. -/
theorem collector?_setCollector_ne {s : State} {d : Collector} {l : Nat} (hd : d.lane ≠ l) :
    (s.setCollector d).collector? l = s.collector? l := by
  unfold State.collector?
  simp only [setCollector_walls]
  generalize s.walls.collectors = cs
  induction cs with
  | nil => rfl
  | cons a cs ih =>
    by_cases ha : a.lane = d.lane
    · have h1 : (a.lane == l) = false := by rw [ha]; simpa using hd
      have h2 : (d.lane == l) = false := by simpa using hd
      simp only [List.map_cons, ha, if_true, List.find?_cons, h2, ih]
    · simp only [List.map_cons, ha, if_false, List.find?_cons, ih]

theorem setCollector_lanes (s : State) (c : Collector) :
    (s.setCollector c).walls.collectors.map (·.lane) = s.walls.collectors.map (·.lane) := by
  simp only [setCollector_walls, List.map_map]
  apply List.map_congr_left
  intro d _
  simp only [Function.comp_apply]; split
  · rename_i h; exact h.symm
  · rfl

@[simp] theorem setValue_lane (c : Collector) (t : HeatTime) (k : Sensor) : (c.setValue t k).lane = c.lane := by
  cases k <;> rfl
@[simp] theorem setValue_lap (c : Collector) (t : HeatTime) (k : Sensor) : (c.setValue t k).lap = c.lap := by
  cases k <;> rfl
@[simp] theorem setValue_state (c : Collector) (t : HeatTime) (k : Sensor) : (c.setValue t k).state = c.state := by
  cases k <;> rfl
@[simp] theorem setValue_timer (c : Collector) (t : HeatTime) (k : Sensor) : (c.setValue t k).timer = c.timer := by
  cases k <;> rfl

/-- A timed sensor's value reads back as it was set. -/
theorem value_setValue (c : Collector) (t : HeatTime) {k : Sensor} (h : k ≠ .platform) :
    (c.setValue t k).value k = some t := by
  cases k <;> simp_all [Collector.setValue, Collector.value]

/-! ### Exchange windows -/

theorem find_window (xs : List ExchangeCollector) (lane l : Nat) (w : Option OpenExchange) :
    ((xs.map fun c => if c.lane = lane then { c with window := w } else c).find? (·.lane == l)).bind (·.window)
      = if l = lane then ((xs.find? (·.lane == l)).bind fun _ => w) else (xs.find? (·.lane == l)).bind (·.window) := by
  induction xs with
  | nil => simp
  | cons x xs ih =>
    simp only [List.map_cons, List.find?_cons]
    by_cases hx : x.lane = l
    · by_cases hl : l = lane
      · simp [hx, hl]
      · have : ¬ x.lane = lane := by omega
        simp [hx, hl]
    · have hb : (x.lane == l) = false := by simpa using hx
      have : ((if x.lane = lane then { x with window := w } else x).lane == l) = false := by split <;> exact hb
      rw [this, hb]; exact ih

/-- A closed window reads as none. -/
theorem openExchange_closed (s : State) (l : Nat) : (s.setWindow l none).openExchange l = none := by
  unfold State.openExchange; rw [setWindow_exchanges, find_window, if_pos rfl]; simp

/-- An opened window reads back, for a lane with an exchange collector. -/
theorem openExchange_opened {s : State} {l : Nat} (h : ∃ x ∈ s.exchanges, x.lane = l) (o : OpenExchange) :
    (s.setWindow l (some o)).openExchange l = some o := by
  unfold State.openExchange; rw [setWindow_exchanges, find_window, if_pos rfl]
  obtain ⟨x, hx, e⟩ := h
  have : (s.exchanges.find? (·.lane == l)).isSome = true := List.find?_isSome.mpr ⟨x, hx, by simpa using e⟩
  obtain ⟨y, hy⟩ := Option.isSome_iff_exists.mp this
  rw [hy]; rfl

/-- The windows of the other lanes. -/
theorem openExchange_ne (s : State) {l m : Nat} (h : m ≠ l) (w : Option OpenExchange) :
    (s.setWindow l w).openExchange m = s.openExchange m := by
  unfold State.openExchange; rw [setWindow_exchanges, find_window, if_neg h]

end Sys2Proof.Machine
end

