-- ==== Sys2Proof/Laws/Due.lean ====
section
/-! SUPPORT. What a due expiry leaves, said once: no window, collection or step of its own that is still due, and a due row
claimed for (R2, R64, R81, R163, R173). -/

namespace Sys2Proof.Machine

/-! ### The exchange windows -/

@[simp] theorem arbitrate_walls (s : State) : s.arbitrate.walls = s.walls := by
  obtain ⟨_, _, _, _, _, _, _, h⟩ := arbitrate_arbiterOnly s; rw [h]
@[simp] theorem arbitrate_exchanges (s : State) : s.arbitrate.exchanges = s.exchanges := by
  obtain ⟨_, _, _, _, _, _, _, h⟩ := arbitrate_arbiterOnly s; rw [h]

/-- A judged lane has no window open (R83). -/
theorem judgeExchange_closed (s : State) (lane : Nat) (d : DeckTime) :
    (s.judgeExchange lane d).openExchange lane = none := by
  unfold State.judgeExchange
  split
  · assumption
  · exact openExchange_closed _ _

/-- A window that stays open after its lane's expiry was not due (R81). -/
theorem exchangeExpires_taken {s : State} {lane : Nat} {o : OpenExchange}
    (h : (s.exchangeExpires lane).openExchange lane = some o) : timerDue s.deckTime o.timer = false := by
  unfold State.exchangeExpires at h
  split at h
  · rename_i e; rw [e] at h; cases h
  · rename_i w e
    split at h
    · have := judgeExchange_closed s lane w.timer
      simp only [State.openExchange, arbitrate_exchanges] at h this
      rw [this] at h; cases h
    · rw [e] at h; cases h; simp_all

/-! ### The collections -/

/-- A collection without an arrival holds no value (R62, R63). -/
theorem decideArrival_none {trust : Nat} {p b : Option HeatTime} (h : decideArrival trust p b = none) :
    p = none ∧ b = none := by
  cases p <;> cases b <;> simp [decideArrival] at h ⊢

theorem backupValue_none {c : Collector} (h : backupValue c.buttons = none) : c.buttons = [] := by
  have hl : c.buttons.length ≤ 3 := List.length_filterMap_le _ _
  match hb : c.buttons with
  | [] => rfl
  | [a] => simp [hb, backupValue] at h
  | [a, b] => simp [hb, backupValue] at h
  | [a, b, d] => simp [hb, backupValue] at h
  | _ :: _ :: _ :: _ :: _ => simp [hb] at hl; omega

/-- The lane of the collector holds no open collection with a value. -/
def State.Decided (s : State) (lane : Nat) : Prop :=
  ∀ c, s.collector? lane = some c → c.state = .collecting → c.pad = none ∧ c.buttons = []

theorem handoff_walls (s : State) (l k n : Nat) (a t : HeatTime) (d : DeckTime) : (s.handoff l k n a t d).walls = s.walls := by
  unfold State.handoff; simp

/-- A decision sets its own lane's collector alone, and leaves it out of COLLECTING (R64 to R66). -/
theorem decideLap_collectors (s : State) (c : Collector) (a : Arrival) (b : Bool) :
    ∃ d u, d.lane = c.lane ∧ d.state ≠ .collecting ∧ u.walls.collectors = s.walls.collectors
      ∧ s.decideLap c a b = State.setCollector u d := by
  refine ⟨if b then c.close else .armedAt c.lane (c.lap + 1) (a.time + s.plan.minLapTicks), _, ?_, ?_, ?_, rfl⟩
  · cases b <;> rfl
  · cases b <;> simp [Collector.close, Collector.armedAt]
  · have hr : ∀ (t : State) (r : Report), (t.report r).walls = t.walls := fun _ _ => rfl
    have hs : (s.store (c.record a)).walls.collectors = s.walls.collectors := by
      simp only [State.store, WallJudge.store]; split <;> rfl
    split <;> split <;> simp only [handoff_walls, hr, note_walls, hs]

theorem decideFinish_collectors (s : State) (c : Collector) (a : Arrival) :
    ∃ d u, d.lane = c.lane ∧ d.state ≠ .collecting ∧ u.walls.collectors = s.walls.collectors
      ∧ s.decideFinish c a = State.setCollector u d := by
  refine ⟨c.close, _, rfl, by simp [Collector.close], ?_, rfl⟩
  simp only [commit_walls, State.store, WallJudge.store]; split <;> rfl

/-- A decision of a lane: that lane holds no open collection with a value, and each other lane's collector is kept. -/
theorem decideCollection_collectors (s : State) (l : Nat) (b : Bool) :
    (s.decideCollection l b).Decided l ∧ ∀ m, m ≠ l → (s.decideCollection l b).collector? m = s.collector? m := by
  unfold State.decideCollection
  split
  · rename_i e; exact ⟨fun c h => (by rw [e] at h; cases h), fun _ _ => rfl⟩
  · rename_i c e
    have hl := collector?_lane e
    have set {t : State} (h : ∃ d u, d.lane = c.lane ∧ d.state ≠ .collecting ∧ u.walls.collectors = s.walls.collectors
        ∧ t = State.setCollector u d) : t.Decided l ∧ ∀ m, m ≠ l → t.collector? m = s.collector? m := by
      obtain ⟨d, u, h1, h2, h3, rfl⟩ := h
      rw [hl] at h1
      refine ⟨fun x hx hc => ?_, fun m hm => ?_⟩
      · rw [collector?_setCollector ((collector?_congr h3 l).trans e) h1] at hx
        cases hx; exact absurd hc h2
      · rw [collector?_setCollector_ne (by rw [h1]; exact hm.symm)]; exact collector?_congr h3 m
    split
    · split
      · rename_i e2
        obtain ⟨hp, hb⟩ := decideArrival_none e2
        refine ⟨fun x hx _ => ?_, fun _ _ => rfl⟩
        rw [e] at hx; cases hx; exact ⟨hp, backupValue_none hb⟩
      · split
        · exact set (decideLap_collectors s c _ b)
        · exact set (decideFinish_collectors s c _)
    · exact ⟨fun x hx hc => (by rw [e] at hx; cases hx; contradiction), fun _ _ => rfl⟩

/-- A lane decided once stays so through every decision. -/
theorem decideCollection_decided {s : State} {l : Nat} (h : s.Decided l) (m : Nat) (b : Bool) :
    (s.decideCollection m b).Decided l := by
  obtain ⟨h1, h2⟩ := decideCollection_collectors s m b
  by_cases e : l = m
  · subst e; exact h1
  · intro c hc; rw [h2 l e] at hc; exact h c hc

theorem decided_congr {s t : State} (h : t.walls = s.walls) {l : Nat} (hd : s.Decided l) : t.Decided l := by
  intro c hc; rw [collector?_congr (s := s) (by rw [h]) l] at hc; exact hd c hc

theorem foldl_walls (g : State → Nat → State) (hg : ∀ s l, (g s l).walls = s.walls) (as : List Nat) (s : State) :
    (as.foldl g s).walls = s.walls := by
  induction as generalizing s with
  | nil => rfl
  | cons a as ih => rw [List.foldl_cons, ih, hg]

theorem closeStart_walls (s : State) : s.closeStart.walls = s.walls := by
  unfold State.closeStart
  split
  · unfold State.judgeStart
    refine foldl_walls _ (fun s l => ?_) _ _
    obtain ⟨_, _, _, -, e⟩ := judgeStartLane_recordsOnly _ s l; rw [e]
  · rfl

theorem foldl_decided {l : Nat} (g : State → Nat → State) (hg : ∀ s m, s.Decided l → (g s m).Decided l) (as : List Nat)
    {s : State} (h : s.Decided l) : (as.foldl g s).Decided l := by
  induction as generalizing s with
  | nil => exact h
  | cons a as ih => exact ih (hg s a h)

theorem stopClock_walls (s : State) (t : HeatTime) : (s.stopClock t).walls = s.walls := by
  unfold State.stopClock State.makePending; split <;> rfl

theorem fireEnd_walls (s : State) : s.fireEnd.walls = s.walls := by
  obtain ⟨_, _, _, _, -, e⟩ := fireEnd_pulseOnly s; rw [e]

theorem closeHeat_walls (s : State) (cause : HeatCause) : (s.closeHeat cause).walls = s.closeStart.closeLanes.walls := by
  unfold State.closeHeat
  generalize s.closeStart.closeLanes = u
  dsimp only
  split
  · rw [fireEnd_walls, stopClock_walls]; rfl
  · rw [stopClock_walls]; rfl

/-- A close keeps a decided lane decided (R28, R66). -/
theorem closeHeat_decided {s : State} {l : Nat} (h : s.Decided l) (cause : HeatCause) : (s.closeHeat cause).Decided l := by
  refine decided_congr (closeHeat_walls s cause) ?_
  unfold State.closeLanes
  dsimp only
  refine decided_congr (foldl_walls _ (fun s l => judgeExchange_walls s l _) _ _) ?_
  refine decided_congr (foldl_walls _ (fun s l => ?_) _ _) ?_
  · obtain ⟨_, _, _, -, e⟩ := noFinish_recordsOnly s l; rw [e]
  · exact foldl_decided _ (fun s m h => decideCollection_decided h m true) _ (decided_congr (closeStart_walls s) h)

theorem examineClosing_decided {s : State} {l : Nat} (h : s.Decided l) : s.examineClosing.Decided l := by
  unfold State.examineClosing
  split
  · exact closeHeat_decided h _
  · exact h

/-- After its lane's expiry a collection that holds a value is not due (R64, R65). -/
theorem collectionExpires_taken (s : State) (lane : Nat) :
    ∀ c, (s.collectionExpires lane).collector? lane = some c → c.state = .collecting →
      s.expired c.timer = false ∨ (c.pad = none ∧ c.buttons = []) := by
  intro c hc hs
  unfold State.collectionExpires at hc
  split at hc
  · exact .inr (decided_congr (arbitrate_walls _)
      (examineClosing_decided (decideCollection_collectors s lane false).1) c hc hs)
  · rename_i hd
    left
    simpa [State.collectionDue, hc, hs] using hd

/-! ### The rows and the pulse step -/

theorem mem_boardRows (row : Nat) : row ∈ Config.boardRows ↔ row < 16 := by
  simp only [Config.boardRows, List.mem_cons, List.not_mem_nil, or_false]; omega

/-- A half is EMPTY and a row is due: the scanner's conditions (R163). -/
def State.LoadDue (s : State) : Prop := s.shifter.emptyHalf.isSome = true ∧ ∃ row < 16, s.rowDue row = true

theorem loadDue_iff (s : State) :
    s.LoadDue ↔ (s.shifter.emptyHalf.isSome && Config.boardRows.any s.rowDue) = true := by
  simp only [State.LoadDue, Bool.and_eq_true, List.any_eq_true, mem_boardRows]

/-- The Shifter claims when the scanner's conditions hold. -/
def State.Claimed (s : State) : Prop := s.LoadDue → s.shifterClaims = true

theorem examineShifter_claimed (s : State) : s.examineShifter.Claimed := by
  unfold State.examineShifter
  split
  · exact fun _ => by simp only [State.shifterClaims, Bool.true_or]
  · rename_i e
    intro h
    rw [loadDue_iff] at h
    simpa [h] using e

theorem chooseLoad_isSome {s : State} (h : s.LoadDue) :
    ∃ r c k cs, s.chooseLoad = some (.rowLoad r c k cs true) := by
  obtain ⟨h1, row, hr, hd⟩ := h
  unfold State.chooseLoad
  obtain ⟨k, hk⟩ := Option.isSome_iff_exists.mp h1
  have : ((scanOrder s.shifter.scanner).find? s.rowDue).isSome = true := by
    refine List.find?_isSome.mpr ⟨row, ?_, hd⟩
    simp only [scanOrder, List.mem_map, mem_boardRows]
    exact ⟨(row + 15 * (s.shifter.scanner + 1)) % 16, by omega, by omega⟩
  obtain ⟨r, hr⟩ := Option.isSome_iff_exists.mp this
  rw [hk, hr]; exact ⟨_, _, _, _, rfl⟩

theorem displace_claimed {s : State} (hn : s.Claimed) (n : Nat) : (s.displace n).Claimed := by
  unfold State.displace
  split
  · exact examineShifter_claimed _
  · exact hn

/-- A claim outlasts a grant to a writer: it is the Shifter's waiting one while Board Memory is free. -/
theorem grantConsole_claimed {s : State} (hn : s.Claimed) (ho : s.board.operation = none) (q : BoardRequest) :
    (s.grantConsole q).Claimed := by
  have keep (u : State) (op : ConsoleOp) (hu : u.Claimed) (ho : u.board.operation = none) :
      State.Claimed { u with
        board := { u.board with operation := some (.console op) }, mgmt := { u.mgmt with claim := none } } := by
    intro hd
    have := hu hd
    simp only [State.shifterClaims, ho, Bool.or_false] at this
    simp only [State.shifterClaims, this, Bool.true_or]
  unfold State.grantConsole
  dsimp only
  split
  · refine keep _ _ (displace_claimed hn _) ?_
    unfold State.displace State.examineShifter
    split
    · split <;> exact ho
    · exact ho
  · exact keep _ _ hn ho

theorem grantWriter_claimed {s : State} (hn : ¬s.LoadDue) (ho : s.board.operation = none) : s.grantWriter.Claimed := by
  unfold State.grantWriter
  split
  · exact fun h => absurd h hn
  · split
    · exact grantConsole_claimed (fun h => absurd h hn) ho _
    · exact fun h => absurd h hn

/-- The arbiter's choice keeps the Shifter's claim, waiting or granted (R150, R163). -/
theorem arbitrate_claimed {s : State} (h : s.Claimed) : s.arbitrate.Claimed := by
  unfold State.arbitrate
  split
  · exact h
  · rename_i e
    have e : s.board.operation = none := by simpa using e
    by_cases d : s.LoadDue
    · have c : s.shifter.claim = true := by simpa [State.shifterClaims, e] using h d
      obtain ⟨r, c', k, cs, hc⟩ := chooseLoad_isSome d
      intro _
      simp [State.grantShifter, c, hc, State.shifterClaims]
    · have g : ¬s.grantShifter.LoadDue := by unfold State.grantShifter; split <;> exact d
      dsimp only
      split
      · exact fun h => absurd h g
      · rename_i i
        exact grantWriter_claimed g (by simpa using i)

theorem stepExpiry_pending (s : State) (x : PulseStep) : timerDue s.deckTime (s.stepExpiry x) = false := by
  have h : x.code.toNat < 8 := x.code.isLt
  unfold State.stepExpiry timerDue ticks stepTicks
  rw [BitVec.add_comm, BitVec.add_sub_cancel]
  generalize x.code.toNat = n at *
  cases s.mgmt.settings.pulseBase <;>
    (have : n = 0 ∨ n = 1 ∨ n = 2 ∨ n = 3 ∨ n = 4 ∨ n = 5 ∨ n = 6 ∨ n = 7 := by omega) <;>
    (rcases this with rfl | rfl | rfl | rfl | rfl | rfl | rfl | rfl <;> decide)

/-- A step that runs after the step timer's expiry is not over, for a program whose running state is in range (R173). -/
theorem stepExpires_taken {s : State} (h : s.PulseSound) (r : PulseRun) (hr : s.stepExpires.pulse.running = some r) :
    timerDue s.deckTime r.timer = false := by
  unfold State.stepExpires at hr
  split at hr
  · rename_i e; rw [e] at hr; cases hr
  · rename_i q e
    obtain ⟨h1, h2, h3, h4, -⟩ := h.2 q e
    split at hr
    · unfold State.stepBoundary at hr
      dsimp only at hr
      have begun {q' : PulseRun} {m n : Nat} (hr : (s.beginStep q' m n).pulse.running = some r)
          (hp : q'.program = q.program) (hn : n - 1 < (s.pulse.program q.program).steps.length) : timerDue s.deckTime r.timer = false := by
        unfold State.beginStep at hr
        rw [hp, List.getElem?_eq_getElem hn] at hr
        simp only [Option.some.injEq] at hr
        subst hr; exact stepExpiry_pending s _
      split at hr
      · exact begun hr rfl (by omega)
      · split at hr
        · exact begun hr rfl (by omega)
        · unfold State.endProgram State.stopProgram State.pulseDone State.reportOpt at hr
          simp [State.report] at hr
    · rw [e] at hr; cases hr; simp_all

end Sys2Proof.Machine
end

