-- ==== Sys2Proof/Laws/Traffic.lean ====
section
/-! SUPPORT. The frames a change offers, said once: the writer's report, PLACES and the LAMP frames (R93, R97, R100). -/

namespace Sys2Proof.Machine

/-! ### Frames offered one after the other -/

@[simp] theorem offers_nil (o : LoopOut) : o.offers [] = o := rfl

@[simp] theorem offers_cons (o : LoopOut) (f : Frame) (fs : List Frame) : o.offers (f :: fs) = (o.offer f).offers fs := rfl

theorem offers_append (o : LoopOut) (fs gs : List Frame) : o.offers (fs ++ gs) = (o.offers fs).offers gs :=
  List.foldl_append ..

@[simp] theorem reportOpt_out (s : State) (r : Option Report) : (s.reportOpt r).out = s.out.reports r := by
  cases r <;> rfl

/-- The LAMP frame of a code for a lane, where the Active Map has its START node. -/
def State.lampTo (s : State) (lane : Nat) (c : LampCode) : List Frame :=
  (resolvePlace s.nodes.active lane .start).toList.map fun e => hubFrame e.address 0x13 [c.code]

theorem offerLamp_out (s : State) (lane : Nat) (c : LampCode) : (s.offerLamp lane c).out = s.out.offers (s.lampTo lane c) := by
  unfold State.offerLamp State.lampTo
  cases resolvePlace s.nodes.active lane .start <;> rfl

theorem offerLamp_nodes (s : State) (lane : Nat) (c : LampCode) : (s.offerLamp lane c).nodes = s.nodes := by
  obtain ⟨o, -, e⟩ := offerLamp_outOnly s lane c; rw [e]

theorem offerLamp_results (s : State) (lane : Nat) (c : LampCode) : (s.offerLamp lane c).results = s.results := by
  obtain ⟨o, -, e⟩ := offerLamp_outOnly s lane c; rw [e]

/-- LAMP OFF to the lanes of the meet (R23, R32). -/
theorem lampsOff_out (s : State) : s.lampsOff.out = s.out.offers s.offFrames := by
  have key : ∀ (ls : List Nat) (t : State), t.nodes = s.nodes →
      (ls.foldl (fun t l => t.offerLamp l .off) t).out = t.out.offers (ls.flatMap fun l => s.lampTo l .off) := by
    intro ls
    induction ls with
    | nil => intro t _; rfl
    | cons l ls ih =>
      intro t ht
      rw [List.foldl_cons, ih _ (by rw [offerLamp_nodes, ht]), List.flatMap_cons, offers_append, offerLamp_out]
      unfold State.lampTo; rw [ht]
  unfold State.lampsOff
  rw [key _ s rfl]
  unfold State.offFrames
  congr 1
  simp only [Config.lanes]
  generalize (List.filter (fun x => decide (x < s.mgmt.settings.laneCount)) [0, 1, 2, 3, 4, 5, 6, 7, 8, 9]) = ls
  induction ls with
  | nil => rfl
  | cons l ls ih =>
    rw [List.flatMap_cons, List.filterMap_cons, ih]
    unfold State.lampTo
    cases resolvePlace s.nodes.active l .start <;> rfl

/-- The LAMP frame of one lane's decided code, when it differs (R100). -/
def State.lampChange (s : State) (ranked : List LaneRecord) (lane : Nat) : List Frame :=
  match ranked.find? (·.lane == lane) with
  | none => []
  | some r => if r.lampOf = r.lamp then [] else s.lampTo lane r.lampOf

theorem lampFrames_flat (s : State) (ranked : List LaneRecord) :
    s.lampFrames ranked = Config.lanes.flatMap (s.lampChange ranked) := by
  unfold State.lampFrames
  show List.filterMap _ Config.lanes = _
  generalize Config.lanes = ls
  induction ls with
  | nil => rfl
  | cons l ls ih =>
    rw [List.flatMap_cons, List.filterMap_cons, ih]
    unfold State.lampChange State.lampTo
    cases ranked.find? (·.lane == l) with
    | none => rfl
    | some r =>
      by_cases e : r.lampOf = r.lamp
      · simp [e]
      · cases resolvePlace s.nodes.active l .start <;> simp [e]

theorem decideLamp_out (s : State) (lane : Nat) :
    (s.decideLamp lane).out = s.out.offers (s.lampChange s.results lane) ∧ (s.decideLamp lane).nodes = s.nodes
      ∧ ∀ l, l ≠ lane → (s.decideLamp lane).results.find? (·.lane == l) = s.results.find? (·.lane == l) := by
  unfold State.decideLamp State.lampChange State.record?
  cases s.results.find? (·.lane == lane) with
  | none => exact ⟨rfl, rfl, fun _ _ => rfl⟩
  | some r =>
    dsimp only
    split
    · exact ⟨rfl, rfl, fun _ _ => rfl⟩
    · refine ⟨offerLamp_out .., offerLamp_nodes .., fun l hl => ?_⟩
      have := find_writeRecord_ne (rs := (s.offerLamp lane r.lampOf).results)
        (f := fun q => { q with lamp := r.lampOf }) (fun _ => rfl) hl
      exact this.trans (by rw [offerLamp_results])

/-- The lamps decided offer the LAMP frames of the codes that change, in lane order (R100). -/
theorem decideLamps_out (s : State) : s.decideLamps.out = s.out.offers (s.lampFrames s.results) := by
  have key : ∀ (ls : List Nat) (t : State), ls.Nodup → t.nodes = s.nodes →
      (∀ l ∈ ls, t.results.find? (·.lane == l) = s.results.find? (·.lane == l)) →
      (ls.foldl State.decideLamp t).out = t.out.offers (ls.flatMap (s.lampChange s.results)) := by
    intro ls
    induction ls with
    | nil => intro t _ _ _; rfl
    | cons l ls ih =>
      intro t hn ht hr
      obtain ⟨h1, h2, h3⟩ := decideLamp_out t l
      rw [List.nodup_cons] at hn
      rw [List.foldl_cons, ih _ hn.2 (h2.trans ht), List.flatMap_cons, offers_append, h1]
      · congr 2
        unfold State.lampChange State.lampTo
        rw [hr l (by simp), ht]
      · intro k hk
        rw [h3 k (fun e => hn.1 (e ▸ hk))]
        exact hr k (by simp [hk])
  rw [lampFrames_flat]
  exact key Config.lanes s (by decide) rfl fun _ _ => rfl

/-- The Placer's frames: the writer's report, PLACES when a place changed, the LAMP frames (R93, R97, R100). -/
theorem placerPass_out (s : State) (w : List LaneRecord) (lane : Nat) (rep : LaneRecord → Option Report) :
    (s.placerPass w lane rep).out = s.afterPlacer w lane rep := by
  have hn : ∀ (t : State) (r : Option Report), (t.reportOpt r).nodes = t.nodes := fun t r => by cases r <;> rfl
  unfold State.placerPass State.afterPlacer
  rw [decideLamps_out]
  have h : ∀ t : State, t.nodes = s.nodes → t.results = rankAll w →
      t.lampFrames t.results = s.lampFrames (rankAll w) := fun t h1 h2 => by
    unfold State.lampFrames; rw [h1, h2]
  rw [h]
  · show LoopOut.offers _ _ = LoopOut.offers _ _
    congr 1
    by_cases e : w.map (·.place) = (rankAll w).map (·.place)
    · rw [if_pos e]; unfold rankAll at e ⊢; rw [if_pos e, reportOpt_out]; rfl
    · rw [if_neg e]; unfold rankAll at e ⊢; rw [if_neg e, report_out, reportOpt_out]; rfl
  · split <;> simp only [report_nodes, hn]
  · split <;> simp

/-- What a change offers: its own report, and the Placer's frames when it touches a field of R93 step 2. -/
theorem commit_out (s : State) (lane : Nat) (f : LaneRecord → LaneRecord)
    (names : LaneRecord → LaneRecord → Bool) (rep : LaneRecord → Option Report) :
    (s.commit lane f touchesPlacer names rep).out = s.framesOf lane f rep := by
  unfold State.commit State.framesOf
  cases h : s.record? lane with
  | none => rfl
  | some r =>
    simp only [handOver_out]
    have ht : touchesPlacer r (f r) = false ↔ ((f r).status = r.status ∧ (f r).finish = r.finish
        ∧ (f r).flags.falseStart = r.flags.falseStart ∧ (f r).flags.earlyTakeover = r.flags.earlyTakeover
        ∧ (f r).flags.refereeDq = r.flags.refereeDq) := by
      unfold touchesPlacer
      simp only [Bool.or_eq_false_iff, bne_eq_false_iff_eq, and_assoc]
      exact ⟨fun ⟨a, b, c, d, e⟩ => ⟨a.symm, b.symm, c.symm, d.symm, e.symm⟩,
        fun ⟨a, b, c, d, e⟩ => ⟨a.symm, b.symm, c.symm, d.symm, e.symm⟩⟩
    by_cases hx : touchesPlacer r (f r) = true
    · rw [if_pos hx, if_neg (fun e => by rw [ht.mpr e] at hx; cases hx), placerPass_out]
    · rw [if_neg hx, if_pos (ht.mp (by simpa using hx)), reportOpt_out]

end Sys2Proof.Machine
end

