-- ==== Sys2Proof/WellFormed.lean ====
section
/-! DEFINITION. Which commands are well formed: the operands a row of the table can carry. -/

namespace Sys2Proof

/-- A frame-ending symbol is no data byte (R108); a restoring symbol is valid (R118); lanes are 0 to 9, rows of
Board Memory 0 to 15 (R148), signal lines 0 to 7 (R168). -/
def Instr.wellFormed : Instr → Bool
  | .frameReceived (.data _) => false
  | .loopRestored sym => sym.valid
  | .lapCollectionExpiry lane => decide (lane < 10)
  | .exchangeWindowExpiry lane => decide (lane < 10)
  | .rowFullRefreshExpiry row => decide (row < 16)
  | .lineLevelChange line _ => decide (line < 8)
  | _ => true

end Sys2Proof
end

