-- ==== Sys2Proof/Tests/Slice0.lean ====
section
/-! SUPPORT. Tests of the model on small states: the spec's worked figures, the well-formedness checks, and one state that
meets the hypotheses of each statement. -/

namespace Sys2Proof.Tests

open Sys2Proof.Machine

/-! ### The well-formedness checks refuse what they should -/

theorem test_wf_frame_end_is_no_data : (Instr.frameReceived (.data 5)).wellFormed = false := by decide
theorem test_wf_frame_end : (Instr.frameReceived .idle).wellFormed = true := by decide
theorem test_wf_restoring_symbol_is_valid : (Instr.loopRestored .error).wellFormed = false := by decide
theorem test_wf_collection_lane : (Instr.lapCollectionExpiry 10).wellFormed = false := by decide
theorem test_wf_exchange_lane : (Instr.exchangeWindowExpiry 10).wellFormed = false := by decide
theorem test_wf_row : (Instr.rowFullRefreshExpiry 16).wellFormed = false := by decide
theorem test_wf_line : (Instr.lineLevelChange 8 true).wellFormed = false := by decide

/-! ### Words spell no command -/

theorem test_no_word_spells_a_command : decodeTableWord 8 5 = none := by decide
theorem test_fetch_word_changes_nothing : (State.reset.withFetchWord 8 5).pending = [] := by decide

/-! ### Worked figures of the spec -/

/-- The CRC of "123456789" under the polynomial and preset of R109 (the published check value of that CRC, 0x29B1). -/
theorem test_crc_check_value :
    crc16 [0x31, 0x32, 0x33, 0x34, 0x35, 0x36, 0x37, 0x38, 0x39] = 0x29B1 := by decide +kernel

/-- 01, One pad press: A = 1,209,412,915, g = 812, d = 37, epoch 1,204,550,000. -/
theorem test_one_pad_press :
    edgeDeck 1209412915 37 [0x01, 0x03, 0x2C] = some 1209412066
      ∧ heatTimeFrom 1204550000 1209412066 = 4862066 := by decide

/-- 01, One pad press: the TIME field shows three spaces and "48.62". -/
theorem test_time_text :
    rightAlign 8 (timeText 4862) = [0x20, 0x20, 0x20, 0x34, 0x38, 0x2E, 0x36, 0x32] := by decide

/-- 04, event 4: hundredths 6,120 show "1:01.20". -/
theorem test_time_text_minutes : timeText 6120 = [0x31, 0x3A, 0x30, 0x31, 0x2E, 0x32, 0x30] := by decide

/-- 01, Arrival stamp just after a wrap: A = 150, g = 400, d = 0. -/
theorem test_edge_before_wrap : edgeDeck 150 0 [0x01, 0x01, 0x90] = some 4294967046 := by decide

/-- 01, A heat that runs across the wrap. -/
theorem test_heat_across_wrap : heatTimeFrom 4294000000 2000000 = 2967296 := by decide

/-- 01, Negative heat times: -2,350 shows "-0.02" and -640 shows "-0.00". -/
theorem test_reaction_text_negative :
    reactionText (-2350) = [0x2D, 0x30, 0x2E, 0x30, 0x32] ∧ reactionText (-640) = [0x2D, 0x30, 0x2E, 0x30, 0x30] := by
  decide

/-- R16: the largest magnitude shown is 9.99. -/
theorem test_reaction_text_held : reactionText (-1000000) = [0x2D, 0x39, 0x2E, 0x39, 0x39] := by decide

/-- 10, event 1: heat time 4,860,000 shows " 0:48.6". -/
theorem test_clock_text : rightAlign 7 (clockText 4860000) = [0x20, 0x30, 0x3A, 0x34, 0x38, 0x2E, 0x36] := by decide

/-- 04, a 100 m freestyle: two buttons, three buttons, and the two outer ones of the three. -/
theorem test_backup_values :
    backupValue [2313200, 2309100] = some 2311150 ∧ backupValue [4869310, 4871005, 4866480] = some 4869310
      ∧ backupValue [4866480, 4871005] = some 4868742 := by decide

/-- 04, expiry of lap 2: |P - B| = 7,244 is above 3,000, so the pad value stands under REVIEW. -/
theorem test_pad_under_review :
    decideArrival 3000 (some 4862066) (some 4869310)
      = some { time := 4862066, source := .pad, review := true, backupUsed := false } := by decide

/-- 05, A step-off and re-mount: margin -1,800, OK, -18 ms. -/
theorem test_takeover_ok :
    exchangeVerdict 3000 { number := 1, lap := 2, arming := 4731000, touch := 5731200, timer := 706031200 } 6031200
      (some 5729400) = { verdict := .ok, margin := some (-1800) } ∧ marginMs (-1800) = -18 := by decide

/-- 05, An early takeover: the release at 5,727,900. -/
theorem test_takeover_early :
    exchangeVerdict 3000 { number := 1, lap := 2, arming := 4742600, touch := 5731200, timer := 706031200 } 6031200
      (some 5727900) = { verdict := .early, margin := some (-3300) } := by decide

/-- 02, R20: C = 5, W = 255 and heat limit 90 load as 10, 250 and 60 with detail 8. -/
theorem test_clamping :
    (planFields [0, 1, 1, 0, 100, 0, 0, 0, 0, 1, 0, 5, 255, 0, 10, 0, 0, 50, 0, 90, 0]).clamped = some 8
      ∧ (planFields [0, 1, 1, 0, 100, 0, 0, 0, 0, 1, 0, 5, 255, 0, 10, 0, 0, 50, 0, 90, 0]).load.heatLimit = 60 := by
  decide

/-- 13: a row from column 34 is a frame of 32 bytes. -/
theorem test_row_frame_length : (rowFrame 5 34 (List.replicate 14 {})).length = 32 := by decide

/-- 12: {SL1, SL2} at x = 5 under the 10 ms base lasts 32,000 ticks. -/
theorem test_step_length : stepTicks .ms10 5 = 32000 := by decide

/-! ### Small states -/

/-- The hub after its reset has ended, with the plain values of hardware reset. -/
def live : State := { State.reset with resetHeld := false, deckTime := 1000 }

/-- A MANAGE frame of console 0x02 with tag 7. -/
def manage (code : Byte) (fields : List Byte) : Frame :=
  { dst := 0, src := 2, kind := 0x10, flags := 0, payload := code :: 7 :: fields, crc := 0 }

/-- The state with one request waiting. -/
def asking (s : State) (code : Byte) (fields : List Byte) : State :=
  { s with mgmt := { s.mgmt with queue := [manage code fields] } }

/-- A 100 m freestyle in lanes 4 and 5. -/
def plan : Plan :=
  { event := 5, heat := 1, distance := 100, stroke := .free, relay := false, split := .allWalls, minLap := 2000,
    collectionWindow := 100, trustWindow := 30, exchangeWindow := 200, tolerance := 30, startWindow := 200,
    reactionFloor := 100, heatLimit := 10,
    entries := [{ lane := 4, entryId := 40, exhibition := false }, { lane := 5, entryId := 50, exhibition := true }] }

/-- The heat armed: both lanes wait. -/
def armed : State :=
  { live with
    heat := { plan := some plan, state := .armed, epoch := none, startTimer := none, limitTimer := none }
    results := [{ lane := 4, entryId := 40 }, { lane := 5, entryId := 50, flags := { exhibition := true } }]
    walls := { collectors := [{ lane := 4 }, { lane := 5 }], pool := [] }
    starts := { trackers := freshTrackers true, strayCount := 0 } }

/-- Lane 4's lap-1 collection at the TURN wall, with the pad and two buttons of 04's worked sequence. -/
def turning : Collector :=
  { lane := 4, lap := 1, state := .collecting, arming := some 2000000, openTime := some 2310450, timer := some 2410450
    pad := some 2310450, b1 := some 2313200, b2 := some 2309100 }

/-- The heat running with epoch 0 at Deck Time 2,410,450: lane 4 turns, lane 5 swims lap 1. -/
def racing : State :=
  { armed with
    deckTime := 2410450
    heat := { plan := some plan, state := .running, epoch := some 0, startTimer := none, limitTimer := some 60000000 }
    results :=
      [{ lane := 4, entryId := 40, status := .swimming },
        { lane := 5, entryId := 50, status := .swimming, flags := { exhibition := true } }]
    walls :=
      { collectors := [turning, { lane := 5, lap := 1, state := .armed, arming := some 2000000 }], pool := [] } }

/-- The same heat with lane 4 FINAL and its collector CLOSED. -/
def finished : State :=
  { racing with
    results :=
      [{ lane := 4, entryId := 40, status := .final, finish := some 4862066, source := some .pad,
          finishPad := some 4862066, finishBackup := some 4869310, place := some 1, lamp := .place1, lapCount := 2,
          displayed := some 4862066 },
        { lane := 5, entryId := 50, status := .swimming, flags := { exhibition := true } }]
    walls :=
      { collectors :=
          [{ lane := 4, lap := 2, state := .closed, arming := some 4310450 },
            { lane := 5, lap := 1, state := .armed, arming := some 2000000 }]
        pool := [{ lane := 4, lap := 2, wall := .start, time := some 4862066, source := .pad, buttons := 3, flags := {} }] } }

/-- The heat closed. -/
def closed : State :=
  { finished with
    heat := { plan := some plan, state := .results, epoch := some 0, startTimer := none, limitTimer := none } }

/-- The race with two steps in program 1. -/
def withRecall : State :=
  let calls : PulseProgram := { repeats := 4, steps := [{ lines := 2, code := 4 }, { lines := 0, code := 4 }] }
  { racing with pulse := { racing.pulse with programs := racing.pulse.programs.set 1 calls } }

/-- Row 3 on the Board Link from half 0, row 5 LOADED in half 1. -/
def onLink : State :=
  { live with shifter := { live.shifter with half0 := .sending 3 0 [], half1 := .loaded 5 34 [] } }

/-- A state in which a request is asked. -/
def asks (s : State) (code : Byte) (form : List Byte → Bool) (fields : List Byte) : Prop :=
  (asking s code fields).Asks (manage code fields) code form

/-! ### Single steps of the worked sequences -/

/-- What a command leaves. -/
def after (c : Instr) (s : State) : State :=
  match exec c s with
  | .next t => t
  | .fault _ | .refused _ => s

/-- 04, expiry of lap 1 of the 100 m freestyle: 2,310,450 from PAD, and a(2) = 4,310,450. -/
theorem test_collection_expiry :
    (after (.lapCollectionExpiry 4) racing).collector? 4
        = some { lane := 4, lap := 2, state := .armed, arming := some 4310450 }
      ∧ (after (.lapCollectionExpiry 4) racing).walls.pool.map (fun a => (a.lap, a.wall, a.time, a.source, a.buttons))
        = [(1, .turn, some 2310450, .pad, 2)] := by decide +kernel

/-- Lane 4 of a 400 m freestyle armed for lap 3 with a(3) = 8,620,750. -/
def thirdLap : State :=
  let long : Plan := { plan with distance := 400, minLap := 2500, collectionWindow := 150 }
  State.setCollector { racing with heat := { racing.heat with plan := some long } }
    { lane := 4, lap := 3, state := .armed, arming := some 8620750 }

/-- 04, event 7 of the 400 m freestyle: a START pad press at 12,470,900 skips lap 3. -/
def skipped : State :=
  thirdLap.takePress { lane := 4, wall := .start, sensor := .pad, deck := 12470900, time := 12470900 }

theorem test_skip_ahead :
    skipped.collector? 4
        = some { lane := 4, lap := 4, state := .collecting, arming := some 11120750, openTime := some 12470900
                 timer := some 12620900, pad := some 12470900 }
      ∧ skipped.walls.pool = [missedArrival 4 3] := by decide +kernel

/-- A lane with a provisional finish. -/
def inWater (lane time : Nat) (f : LaneFlags) : LaneRecord :=
  { lane := lane, entryId := 0, status := .provisional, finish := some (time : Int), flags := f }

/-- 06, event 8: the places of lanes 2 to 7 after lane 6's decision. -/
theorem test_places_after_event_8 :
    (rankAll [inWater 2 4850000 { falseStart := true }, inWater 3 4862066 {}, inWater 4 4862950 {}, inWater 5 4859700 {},
      inWater 6 4858300 {}, inWater 7 4861500 { exhibition := true }]).map (·.place)
        = [none, some 3, some 3, some 2, some 1, none] := by decide

/-- 12, a start and a recall: a step of the 10 ms base with x = 4 that begins at the fire runs 16,000 ticks. -/
theorem test_fire_program :
    (after .fireProgram (asking withRecall 0x21 [1])).pulse.running
      = some { program := 1, repeatNo := 1, step := 1, completed := 0, timer := 2426450 } := by decide +kernel

/-- 11, event 4: row 3's send completes and the LOADED row 5 starts sending. -/
theorem test_row_send_complete :
    (after .rowSendComplete onLink).shifter.half1 = .sending 5 34 []
      ∧ (after .rowSendComplete onLink).shifter.half0 = .empty := by decide +kernel

/-- R1: TICK counts from the greatest value to 0. -/
theorem test_tick_wraps : (after .tick { live with deckTime := 4294967295 }).deckTime = 0 := by decide +kernel

/-! ### Each statement's hypotheses are met: the queue, the clock and the intake -/

theorem test_met_step_runs :
    ({ live with pending := [.tick, .readStatus] } : State).pending = .tick :: [.readStatus] ∧ live.pending = [] := by
  decide

theorem test_met_reset_ends : State.reset.resetHeld = true := by decide

theorem test_met_deck_time :
    live.Live ∧ wordAt [0x01, 0xFF, 0xFF] 1 = 65535 ∧ wordAt [0x01, 0xFF, 0xFE] 1 ≠ 65535 := by
  unfold State.Live; decide

theorem test_met_laid_out_frame : (List.replicate 120 (0 : Byte)).length ≤ 120 := by decide

/-- A hub in a frame of the bytes given. -/
def inFrame (bytes : List Byte) : State :=
  { live with intake := { live.intake with checker := .inFrame bytes false (some 990) } }

theorem test_met_symbols_gather :
    live.Live ∧ live.intake.link = .up ∧ live.intake.checker = .between
      ∧ (inFrame (List.replicate 127 0)).Live ∧ (inFrame (List.replicate 127 0)).intake.link = .up
      ∧ (inFrame (List.replicate 126 0)).intake.checker = .inFrame (List.replicate 126 0) false (some 990) := by
  unfold State.Live; decide

theorem test_met_ended_frame :
    (inFrame [1, 2, 3]).Live ∧ (inFrame [1, 2, 3]).intake.link = .up
      ∧ (inFrame [1, 2, 3]).intake.checker = .inFrame [1, 2, 3] false (some 990)
      ∧ (inFrame [1, 2, 3]).verdict { bytes := [1, 2, 3], tooLong := false, cut := false, stamp := 990 } = .broken := by
  unfold State.Live; decide

/-- A whole frame ended at Loop In. -/
def ended (f : Frame) : EndedFrame := { bytes := f.bytes, tooLong := false, cut := false, stamp := 990 }

theorem test_met_disposal_cut : live.verdict { bytes := [], tooLong := false, cut := true, stamp := 990 } = .broken := by
  decide

theorem test_met_disposal_returned : live.verdict (ended (sealFrame 2 0 0x12 0 [])) = .returned := by decide +kernel

theorem test_met_disposal_forwarded : live.verdict (ended (sealFrame 0x25 2 0x20 0 [1])) = .forwarded := by
  decide +kernel

theorem test_met_disposal_manage :
    live.verdict (ended (sealFrame 0 2 0x10 0 [1, 7])) = .accepted ∧ live.mgmt.queue.length < 4
      ∧ ({ live with mgmt := { live.mgmt with queue := List.replicate 4 (manage 1 []) } } : State).verdict
          (ended (sealFrame 0 2 0x10 0 [1, 7])) = .accepted
      ∧ 4 ≤ (List.replicate 4 (manage 1 [])).length := by decide +kernel

theorem test_met_disposal_sensor :
    live.verdict (ended (sealFrame 0 0x14 0x01 0 [42, 1, 0x01, 0, 5])) = .accepted := by decide +kernel

theorem test_met_sensor_frame :
    (resolveAddress live.nodes.active 0x14).map (·.lane) = some 4
      ∧ ∀ e ∈ (sealFrame 0 0x14 0x01 0 [42, 2, 0x01, 0, 5, 0x41, 0xFF, 0xFF]).edges,
          (Sensor.ofCode? (sensorCode e)).isSome = true := by decide

/-- A hub whose silence timer is due. -/
def silent : State := { live with intake := { live.intake with silenceTimer := some 1000 } }

theorem test_met_silence : silent.Live ∧ silent.intake.link = .up ∧ silent.expired silent.intake.silenceTimer = true := by
  unfold State.Live; decide

/-- A race in an outage. -/
def cutOff : State := { racing with intake := { racing.intake with link := .outage, outageStart := 500 } }

theorem test_met_restore :
    cutOff.Live ∧ cutOff.ResultsSound ∧ cutOff.intake.link = .outage ∧ cutOff.intake.checker = .between
      ∧ LoopSymbol.valid .idle = true := by
  unfold State.Live State.ResultsSound; decide

/-! ### The Loop Out Port -/

/-- A port that sends, with frames in both queues. -/
def sending (outbound transit : List Frame) (last : QueueName) : State :=
  { live with
    out := { live.out with outbound := outbound, transit := transit, port := some (manage 1 [], last), lastServed := last } }

theorem test_met_loop_out :
    (sending [] [] .transit).Live ∧ (sending [] [] .transit).out.port = some (manage 1 [], .transit)
      ∧ (sending [manage 2 []] [manage 3 []] .transit).out.lastServed = .transit
      ∧ (sending [manage 2 []] [manage 3 []] .outbound).out.outbound = [manage 2 []]
      ∧ 32 ≤ (sending (List.replicate 32 (manage 2 [])) [] .outbound).out.outbound.length
      ∧ (sending (List.replicate 31 (manage 2 [])) [] .outbound).out.outbound.length < 32
      ∧ (sending (List.replicate 31 (manage 2 [])) [] .outbound).out.port.isSome = true
      ∧ live.out.outbound = [] ∧ live.out.transit = [] ∧ live.out.port = none := by
  unfold State.Live; decide

/-! ### The heat -/

/-- The plan's bytes as LOAD_HEAT_PLAN carries them. -/
def planRequest : List Byte := plan.fixedBytes ++ [byte plan.entries.length] ++ plan.entries.flatMap LaneEntry.bytes

theorem test_met_load_plan :
    asks live 0x08 (counted 20 21 4 0 10) planRequest ∧ live.heat.state = .idle
      ∧ (planFields planRequest).valueFault = none ∧ (planFields planRequest).fault live.mgmt.settings = none := by
  unfold asks State.Asks State.Live; decide

theorem test_met_plan_in_range : plan.InRange := by unfold Plan.InRange; decide

/-- The hub with the plan loaded. -/
def loaded : State := { live with heat := { live.heat with plan := some plan } }

theorem test_met_arm :
    asks loaded 0x09 (sized 0) [] ∧ loaded.heat.state = .idle ∧ plan.fault loaded.mgmt.settings = none
      ∧ plan.lackingNode loaded.nodes.active = none := by
  unfold asks State.Asks State.Live; decide

/-- The hub with a plan whose distance the course does not divide. -/
def misfit : State := { live with heat := { live.heat with plan := some { plan with distance := 75 } } }

/-- The loaded hub with an Active Map without entries. -/
def unmapped : State := { loaded with nodes := { loaded.nodes with active := List.replicate 32 none } }

theorem test_met_heat_refusals :
    asks racing 0x08 (counted 20 21 4 0 10) planRequest ∧ asks live 0x09 (sized 0) [] ∧ live.heat.plan = none
      ∧ asks misfit 0x09 (sized 0) [] ∧ { plan with distance := 75 }.fault misfit.mgmt.settings = some 1
      ∧ asks unmapped 0x09 (sized 0) [] ∧ plan.lackingNode unmapped.nodes.active = some 4
      ∧ asks closed 0x0A (sized 0) [] ∧ asks racing 0x0C (sized 0) []
      ∧ asks racing 0x0D (sized 1) [10] ∧ asks racing 0x0D (sized 1) [9] ∧ racing.laneInUse 9 = false := by
  unfold asks State.Asks State.Live; decide

theorem test_met_start :
    armed.Live ∧ armed.heat.state = .armed ∧ armed.pulse.startPrevious = false
      ∧ ∃ r ∈ armed.results, r.status = .waiting := by
  unfold State.Live; decide

theorem test_met_stray_start :
    live.Live ∧ live.heat.state ≠ .armed ∧ live.pulse.startPrevious = false ∧ 7 ≠ live.mgmt.settings.startLine := by
  unfold State.Live; decide

/-- The race before the start is judged, its start window just over. -/
def unjudged : State := { racing with heat := { racing.heat with startTimer := some 200000 } }

theorem test_met_start_window :
    unjudged.Live ∧ unjudged.ResultsSound ∧ unjudged.heat.state = .running ∧ unjudged.heat.startTimer = some 200000
      ∧ timerDue unjudged.deckTime 200000 = true := by
  unfold State.Live State.ResultsSound; decide

/-- The race with lane 4's release 10 s before the epoch, the first time a judgement can use. -/
def released : State := racing.trackerEdge 4 false (some (ticks (2 ^ 32 - 1000000)))

theorem test_met_reaction :
    (released.tracker 4).state = .released ∧ (released.tracker 4).lastRelease = some (ticks (2 ^ 32 - 1000000))
      ∧ released.reaction 4 200000 = some (-1000000) ∧ (released.tracker 5).state ≠ .released := by decide

theorem test_met_close_request : asks racing 0x0B (sized 0) [] ∧ racing.heat.state = .running
    ∧ asks closed 0x0B (sized 0) [] ∧ closed.heat.state ≠ .running := by
  unfold asks State.Asks State.Live; decide

/-- The race at its heat limit. -/
def overtime : State := { racing with deckTime := 60000000 }

theorem test_met_heat_limit :
    overtime.Live ∧ overtime.ResultsSound ∧ (∀ x ∈ overtime.exchanges, x.lane < 10)
      ∧ (overtime.exchanges.map (·.lane)).Nodup ∧ overtime.heat.state = .running
      ∧ overtime.expired overtime.heat.limitTimer = true := by
  unfold State.Live State.ResultsSound; decide

/-- Every lane has its finish or is DNS. -/
def allIn : State := { racing with results := [{ lane := 4, entryId := 40, status := .dns }] }

theorem test_met_closing_condition :
    allIn.heat.state = .running ∧ (∀ r ∈ allIn.results, r.status = .final ∨ r.status = .noFinish ∨ r.status = .dns)
      ∧ ∃ r ∈ racing.results, r.status = .swimming ∨ r.status = .provisional := by decide

theorem test_met_clear_and_disarm :
    asks armed 0x0C (sized 0) [] ∧ asks closed 0x0C (sized 0) [] ∧ closed.heat.state = .results
      ∧ asks armed 0x0A (sized 0) [] ∧ armed.heat.state = .armed := by
  unfold asks State.Asks State.Live; decide

theorem test_met_recall :
    asks withRecall 0x0A (sized 0) [] ∧ withRecall.heat.state = .running ∧ (withRecall.pulse.program 1).steps ≠ []
      ∧ asks racing 0x0A (sized 0) [] ∧ (racing.pulse.program 1).steps = [] := by
  unfold asks State.Asks State.Live; decide

theorem test_met_mark_dns :
    asks racing 0x0D (sized 1) [4] ∧ racing.laneInUse 4 = true ∧ racing.heat.state = .running
      ∧ (racing.record? 4).any (fun r => r.status == .swimming && r.lapCount == 0) = true
      ∧ (∃ q ∈ racing.results, q.lane ≠ 4 ∧ q.status = .swimming)
      ∧ asks armed 0x0D (sized 1) [5] ∧ armed.laneInUse 5 = true
      ∧ (armed.record? 5).any (fun r => r.status == .waiting && r.lapCount == 0) = true := by
  unfold asks State.Asks State.Live; decide

theorem test_met_heat_sound : racing.HeatSound ∧ armed.HeatSound ∧ live.HeatSound ∧ step racing = .next racing :=
  ⟨by unfold State.HeatSound; decide, by unfold State.HeatSound; decide, by unfold State.HeatSound; decide, rfl⟩

/-! ### Walls, laps and arrivals -/

theorem test_met_backup : (1 : Int) ≤ 1 ∧ (1 : Int) ≤ 2 ∧ [(3 : Int), 1, 2].Perm [1, 2, 3] := by decide

theorem test_met_arrival : (4862066 : Int) - 4865066 ≤ 3000 ∧ (4865066 : Int) - 4862066 ≤ 3000
    ∧ (3000 : Int) < 4865067 - 4862066 := by decide

/-- A press of lane 4 or 5. -/
def press (lane : Nat) (wall : Wall) (sensor : Sensor) (time : Nat) : Press :=
  { lane := lane, wall := wall, sensor := sensor, deck := ticks time, time := time }

theorem test_met_press :
    racing.heat.state = .running ∧ racing.collector? 4 = some turning ∧ turning.state = .collecting
      ∧ turning.arming = some 2000000 ∧ (racing.collector? 5).map (·.state) = some .armed
      ∧ (press 5 .turn .pad 1999999).wall = lapWall 1 ∧ (press 5 .turn .pad 1999999).time < (2000000 : Int)
      ∧ (2000000 : Int) ≤ (press 5 .turn .pad 2000000).time ∧ (press 4 .turn .button3 2311900).sensor ≠ .platform
      ∧ (press 5 .start .pad 4000000).wall ≠ lapWall 1
      ∧ (2000000 : Int) + (racing.plan.minLap * 1000 : Nat) ≤ (press 5 .start .pad 4000000).time
      ∧ (press 5 .start .pad 3999999).time < (2000000 : Int) + (racing.plan.minLap * 1000 : Nat) ∧ 1 < racing.laps := by
  decide

/-- Lane 4 armed for its second lap. -/
def secondLap : State :=
  racing.setCollector { lane := 4, lap := 2, state := .armed, arming := some 4310450 }

theorem test_met_press_second_lap :
    (secondLap.collector? 4).map (·.lap) = some 2 ∧ secondLap.laps ≤ 2 ∧ (press 4 .turn .pad 2311900).wall ≠ lapWall 2
      ∧ (press 4 .turn .pad 2311900).time < (4310450 : Int) := by decide

theorem test_met_press_without_collection :
    live.heat.state = .idle ∧ armed.heat.state = .armed ∧ racing.collector? 6 = none
      ∧ (finished.collector? 4).any (·.state == .closed) = true ∧ finished.heat.state = .running
      ∧ (closed.collector? 5).isSome = true ∧ closed.heat.state = .results := by decide

theorem test_met_press_dormant : ∃ c, (racing.setCollector { lane := 5 }).collector? 5 = some c ∧ c.state = .dormant :=
  ⟨{ lane := 5 }, by decide⟩

theorem test_met_collection_expiry :
    racing.Live ∧ racing.heat.state = .running ∧ racing.collector? 4 = some turning ∧ turning.state = .collecting
      ∧ racing.expired turning.timer = true ∧ turning.lap < racing.laps
      ∧ exchangeAt racing.plan.relay racing.laps turning.lap = none
      ∧ decideArrival (racing.plan.trustWindow * 100) turning.pad (backupValue turning.buttons)
        = some { time := 2310450, source := .pad, review := false, backupUsed := false }
      ∧ (racing.record? 4).any (·.status == .swimming) = true := by
  unfold State.Live; decide

/-- Lane 4's finish collection at the START wall, due. -/
def finishing : Collector :=
  { lane := 4, lap := 2, state := .collecting, arming := some 4310450, timer := some 2410450, b1 := some 4866480 }

theorem test_met_finish_expiry :
    (racing.setCollector finishing).Live ∧ (racing.setCollector finishing).collector? 4 = some finishing
      ∧ (racing.setCollector finishing).expired finishing.timer = true ∧ (racing.setCollector finishing).laps ≤ finishing.lap
      ∧ decideArrival 3000 finishing.pad (backupValue finishing.buttons)
        = some { time := 4866480, source := .backup, review := false, backupUsed := true }
      ∧ ((racing.setCollector finishing).record? 4).isSome = true
      ∧ ∃ q ∈ (racing.setCollector finishing).results, q.lane ≠ 4 ∧ q.status = .swimming := by
  unfold State.Live; decide

theorem test_met_arrivals_sound : finished.HeatSound ∧ finished.ArrivalsSound ∧ step finished = .next finished :=
  ⟨by unfold State.HeatSound; decide, by unfold State.ArrivalsSound; decide, rfl⟩

/-! ### Relay exchanges -/

/-- Lane 4's first exchange open, its window over. -/
def handingOver : State :=
  let o : OpenExchange := { number := 1, lap := 2, arming := 4731000, touch := 5731200, timer := 2410450 }
  { racing with exchanges := [{ lane := 4, window := some o }] }

theorem test_met_exchange :
    handingOver.Live ∧ (handingOver.openExchange 4).map (·.timer) = some 2410450
      ∧ timerDue handingOver.deckTime 2410450 = true
      ∧ (4731000 : Int) ≤ 4731000 ∧ (4731000 : Int) ≤ 6031200 ∧ -((3000 : Nat) : Int) ≤ 5728200 - 5731200
      ∧ (5728199 : Int) - 5731200 < -((3000 : Nat) : Int) ∧ (4730999 : Int) < 4731000 := by
  unfold State.Live; decide

theorem test_met_exchange_laps :
    (handingOver.setWindow 4 none).openExchange 4 = none ∧ ∃ x ∈ (handingOver.setWindow 4 none).exchanges, x.lane = 4 := by
  decide

/-! ### Results -/

theorem test_met_places :
    (∃ r ∈ finished.results, r.eligible = true ∧ placeOf finished.results r = some 1 ∧ r.finish = some 4862066) := by decide

theorem test_met_results_sound : finished.ResultsSound ∧ step finished = .next finished :=
  ⟨by unfold State.ResultsSound; decide, rfl⟩

theorem test_met_adjudication :
    asks finished 0x0E (sized 6) [4, 0, 0, 0, 0, 0] ∧ asks finished 0x0E (sized 6) [4, 2, 0, 0x41, 0xC5, 0xB2]
      ∧ finished.laneInUse 4 = true ∧ finished.heat.state = .running
      ∧ (finished.record? 4).any (fun r => r.status == .final && r.finishPad.isSome && r.finishBackup.isSome) = true
      ∧ finished.finishArming 4 ≤ longAt [4, 2, 0, 0x41, 0xC5, 0xB2] 2
      ∧ longAt [4, 2, 0, 0x41, 0xC5, 0xB2] 2 ≤ finished.plan.heatLimit * 6000000
      ∧ ((longAt [4, 2, 0, 0x41, 0xC5, 0xB1] 2 : Nat) : Int) < finished.finishArming 4
      ∧ asks finished 0x0E (sized 6) [4, 3, 0, 0, 0, 0] ∧ asks finished 0x0E (sized 6) [4, 4, 0, 0, 0, 0] := by
  unfold asks State.Asks State.Live; decide

theorem test_met_set_dq :
    asks finished 0x0F (sized 2) [4, 0] ∧ asks finished 0x0F (sized 2) [4, 1] ∧ finished.laneInUse 4 = true
      ∧ finished.heat.state = .running ∧ (finished.record? 4).any (fun r => r.status != .dns) = true
      ∧ (finished.record? 4).any (fun r => !r.flags.clearDq.disqualified && !r.flags.disqualified) = true := by
  unfold asks State.Asks State.Live; decide

/-! ### Management requests -/

theorem test_met_reads :
    asks live 0x01 (sized 0) [] ∧ asks live 0x02 (sized 0) [] ∧ asks live 0x07 (sized 2) [0, 31]
      ∧ asks live 0x07 (sized 2) [1, 31] ∧ asks racing 0x10 (sized 1) [9] ∧ asks racing 0x11 (sized 2) [9, 60]
      ∧ asks live 0x24 (sized 0) [] := by
  unfold asks State.Asks State.Live; decide

theorem test_met_layout_lengths :
    31 < live.nodes.working.length ∧ (List.replicate 0 ({} : Cell)).length = 48 - 48 := by decide

/-- The meet locked. -/
def locked : State := { live with mgmt := { live.mgmt with locked := true } }

theorem test_met_meet_settings :
    asks live 0x04 (sized 0) [] ∧ asks locked 0x03 (sized 6) [25, 6, 1, 1, 7, 3] ∧ locked.mgmt.locked = true
      ∧ asks racing 0x03 (sized 6) [25, 6, 1, 1, 7, 3] ∧ racing.heat.state ≠ .idle
      ∧ asks live 0x03 (sized 6) [25, 11, 1, 1, 7, 3] ∧ meetFault [25, 11, 1, 1, 7, 3] = some 2
      ∧ asks live 0x03 (sized 6) [25, 6, 1, 1, 7, 3] ∧ meetFault [25, 6, 1, 1, 7, 3] = none
      ∧ live.nodes.selection = .fixed := by
  unfold asks State.Asks State.Live; decide

theorem test_met_report_destination :
    asks live 0x12 (sized 1) [0xFF] ∧ asks live 0x12 (sized 1) [0x04]
      ∧ asks (sending [manage 2 []] [] .outbound) 0x12 (sized 1) [3] := by
  unfold asks State.Asks State.Live; decide

theorem test_met_malformed :
    live.Live ∧ (asking live 0x01 [0]).freeHead = some (manage 0x01 [0]) ∧ (manage 0x01 [0]).carries 0x01 = true
      ∧ (manage 0x06 []).carries 0x06 = true ∧ (manage 0x06 []).request.fields.length ≠ 1
      ∧ (manage 0x05 [0, 9]).carries 0x05 = true ∧ byteAt [0, 9] 1 = 9 ∧ (manage 0x3F []).request.code ∉ requestCodes
      ∧ ({ manage 1 [] with payload := [1] } : Frame).payload.length < 2 := by
  unfold State.Live; decide

theorem test_met_restart : asks withRecall 0x30 (sized 0) [] ∧ asks live 0x30 (sized 0) [] ∧ live.pulse.running = none := by
  unfold asks State.Asks State.Live; decide

/-! ### The Node Map -/

theorem test_met_node_map :
    asks live 0x05 (counted 1 2 5 1 8) [31, 1, 0x61, 9, 1, 0, 1] ∧ live.nodes.working.length = 32
      ∧ nodeEntriesFault [31, 1, 0x61, 9, 1, 0, 1] = none ∧ nodeEntriesFault [30, 2, 0, 9, 1, 0, 1, 0, 0, 2, 0, 0] = some 2
      ∧ asks live 0x05 (counted 1 2 5 1 8) [32, 1, 0x61, 9, 1, 0, 1]
      ∧ nodeEntriesFault [32, 1, 0x61, 9, 1, 0, 1] = some 0
      ∧ asks live 0x06 (sized 1) [0] ∧ asks live 0x06 (sized 1) [1] ∧ mapFault live.nodes.working 10 = none
      ∧ asks racing 0x06 (sized 1) [1] ∧ racing.heat.state = .running
      ∧ mapFault (List.replicate 2 { address := 0x61, lane := 2, wall := .start, delay := 0, enabled := true }) 10
        = some 1 := by
  unfold asks State.Asks State.Live; decide

/-- The Active Map of fixed plan 0 is sound: twenty enabled entries, no reserved address, no two of a node or a place. -/
theorem test_met_map_sound : live.MapSound ∧ step live = .next live ∧ live.nodes.active.length = 32 := by
  have h1 : ∀ o ∈ live.nodes.active, o.all (fun e => !reservedAddress e.address) = true := by decide
  have h2 : live.nodes.active.Pairwise fun a b => a.all (fun x => b.all fun y =>
      x.address != y.address && !(x.lane == y.lane && x.wall == y.wall)) = true := by decide
  refine ⟨⟨fun e he => by simpa using h1 _ he, h2.imp ?_⟩, rfl, by decide⟩
  rintro a b h x y rfl rfl - -
  simp only [Option.all_some, Bool.and_eq_true, bne_iff_ne, ne_eq, Bool.not_eq_true', Bool.and_eq_false_iff,
    beq_eq_false_iff_ne] at h
  exact ⟨h.1, fun e => h.2.elim (· e.1) (· e.2)⟩

theorem test_met_capacity : live.WithinCapacity ∧ step live = .next live :=
  ⟨by unfold State.WithinCapacity; decide, rfl⟩

/-! ### The board -/

theorem test_met_board_requests :
    live.board.operation = none ∧ live.shifter.claim = false ∧ live.composer.queue = []
      ∧ asks live 0x18 (counted 3 4 2 1 48) [15, 47, 7, 1, 0x41, 2] ∧ asks live 0x19 (sized 5) [0, 15, 0, 47, 7]
      ∧ asks live 0x1A (sized 2) [15, 7] ∧ asks live 0x1B (sized 3) [0x2A, 7, 1]
      ∧ asks live 0x1E (sized 26) [0, 0, 0, 5, 0, 41, 0, 3, 34, 40, 7, 2, 3, 4, 1, 5, 1, 2, 3, 4, 5, 6, 7, 8, 9, 15]
      ∧ live.heat.state = .idle ∧ asks live 0x1F (sized 1) [15] := by
  unfold asks State.Asks State.Live; decide

theorem test_met_layout_in_range :
    let fs : List Byte := [0, 0, 0, 5, 0, 41, 0, 3, 34, 40, 7, 2, 3, 4, 1, 5, 1, 2, 3, 4, 5, 6, 7, 8, 9, 15]
    (∀ x ∈ [(1, 3), (3, 2), (5, 7), (6, 2), (7, 3), (8, 5), (9, 8)], byteAt fs x.1 + x.2 - 1 ≤ 47)
      ∧ (∀ i ∈ [0, 2, 4], byteAt fs i ≤ 15) ∧ (∀ b ∈ (fs.drop 10).take 6, b.toNat ≤ 7) ∧ (∀ b ∈ fs.drop 16, b.toNat ≤ 15)
      ∧ ∀ x ∈ layoutFaults fs, x.2 = false := by decide

/-- A board operation in progress, its request at the head. -/
def writing (op : BoardOperation) : State :=
  { asking live 0x18 [15, 47, 7, 1, 0x41, 2] with board := { live.board with operation := some op } }

theorem test_met_board_completion :
    (writing (.console (.writeCells 15 47 .all [{}]))).Live
      ∧ (writing (.console (.writeCells 15 47 .all [{}]))).WithinCapacity
      ∧ (writing (.console (.writeCells 15 47 .all [{}]))).mgmt.queue = manage 0x18 [15, 47, 7, 1, 0x41, 2] :: [] := by
  unfold State.Live State.WithinCapacity; decide

theorem test_met_plane_masks :
    asks live 0x1C (sized 1) [5] ∧ asks live 0x1D (sized 0) [] ∧ 15 < live.board.rows.length
      ∧ 15 < live.board.markers.length := by
  unfold asks State.Asks State.Live; decide

theorem test_met_arbiter :
    (writing (.fieldWrite 0 0 [])).board.operation.isSome = true ∧ live.board.operation = none
      ∧ ({ live with shifter := { live.shifter with claim := true } } : State).chooseLoad.isSome = true
      ∧ ({ live with composer := { live.composer with queue := [.clock] } } : State).composer.queue = .clock :: []
      ∧ ({ live with mgmt := { live.mgmt with claim := some (.sendRow 3) } } : State).mgmt.claim = some (.sendRow 3) := by
  decide

theorem test_met_board_completions :
    (writing (.rowLoad 15 0 0 [] true)).Live ∧ (writing (.rowLoad 15 34 0 [] false)).Live
      ∧ (writing (.fieldWrite 15 47 [{}])).WithinCapacity ∧ onLink.Live ∧ onLink.shifter.half0 = .sending 3 0 []
      ∧ onLink.shifter.half1 = .loaded 5 34 [] := by
  unfold State.Live State.WithinCapacity; decide

/-- The clock of the race, due. -/
def clocked : State :=
  { racing with composer := { racing.composer with clockRunning := true, clockTimer := some 2410000 } }

theorem test_met_refresh_and_clock :
    racing.Live ∧ racing.refreshDue 15 = true ∧ racing.shifter.emptyHalf.isSome = true
      ∧ clocked.heat.state = .running ∧ clocked.composer.clockTimer = some 2410000
      ∧ timerDue clocked.deckTime 2410000 = true := by
  unfold State.Live; decide

theorem test_met_line_buffer : onLink.LineBufferSound ∧ step onLink = .next onLink := ⟨⟨trivial, trivial⟩, rfl⟩

/-! ### Signal lines and pulse programs -/

/-- Program 1 of the recall running in a repeat and a step. -/
def pulsing (repeatNo step : Nat) : State :=
  let current : PulseRun :=
    { program := 1, repeatNo := repeatNo, step := step, completed := (repeatNo - 1) * 2 + (step - 1), timer := 2410450 }
  { withRecall with pulse := { withRecall.pulse with running := some current } }

theorem test_met_pulse_step :
    (pulsing 1 1).Live ∧ timerDue (pulsing 1 1).deckTime 2410450 = true
      ∧ ((pulsing 1 1).pulse.program 1).steps[1]? = some { lines := 0, code := 4 }
      ∧ ((pulsing 3 2).pulse.program 1).steps.length ≤ 2 ∧ 3 < ((pulsing 3 2).pulse.program 1).repeats
      ∧ ((pulsing 4 2).pulse.program 1).repeats ≤ 4 := by
  unfold State.Live; decide

theorem test_met_programs :
    asks withRecall 0x21 (sized 1) [1] ∧ withRecall.pulse.running = none ∧ (withRecall.pulse.program 1).steps ≠ []
      ∧ asks live 0x21 (sized 1) [7] ∧ (live.pulse.program 7).steps = []
      ∧ asks (pulsing 1 1) 0x21 (sized 1) [0] ∧ (pulsing 1 1).pulse.running.isSome = true
      ∧ asks live 0x21 (sized 1) [8] ∧ asks (pulsing 1 1) 0x20 (counted 2 3 2 0 16) [7, 8, 1, 2, 7]
      ∧ (∀ e ∈ programSteps [7, 8, 1, 2, 7], byteAt e 1 ≤ 7)
      ∧ asks (pulsing 1 1) 0x20 (counted 2 3 2 0 16) [1, 1, 1, 2, 7] := by
  unfold asks State.Asks State.Live; decide

theorem test_met_lines :
    asks live 0x22 (sized 2) [7, 2] ∧ LineFunction.ofCode? 2 = some .held ∧ 7 ≠ live.mgmt.settings.startLine
      ∧ asks live 0x22 (sized 2) [0, 1] ∧ live.mgmt.settings.startLine = 0 ∧ asks live 0x23 (sized 2) [7, 1] := by
  unfold asks State.Asks State.Live; decide

theorem test_met_pulse_sound : live.PulseSound ∧ step live = .next live :=
  ⟨⟨by decide, fun _ h => nomatch h⟩, rfl⟩

/-! ### Witnesses of the wider clauses: time, intake, Loop Out -/

theorem test_met_tick_due : overtime.Live ∧ overtime.heat.state = .running ∧ overtime.expired overtime.heat.limitTimer = true
    ∧ (after .tick overtime).heat.state = .results := by
  unfold State.Live; decide +kernel

/-- A hub whose silence timer expires at the next tick. -/
def calm : State := { live with intake := { live.intake with silenceTimer := some 1001 } }

theorem test_met_none_due : calm.Live ∧ calm.NoneDue :=
  ⟨rfl, by decide, by decide, by decide, by decide, by decide, fun _ h => absurd h List.not_mem_nil, by decide,
    fun r h => nomatch (h : none = some r)⟩

/-- A hub in a whole frame, its end delimiter next. -/
def inWhole (f : Frame) : State := inFrame f.bytes

/-- A SENSOR frame of a TURN node with a platform press and a sixth sensor: BAD_SENSOR, from a node that is known. -/
def oddSensor : Frame := sealFrame 0 0x35 0x01 0 [42, 2, 0x11, 0, 5, 0x51, 0, 5]

theorem test_met_ended_frame_verdicts :
    (inWhole oddSensor).Live ∧ (inWhole oddSensor).intake.checker = .inFrame oddSensor.bytes false (some 990)
      ∧ (inWhole oddSensor).verdict (ended oddSensor) = .inadmissible ∧ Verdict.inadmissible.refuses = true
      ∧ live.verdict (ended (sealFrame 0x25 2 0x20 0 [1])) = .forwarded ∧ Verdict.forwarded.refuses = false := by
  unfold State.Live; decide +kernel

theorem test_met_qualifiers :
    oddSensor.qualifiers live.nodes.active = [.badSensor]
      ∧ (sealFrame 0 0x61 0x01 0 [42, 9]).qualifiers live.nodes.active = [.unknownNode, .badEdgeCount]
      ∧ (sealFrame 0 0x14 0x10 0 []).qualifiers live.nodes.active = [.notConsole]
      ∧ (sealFrame 0 0x14 0x12 0 []).qualifiers live.nodes.active = [.kindNotTaken] := by decide

/-- Lane 4's START node, and its TURN node. -/
def nodeAt (wall : Wall) : ActiveEntry :=
  { address := if wall = .start then 0x14 else 0x34, lane := 4, wall := wall, delay := 0, enabled := true,
    expected := some 40 }

/-- A gap of two frames meets a collector that collects at the node's wall, and lanes with and without a record. -/
theorem test_met_sequence_gap :
    sequenceDistance (some 40) 42 = 2 ∧ live.heat.state ≠ .running ∧ racing.heat.state = .running
      ∧ lapWall turning.lap = (nodeAt .turn).wall ∧ (racing.record? 4).any (·.status == .swimming) = true
      ∧ allIn.heat.state = .running ∧ (allIn.record? 4).any (·.status == .dns) = true ∧ racing.record? 6 = none
      ∧ ((racing.sequenceGap (nodeAt .turn) 2).collector? 4).any (·.link) = true := by decide

/-- A port that sends the idle symbol of an abandoned frame, with a reply waiting. -/
def cutShort : State := { live with out := { live.out with outbound := [manage 4 []], cutting := true } }

theorem test_met_loop_out_cut :
    cutShort.Live ∧ cutShort.out.cutting = true ∧ cutShort.out.outbound.length < 32
      ∧ cutShort.out.outbound = manage 4 [] :: [] ∧ cutShort.out.transit = [] ∧ live.out.cutting = false
      ∧ (after .loopOutCompletion cutShort).out.port = some (manage 4 [], .outbound) := by
  unfold State.Live; decide

/-- R126 and R129: a frame on Loop Out, and what is sent of one abandoned after two symbols. -/
theorem test_loop_out_line :
    (sending [] [] .transit).out.line = (manage 1 []).symbols ++ [.idle] ∧ live.out.line = [.idle]
      ∧ (sending [] [] .transit).out.abandoned 2 = [.startDelimiter, .data 0, .idle] := by decide

/-! ### Witnesses of the wider clauses: edges and the start -/

/-- A press of lane 4's TURN pad, a release of its START platform, and a stale press. -/
theorem test_met_hand_edge :
    Sensor.ofCode? (byteAt [0x01, 0, 5] 0 / 16) = some .pad ∧ (byteAt [0x01, 0, 5] 0).testBit 0 = true
      ∧ (edgeDeck 2410450 0 [0x01, 0, 5]).isSome = true
      ∧ Sensor.ofCode? (byteAt [0x10, 0, 5] 0 / 16) = some .platform ∧ (byteAt [0x10, 0, 5] 0).testBit 0 = false
      ∧ edgeDeck 2410450 0 [0x01, 0xFF, 0xFF] = none ∧ racing.heat.state = .running ∧ live.heat.state ≠ .running
      ∧ (nodeAt .start).wall = .start ∧ racing.plan.startSensor = .platform ∧ (racing.tracker 4).taking = true
      ∧ (live.tracker 4).taking = false := by decide

/-- R38 and R40: the start sensor's edges at the START wall reach the tracker. -/
theorem test_tracker_takes_edges :
    ((racing.handEdge (nodeAt .start) 2410450 [0x11, 0, 5]).tracker 4).state = .pressed
      ∧ ((racing.handEdge (nodeAt .start) 2410450 [0x10, 0, 5]).tracker 4).lastRelease = some 2410445
      ∧ ((racing.handEdge (nodeAt .turn) 2410450 [0x10, 0, 5]).tracker 4).state = .unknown := by decide

/-- The plan with fields 8 and 14 outside their ranges, as LOAD_HEAT_PLAN carries it. -/
def wideRequest : List Byte :=
  { plan with collectionWindow := 9, heatLimit := 61 }.fixedBytes ++ [byte plan.entries.length]
    ++ plan.entries.flatMap LaneEntry.bytes

theorem test_met_load_plan_clamped :
    asks live 0x08 (counted 20 21 4 0 10) wideRequest ∧ (planFields wideRequest).valueFault = none
      ∧ (planFields wideRequest).fault live.mgmt.settings = none ∧ (planFields wideRequest).collectionWindow = 9
      ∧ (planFields wideRequest).clamped = some 8 := by
  unfold asks State.Asks State.Live; decide

theorem test_met_plan_refusals :
    asks live 0x08 (counted 20 21 4 0 10) (wideRequest.set 6 5) ∧ (planFields (wideRequest.set 6 5)).valueFault = some 5
      ∧ asks live 0x08 (counted 20 21 4 0 10) (wideRequest.set 4 75)
      ∧ (planFields (wideRequest.set 4 75)).valueFault = none
      ∧ (planFields (wideRequest.set 4 75)).fault live.mgmt.settings = some 1 := by
  unfold asks State.Asks State.Live; decide

/-- The closed heat with lane 4 DNS. -/
def dnsLane : State := { closed with results := allIn.results }

theorem test_met_referee_refusals :
    asks loaded 0x0D (sized 1) [4] ∧ loaded.laneInUse 4 = true ∧ loaded.heat.state = .idle
      ∧ asks finished 0x0D (sized 1) [4] ∧ (finished.record? 4).any (·.status == .final) = true
      ∧ asks finished 0x0E (sized 6) [9, 0, 0, 0, 0, 0] ∧ finished.laneInUse 9 = false
      ∧ asks finished 0x0E (sized 6) [4, 4, 0, 0, 0, 0] ∧ asks armed 0x0E (sized 6) [4, 3, 0, 0, 0, 0]
      ∧ asks finished 0x0E (sized 6) [5, 3, 0, 0, 0, 0] ∧ (finished.record? 5).any (·.status == .swimming) = true
      ∧ asks finished 0x0F (sized 2) [10, 0] ∧ asks finished 0x0F (sized 2) [4, 2] ∧ asks loaded 0x0F (sized 2) [4, 1]
      ∧ asks dnsLane 0x0F (sized 2) [4, 1] ∧ dnsLane.laneInUse 4 = true ∧ dnsLane.heat.state = .results
      ∧ (dnsLane.record? 4).any (·.status == .dns) = true := by
  unfold asks State.Asks State.Live; decide

/-- Programs 0 and 2 with one step each. -/
def withSignals (s : State) : State :=
  let one : PulseProgram := { repeats := 1, steps := [{ lines := 2, code := 4 }] }
  { s with pulse := { s.pulse with programs := (s.pulse.programs.set 0 one).set 2 one } }

theorem test_met_start_program :
    (withSignals armed).Live ∧ ((withSignals armed).pulse.program 0).steps = { lines := 2, code := 4 } :: []
      ∧ (withSignals armed).heat.state = .armed ∧ (withSignals armed).pulse.running = none
      ∧ (armed.pulse.program 0).steps = [] ∧ ((after .startLineRisingEdge (withSignals armed)).pulse.running).isSome := by
  unfold State.Live; decide +kernel

/-- The arming with program 3 running, as a start finds it. -/
def callingUp : State :=
  let s := withSignals armed
  { s with pulse := { s.pulse with
      programs := s.pulse.programs.set 3 { repeats := 1, steps := [{ lines := 2, code := 4 }] }
      running := some { program := 3, repeatNo := 1, step := 1, completed := 0, timer := 2000 } } }

theorem test_met_start_preempts :
    callingUp.Live ∧ callingUp.heat.state = .armed ∧ callingUp.pulse.running.isSome = true
      ∧ (after .startLineRisingEdge callingUp).pulse.status.outcome = some .preempted := by
  unfold State.Live; decide +kernel

theorem test_met_judge_start_lane :
    (racing.record? 4).any (·.status == .swimming) = true ∧ (allIn.record? 4).any (·.status == .dns) = true := by decide

/-! ### Witnesses of the wider clauses: closing, laps and results -/

/-- The closed race but for its state: every lane FINAL or NO_FINISH, programs loaded. -/
def closingDown (running : Option PulseRun) : State :=
  let s := withSignals { closed with heat := { closed.heat with state := .running, limitTimer := some 60000000 } }
  { s with pulse := { s.pulse with running := running } }

/-- Program 0 in its only step. -/
def signal : PulseRun := { program := 0, repeatNo := 1, step := 1, completed := 0, timer := 60000000 }

theorem test_met_close_programs :
    (closingDown none).ResultsSound ∧ (closingDown none).heat.state = .running
      ∧ ((closingDown none).pulse.program 2).steps = { lines := 2, code := 4 } :: [] ∧ (closingDown none).pulse.running = none
      ∧ (closingDown (some signal)).ResultsSound ∧ (closingDown (some signal)).pulse.running.isSome = true
      ∧ (racing.pulse.program 2).steps = []
      ∧ ((closingDown none).closeHeat .closeAllFinal).pulse.running.isSome = true
      ∧ ((closingDown (some signal)).closeHeat .closeAllFinal).pulse.skipped = 1 := by
  unfold State.ResultsSound; decide +kernel

/-- A relay at its close: an exchange open, an open finish collection and a lane that swims. -/
def relayCloses : State := handingOver.setCollector finishing

theorem test_met_close_relay :
    relayCloses.ResultsSound ∧ (∀ x ∈ relayCloses.exchanges, x.lane < 10) ∧ (relayCloses.exchanges.map (·.lane)).Nodup
      ∧ relayCloses.heat.state = .running ∧ relayCloses.exchanges ≠ []
      ∧ ((relayCloses.closeHeat .closeLimit).record? 4).any (·.status == .final) = true
      ∧ ((relayCloses.closeHeat .closeLimit).record? 5).any (·.status == .noFinish) = true := by
  unfold State.ResultsSound; decide +kernel

/-- The race with splits reported for no lap. -/
def hushed : State :=
  { racing with heat := { racing.heat with plan := some { plan with split := .finishOnly } } }

theorem test_met_press_values :
    (secondLap.collector? 4).any (fun c => c.state == .armed && c.lap == secondLap.laps) = true
      ∧ (press 4 .start .pad 4310450).wall = lapWall 2 ∧ (4310450 : Int) ≤ (press 4 .start .pad 4310450).time
      ∧ (secondLap.takePress (press 4 .start .pad 4310450)).out ≠ secondLap.out
      ∧ turning.value .pad = some 2310450 ∧ (press 4 .turn .pad 2310449).time < 2310450
      ∧ ¬(press 4 .turn .pad 2310450).time < 2310450 ∧ turning.lap ≠ racing.laps ∧ racing.plan.split = .allWalls
      ∧ hushed.plan.split = .finishOnly ∧ hushed.collector? 4 = some turning := by decide

theorem test_met_press_skip :
    (press 5 .start .pad 1999999).wall ≠ lapWall 1 ∧ (press 5 .start .pad 1999999).time < (2000000 : Int)
      ∧ (press 5 .start .button1 4000000).sensor ≠ .pad ∧ exchangeAt racing.plan.relay racing.laps 1 = none
      ∧ ((racing.takePress (press 5 .start .button1 4000000)).record? 5).any (fun r => r.lapCount == 1 && r.flags.review)
        = true := by decide

theorem test_met_collection_expiry_hushed :
    hushed.Live ∧ hushed.expired turning.timer = true ∧ turning.lap < hushed.laps
      ∧ ¬(hushed.plan.split = .allWalls ∨ (hushed.plan.split = .startWall ∧ lapWall turning.lap = .start)) := by
  unfold State.Live; decide

theorem test_met_times_bounded : racing.HeatSound ∧ racing.TimesBounded ∧ step racing = .next racing := by
  refine ⟨by unfold State.HeatSound; decide, ⟨?_, by decide, fun _ => ⟨0, rfl, by decide, by decide⟩,
    ?_, ?_, fun _ h => absurd h List.not_mem_nil, ?_⟩, rfl⟩
  · intro p h; cases h; decide
  · intro bytes long d h; cases h
  · intro c h
    rcases List.mem_cons.mp h with rfl | h
    · refine ⟨fun a h => ?_, fun t h => ?_⟩
      · cases h; decide
      · rcases h with h | h | h | h <;> cases h <;> (constructor <;> decide)
    · cases List.mem_singleton.mp h
      exact ⟨fun a h => by cases h; decide, fun t h => by rcases h with h | h | h | h <;> cases h⟩
  · intro r h
    rcases List.mem_cons.mp h with rfl | h
    · intro t h; rcases h with h | h | h | h <;> cases h
    · cases List.mem_singleton.mp h
      intro t h; rcases h with h | h | h | h <;> cases h

/-- Lane 4 FINAL with a backup time alone. -/
def byButtons : State :=
  { finished with results := finished.results.map fun r => { r with finishPad := none } }

theorem test_met_adjudication_refused :
    asks byButtons 0x0E (sized 6) [4, 0, 0, 0, 0, 0]
      ∧ (byButtons.record? 4).any (fun r => r.status == .final && r.finishPad.isNone) = true
      ∧ asks finished 0x0E (sized 6) [4, 2, 3, 0x93, 0x87, 0x00]
      ∧ longAt [4, 2, 3, 0x93, 0x87, 0x00] 2 = finished.plan.heatLimit * 6000000
      ∧ finished.plan.heatLimit * 6000000 < longAt [4, 2, 3, 0x93, 0x87, 0x01] 2 := by
  unfold asks State.Asks State.Live; decide

theorem test_met_reads_found :
    live.nodes.working[31]? = some { address := 0, lane := 0, wall := .start, delay := 0, enabled := false }
      ∧ asks racing 0x10 (sized 1) [4] ∧ (racing.record? 4).isSome = true ∧ racing.record? 9 = none
      ∧ asks racing 0x11 (sized 2) [0, 1] ∧ asks live 0x07 (sized 2) [2, 31] ∧ asks live 0x07 (sized 2) [1, 32]
      ∧ asks live 0x10 (sized 1) [10] ∧ asks live 0x11 (sized 2) [9, 0] ∧ asks live 0x11 (sized 2) [9, 61] := by
  unfold asks State.Asks State.Live; decide

/-- A Working Map with two enabled entries of one address. -/
def clashing : State :=
  { live with nodes := { live.nodes with
      working := List.replicate 32 { address := 0x61, lane := 2, wall := .start, delay := 0, enabled := true } } }

theorem test_met_map_refused :
    asks clashing 0x06 (sized 1) [1] ∧ mapFault clashing.nodes.working clashing.mgmt.settings.laneCount = some 1
      ∧ asks live 0x06 (sized 1) [2]
      ∧ workingSlot { address := 0xFF, lane := 0, wall := .start, delay := 0, enabled := false } = none := by
  unfold asks State.Asks State.Live; decide

/-- R120: lane 9's nodes under fixed plan 1. -/
theorem test_fixed_plan_addresses :
    ((fixedMap 1 10)[18]?).join.map (·.address) = some 0x32 ∧ ((fixedMap 1 10)[19]?).join.map (·.address) = some 0x33 := by
  decide

/-! ### Witnesses of the wider clauses: the board -/

/-- Board Memory in the middle of a field write. -/
def busy : State := { live with board := { live.board with operation := some (.fieldWrite 0 0 []) } }

theorem test_met_board_waiting :
    busy.board.operation.isSome = true
      ∧ asks busy 0x18 (counted 3 4 2 1 48) [15, 47, 7, 1, 0x41, 2] ∧ asks busy 0x19 (sized 5) [0, 15, 0, 47, 7]
      ∧ asks busy 0x1A (sized 2) [15, 7] ∧ asks busy 0x1B (sized 3) [0x2A, 7, 1]
      ∧ asks busy 0x1E (sized 26) [0, 0, 0, 5, 0, 41, 0, 3, 34, 40, 7, 2, 3, 4, 1, 5, 1, 2, 3, 4, 5, 6, 7, 8, 9, 15]
      ∧ asks busy 0x1F (sized 1) [15] ∧ (after .sendRowNow (asking busy 0x1F [15])).mgmt.claim = some (.sendRow 15) := by
  unfold asks State.Asks State.Live; decide

/-- R166: a SEND_ROW_NOW of row 9 displaces row 5, whose marker falls to its column 34. -/
theorem test_met_send_row_displaces :
    asks onLink 0x1F (sized 1) [9] ∧ onLink.board.operation = none ∧ onLink.shifter.claim = false
      ∧ onLink.composer.queue = [] ∧ onLink.shifter.half0.isSending = true ∧ onLink.shifter.half 1 = .loaded 5 34 []
      ∧ (after .sendRowNow (asking onLink 0x1F [9])).shifter.half1 = .empty := by
  unfold asks State.Asks State.Live; decide

theorem test_met_board_refusals :
    asks live 0x18 (counted 3 4 2 1 48) [16, 0, 7, 1, 0x41, 2] ∧ asks live 0x18 (counted 3 4 2 1 48) [15, 48, 7, 1, 0x41, 2]
      ∧ asks live 0x19 (sized 5) [1, 0, 0, 0, 7] ∧ asks live 0x19 (sized 5) [0, 0, 2, 1, 7]
      ∧ asks live 0x1A (sized 2) [16, 7] ∧ asks live 0x1B (sized 3) [0, 8, 0] ∧ asks live 0x1B (sized 3) [0, 7, 2]
      ∧ asks racing 0x1E (sized 26) (List.replicate 26 0) ∧ racing.heat.state ≠ .idle
      ∧ asks live 0x1E (sized 26) (List.replicate 26 16)
      ∧ ((layoutFaults (List.replicate 26 16)).find? (·.2)).map (·.1) = some 1
      ∧ asks live 0x1F (sized 1) [16] := by
  unfold asks State.Asks State.Live; decide

theorem test_met_board_completion_forms :
    let cut := writing (.console (.writeCells 15 47 .all [{}, {}]))
    let row := writing (.console (.sendRow 3 0 (List.replicate 48 {})))
    cut.Live ∧ cut.WithinCapacity ∧ 48 < 47 + [({} : Cell), {}].length ∧ row.Live ∧ row.WithinCapacity
      ∧ row.mgmt.claim = none ∧ row.shifter.isSending = false
      ∧ (after .boardOperationComplete row).shifter.half0 = .sending 3 0 (List.replicate 48 {}) := by
  unfold State.Live State.WithinCapacity; decide +kernel

theorem test_met_markers : (live.board.row 15).length = 48 ∧ live.board.marker 15 = some 0 := by decide

/-- Row 3 on the Board Link from half 1, row 5 LOADED in half 0. -/
def onOtherHalf : State :=
  { live with shifter := { live.shifter with half0 := .loaded 5 34 [], half1 := .sending 3 0 [] } }

theorem test_met_board_completion_halves :
    onOtherHalf.Live ∧ onOtherHalf.shifter.half0.isSending = false ∧ onOtherHalf.shifter.half1 = .sending 3 0 []
      ∧ (writing (.rowLoad 15 0 1 [] true)).Live ∧ (writing (.rowLoad 15 0 1 [] true)).mgmt.claim = none
      ∧ (writing (.fieldWrite 15 47 [{}])).Live ∧ (writing (.fieldWrite 15 47 [{}])).mgmt.claim = none
      ∧ onLink.mgmt.claim = none ∧ (after .rowLoadComplete (writing (.rowLoad 15 0 1 [] true))).board.marker 15 = none := by
  unfold State.Live; decide +kernel

/-- R14: times of 9.99 s, 10 s, 59.99 s, 1 minute and 60 minutes. -/
theorem test_time_text_forms :
    timeText 999 = [0x39, 0x2E, 0x39, 0x39] ∧ timeText 1000 = [0x31, 0x30, 0x2E, 0x30, 0x30]
      ∧ timeText 5999 = [0x35, 0x39, 0x2E, 0x39, 0x39] ∧ timeText 6000 = [0x31, 0x3A, 0x30, 0x30, 0x2E, 0x30, 0x30]
      ∧ timeText 360000 = [0x36, 0x30, 0x3A, 0x30, 0x30, 0x2E, 0x30, 0x30] := by decide

theorem test_met_fields :
    (finished.record? 4).any (fun r => decide (r.place.getD 0 < 100)) = true ∧ (BoardField.time 4).lane? = some 4
      ∧ 4 + finished.mgmt.settings.numberingBase < 100 ∧ finished.record? 9 = none ∧ BoardField.clock.lane? = none
      ∧ finished.heat.plan = some plan ∧ plan.event < 1000 ∧ plan.heat < 100 ∧ live.heat.plan = none
      ∧ live.board.layout.position (.time 9) = some (10, 40, 8) ∧ live.board.layout.laneRows[9]? = some (some 10)
      ∧ (finished.results.map (·.lane)).Nodup := by decide

/-! ### Witnesses of the clauses on due timers, exchange laps and PULSE lines -/

theorem test_met_reset_grants_row :
    State.reset.resetHeld = true ∧ State.reset.board.operation = none ∧ State.reset.shifter.half0 = .empty
      ∧ State.reset.shifter.scanner = 15 ∧ State.reset.board.marker 0 = some 0 ∧ State.reset.mgmt.claim = none := by
  decide

/-- R158 and R64: one TICK takes the due clock timer and the due collection of lane 4. -/
theorem test_met_tick_takes_due :
    clocked.Live ∧ clocked.composer.clockTimer = some 2410000 ∧ timerDue clocked.deckTime 2410000 = true
      ∧ (after .tick clocked).heat.state = .running ∧ (after .tick clocked).composer.clockTimer = some 2420000
      ∧ (after .tick clocked).collector? 4
        = some { lane := 4, lap := 2, state := .armed, arming := some 4310450 } := by
  unfold State.Live; decide +kernel

theorem test_met_tick_pulse : (pulsing 1 1).PulseSound ∧ (after .tick (pulsing 1 1)).pulse.running.isSome = true :=
  ⟨⟨by decide, fun r h => by cases h; decide⟩, by decide +kernel⟩

/-- A relay of four laps: lane 4's collection of exchange lap 1 is due, lane 5 swims lap 1. -/
def relaying (window : Option OpenExchange) : State :=
  { racing with
    heat := { racing.heat with plan := some { plan with distance := 200, relay := true } }
    exchanges := [{ lane := 4, window := window }, { lane := 5, window := window }] }

/-- An exchange still open. -/
def stillOpen : OpenExchange := { number := 2, lap := 2, arming := 0, touch := 2000000, timer := 2500000 }

theorem test_met_exchange_lap :
    (relaying none).Live ∧ (relaying none).heat.state = .running ∧ (relaying none).collector? 4 = some turning
      ∧ (relaying none).expired turning.timer = true ∧ turning.lap < (relaying none).laps
      ∧ exchangeAt (relaying none).plan.relay (relaying none).laps turning.lap = some 1
      ∧ ((relaying none).record? 4).any (·.status == .swimming) = true
      ∧ (relaying none).openExchange 4 = none ∧ (relaying (some stillOpen)).openExchange 4 = some stillOpen
      ∧ (after (.lapCollectionExpiry 4) (relaying none)).openExchange 4
        = some { number := 1, lap := 1, arming := 2000000, touch := 2310450, timer := 2610450 } := by
  unfold State.Live; decide +kernel

theorem test_met_exchange_lap_missed :
    let p := press 5 .start .button1 4000000
    ((relaying none).collector? 5).any (fun c => c.state == .armed && c.arming == some 2000000) = true
      ∧ p.wall ≠ lapWall 1 ∧ (2000000 : Int) + ((relaying none).plan.minLap * 1000 : Nat) ≤ p.time ∧ p.sensor ≠ .pad
      ∧ ((relaying none).record? 5).isSome = true ∧ (relaying (some stillOpen)).openExchange 5 = some stillOpen
      ∧ (((relaying none).takePress p).record? 5).any (fun r => r.exchange1.any (·.verdict == .notJudged)) = true := by
  decide +kernel

/-- R168: SL1, a PULSE line, in a step that names it and in one that does not. -/
theorem test_met_pulse_line :
    let line1 (s : State) : State := { s with pulse := { s.pulse with lines := s.pulse.lines.set 1 .pulse } }
    1 ≠ (line1 (pulsing 1 1)).mgmt.settings.startLine ∧ (line1 (pulsing 1 1)).pulse.lines.getD 1 .input = .pulse
      ∧ (line1 (pulsing 1 1)).lineOutput 1 = some true ∧ (line1 (pulsing 1 2)).lineOutput 1 = some false
      ∧ ((pulsing 1 1).pulse.program 1).steps[1 - 1]? = some { lines := 2, code := 4 } := by decide

/-! ### Witnesses of the clauses on hand-overs, late pads, settings, named faults and chosen loads -/

/-- R102 and R160: a USE_PAD that leaves finish and source as they were hands lane 4 over; its LANE field is granted. -/
theorem test_met_unchanged_adjudication :
    asks finished 0x0E (sized 6) [4, 0, 0, 0, 0, 0] ∧ finished.composer.queue = []
      ∧ (after .adjudicateFinish (asking finished 0x0E [4, 0, 0, 0, 0, 0])).composer.queue = [.place 4, .reaction 4, .time 4]
      ∧ (after .adjudicateFinish (asking finished 0x0E [4, 3, 0, 0, 0, 0])).composer.queue = [] := by
  unfold asks State.Asks State.Live; decide +kernel

/-- R160: a pad press that lowers P by 100 ticks, within one hundredth, hands the lane over. -/
theorem test_lower_within_hundredth :
    let s := racing.setCollector { finishing with pad := some 4862966 }
    (s.takePress (press 4 .start .pad 4862066)).composer.queue = [.lane 4, .place 4, .reaction 4, .time 4] := by
  decide +kernel

/-- R45 and R160: a release 0.75 s after the start, judged when the start window ends; lane 4's LANE field is granted at
once, and lane 5, in REVIEW already and without a reaction, is handed over to have its REACTION blanked. -/
theorem test_met_reaction_handed :
    let e : Nat := 2410450
    let s : State :=
      { racing with
        heat := { racing.heat with startTimer := some e }
        results := racing.results.map fun r => if r.lane = 5 then { r with flags := { r.flags with review := true } } else r
        starts := { racing.starts with
          trackers := racing.starts.trackers.set 4 { state := .released, lastRelease := some 75000, taking := true } } }
    s.ResultsSound ∧ timerDue s.deckTime e = true ∧ s.reaction 4 (s.heatTime e) = some 75000
      ∧ s.reaction 5 (s.heatTime e) = none
      ∧ (after .startWindowExpiry s).composer.queue
        = [.place 4, .reaction 4, .time 4, .lane 5, .place 5, .reaction 5, .time 5] := by
  unfold State.ResultsSound; decide +kernel

/-- R58: lane 4's second lap open, its first stored; a late pad press at the TURN wall marks that record alone. -/
theorem test_met_late_pad :
    let a (lane : Nat) : ArrivalRecord :=
      { lane := lane, lap := 1, wall := .turn, time := some 2310450, source := .pad, buttons := 0, flags := {} }
    let s : State := { secondLap with walls := { secondLap.walls with pool := [a 4, a 5] } }
    (s.takePress (press 4 .turn .pad 2311900)).walls.pool = [{ a 4 with flags := { latePadSeen := true } }, a 5]
      ∧ (s.takePress (press 4 .turn .button1 2311900)).walls = s.walls := by decide +kernel

/-- R41 and R142: SL7 is high when SET_MEET makes it the start line. -/
theorem test_met_start_line_moves :
    let s : State := { live with pulse := { live.pulse with sensed := live.pulse.sensed.set 7 true } }
    asks s 0x03 (sized 6) [25, 6, 1, 1, 7, 3] ∧ s.mgmt.settings.startLine ≠ 7 ∧ s.pulse.startPrevious = false
      ∧ (after .setMeet (asking s 0x03 [25, 6, 1, 1, 7, 3])).pulse.startPrevious = true := by
  unfold asks State.Asks State.Live; decide

/-- R19: a plan at fault by its relay shape, a repeated lane and its numbering is refused with code 3. -/
theorem test_met_lowest_reason :
    let p : Plan :=
      { plan with event := 0, relay := true, entries := [{ lane := 4, entryId := 1, exhibition := false },
          { lane := 4, entryId := 2, exhibition := false }] }
    p.fault live.mgmt.settings = some 3 ∧ ({ p with relay := false } : Plan).fault live.mgmt.settings = some 5 := by
  decide

/-- R22: lane 4 is the lowest lane in use that lacks its TURN entry. -/
theorem test_met_lacking_node :
    let active := (fixedMap 0 10).set 9 none
    plan.lackingNode active = some 4 ∧ plan.lackingNode (fixedMap 0 10) = none := by decide

/-- R156: a HEAT field past column 47 and a colour 8 are refused with 2, the lower number. -/
theorem test_met_bad_layout :
    let fs : List Byte := [0, 0, 0, 47, 0, 41, 0, 3, 34, 40, 8, 2, 3, 4, 1, 5, 1, 2, 3, 4, 5, 6, 7, 8, 9, 15]
    asks live 0x1E (sized 26) fs ∧ live.heat.state = .idle
      ∧ (after .writeLayout (asking live 0x1E fs)).out = live.out.offer
        (replyFrame (manage 0x1E fs).request .badValue 2 []) := by
  unfold asks State.Asks State.Live; decide +kernel

/-- R162 and R163: with the scanner at row 3, row 9 is due by its marker and row 2 by its refresh; row 9 comes first, then,
once it is CLEAN, row 2 from column 0. -/
theorem test_met_chosen_load :
    let sent : List DeckTime := List.replicate 16 100500
    let marked (m : List (Option Nat)) : State :=
      { live with
        deckTime := 100500
        board := { live.board with markers := m }
        shifter := { live.shifter with scanner := 3, lastFull := sent.set 2 500 } }
    let clean : List (Option Nat) := List.replicate 16 none
    let s := marked (clean.set 9 (some 34))
    (s.chooseLoad = some (.rowLoad 9 34 0 ((s.board.row 9).drop 34) true))
      ∧ ((marked clean).chooseLoad = some (.rowLoad 2 0 0 ((marked clean).board.row 2) true))
      ∧ (marked clean).refreshDue 2 = true ∧ (marked clean).rowDue 3 = false
      ∧ ({ onLink with shifter := { onLink.shifter with claim := true } } : State).chooseLoad = none := by decide +kernel

/-! ### Witnesses of the closes by the last open lane, of the pending list and of a cut row frame -/

/-- The race in which lane 5 is DNS: lane 4 alone keeps it open. -/
def lastLane (s : State) : State :=
  { s with results := s.results.map fun r => if r.lane = 5 then { r with status := .dns } else r }

/-- R26: the finish of the last open lane, MARK_DNS of it, and a start with both lanes DNS close the heat. -/
theorem test_met_last_open_lane :
    let finish := lastLane (racing.setCollector finishing)
    let marked := lastLane { racing with walls := { racing.walls with collectors := [{ lane := 4 }, { lane := 5 }] } }
    let absent : State := { armed with results := armed.results.map fun r => { r with status := .dns } }
    finish.Live ∧ finish.collector? 4 = some finishing ∧ finish.expired finishing.timer = true
      ∧ (∀ q ∈ finish.results, q.lane ≠ 4 → q.status = .dns)
      ∧ (after (.lapCollectionExpiry 4) finish).heat.state = .results
      ∧ asks marked 0x0D (sized 1) [4] ∧ (marked.record? 4).any (fun r => r.status == .swimming && r.lapCount == 0) = true
      ∧ (∀ q ∈ marked.results, q.lane ≠ 4 → q.status = .dns)
      ∧ (after .markDns (asking marked 0x0D [4])).heat.state = .results
      ∧ absent.heat.state = .armed ∧ (∀ r ∈ absent.results, r.status = .dns)
      ∧ (after .startLineRisingEdge absent).heat.state = .results := by
  unfold asks State.Asks State.Live; decide +kernel

/-- R160: an arming grants EVENT and leaves HEAT, CLOCK and forty lane fields pending; a recall, CLOCK and then the PLACE,
REACTION and TIME of lanes 4 and 5. -/
theorem test_met_pending :
    let s := asking { live with heat := { live.heat with plan := some plan } } 0x09 []
    (after .armHeat s).composer.queue = [.heat, .clock] ++ allLaneFields
      ∧ (after .armHeat s).board.operation = some ((after .armHeat s).fieldWrite .event)
      ∧ (after .abortHeat (asking racing 0x0A [])).composer.queue
        = [.place 4, .reaction 4, .time 4, .place 5, .reaction 5, .time 5] := by decide +kernel

/-- R167: of the 100 bytes of row 3's frame, RESTART lets the first and the one in progress out. -/
theorem test_cut_row_frame :
    let h : Shifter := { live.shifter with half0 := .sending 3 0 (List.replicate 48 {}) }
    h.half0.isSending = true ∧ h.cutFrame 1 = some [3, 0] ∧ live.shifter.cutFrame 1 = none := by decide +kernel

end Sys2Proof.Tests
end

