-- ==== Sys2Proof/Proofs/CloseHeat.lean ====
section
/-! CLOSE_HEAT by heat state (R27): what a close leaves of the heat state, and the request's two answers. -/

namespace Sys2Proof.Machine

/-! ### What the parts of a close leave of the heat (R28) -/

@[simp] theorem stopClock_heat (s : State) (t : HeatTime) : (s.stopClock t).heat = s.heat := by
  unfold State.stopClock State.makePending; split <;> rfl

@[simp] theorem fireEnd_heat (s : State) : s.fireEnd.heat = s.heat := by
  obtain ⟨_, _, _, _, -, h⟩ := fireEnd_pulseOnly s
  rw [h]

@[simp] theorem arbitrate_heat (s : State) : s.arbitrate.heat = s.heat := by
  obtain ⟨_, _, _, _, _, _, _, h⟩ := arbitrate_arbiterOnly s
  rw [h]

/-- A close enters RESULTS and nothing after that step writes the heat state, whatever the cause. -/
@[simp] theorem closeHeat_heat_state (s : State) (cause : HeatCause) : (s.closeHeat cause).heat.state = .results := by
  unfold State.closeHeat
  split
  · rw [fireEnd_heat, stopClock_heat, enterHeat_heat]
  · rw [stopClock_heat, enterHeat_heat]

/-! ### The request (R27) -/

theorem exec_closeHeat_eq (s : State) : exec .closeHeat s = execCloseHeat s := rfl

/-- CLOSE_HEAT asked of a live hub is answered by its own rule and leaves the queue. -/
theorem exec_closeHeat_asked {s : State} {f : Frame} (h : s.Asks f 0x0B (sized 0)) :
    exec .closeHeat s = .next (closeHeatRequest s f.request).popHead := by
  rw [exec_closeHeat_eq, execCloseHeat, run_live h.1, request_asked h]

theorem closeHeatRequest_running {s : State} (h : s.heat.state = .running) (q : Request) :
    closeHeatRequest s q = ((s.reply q .done).closeHeat .closeRequest).arbitrate := if_pos h

theorem closeHeatRequest_not_running {s : State} (h : s.heat.state ≠ .running) (q : Request) :
    closeHeatRequest s q = s.reply q .refusedState := if_neg h

/-- Settles O21: the request's rule splits on RUNNING; the close enters RESULTS, and the arbiter's grant and the
completion of the request keep the heat. -/
theorem closeHeatByState : Obligations.CloseHeatByState := by
  intro s f asked
  rw [exec_closeHeat_asked asked]
  constructor
  · intro running
    rw [closeHeatRequest_running running]
    exact ⟨_, rfl, by rw [popHead_heat, arbitrate_heat, closeHeat_heat_state], rfl⟩
  · intro notRunning
    rw [closeHeatRequest_not_running notRunning]
    rfl

end Sys2Proof.Machine
end

