-- ==== Sys2Proof/Proofs/BackupValue.lean ====
section
/-! The backup value of a collection (R62): its value by the number of buttons, and why their order plays no part. -/

namespace Sys2Proof.Machine

/-! ### The value by the button count -/

/-- Of three values in order the median is the middle one. -/
theorem backupValue_of_sorted {a b c : HeatTime} (hab : a ≤ b) (hbc : b ≤ c) : backupValue [a, b, c] = some b := by
  rw [backupValue, min_eq_left hab, max_eq_right hab, min_eq_left hbc, max_eq_right hab]

/-- Of two values it is the mean, rounded down. -/
theorem backupValue_pair (a b : Int) :
    ∃ m : Int, backupValue [a, b] = some m ∧ 2 * m ≤ a + b ∧ a + b < 2 * m + 2 :=
  ⟨(a + b) / 2, congrArg some (Int.fdiv_eq_ediv_of_nonneg _ (by decide)), by omega, by omega⟩

/-- A collection has three buttons, so no list above three values has a backup value. -/
theorem backupValue_of_length {xs : List HeatTime} (h : 3 < xs.length) : backupValue xs = none := by
  match xs, h with
  | _ :: _ :: _ :: _ :: _, _ => rfl

/-! ### The order of the values -/

/-- The median as the model forms it is symmetric in its last two values. -/
theorem median_swap (a b c : Int) : max (min a b) (min (max a b) c) = max (min a c) (min (max a c) b) := by omega

/-- Two neighbours in the list may change places: the sum and the median are symmetric, and a longer list has no value
either way. -/
theorem backupValue_swap (x y : HeatTime) : ∀ before after : List HeatTime,
    backupValue (before ++ x :: y :: after) = backupValue (before ++ y :: x :: after)
  | [], [] => by simp only [List.nil_append, backupValue, Int.add_comm]
  | [], [c] => by simp only [List.nil_append, backupValue, min_comm, max_comm]
  | [a], [] => congrArg some (median_swap a x y)
  | [], _ :: _ :: _ => rfl
  | [_], _ :: _ => rfl
  | _ :: _ :: _, _ => by
    rw [backupValue_of_length, backupValue_of_length] <;>
      (simp only [List.length_append, List.length_cons]; omega)

/-- A permutation is a chain of such swaps, each behind the values that stay in front. -/
theorem backupValue_perm {xs ys : List HeatTime} (h : xs.Perm ys) : backupValue xs = backupValue ys := by
  suffices ∀ before, backupValue (before ++ xs) = backupValue (before ++ ys) from this []
  induction h with
  | nil => exact fun _ => rfl
  | cons x _ ih => exact fun before => by simpa using ih (before ++ [x])
  | swap x y l => exact fun before => backupValue_swap y x before l
  | trans _ _ ih₁ ih₂ => exact fun before => (ih₁ before).trans (ih₂ before)

/-! ### The values a collection holds -/

/-- The button count is the number of buttons with a value. -/
theorem length_buttons (c : Collector) :
    c.buttons.length = c.b1.isSome.toNat + c.b2.isSome.toNat + c.b3.isSome.toNat := by
  have one : ∀ b : Option HeatTime, ([b].filterMap id).length = b.isSome.toNat := fun b => by cases b <;> rfl
  calc c.buttons.length
      = ([c.b1].filterMap id ++ ([c.b2].filterMap id ++ [c.b3].filterMap id)).length := by
        rw [← List.filterMap_append, ← List.filterMap_append]; rfl
    _ = _ := by rw [List.length_append, List.length_append, one, one, one, Nat.add_assoc]

theorem mem_buttons {c : Collector} {x : HeatTime} :
    x ∈ c.buttons ↔ c.b1 = some x ∨ c.b2 = some x ∨ c.b3 = some x := by
  simp [Collector.buttons, eq_comm]

/-- Settles O27: the value by the number of buttons, its independence of their order by adjacent swaps, and the
collection's list as the values its three fields hold. -/
theorem backupValueOfButtons : Obligations.BackupValueOfButtons :=
  ⟨fun _ _ _ => backupValue_of_sorted, backupValue_pair, fun _ => rfl, rfl, fun _ _ => backupValue_perm,
    fun c => ⟨length_buttons c, fun _ => mem_buttons⟩⟩

end Sys2Proof.Machine
end

