-- ==== Sys2Proof/Proofs/Places.lean ====
section
/-! Places (R96): a place is one more than the number of eligible lanes ahead, so how places compare is how those lists
of lanes compare. -/

namespace Sys2Proof.Machine

/-! ### The lanes ahead -/

/-- The eligible lanes whose official hundredths are strictly smaller than the lane's. -/
def lanesAhead (rs : List LaneRecord) (r : LaneRecord) : List LaneRecord :=
  rs.filter fun q => q.eligible && decide (q.hundredths < r.hundredths)

theorem mem_lanesAhead {rs : List LaneRecord} {q r : LaneRecord} :
    q ∈ lanesAhead rs r ↔ q ∈ rs ∧ q.eligible = true ∧ q.hundredths < r.hundredths := by
  simp only [lanesAhead, List.mem_filter, Bool.and_eq_true, decide_eq_true_eq]

/-- A condition that implies another, and that some lane fails while it meets the other, keeps fewer lanes. -/
theorem length_filter_lt_of_imp {p q : LaneRecord → Bool} {rs : List LaneRecord} {r : LaneRecord}
    (imp : ∀ x, p x = true → q x = true) (mem : r ∈ rs) (hq : q r = true) (hp : ¬ p r = true) :
    (rs.filter p).length < (rs.filter q).length := by
  have twice : (rs.filter q).filter p = rs.filter p := by
    rw [List.filter_filter]
    exact List.filter_congr fun x _ => Bool.and_eq_left_iff_imp.mpr (imp x)
  rw [← twice]
  exact List.length_filter_lt_length_iff_exists.mpr ⟨r, List.mem_filter.mpr ⟨mem, hq⟩, hp⟩

/-- Behind a faster eligible lane stand that lane itself and all that are ahead of it. -/
theorem length_lanesAhead_lt_of_hundredths_lt {rs : List LaneRecord} {q r : LaneRecord} (mem : q ∈ rs)
    (eligible : q.eligible = true) (faster : q.hundredths < r.hundredths) :
    (lanesAhead rs q).length < (lanesAhead rs r).length := by
  refine length_filter_lt_of_imp (r := q) (fun x ahead => ?_) mem ?_ ?_
  · simp only [Bool.and_eq_true, decide_eq_true_eq] at ahead ⊢
    exact ahead.imp_right fun h => h.trans faster
  · simp [eligible, faster]
  · simp

/-- An eligible lane is not ahead of itself. -/
theorem length_lanesAhead_lt_eligible {rs : List LaneRecord} {r : LaneRecord} (mem : r ∈ rs)
    (eligible : r.eligible = true) : (lanesAhead rs r).length < (rs.filter (·.eligible)).length :=
  length_filter_lt_of_imp (fun _ ahead => (Bool.and_eq_true_iff.mp ahead).1) mem eligible (by simp)

/-- No lane is ahead of a fastest eligible one. -/
theorem exists_lanesAhead_eq_nil {rs : List LaneRecord} (some_eligible : ∃ q ∈ rs, q.eligible = true) :
    ∃ q ∈ rs, q.eligible = true ∧ lanesAhead rs q = [] := by
  obtain ⟨q₀, mem₀, eligible₀⟩ := some_eligible
  have nonempty : ((rs.filter (·.eligible) : List LaneRecord) : Multiset LaneRecord) ≠ 0 :=
    fun h => List.ne_nil_of_mem (List.mem_filter.mpr ⟨mem₀, eligible₀⟩) ((Multiset.coe_eq_zero _).mp h)
  obtain ⟨q, mem, least⟩ := Multiset.exists_min_image LaneRecord.hundredths nonempty
  obtain ⟨q_mem, q_eligible⟩ := List.mem_filter.mp (Multiset.mem_coe.mp mem)
  refine ⟨q, q_mem, q_eligible, List.eq_nil_iff_forall_not_mem.mpr fun x ahead => ?_⟩
  obtain ⟨x_mem, x_eligible, faster⟩ := mem_lanesAhead.mp ahead
  exact absurd faster (not_lt.mpr (least x (Multiset.mem_coe.mpr (List.mem_filter.mpr ⟨x_mem, x_eligible⟩))))

/-! ### The place -/

theorem placeOf_of_eligible {rs : List LaneRecord} {r : LaneRecord} (h : r.eligible = true) :
    placeOf rs r = some (1 + (lanesAhead rs r).length) := if_pos h

theorem placeOf_eq_some_iff {rs : List LaneRecord} {r : LaneRecord} {n : Nat} :
    placeOf rs r = some n ↔ r.eligible = true ∧ 1 + (lanesAhead rs r).length = n := by
  simp only [placeOf, lanesAhead, Option.ite_none_right_eq_some, Option.some.injEq]

theorem isSome_placeOf {rs : List LaneRecord} {r : LaneRecord} :
    (placeOf rs r).isSome = true ↔ r.eligible = true := by
  simp only [Option.isSome_iff_exists, placeOf_eq_some_iff, exists_and_left, exists_eq', and_true]

theorem placeOf_eq_of_hundredths_eq {rs : List LaneRecord} {q r : LaneRecord} (hr : r.eligible = true)
    (hq : q.eligible = true) (same : q.hundredths = r.hundredths) : placeOf rs q = placeOf rs r := by
  rw [placeOf_of_eligible hq, placeOf_of_eligible hr, lanesAhead, lanesAhead, same]

theorem placeOf_lt_of_hundredths_lt {rs : List LaneRecord} {q r : LaneRecord} (mem : q ∈ rs) {m n : Nat}
    (hq : placeOf rs q = some m) (hr : placeOf rs r = some n) (faster : q.hundredths < r.hundredths) : m < n := by
  obtain ⟨eligible, rfl⟩ := placeOf_eq_some_iff.mp hq
  obtain ⟨-, rfl⟩ := placeOf_eq_some_iff.mp hr
  exact Nat.add_lt_add_left (length_lanesAhead_lt_of_hundredths_lt mem eligible faster) 1

/-- Places lie from 1 to the number of eligible lanes, so to ten in a table of ten lanes. -/
theorem placeOf_bounds {rs : List LaneRecord} {r : LaneRecord} (mem : r ∈ rs) {n : Nat} (h : placeOf rs r = some n) :
    1 ≤ n ∧ n ≤ (rs.filter (·.eligible)).length ∧ (rs.length ≤ 10 → n ≤ 10) := by
  obtain ⟨eligible, rfl⟩ := placeOf_eq_some_iff.mp h
  have below := length_lanesAhead_lt_eligible mem eligible
  have all : (rs.filter (·.eligible)).length ≤ rs.length := List.length_filter_le _ _
  omega

theorem exists_placeOf_eq_one {rs : List LaneRecord} (some_eligible : ∃ q ∈ rs, q.eligible = true) :
    ∃ q ∈ rs, placeOf rs q = some 1 := by
  obtain ⟨q, mem, eligible, none_ahead⟩ := exists_lanesAhead_eq_nil some_eligible
  exact ⟨q, mem, by rw [placeOf_of_eligible eligible, none_ahead, List.length_nil]⟩

/-! ### The official hundredths -/

/-- Of a finish time that is not negative the hundredths are the quotient rounded down (R10). -/
theorem hundredths_of_finish {r : LaneRecord} {t : Int} (nonneg : 0 ≤ t) (finish : r.finish = some t) :
    r.hundredths = t / 1000 := by
  rw [LaneRecord.hundredths, finish, Option.getD_some, Int.tdiv_eq_ediv_of_nonneg nonneg]

/-- Settles O36: each clause is the lemma above that compares the lanes ahead, for any list of records. -/
theorem placesFollowHundredths : Obligations.PlacesFollowHundredths := fun _ _ =>
  ⟨isSome_placeOf, placeOf_of_eligible, fun _ => placeOf_eq_of_hundredths_eq,
    fun _ mem _ _ => placeOf_lt_of_hundredths_lt mem, fun mem _ => placeOf_bounds mem, exists_placeOf_eq_one,
    fun _ => hundredths_of_finish⟩

end Sys2Proof.Machine
end

