-- ==== Sys2Proof/Proofs/ReportDestination.lean ====
section
/-! SET_REPORT_DEST (R144): where a queued frame goes when another is offered, what address a report takes as it joins,
and the request's two answers. -/

namespace Sys2Proof.Machine

/-! ### The frames of the Outbound Queue (R124, R127) -/

/-- A choice takes at most the head of the Outbound Queue, and puts that frame on the port. -/
theorem LoopOut.choose_mem_outbound (o : LoopOut) {g : Frame} (mem : g ∈ o.outbound) :
    g ∈ o.choose.outbound ∨ o.choose.port = some (g, .outbound) := by
  have served {h : Frame} {fs : List Frame} (queued : o.outbound = h :: fs) :
      g ∈ fs ∨ some (h, QueueName.outbound) = some (g, .outbound) := by
    rcases List.mem_cons.mp (queued ▸ mem) with rfl | waits
    · exact .inr rfl
    · exact .inl waits
  unfold LoopOut.choose
  split
  · exact .inl mem
  · exact .inl mem
  · split
    · exact .inl mem
    · next queued _ => exact served queued
    · exact .inl mem
    · next queued _ =>
      split
      · exact served queued
      · exact .inl mem

/-- An offered frame displaces none: it joins behind the frames that wait, or is itself discarded. -/
theorem LoopOut.offer_mem_outbound (o : LoopOut) (f : Frame) {g : Frame} (mem : g ∈ o.outbound) :
    g ∈ (o.offer f).outbound ∨ (o.offer f).port = some (g, .outbound) := by
  unfold LoopOut.offer
  split
  · exact LoopOut.choose_mem_outbound _ (List.mem_append_left [f] mem)
  · exact .inl mem

/-- A report that joins takes the destination and the number of that moment (R131). -/
theorem LoopOut.report_of_room {o : LoopOut} (room : o.outbound.length < Config.outboundCapacity) (r : Report) :
    o.report r = { o.offer (reportFrame o.reportDest o.reportNumber r) with reportNumber := o.reportNumber + 1 } :=
  if_pos room

/-! ### The request (R144) -/

/-- The addresses that SET_REPORT_DEST takes. -/
def isReportDest (a : Byte) : Prop := a = 0x02 ∨ a = 0x03 ∨ a = 0xFF

theorem exec_setReportDest_eq (s : State) : exec .setReportDest s = execSetReportDest s := rfl

/-- SET_REPORT_DEST asked of a live hub is answered by its own rule and leaves the queue. -/
theorem exec_setReportDest_asked {s : State} {f : Frame} (h : s.Asks f 0x12 (sized 1)) :
    exec .setReportDest s = .next (setReportDest s f.request).popHead := by
  rw [exec_setReportDest_eq, execSetReportDest, run_live h.1, request_asked h]

theorem setReportDest_taken {q : Request} (taken : isReportDest (q.fields.getD 0 0)) (s : State) :
    setReportDest s q =
      State.reply { s with out := { s.out with reportDest := q.fields.getD 0 0 } } q .done := if_pos taken

theorem setReportDest_refused {q : Request} (refused : ¬ isReportDest (q.fields.getD 0 0)) (s : State) :
    setReportDest s q = s.reply q .badValue 1 := if_neg refused

/-- Settles O43: the request's rule splits on the address; the REPLY it offers keeps the new destination and every frame
that waits, and a report that finds room is addressed by that destination. -/
theorem reportDestination : Obligations.ReportDestination := by
  intro s f asked a
  rw [exec_setReportDest_asked asked]
  refine ⟨fun taken => ?_, fun refused => ?_, fun taken t next => ?_⟩
  · rw [setReportDest_taken taken]
    rfl
  · rw [setReportDest_refused refused]
    rfl
  · rw [setReportDest_taken taken] at next
    obtain rfl := Host.Outcome.next.inj next
    have dest := LoopOut.offer_reportDest { s.out with reportDest := a } (replyFrame f.request .done 0 [])
    refine ⟨dest, fun _ mem => LoopOut.offer_mem_outbound { s.out with reportDest := a } _ mem, fun r room => ?_⟩
    rw [LoopOut.report_of_room room, popHead_out, reply_out, dest]
    rfl

end Sys2Proof.Machine
end

