-- ==== Sys2Proof/Proofs/Dispatch.lean ====
section
/-! SUPPORT. What each command of the table runs: the equations by which every later proof enters a command. All but four
commands do nothing while the part is held in hardware reset (`State.run`). -/

namespace Sys2Proof.Machine

theorem exec_frameReceived_run (sym : LoopSymbol) (s : State) :
    exec (.frameReceived sym) s =
      s.run fun s => if s.endsFrame sym then (s.symbolArrives sym).arbitrate else s := rfl

theorem exec_loopSilenceExpiry_run (s : State) :
    exec .loopSilenceExpiry s = s.run State.silenceExpires := rfl

theorem exec_loopRestored_run (sym : LoopSymbol) (s : State) :
    exec (.loopRestored sym) s =
      s.run fun s =>
        if s.intake.link = .outage ∧ sym.valid = true then (s.symbolArrives sym).arbitrate else s := rfl

theorem exec_startWindowExpiry_run (s : State) :
    exec .startWindowExpiry s = s.run State.startWindowExpires := rfl

theorem exec_heatLimitExpiry_run (s : State) :
    exec .heatLimitExpiry s = s.run State.limitExpires := rfl

theorem exec_lapCollectionExpiry_run (lane : Nat) (s : State) :
    exec (.lapCollectionExpiry lane) s = s.run fun s => s.collectionExpires lane := rfl

theorem exec_exchangeWindowExpiry_run (lane : Nat) (s : State) :
    exec (.exchangeWindowExpiry lane) s = s.run fun s => s.exchangeExpires lane := rfl

theorem exec_clockDisplayExpiry_run (s : State) :
    exec .clockDisplayExpiry s = s.run State.clockExpires := rfl

theorem exec_rowFullRefreshExpiry_run (row : Nat) (s : State) :
    exec (.rowFullRefreshExpiry row) s = s.run fun s => s.refreshExpires row := rfl

theorem exec_pulseStepExpiry_run (s : State) :
    exec .pulseStepExpiry s = s.run State.stepExpires := rfl

theorem exec_loopOutCompletion_run (s : State) :
    exec .loopOutCompletion s = s.run fun s =>
    if s.out.port.isSome || s.out.cutting then
      { s with out := LoopOut.choose { s.out with port := none, cutting := false } }
    else s := rfl

theorem exec_rowLoadComplete_run (s : State) :
    exec .rowLoadComplete s = s.run fun s =>
    match s.board.operation with
    | some (.rowLoad row col half cells live) =>
      (if live then (s.loadHalf row col half cells).moveScanner row else s).freeBoard
    | _ => s := rfl

theorem exec_fieldWriteComplete_run (s : State) :
    exec .fieldWriteComplete s = s.run fun s =>
    match s.board.operation with
    | some (.fieldWrite row col cells) =>
      State.freeBoard { s with board := s.board.writeRun row col .all cells }
    | _ => s := rfl

theorem exec_boardOperationComplete_run (s : State) :
    exec .boardOperationComplete s = s.run fun s =>
    match s.board.operation with
    | some (.console op) => ((s.applyConsole op).answerHead op).freeBoard
    | _ => s := rfl

theorem exec_rowSendComplete_run (s : State) :
    exec .rowSendComplete s = s.run fun s =>
    if s.shifter.isSending then (State.examineShifter { s with shifter := s.shifter.sendDone }).arbitrate
    else s := rfl

theorem exec_readStatus_run (s : State) :
    exec .readStatus s = s.run fun s => s.request 0x01 (sized 0) readStatus := rfl

theorem exec_readIntakeAnalysis_run (s : State) :
    exec .readIntakeAnalysis s = s.run fun s => s.request 0x02 (sized 0) readIntakeAnalysis := rfl

theorem exec_setMeet_run (s : State) :
    exec .setMeet s = s.run fun s => s.request 0x03 (sized 6) setMeet := rfl

theorem exec_lockMeet_run (s : State) :
    exec .lockMeet s = s.run fun s => s.request 0x04 (sized 0) lockMeet := rfl

theorem exec_writeNodeEntries_run (s : State) :
    exec .writeNodeEntries s = s.run fun s => s.request 0x05 (counted 1 2 5 1 8) writeNodeEntries := rfl

theorem exec_selectNodeMap_run (s : State) :
    exec .selectNodeMap s = s.run fun s => s.request 0x06 (sized 1) selectNodeMap := rfl

theorem exec_readNodeEntry_run (s : State) :
    exec .readNodeEntry s = s.run fun s => s.request 0x07 (sized 2) readNodeEntry := rfl

theorem exec_loadHeatPlan_run (s : State) :
    exec .loadHeatPlan s = s.run fun s => s.request 0x08 (counted 20 21 4 0 10) loadHeatPlan := rfl

theorem exec_armHeat_run (s : State) :
    exec .armHeat s = s.run fun s => s.request 0x09 (sized 0) armHeat := rfl

theorem exec_abortHeat_run (s : State) :
    exec .abortHeat s = s.run fun s => s.request 0x0A (sized 0) abortHeat := rfl

theorem exec_closeHeat_run (s : State) :
    exec .closeHeat s = s.run fun s => s.request 0x0B (sized 0) closeHeatRequest := rfl

theorem exec_clearHeat_run (s : State) :
    exec .clearHeat s = s.run fun s => s.request 0x0C (sized 0) clearHeat := rfl

theorem exec_markDns_run (s : State) :
    exec .markDns s = s.run fun s => s.request 0x0D (sized 1) markDns := rfl

theorem exec_adjudicateFinish_run (s : State) :
    exec .adjudicateFinish s = s.run fun s => s.request 0x0E (sized 6) adjudicateFinish := rfl

theorem exec_setDq_run (s : State) :
    exec .setDq s = s.run fun s => s.request 0x0F (sized 2) setDq := rfl

theorem exec_readLane_run (s : State) :
    exec .readLane s = s.run fun s => s.request 0x10 (sized 1) readLane := rfl

theorem exec_readArrivals_run (s : State) :
    exec .readArrivals s = s.run fun s => s.request 0x11 (sized 2) readArrivals := rfl

theorem exec_setReportDest_run (s : State) :
    exec .setReportDest s = s.run fun s => s.request 0x12 (sized 1) setReportDest := rfl

theorem exec_writeCells_run (s : State) :
    exec .writeCells s = s.run fun s => s.boardRequest 0x18 (counted 3 4 2 1 48) checkWriteCells := rfl

theorem exec_fillGroup_run (s : State) :
    exec .fillGroup s = s.run fun s => s.boardRequest 0x19 (sized 5) checkFillGroup := rfl

theorem exec_clearRow_run (s : State) :
    exec .clearRow s = s.run fun s => s.boardRequest 0x1A (sized 2) checkClearRow := rfl

theorem exec_loadPattern_run (s : State) :
    exec .loadPattern s = s.run fun s => s.boardRequest 0x1B (sized 3) checkLoadPattern := rfl

theorem exec_loadPlaneMask_run (s : State) :
    exec .loadPlaneMask s = s.run fun s => s.request 0x1C (sized 1) loadPlaneMask := rfl

theorem exec_releasePlaneMask_run (s : State) :
    exec .releasePlaneMask s = s.run fun s => s.request 0x1D (sized 0) releasePlaneMask := rfl

theorem exec_writeLayout_run (s : State) :
    exec .writeLayout s = s.run fun s => s.boardRequest 0x1E (sized 26) checkWriteLayout := rfl

theorem exec_sendRowNow_run (s : State) :
    exec .sendRowNow s = s.run fun s => s.boardRequest 0x1F (sized 1) checkSendRowNow := rfl

theorem exec_loadProgram_run (s : State) :
    exec .loadProgram s = s.run fun s => s.request 0x20 (counted 2 3 2 0 16) loadProgram := rfl

theorem exec_fireProgram_run (s : State) :
    exec .fireProgram s = s.run fun s => s.request 0x21 (sized 1) fireProgram := rfl

theorem exec_setLineFunction_run (s : State) :
    exec .setLineFunction s = s.run fun s => s.request 0x22 (sized 2) setLineFunction := rfl

theorem exec_setHeldLevel_run (s : State) :
    exec .setHeldLevel s = s.run fun s => s.request 0x23 (sized 2) setHeldLevel := rfl

theorem exec_readLines_run (s : State) :
    exec .readLines s = s.run fun s => s.request 0x24 (sized 0) readLines := rfl

theorem exec_restart_run (s : State) :
    exec .restart s = s.run fun s => s.request 0x30 (sized 0) restart := rfl

theorem exec_tick_run (s : State) :
    exec .tick s = s.run fun s => let t := s.takeDue; { t with deckTime := t.deckTime + 1 } := rfl

theorem exec_loopInSymbol_run (sym : LoopSymbol) (s : State) :
    exec (.loopInSymbol sym) s = s.run fun s => (s.symbolArrives sym).arbitrate := rfl

theorem exec_hardwareReset_next (s : State) :
    exec .hardwareReset s = .next
      { State.reset with
        pending := s.pending
        freeDraws := s.freeDraws
        pulse := { State.reset.pulse with sensed := s.pulse.sensed } } := rfl

theorem exec_startLineRisingEdge_next (s : State) :
    exec .startLineRisingEdge s =
      let t := s.senseLine s.mgmt.settings.startLine true
      .next (if s.resetHeld || s.pulse.startPrevious then t else (t.notePrevious true).risingEdge) := rfl

theorem exec_hardwareResetEnds_next (s : State) :
    exec .hardwareResetEnds s = .next (if s.resetHeld then s.released.examineShifter.arbitrate else s) := rfl

theorem exec_lineLevelChange_next (line : Nat) (level : Bool) (s : State) :
    exec (.lineLevelChange line level) s = .next
      (if s.isRising line level then s
      else
        let t := s.senseLine line level
        if line = s.mgmt.settings.startLine ∧ s.resetHeld = false then t.notePrevious level else t) := rfl

theorem exec_unknownRequestCode_run (s : State) :
    exec .unknownRequestCode s = s.run fun s =>
      match s.freeHead with
      | none => s
      | some f =>
        if f.payload.length < 2 then (s.reply f.request .badRequest 3).popHead
        else if requestCodes.contains f.request.code then s
        else (s.reply f.request .badRequest 1).popHead := rfl

/-! ### A step (R135) -/

theorem step_front {s : State} {c : Instr} {rest : List Instr} (front : s.pending = c :: rest) :
    step s = exec c { s with pending := rest } := by
  unfold step
  rw [front]

end Sys2Proof.Machine
end

