-- ==== Sys2Proof/Proofs/Keeping.lean ====
section
/-! What every part of a command keeps, said once: the queue of commands, and the invariants that one block decides by
itself (the Active Map, the capacities, the Line Buffer, the Pulse Unit, places and lamps). -/

namespace Sys2Proof.Machine

/-- A part of a command leaves the queue of commands alone and keeps each of the invariants that hold block by block. -/
structure State.Keeps (s t : State) : Prop where
  pending : t.pending = s.pending
  map : s.MapSound → t.MapSound
  capacity : s.WithinCapacity → t.WithinCapacity
  buffer : s.LineBufferSound → t.LineBufferSound
  pulse : s.PulseSound → t.PulseSound
  results : s.ResultsSound → t.ResultsSound

theorem State.Keeps.refl (s : State) : s.Keeps s := ⟨rfl, id, id, id, id, id⟩

theorem State.Keeps.trans {s t u : State} (h : s.Keeps t) (k : t.Keeps u) : s.Keeps u :=
  ⟨k.pending.trans h.pending, k.map ∘ h.map, k.capacity ∘ h.capacity, k.buffer ∘ h.buffer, k.pulse ∘ h.pulse,
    k.results ∘ h.results⟩

theorem foldl_state_keeps {α : Type} (g : State → α → State) (h : ∀ s a, State.Keeps s (g s a)) (as : List α) (s : State) :
    State.Keeps s (as.foldl g s) :=
  foldl_keeps State.Keeps .refl (fun _ _ _ => .trans) g h as s

/-! ### The Loop Out Port (R124, R125) -/

/-- The two queues of the port hold no more than the part has room for. -/
def LoopOut.Fits (o : LoopOut) : Prop := o.outbound.length ≤ 32 ∧ o.transit.length ≤ 16

theorem LoopOut.choose_fits {o : LoopOut} (h : o.Fits) : o.choose.Fits := by
  obtain ⟨room, transitRoom⟩ := h
  unfold LoopOut.choose
  split
  · exact ⟨room, transitRoom⟩
  · exact ⟨room, transitRoom⟩
  · split
    · exact ⟨room, transitRoom⟩
    · next e _ => exact ⟨by rw [e] at room; exact Nat.le_of_succ_le room, transitRoom⟩
    · next e => exact ⟨room, by rw [e] at transitRoom; exact Nat.le_of_succ_le transitRoom⟩
    · next e e' =>
      split
      · exact ⟨by rw [e] at room; exact Nat.le_of_succ_le room, transitRoom⟩
      · exact ⟨room, by rw [e'] at transitRoom; exact Nat.le_of_succ_le transitRoom⟩

theorem LoopOut.offer_fits {o : LoopOut} (h : o.Fits) (f : Frame) : (o.offer f).Fits := by
  unfold LoopOut.offer
  split
  · next room => exact LoopOut.choose_fits ⟨by simp [Config.outboundCapacity] at room ⊢; omega, h.2⟩
  · exact h

theorem LoopOut.report_fits {o : LoopOut} (h : o.Fits) (r : Report) : (o.report r).Fits := by
  unfold LoopOut.report
  split
  · exact LoopOut.offer_fits h _
  · exact LoopOut.offer_fits h _

theorem capacity_out {s : State} {o : LoopOut} (h : s.WithinCapacity) (fits : s.out.Fits → o.Fits) :
    State.WithinCapacity { s with out := o } := by
  obtain ⟨room, transitRoom, rest⟩ := h
  exact ⟨(fits ⟨room, transitRoom⟩).1, (fits ⟨room, transitRoom⟩).2, rest⟩

theorem out_keeps (s : State) {o : LoopOut} (fits : s.out.Fits → o.Fits) : s.Keeps { s with out := o } :=
  ⟨rfl, id, fun h => capacity_out h fits, id, id, id⟩

theorem offer_keeps (s : State) (f : Frame) : s.Keeps (s.offer f) := out_keeps s fun h => LoopOut.offer_fits h f

theorem reply_keeps (s : State) (q : Request) (r : ReplyResult) (d : Nat) (fs : List Byte) :
    s.Keeps (s.reply q r d fs) := offer_keeps s _

theorem report_keeps (s : State) (r : Report) : s.Keeps (s.report r) := out_keeps s fun h => LoopOut.report_fits h r

theorem reportOpt_keeps (s : State) (r : Option Report) : s.Keeps (s.reportOpt r) := by
  cases r with
  | none => exact .refl s
  | some r => exact report_keeps s r

theorem offerLamp_keeps (s : State) (l : Nat) (c : LampCode) : s.Keeps (s.offerLamp l c) := by
  unfold State.offerLamp
  split
  · exact offer_keeps s _
  · exact .refl s

theorem lampsOff_keeps (s : State) : s.Keeps s.lampsOff := foldl_state_keeps _ (fun s l => offerLamp_keeps s l .off) _ s

/-! ### The Management Queue (R134, R135) -/

theorem mgmt_keeps (s : State) {m : Management} (h : s.mgmt.queue.length ≤ 4 → m.queue.length ≤ 4) :
    s.Keeps { s with mgmt := m } :=
  ⟨rfl, id, fun ⟨c1, c2, c3, c4⟩ => ⟨c1, c2, h c3, c4⟩, id, id, id⟩

theorem popHead_keeps (s : State) : s.Keeps s.popHead :=
  mgmt_keeps s fun h => by simp only [List.length_tail]; omega

/-! ### The Composer's list (R157) -/

theorem composer_keeps (s : State) {c : Composer} (h : s.composer.queue.Nodup → c.queue.Nodup) :
    s.Keeps { s with composer := c } :=
  ⟨rfl, id, fun ⟨c1, c2, c3, c4, c5, c6⟩ => ⟨c1, c2, c3, c4, h c5, c6⟩, id, id, id⟩

theorem makePending_keeps (s : State) (f : BoardField) : s.Keeps (s.makePending f) := by
  unfold State.makePending
  split
  · exact .refl s
  · next new =>
    simp only [Bool.or_eq_true, List.contains_iff_mem, not_or] at new
    exact composer_keeps s fun h => List.nodup_append'.mpr ⟨h, List.nodup_singleton f, by simpa using new.2⟩

theorem makeAllPending_keeps (s : State) (fs : List BoardField) : s.Keeps (s.makeAllPending fs) :=
  foldl_state_keeps _ makePending_keeps fs s

theorem stopClock_keeps (s : State) (t : HeatTime) : s.Keeps (s.stopClock t) := by
  refine .trans ?_ (makePending_keeps _ .clock)
  exact composer_keeps s id

/-! ### Blocks that no invariant of this file reads -/

theorem intake_keeps (s : State) (i : Intake) : s.Keeps { s with intake := i } := ⟨rfl, id, id, id, id, id⟩

theorem heat_keeps (s : State) (h : Heat) : s.Keeps { s with heat := h } := ⟨rfl, id, id, id, id, id⟩

theorem exchanges_keeps (s : State) (x : List ExchangeCollector) : s.Keeps { s with exchanges := x } :=
  ⟨rfl, id, id, id, id, id⟩

theorem starts_keeps (s : State) {j : StartJudge} (h : s.starts.trackers.length = 10 → j.trackers.length = 10) :
    s.Keeps { s with starts := j } :=
  ⟨rfl, id, fun ⟨c1, c2, c3, c4, c5, c6, c7⟩ => ⟨c1, c2, c3, c4, c5, h c6, c7⟩, id, id, id⟩

theorem enterHeat_keeps (s : State) (st : HeatState) (c : HeatCause) : s.Keeps (s.enterHeat st c) :=
  (heat_keeps s _).trans (report_keeps _ _)

/-! ### The lane records (R93, R97, R100) -/

/-- Only the records' own invariant sees the lane records. -/
theorem capacity_results {s : State} (rs : List LaneRecord) (h : s.WithinCapacity) :
    State.WithinCapacity { s with results := rs } := h

theorem decideLamp_capacity {s : State} (h : s.WithinCapacity) (l : Nat) : (s.decideLamp l).WithinCapacity := by
  unfold State.decideLamp
  split
  · exact h
  · split
    · exact h
    · exact capacity_results _ ((offerLamp_keeps s l _).capacity h)

theorem decideLamps_capacity {s : State} (h : s.WithinCapacity) : s.decideLamps.WithinCapacity :=
  foldl_keeps (fun s t => s.WithinCapacity → t.WithinCapacity) (fun _ => id) (fun _ _ _ f g => g ∘ f) _
    (fun _ l h => decideLamp_capacity h l) _ s h

theorem placerPass_capacity {s : State} (h : s.WithinCapacity) (w : List LaneRecord) (l : Nat)
    (rep : LaneRecord → Option Report) : (s.placerPass w l rep).WithinCapacity := by
  have told := (reportOpt_keeps { s with results := rankAll w }
    (((rankAll w).find? (·.lane == l)).bind rep)).capacity (capacity_results _ h)
  unfold State.placerPass
  refine decideLamps_capacity ?_
  split
  · exact told
  · exact (report_keeps _ _).capacity told

theorem commit_capacity {s : State} (h : s.WithinCapacity) (l : Nat) (f : LaneRecord → LaneRecord)
    (reach names : LaneRecord → LaneRecord → Bool) (rep : LaneRecord → Option Report) :
    (s.commit l f reach names rep).WithinCapacity := by
  unfold State.commit
  split
  · exact h
  · refine (makeAllPending_keeps _ _).capacity ?_
    split
    · exact placerPass_capacity h _ l rep
    · exact (reportOpt_keeps _ _).capacity (capacity_results _ h)

/-- A writer's change that keeps the lane and, unless it reaches the Placer, what the Placer and the lamps read. -/
theorem commit_keeps (s : State) (l : Nat) {f : LaneRecord → LaneRecord} (hf : ∀ r, (f r).lane = r.lane)
    (reach names : LaneRecord → LaneRecord → Bool) (rep : LaneRecord → Option Report)
    (hk : ∀ r, s.record? l = some r → reach r (f r) = false →
      (f r).standing = r.standing ∧ (f r).place = r.place ∧ (f r).lamp = r.lamp) :
    s.Keeps (s.commit l f reach names rep) := by
  have cap := fun h => commit_capacity (s := s) h l f reach names rep
  have snd := fun h => commit_sound (s := s) h l hf reach names rep hk
  obtain ⟨rs, o, q, -, e⟩ := commit_recordsOnly s l f reach names rep
  rw [e] at cap snd ⊢
  exact ⟨rfl, id, cap, id, id, snd⟩

/-- A change that does not reach the Placer keeps what the Placer and the lamps read. -/
theorem standing_of_untouched {r q : LaneRecord} (h : touchesPlacer r q = false)
    (exhibition : q.flags.exhibition = r.flags.exhibition) : q.standing = r.standing := by
  simp only [touchesPlacer, Bool.or_eq_false_iff, bne_eq_false_iff_eq] at h
  obtain ⟨⟨⟨⟨status, finish⟩, fs⟩, et⟩, dq⟩ := h
  simp only [LaneRecord.standing, LaneRecord.eligible, LaneRecord.hundredths, LaneFlags.disqualified, status, finish, fs,
    et, dq, exhibition]

/-- A change handed to the Placer by R93 keeps the invariants when it keeps lane, exhibition mark, place and lamp. -/
theorem commit_touches_keeps (s : State) (l : Nat) {f : LaneRecord → LaneRecord}
    (hf : ∀ r, (f r).lane = r.lane ∧ (f r).flags.exhibition = r.flags.exhibition ∧ (f r).place = r.place
      ∧ (f r).lamp = r.lamp) (names : LaneRecord → LaneRecord → Bool) (rep : LaneRecord → Option Report) :
    s.Keeps (s.commit l f touchesPlacer names rep) :=
  commit_keeps s l (fun r => (hf r).1) touchesPlacer names rep fun r _ h =>
    ⟨standing_of_untouched h (hf r).2.1, (hf r).2.2⟩

/-- A change that reaches no Placer keeps the invariants when it keeps what the Placer and the lamps read. -/
theorem note_keeps (s : State) (l : Nat) {f : LaneRecord → LaneRecord}
    (hf : ∀ r, (f r).lane = r.lane ∧ (f r).standing = r.standing ∧ (f r).place = r.place ∧ (f r).lamp = r.lamp) :
    s.Keeps (s.note l f) :=
  commit_keeps s l (fun r => (hf r).1) _ unnamed _ fun r _ _ => (hf r).2

theorem afterStart_exhibition (f : LaneFlags) (floor : Nat) (t : Option HeatTime) :
    (f.afterStart floor t).exhibition = f.exhibition := by
  unfold LaneFlags.afterStart
  split
  · rfl
  · split
    · rfl
    · split <;> rfl

theorem afterVerdict_exhibition (f : LaneFlags) (v : ExchangeVerdict) : (f.afterVerdict v).exhibition = f.exhibition := by
  cases v <;> rfl

theorem judgeStartLane_keeps (tj : HeatTime) (s : State) (l : Nat) : s.Keeps (s.judgeStartLane tj l) := by
  unfold State.judgeStartLane
  split
  · exact .refl s
  · split
    · exact .refl s
    · refine commit_touches_keeps s l (fun r => ?_) _ _
      exact ⟨rfl, afterStart_exhibition _ _ _, rfl, rfl⟩

theorem judgeStart_keeps (s : State) (d : DeckTime) : s.Keeps (s.judgeStart d) :=
  (heat_keeps s _).trans (foldl_state_keeps _ (judgeStartLane_keeps _) _ _)

theorem noFinish_keeps (s : State) (l : Nat) : s.Keeps (s.noFinish l) := by
  unfold State.noFinish
  split
  · exact .refl s
  · split
    · refine commit_touches_keeps s l (fun r => ?_) _ _
      exact ⟨rfl, rfl, rfl, rfl⟩
    · exact .refl s

/-! ### The exchanges (R80 to R85) -/

theorem setExchange_keeps_standing (r : LaneRecord) (k : Nat) (e : ExchangeRecord) :
    (r.setExchange k e).lane = r.lane ∧ (r.setExchange k e).place = r.place ∧ (r.setExchange k e).lamp = r.lamp := by
  unfold LaneRecord.setExchange
  split <;> exact ⟨rfl, rfl, rfl⟩

theorem writeExchange_keeps (s : State) (l k : Nat) (e : ExchangeRecord) : s.Keeps (s.writeExchange l k e) := by
  refine commit_touches_keeps s l (fun r => ?_) _ _
  obtain ⟨lane, place, lamp⟩ := setExchange_keeps_standing r k e
  exact ⟨lane, afterVerdict_exhibition _ _, place, lamp⟩

theorem setWindow_keeps (s : State) (l : Nat) (w : Option OpenExchange) : s.Keeps (s.setWindow l w) := exchanges_keeps s _

theorem judgeExchange_keeps (s : State) (l : Nat) (d : DeckTime) : s.Keeps (s.judgeExchange l d) := by
  unfold State.judgeExchange
  split
  · exact .refl s
  · exact (writeExchange_keeps s l _ _).trans (setWindow_keeps _ l none)

theorem handoff_keeps (s : State) (l k n : Nat) (a t : HeatTime) (d : DeckTime) : s.Keeps (s.handoff l k n a t d) :=
  (judgeExchange_keeps s l d).trans (setWindow_keeps _ l _)

theorem missedExchange_keeps (s : State) (l k : Nat) : s.Keeps (s.missedExchange l k) :=
  (judgeExchange_keeps s l _).trans (writeExchange_keeps _ l k _)

/-! ### The walls (R53 to R77) -/

theorem walls_keeps (s : State) {w : WallJudge} (h : s.walls.pool.length ≤ 512 → w.pool.length ≤ 512) :
    s.Keeps { s with walls := w } :=
  ⟨rfl, id, fun ⟨c1, c2, c3, c4, c5⟩ => ⟨c1, c2, c3, h c4, c5⟩, id, id, id⟩

theorem store_pool_le (w : WallJudge) (a : ArrivalRecord) (h : w.pool.length ≤ 512) : (w.store a).pool.length ≤ 512 := by
  unfold WallJudge.store
  split
  · exact h
  · next room =>
    have short : w.pool.length < 512 := Nat.lt_of_not_le fun le => room (decide_eq_true le)
    simpa using short

theorem store_keeps (s : State) (a : ArrivalRecord) : s.Keeps (s.store a) := walls_keeps s (store_pool_le s.walls a)

theorem setCollector_keeps (s : State) (c : Collector) : s.Keeps (s.setCollector c) := walls_keeps s id

theorem markLinks_keeps (s : State) (p : Collector → Bool) : s.Keeps (s.markLinks p) := walls_keeps s id

theorem padTaken_keeps (s : State) (l n : Nat) (p : HeatTime) : s.Keeps (s.padTaken l n p) := by
  unfold State.padTaken
  split
  · refine commit_touches_keeps s l (fun r => ?_) _ _
    exact ⟨rfl, rfl, rfl, rfl⟩
  · split
    · exact note_keeps s l fun _ => ⟨rfl, rfl, rfl, rfl⟩
    · exact .refl s

theorem afterTaken_keeps (s : State) (p : Press) (n : Nat) : s.Keeps (s.afterTaken p n) := by
  unfold State.afterTaken
  split
  · exact padTaken_keeps s _ n _
  · exact .refl s

theorem openCollection_keeps (s : State) (c : Collector) (p : Press) : s.Keeps (s.openCollection c p) :=
  (setCollector_keeps s _).trans (afterTaken_keeps _ p _)

theorem joinCollection_keeps (s : State) (c : Collector) (p : Press) : s.Keeps (s.joinCollection c p) := by
  unfold State.joinCollection
  split
  · exact .refl s
  · exact (setCollector_keeps s _).trans (afterTaken_keeps _ p _)

theorem earlyPress_keeps (s : State) (l : Nat) : s.Keeps (s.earlyPress l) := note_keeps s l fun _ => ⟨rfl, rfl, rfl, rfl⟩

theorem latePress_keeps (s : State) (p : Press) (n : Option Nat) (b : Bool) : s.Keeps (s.latePress p n b) := by
  have counted := note_keeps s p.lane (f := fun r =>
    { r with late := satAdd 8 r.late 1, flags := r.flags.orReview (p.sensor == .pad && b) }) fun _ => ⟨rfl, rfl, rfl, rfl⟩
  unfold State.latePress
  dsimp only
  split
  · split
    · exact counted.trans (walls_keeps _ fun h => by simpa [WallJudge.markLate] using h)
    · exact counted
  · exact counted

theorem recordMissed_keeps (s : State) (l n : Nat) : s.Keeps (s.recordMissed l n) := by
  have told := ((store_keeps s (missedArrival l n)).trans (note_keeps _ l (f := fun r =>
    { r with
      lapCount := r.lapCount + 1
      flags := { r.flags with review := true, splitsLost := r.flags.splitsLost || s.walls.full } })
    fun r => ⟨rfl, rfl, rfl, rfl⟩)).trans (report_keeps _ (.arrival (missedArrival l n)))
  unfold State.recordMissed
  dsimp only
  split
  · exact told.trans (missedExchange_keeps _ l _)
  · exact told

theorem skipAhead_keeps (s : State) (c : Collector) (p : Press) (a : HeatTime) : s.Keeps (s.skipAhead c p a) :=
  (recordMissed_keeps s _ _).trans (openCollection_keeps _ _ p)

theorem classify_keeps (s : State) (c : Collector) (p : Press) : s.Keeps (s.classify c p) := by
  unfold State.classify
  dsimp only
  split
  · split
    · exact earlyPress_keeps s _
    · split
      · exact openCollection_keeps s c p
      · exact joinCollection_keeps s c p
  · split
    · exact latePress_keeps s p _ _
    · split
      · exact skipAhead_keeps s c p _
      · exact earlyPress_keeps s _

theorem takePress_keeps (s : State) (p : Press) : s.Keeps (s.takePress p) := by
  unfold State.takePress
  split
  · exact .refl s
  · exact .refl s
  · exact .refl s
  · exact latePress_keeps s p _ _
  · split
    · exact .refl s
    · exact latePress_keeps s p _ _
    · exact classify_keeps s _ p
    · exact classify_keeps s _ p

theorem decideLap_keeps (s : State) (c : Collector) (a : Arrival) (b : Bool) : s.Keeps (s.decideLap c a b) := by
  have counted := (store_keeps s (c.record a)).trans (note_keeps _ c.lane (f := fun r =>
    { r with
      lapCount := r.lapCount + 1
      flags := r.flags.afterArrival a s.walls.full
      displayed := if s.plan.split.shows s.laps c.lap then some a.time else r.displayed }) fun r => ⟨rfl, rfl, rfl, rfl⟩)
  have told := counted.trans (report_keeps _ (.arrival (c.record a)))
  unfold State.decideLap
  dsimp only
  refine .trans ?_ (setCollector_keeps _ _)
  split <;> split
  · exact told.trans (handoff_keeps _ _ _ _ _ _ _)
  · exact counted.trans (handoff_keeps _ _ _ _ _ _ _)
  · exact told
  · exact counted

theorem decideFinish_keeps (s : State) (c : Collector) (a : Arrival) : s.Keeps (s.decideFinish c a) := by
  refine ((store_keeps s (c.record a)).trans (commit_touches_keeps _ c.lane (fun r => ?_) _ _)).trans
    (setCollector_keeps _ c.close)
  exact ⟨rfl, rfl, rfl, rfl⟩

theorem decideCollection_keeps (s : State) (l : Nat) (b : Bool) : s.Keeps (s.decideCollection l b) := by
  unfold State.decideCollection
  split
  · exact .refl s
  · split
    · split
      · exact .refl s
      · split
        · exact decideLap_keeps s _ _ b
        · exact decideFinish_keeps s _ _
    · exact .refl s

/-! ### The Pulse Unit (R171 to R176) -/

theorem pulse_keeps (s : State) {p : PulseUnit}
    (sizes : p.lines.length = s.pulse.lines.length ∧ p.held.length = s.pulse.held.length
      ∧ p.programs.length = s.pulse.programs.length)
    (h : s.PulseSound → State.PulseSound { s with pulse := p }) : s.Keeps { s with pulse := p } := by
  obtain ⟨e1, e2, e3⟩ := sizes
  refine ⟨rfl, id, ?_, id, h, id⟩
  rintro ⟨c1, c2, c3, c4, c5, c6, c7, c8, c9, c10, c11, c12, c13, c14, c15⟩
  exact ⟨c1, c2, c3, c4, c5, c6, c7, c8, c9, c10, c11, c12, e1.trans c13, e2.trans c14, e3.trans c15⟩

theorem program_mem {p : PulseUnit} {n : Nat} (h : (p.program n).steps ≠ []) : p.program n ∈ p.programs := by
  unfold PulseUnit.program at h ⊢
  rcases Nat.lt_or_ge n p.programs.length with inside | beyond
  · rw [List.getD_eq_getElem _ _ inside]; exact List.getElem_mem inside
  · rw [List.getD_eq_default _ _ beyond] at h; exact absurd rfl h

theorem beginProgram_keeps (s : State) (n : Nat) : s.Keeps (s.beginProgram n) := by
  unfold State.beginProgram
  split
  · exact .refl s
  · next st rest steps =>
    refine pulse_keeps s ⟨rfl, rfl, rfl⟩ fun h => ⟨h.1, fun r e => ?_⟩
    obtain rfl := Option.some.inj e
    have inTable := h.1 _ (program_mem (n := n) (by rw [steps]; exact List.cons_ne_nil _ _))
    show 1 ≤ 1 ∧ 1 ≤ (s.pulse.program n).steps.length ∧ 1 ≤ 1 ∧ 1 ≤ (s.pulse.program n).repeats
      ∧ 0 = (1 - 1) * (s.pulse.program n).steps.length + (1 - 1)
    rw [steps]
    exact ⟨le_rfl, by simp, le_rfl, inTable.1, by simp⟩

theorem stopped_pulseSound {s : State} {p : PulseUnit} (h : s.PulseSound) (programs : p.programs = s.pulse.programs)
    (stopped : p.running = none) : State.PulseSound { s with pulse := p } :=
  ⟨fun q m => h.1 q (programs ▸ m), fun r e => by rw [show p.running = some r from e] at stopped; cases stopped⟩

theorem stopProgram_keeps (s : State) (o : PulseOutcome) : s.Keeps (s.stopProgram o) := by
  unfold State.stopProgram
  split
  · exact .refl s
  · exact pulse_keeps s ⟨rfl, rfl, rfl⟩ fun h => stopped_pulseSound h rfl rfl

theorem endProgram_keeps (s : State) (o : PulseOutcome) : s.Keeps (s.endProgram o) :=
  (stopProgram_keeps s o).trans (reportOpt_keeps _ _)

theorem firePreempting_keeps (s : State) (n : Nat) : s.Keeps (s.firePreempting n) := by
  unfold State.firePreempting
  split
  · exact .refl s
  · exact (endProgram_keeps s _).trans (beginProgram_keeps _ n)

theorem fireEnd_keeps (s : State) : s.Keeps s.fireEnd := by
  unfold State.fireEnd
  split
  · exact .refl s
  · split
    · exact pulse_keeps s ⟨rfl, rfl, rfl⟩ id
    · exact beginProgram_keeps s 2

/-- A step begun in agreement with its program keeps the running state sound. -/
theorem beginStep_keeps (s : State) (r : PulseRun) (m n : Nat)
    (agrees : s.PulseSound → 1 ≤ n ∧ 1 ≤ m ∧ m ≤ (s.pulse.program r.program).repeats
      ∧ r.completed = (m - 1) * (s.pulse.program r.program).steps.length + (n - 1)) : s.Keeps (s.beginStep r m n) := by
  unfold State.beginStep
  split
  · exact .refl s
  · next st found =>
    refine pulse_keeps s ⟨rfl, rfl, rfl⟩ fun h => ⟨h.1, fun q e => ?_⟩
    obtain rfl := Option.some.inj e
    obtain ⟨first, rep, last, count⟩ := agrees h
    have inside := (List.getElem?_eq_some_iff.mp found).1
    have within : n ≤ (s.pulse.program r.program).steps.length := by omega
    exact ⟨first, within, rep, last, count⟩

theorem stepBoundary_keeps (s : State) {r : PulseRun} (running : s.pulse.running = some r) : s.Keeps (s.stepBoundary r) := by
  have agreed := fun h : s.PulseSound => h.2 r running
  unfold State.stepBoundary
  dsimp only
  split
  · next more =>
    refine beginStep_keeps s _ _ _ fun h => ?_
    obtain ⟨step1, -, rep1, rep2, count⟩ := agreed h
    refine ⟨by omega, rep1, rep2, ?_⟩
    show r.completed + 1 = (r.repeatNo - 1) * (s.pulse.program r.program).steps.length + (r.step + 1 - 1)
    omega
  · next past =>
    split
    · next again =>
      refine beginStep_keeps s _ _ _ fun h => ?_
      obtain ⟨step1, step2, rep1, rep2, count⟩ := agreed h
      refine ⟨le_rfl, by omega, again, ?_⟩
      show r.completed + 1 = (r.repeatNo + 1 - 1) * (s.pulse.program r.program).steps.length + (1 - 1)
      have last : r.step = (s.pulse.program r.program).steps.length := by omega
      obtain ⟨k, hk⟩ := Nat.exists_eq_add_of_le' rep1
      simp only [hk, Nat.add_sub_cancel, Nat.sub_self, Nat.add_zero, Nat.succ_mul] at count ⊢
      omega
    · have stopped : State.endProgram
            { s with pulse := { s.pulse with running := some { r with completed := r.completed + 1 } } } .completed
          = State.report { s with pulse := { s.pulse with
              running := none
              status := { program := some r.program, outcome := some .completed, completed := r.completed + 1 } } }
            (.pulseDone r.program .completed) := rfl
      rw [stopped]
      refine .trans ?_ (report_keeps _ _)
      exact pulse_keeps s ⟨rfl, rfl, rfl⟩ fun h => stopped_pulseSound h rfl rfl

theorem stepExpires_keeps (s : State) : s.Keeps s.stepExpires := by
  unfold State.stepExpires
  split
  · exact .refl s
  · next running =>
    split
    · exact stepBoundary_keeps s running
    · exact .refl s

end Sys2Proof.Machine
end

