-- ==== Sys2Proof/Proofs/KeepingHeatAndBoard.lean ====
section
/-! What the closes, the arbiter and the frames of Loop Intake keep, built on the parts. -/

namespace Sys2Proof.Machine

/-! ### The closes and the start (R24 to R28) -/

theorem closeStart_keeps (s : State) : s.Keeps s.closeStart := by
  unfold State.closeStart
  split
  · exact judgeStart_keeps s _
  · exact .refl s

theorem closeLanes_keeps (s : State) : s.Keeps s.closeLanes :=
  ((foldl_state_keeps (fun t l => t.decideCollection l true) (fun t l => decideCollection_keeps t l true) _ s).trans
    (foldl_state_keeps State.noFinish noFinish_keeps _ _)).trans
    (foldl_state_keeps (fun t l => t.judgeExchange l t.deckTime) (fun t l => judgeExchange_keeps t l _) _ _)

theorem closeHeat_keeps (s : State) (c : HeatCause) : s.Keeps (s.closeHeat c) := by
  have closed := (((closeStart_keeps s).trans (closeLanes_keeps _)).trans
    (heat_keeps _ { s.closeStart.closeLanes.heat with limitTimer := none })).trans (enterHeat_keeps _ .results c)
  have stopped := fun t => closed.trans (stopClock_keeps _ t)
  unfold State.closeHeat
  split
  · exact (stopped _).trans (fireEnd_keeps _)
  · exact stopped _

theorem examineClosing_keeps (s : State) : s.Keeps s.examineClosing := by
  unfold State.examineClosing
  split
  · exact closeHeat_keeps s _
  · exact .refl s

/-- Records that keep lane, standing, place and lamp. -/
theorem results_map_keeps (s : State) {g : LaneRecord → LaneRecord}
    (hg : ∀ r, (g r).lane = r.lane ∧ (g r).standing = r.standing ∧ (g r).place = r.place ∧ (g r).lamp = r.lamp) :
    s.Keeps { s with results := s.results.map g } :=
  ⟨rfl, id, id, id, id, fun h => recordsSound_map h g (fun r _ => (hg r).1) fun r _ => (hg r).2⟩

theorem started_standing (r : LaneRecord) : r.started.lane = r.lane ∧ r.started.standing = r.standing
    ∧ r.started.place = r.place ∧ r.started.lamp = r.lamp := by
  unfold LaneRecord.started
  split
  · next waiting => 
    refine ⟨rfl, ?_, rfl, rfl⟩
    simp only [LaneRecord.standing, LaneRecord.eligible, LaneRecord.hundredths, waiting]
    rfl
  · exact ⟨rfl, rfl, rfl, rfl⟩

theorem startEvent_keeps (s : State) : s.Keeps s.startEvent := by
  unfold State.startEvent
  refine .trans (.trans (.trans ?_ (firePreempting_keeps _ 0)) (enterHeat_keeps _ _ _)) (examineClosing_keeps _)
  refine .trans (((heat_keeps s _).trans (results_map_keeps _ started_standing)).trans (composer_keeps _ ?_))
    (walls_keeps _ id)
  exact id

/-! ### The arbiter (R150, R163, R166) -/

theorem examineShifter_keeps (s : State) : s.Keeps s.examineShifter := by
  unfold State.examineShifter
  split
  · exact ⟨rfl, id, id, id, id, id⟩
  · exact .refl s

/-- A half that is EMPTY, found by the Shifter, is one of the two. -/
theorem emptyHalf_some {h : Shifter} {n : Nat} (e : h.emptyHalf = some n) : n < 2 ∧ h.half n = .empty := by
  have empty_of : ∀ x : LineHalf, x.isEmpty = true → x = .empty := fun x hx => by
    cases x with
    | empty => rfl
    | loaded | sending => cases hx
  unfold Shifter.emptyHalf at e
  split at e
  · next empty => cases e; exact ⟨by decide, empty_of _ empty⟩
  · split at e
    · next empty => cases e; exact ⟨by decide, empty_of _ empty⟩
    · cases e

theorem grantShifter_keeps (s : State) : s.Keeps s.grantShifter := by
  unfold State.grantShifter
  split
  · refine ⟨rfl, id, id, fun h => ⟨h.1, ?_⟩, id, id⟩
    dsimp only
    cases chosen : s.chooseLoad with
    | none => trivial
    | some op =>
      obtain ⟨half, row, found, -, rfl⟩ := chooseLoad_some chosen
      exact emptyHalf_some found
  · exact .refl s

theorem fieldWrite_form (s : State) (f : BoardField) : ∃ row col cells, s.fieldWrite f = .fieldWrite row col cells := by
  unfold State.fieldWrite
  split <;> exact ⟨_, _, _, rfl⟩

theorem displace_capacity {s : State} (h : s.WithinCapacity) (n : Nat) : (s.displace n).WithinCapacity := by
  unfold State.displace
  split
  · refine (examineShifter_keeps _).capacity ?_
    obtain ⟨c1, c2, c3, c4, c5, c6, c7, c8, c9, c10, c11, c12, c13⟩ := h
    refine ⟨c1, c2, c3, c4, c5, c6, c7, c8, c9, c10, by simpa using c11, ?_, c13⟩
    unfold Shifter.setHalf
    split <;> exact c12
  · exact h

/-- The half that SEND_ROW_NOW takes is EMPTY once it is displaced, and the Line Buffer keeps a legal form. -/
theorem displace_target {s : State} (h : s.shifter.InForm) :
    s.shifter.target < 2 ∧ (s.displace s.shifter.target).shifter.InForm
      ∧ (s.displace s.shifter.target).shifter.half s.shifter.target = .empty := by
  have displaced : ∀ {n r c cs}, s.shifter.half n = .loaded r c cs →
      ∃ k, (s.displace n).shifter = { s.shifter.setHalf n .empty with claim := k } := by
    intro n r c cs e
    unfold State.displace
    rw [e]
    dsimp only
    unfold State.examineShifter
    split <;> exact ⟨_, rfl⟩
  have kept : ∀ {n}, s.shifter.half n = .empty → (s.displace n).shifter = s.shifter := by
    intro n e; unfold State.displace; rw [e]
  unfold Shifter.InForm at h
  cases e0 : s.shifter.half0 <;> cases e1 : s.shifter.half1 <;> rw [e0, e1] at h <;> try exact h.elim
  case empty.empty =>
    have t : s.shifter.target = 0 := by simp [Shifter.target, e0, LineHalf.isSending]
    rw [t, kept (n := 0) e0]; exact ⟨by decide, by simp [Shifter.InForm, e0, e1], e0⟩
  case empty.sending =>
    have t : s.shifter.target = 0 := by simp [Shifter.target, e0, LineHalf.isSending]
    rw [t, kept (n := 0) e0]; exact ⟨by decide, by simp [Shifter.InForm, e0, e1], e0⟩
  case sending.empty =>
    have t : s.shifter.target = 1 := by simp [Shifter.target, e0, LineHalf.isSending]
    rw [t, kept (n := 1) e1]; exact ⟨by decide, by simp [Shifter.InForm, e0, e1], e1⟩
  case loaded.sending =>
    have t : s.shifter.target = 0 := by simp [Shifter.target, e0, LineHalf.isSending]
    obtain ⟨k, e⟩ := displaced (n := 0) e0
    rw [t, e]; exact ⟨by decide, by simp [Shifter.InForm, Shifter.setHalf, e1], rfl⟩
  case sending.loaded =>
    have t : s.shifter.target = 1 := by simp [Shifter.target, e0, LineHalf.isSending]
    obtain ⟨k, e⟩ := displaced (n := 1) e1
    rw [t, e]; exact ⟨by decide, by simp [Shifter.InForm, Shifter.setHalf, e0], rfl⟩

theorem grantConsole_keeps (s : State) (q : BoardRequest) : s.Keeps (s.grantConsole q) := by
  have granted : ∀ op : ConsoleOp, (∀ r h cs, op ≠ .sendRow r h cs) → s.Keeps { s with
      board := { s.board with operation := some (.console op) }, mgmt := { s.mgmt with claim := none } } := by
    intro op other
    refine ⟨rfl, id, id, fun h => ⟨h.1, ?_⟩, id, id⟩
    cases op with
    | sendRow r h cs => exact absurd rfl (other r h cs)
    | _ => trivial
  cases q with
  | writeCells r c m cells => exact granted _ (by simp [State.consoleOp])
  | fill r0 r1 c0 c1 m => exact granted _ (by simp [State.consoleOp])
  | loadPattern c => exact granted _ (by simp [State.consoleOp])
  | writeLayout l => exact granted _ (by simp [State.consoleOp])
  | sendRow r =>
    have cap := fun h : s.WithinCapacity => displace_capacity h s.shifter.target
    have form := fun h : s.LineBufferSound => displace_target h.1
    obtain ⟨cl, op, ms, qu, a, b, k, e⟩ := displace_arbiterOnly s s.shifter.target
    show s.Keeps { s.displace s.shifter.target with
      board := { (s.displace s.shifter.target).board with
        operation := some (.console (.sendRow r s.shifter.target (s.board.row r))) }
      mgmt := { (s.displace s.shifter.target).mgmt with claim := none } }
    rw [e] at cap form ⊢
    exact ⟨rfl, id, cap, fun h => ⟨(form h).2.1, (form h).1, (form h).2.2⟩, id, id⟩

theorem grantWriter_keeps (s : State) : s.Keeps s.grantWriter := by
  unfold State.grantWriter
  split
  · next f fs queued =>
    obtain ⟨row, col, cells, e⟩ := fieldWrite_form s f
    rw [e]
    refine (composer_keeps s (c := { s.composer with queue := fs }) fun h => ?_).trans ⟨rfl, id, id, fun h => ⟨h.1, trivial⟩, id, id⟩
    rw [queued] at h
    exact h.of_cons
  · split
    · exact grantConsole_keeps s _
    · exact .refl s

theorem arbitrate_keeps (s : State) : s.Keeps s.arbitrate := by
  unfold State.arbitrate
  dsimp only
  split
  · exact .refl s
  · split
    · exact grantShifter_keeps s
    · exact (grantShifter_keeps s).trans (grantWriter_keeps _)

theorem board_freed_keeps (s : State) : s.Keeps { s with board := { s.board with operation := none } } :=
  ⟨rfl, id, id, fun h => ⟨h.1, trivial⟩, id, id⟩

theorem freeBoard_keeps (s : State) : s.Keeps s.freeBoard :=
  ((board_freed_keeps s).trans (examineShifter_keeps _)).trans (arbitrate_keeps _)

end Sys2Proof.Machine
end

