-- ==== Sys2Proof/Proofs/KeepingMapAndIntake.lean ====
section
/-! What the builds of the Active Map, the frames of Loop Intake and the completions of the board keep. -/

namespace Sys2Proof.Machine

/-! ### The Active Map (R119 to R122) -/

/-- The Active Map's own invariant (R119). -/
def ActiveSound (active : List (Option ActiveEntry)) : Prop :=
  (∀ e, some e ∈ active → reservedAddress e.address = false)
    ∧ active.Pairwise fun a b => ∀ x y, a = some x → b = some y → x.enabled = true → y.enabled = true →
      x.address ≠ y.address ∧ ¬(x.lane = y.lane ∧ x.wall = y.wall)

theorem nodes_keeps (s : State) {n : NodeMap} (sound : ActiveSound s.nodes.active → ActiveSound n.active)
    (active : s.nodes.active.length = 32 → n.active.length = 32)
    (working : s.nodes.working.length = 32 → n.working.length = 32) : s.Keeps { s with nodes := n } :=
  ⟨rfl, sound, fun ⟨c1, c2, c3, c4, c5, c6, c7, c8, c9⟩ => ⟨c1, c2, c3, c4, c5, c6, active c7, working c8, c9⟩, id, id, id⟩

/-- Entries that keep address, place and the enabled mark keep the map sound. -/
theorem activeSound_map {active : List (Option ActiveEntry)} (h : ActiveSound active) {g : ActiveEntry → ActiveEntry}
    (hg : ∀ e, (g e).address = e.address ∧ (g e).lane = e.lane ∧ (g e).wall = e.wall ∧ (g e).enabled = e.enabled) :
    ActiveSound (active.map fun slot => slot.map g) := by
  refine ⟨fun e mem => ?_, List.pairwise_map.mpr (h.2.imp fun {a b} clash x y ex ey => ?_)⟩
  · obtain ⟨slot, slotMem, e'⟩ := List.mem_map.mp mem
    obtain ⟨e₀, rfl, rfl⟩ := Option.map_eq_some_iff.mp e'
    rw [(hg e₀).1]; exact h.1 e₀ slotMem
  · obtain ⟨x₀, rfl, rfl⟩ := Option.map_eq_some_iff.mp ex
    obtain ⟨y₀, rfl, rfl⟩ := Option.map_eq_some_iff.mp ey
    obtain ⟨xa, xl, xw, xe⟩ := hg x₀
    obtain ⟨ya, yl, yw, ye⟩ := hg y₀
    rw [xa, xl, xw, xe, ya, yl, yw, ye]
    exact clash x₀ y₀ rfl rfl

theorem clearExpected_sound {active : List (Option ActiveEntry)} (h : ActiveSound active) :
    ActiveSound (clearExpected active) := activeSound_map h fun _ => ⟨rfl, rfl, rfl, rfl⟩

theorem recordExpected_sound {active : List (Option ActiveEntry)} (h : ActiveSound active) (a x : Byte) :
    ActiveSound (recordExpected active a x) := by
  refine activeSound_map h fun e => ?_
  split <;> exact ⟨rfl, rfl, rfl, rfl⟩

/-- A list built two by two reads, at place `k`, the part of element `k / 2` that `k`'s parity chooses. -/
theorem getElem?_flatMap_pair {α β : Type} (f g : α → β) (as : List α) (k : Nat) :
    (as.flatMap fun a => [f a, g a])[k]? = (as[k / 2]?).map fun a => if k % 2 = 0 then f a else g a := by
  induction as generalizing k with
  | nil => rfl
  | cons a as ih =>
    match k with
    | 0 => rfl
    | 1 => rfl
    | k + 2 =>
      have half : (k + 2) / 2 = k / 2 + 1 := by omega
      have parity : (k + 2) % 2 = k % 2 := by omega
      simp only [List.flatMap_cons, List.cons_append, List.nil_append, List.getElem?_cons_succ, half, parity]
      exact ih k

/-- Slot `k` of a fixed plan holds the START or TURN entry of lane `k / 2`, when that lane is below the lane count. -/
theorem fixedMap_get (plan n : Nat) {k : Nat} (hk : k < 32) : (fixedMap plan n)[k]? =
    some (if k / 2 < n ∧ k < 20 then some (fixedEntry plan (k / 2) (if k % 2 = 0 then .start else .turn)) else none) := by
  have pairs : ∀ i : Nat, (if i < n then [some (fixedEntry plan i .start), some (fixedEntry plan i .turn)] else [none, none])
      = [if i < n then some (fixedEntry plan i .start) else none, if i < n then some (fixedEntry plan i .turn) else none] := by
    intro i; split <;> rfl
  unfold fixedMap
  simp only [pairs]
  rcases Nat.lt_or_ge k 20 with inside | beyond
  · have lane : Config.lanes[k / 2]? = some (k / 2) := by
      have : Config.lanes = List.range 10 := rfl
      rw [this, List.getElem?_range (by omega)]
    rw [List.getElem?_append_left (by simpa [Config.lanes] using inside), getElem?_flatMap_pair, lane, Option.map_some]
    split <;> simp [inside]
  · rw [List.getElem?_append_right (by simpa [Config.lanes] using beyond), if_neg (by omega)]
    exact List.getElem?_replicate_of_lt (by simp [Config.lanes]; omega)

@[simp] theorem fixedMap_length (plan n : Nat) : (fixedMap plan n).length = 32 := by
  have two : ∀ i : Nat, (if i < n then [some (fixedEntry plan i .start), some (fixedEntry plan i .turn)]
      else [none, none]).length = 2 := fun i => by split <;> rfl
  simp [fixedMap, two, Config.lanes]

/-- An entry of a fixed plan is that of its slot. -/
theorem fixedMap_some {plan n k : Nat} {e : ActiveEntry} (h : (fixedMap plan n)[k]? = some (some e)) :
    k < 20 ∧ e = fixedEntry plan (k / 2) (if k % 2 = 0 then .start else .turn) := by
  have inside : k < 32 := fixedMap_length plan n ▸ (List.getElem?_eq_some_iff.mp h).1
  rw [fixedMap_get plan n inside] at h
  split at h
  · next held => exact ⟨held.2, (Option.some.inj (Option.some.inj h)).symm⟩
  · cases h

/-- The addresses of a fixed plan as numbers (R120). -/
theorem fixedAddress_toNat (plan : Nat) {i : Nat} (hi : i < 10) (w : Wall) : (fixedAddress plan i w).toNat =
    match plan, w with
    | 0, .start => 0x10 + i
    | 0, .turn => 0x30 + i
    | 1, .start => 0x20 + 2 * i
    | 1, .turn => 0x21 + 2 * i
    | 2, .start => 0x40 + i
    | 2, .turn => 0x50 + i
    | _ + 3, .start => 0x80 + i
    | _ + 3, .turn => 0xC0 + i := by
  have small : ∀ m : Nat, m < 256 → (byte m).toNat = m := fun m hm => Nat.mod_eq_of_lt hm
  match plan, w with
  | 0, .start | 0, .turn | 1, .start | 1, .turn | 2, .start | 2, .turn | _ + 3, .start | _ + 3, .turn =>
    exact small _ (by omega)

theorem fixedAddress_free (plan : Nat) {i : Nat} (hi : i < 10) (w : Wall) :
    reservedAddress (fixedAddress plan i w) = false := by
  have value := fixedAddress_toNat plan hi w
  have range : 0x10 ≤ (fixedAddress plan i w).toNat ∧ (fixedAddress plan i w).toNat < 0xCA := by
    split at value <;> omega
  have apart : ∀ b : Byte, (b.toNat < 0x10 ∨ 0xCA ≤ b.toNat) → (fixedAddress plan i w == b) = false := by
    intro b hb
    rw [beq_eq_false_iff_ne]
    rintro rfl
    omega
  simp only [reservedAddress, apart 0x00 (by decide), apart 0x02 (by decide), apart 0x03 (by decide), apart 0xFF (by decide),
    Bool.or_self]

theorem fixedAddress_injective (plan : Nat) {i j : Nat} (hi : i < 10) (hj : j < 10) {w v : Wall}
    (h : fixedAddress plan i w = fixedAddress plan j v) : i = j ∧ w = v := by
  have e := congrArg BitVec.toNat h
  rw [fixedAddress_toNat plan hi, fixedAddress_toNat plan hj] at e
  match plan, w, v with
  | 0, .start, .start | 1, .start, .start | 2, .start, .start | _ + 3, .start, .start
  | 0, .turn, .turn | 1, .turn, .turn | 2, .turn, .turn | _ + 3, .turn, .turn => exact ⟨by dsimp only at e; omega, rfl⟩
  | 0, .start, .turn | 1, .start, .turn | 2, .start, .turn | _ + 3, .start, .turn
  | 0, .turn, .start | 1, .turn, .start | 2, .turn, .start | _ + 3, .turn, .start => dsimp only at e; omega

theorem fixedMap_sound (plan n : Nat) : ActiveSound (fixedMap plan n) := by
  refine ⟨fun e mem => ?_, List.pairwise_iff_getElem.mpr fun i j hi hj lt x y ex ey _ _ => ?_⟩
  · obtain ⟨k, found⟩ := List.mem_iff_getElem?.mp mem
    obtain ⟨inside, rfl⟩ := fixedMap_some found
    exact fixedAddress_free plan (by omega) _
  · obtain ⟨iLane, rfl⟩ := fixedMap_some (List.getElem?_eq_some_iff.mpr ⟨hi, ex⟩)
    obtain ⟨jLane, rfl⟩ := fixedMap_some (List.getElem?_eq_some_iff.mpr ⟨hj, ey⟩)
    have apart : ¬(i / 2 = j / 2 ∧ (if i % 2 = 0 then Wall.start else .turn) = if j % 2 = 0 then .start else .turn) := by
      rintro ⟨lane, wall⟩
      rcases Nat.mod_two_eq_zero_or_one i with pi | pi <;> rcases Nat.mod_two_eq_zero_or_one j with pj | pj <;>
        simp [pi, pj] at wall <;> omega
    exact ⟨fun h => apart (fixedAddress_injective plan (by omega) (by omega) h), apart⟩

theorem anyPair_eq_false {α : Type} (rel : α → α → Bool) (as : List α) :
    anyPair rel as = false ↔ as.Pairwise fun a b => rel a b = false := by
  induction as with
  | nil => simp [anyPair]
  | cons a as ih => simp [anyPair, ih]

theorem workingSlot_some {e : WorkingEntry} {x : ActiveEntry} (h : workingSlot e = some x) :
    x = { address := e.address, lane := e.lane, wall := e.wall, delay := e.delay, enabled := e.enabled, expected := none }
      ∧ (e.enabled = true ∨ reservedAddress e.address = false) := by
  unfold workingSlot at h
  split at h
  · next kept => exact ⟨(Option.some.inj h).symm, by simpa using kept⟩
  · cases h

/-- A faultless Working Map builds a sound Active Map (R122). -/
theorem workingMap_sound {working : List WorkingEntry} {n : Nat} (h : mapFault working n = none) :
    ActiveSound (working.map workingSlot) := by
  unfold mapFault at h
  dsimp only at h
  split at h
  · cases h
  · next addresses =>
    split at h
    · cases h
    · next places =>
      split at h
      · cases h
      · split at h
        · cases h
        · next reserved =>
          simp only [Bool.not_eq_true, anyPair_eq_false, List.pairwise_filter] at addresses places
          refine ⟨fun x mem => ?_, List.pairwise_map.mpr ((addresses.and places).imp fun {a b} clash x y ex ey xe ye => ?_)⟩
          · obtain ⟨e, eMem, ex⟩ := List.mem_map.mp mem
            obtain ⟨rfl, kept⟩ := workingSlot_some ex
            rcases kept with on | free
            · by_contra taken
              exact reserved (List.any_eq_true.mpr ⟨e, List.mem_filter.mpr ⟨eMem, on⟩, by simpa using taken⟩)
            · exact free
          · obtain ⟨rfl, -⟩ := workingSlot_some ex
            obtain ⟨rfl, -⟩ := workingSlot_some ey
            obtain ⟨address, place⟩ := clash
            exact ⟨by simpa using address xe ye, by simpa using place xe ye⟩

/-! ### Frames of Loop Intake (R110 to R118) -/

theorem staleEdge_keeps (s : State) (l : Nat) : s.Keeps (s.staleEdge l) := by
  have counted := intake_keeps s { s.intake with staleCount := satAdd 16 s.intake.staleCount 1 }
  unfold State.staleEdge
  dsimp only
  split
  · exact counted.trans (note_keeps _ l fun _ => ⟨rfl, rfl, rfl, rfl⟩)
  · exact counted

theorem toStartJudge_keeps (s : State) (l : Nat) (w : Wall) (k : Sensor) (p : Bool) (d : Option DeckTime) :
    s.Keeps (s.toStartJudge l w k p d) := by
  unfold State.toStartJudge
  split
  · exact starts_keeps s fun h => by simpa using h
  · exact .refl s

theorem toWallJudge_keeps (s : State) (l : Nat) (w : Wall) (k : Sensor) (p : Bool) (d : Option DeckTime) :
    s.Keeps (s.toWallJudge l w k p d) := by
  unfold State.toWallJudge
  split
  · exact .refl s
  · split
    · exact takePress_keeps s _
    · exact .refl s

theorem handEdge_keeps (n : ActiveEntry) (stamp : DeckTime) (s : State) (e : List Byte) :
    s.Keeps (s.handEdge n stamp e) := by
  unfold State.handEdge
  split
  · exact .refl s
  · dsimp only
    refine .trans (.trans ?_ (toStartJudge_keeps _ _ _ _ _ _)) (toWallJudge_keeps _ _ _ _ _ _)
    split
    · exact staleEdge_keeps s _
    · exact .refl s

theorem sequenceGap_keeps (s : State) (n : ActiveEntry) (g : Nat) : s.Keeps (s.sequenceGap n g) := by
  have counted := intake_keeps s { s.intake with lostCount := satAdd 16 s.intake.lostCount g }
  unfold State.sequenceGap
  dsimp only
  split
  · refine .trans ?_ (markLinks_keeps _ _)
    split
    · split
      · exact counted
      · exact counted.trans (note_keeps _ n.lane fun _ => ⟨rfl, rfl, rfl, rfl⟩)
    · exact counted
  · exact counted

theorem sensorFrame_keeps (s : State) (f : Frame) (stamp : DeckTime) : s.Keeps (s.sensorFrame f stamp) := by
  have recorded : ∀ a x, s.Keeps { s with nodes := { s.nodes with active := recordExpected s.nodes.active a x } } :=
    fun a x => nodes_keeps s (fun h => recordExpected_sound h a x) (fun h => by simpa [recordExpected] using h) id
  unfold State.sensorFrame
  split
  · exact .refl s
  · dsimp only
    refine .trans ?_ (foldl_state_keeps _ (handEdge_keeps _ stamp) _ _)
    split
    · exact recorded _ _
    · exact (recorded _ _).trans (sequenceGap_keeps _ _ _)

theorem manageFrame_keeps (s : State) (f : Frame) : s.Keeps (s.manageFrame f) := by
  unfold State.manageFrame
  split
  · next room => exact mgmt_keeps s fun _ => by simpa [Config.mgmtCapacity] using room
  · exact reply_keeps s _ _ _ _

theorem forward_fits {o : LoopOut} (h : o.Fits) (f : Frame) (room : o.transit.length < 16) : (o.forward f).Fits :=
  LoopOut.choose_fits ⟨h.1, by simpa using room⟩

/-- A frame is forwarded only while the Transit Queue has room (R110). -/
theorem verdict_forwarded_room {s : State} {e : EndedFrame} (h : s.verdict e = .forwarded) :
    s.out.transit.length < 16 := by
  unfold State.verdict at h
  dsimp only at h
  split at h
  · cases h
  · split at h
    · cases h
    · split at h
      · cases h
      · split at h
        · cases h
        · split at h
          · cases h
          · split at h
            · cases h
            · next open_ =>
              split at h
              · next away => exact Nat.lt_of_not_le fun full => open_ ⟨away, full⟩
              · cases h

theorem dispose_keeps (s : State) (v : Verdict) (e : EndedFrame) (room : v = .forwarded → s.out.transit.length < 16) :
    s.Keeps (s.dispose v e) := by
  cases v with
  | forwarded => exact out_keeps s fun h => forward_fits h _ (room rfl)
  | accepted =>
    show s.Keeps (if (frameOf e.bytes).kind = kindSensor then s.sensorFrame (frameOf e.bytes) e.stamp
      else s.manageFrame (frameOf e.bytes))
    split
    · exact sensorFrame_keeps s _ _
    · exact manageFrame_keeps s _
  | broken | corrupt | inadmissible | orphan | returned | dropped => exact .refl s

theorem receiveFrame_keeps (s : State) (e : EndedFrame) : s.Keeps (s.receiveFrame e) :=
  (intake_keeps s _).trans (dispose_keeps (s.recordVerdict (s.verdict e) e) _ e fun h => verdict_forwarded_room (s := s) h)

theorem setChecker_keeps (s : State) (c : Checker) : s.Keeps (s.setChecker c) := intake_keeps s _

theorem endFrame_keeps (s : State) (bytes : List Byte) (long : Bool) (last : Option DeckTime) (cut : Bool) :
    s.Keeps (s.endFrame bytes long last cut) := by
  unfold State.endFrame
  split
  · exact receiveFrame_keeps s _
  · split
    · exact receiveFrame_keeps s _
    · refine .trans (t := { s with freeDraws := s.freeDraws + 1 }) ?_ (receiveFrame_keeps _ _)
      exact ⟨rfl, id, id, id, id, id⟩

theorem decodeSymbol_keeps (s : State) (sym : LoopSymbol) : s.Keeps (s.decodeSymbol sym) := by
  unfold State.decodeSymbol
  split
  · exact setChecker_keeps s _
  · exact .refl s
  · exact setChecker_keeps s _
  · exact (setChecker_keeps s _).trans (endFrame_keeps _ _ _ _ _)
  · exact (setChecker_keeps s _).trans (endFrame_keeps _ _ _ _ _)
  · exact (setChecker_keeps s _).trans (endFrame_keeps _ _ _ _ _)
  · exact (setChecker_keeps s _).trans (endFrame_keeps _ _ _ _ _)

theorem flagRestored_keeps (s : State) (l : Nat) : s.Keeps (s.flagRestored l) := by
  unfold State.flagRestored
  split
  · split
    · exact note_keeps s l fun _ => ⟨rfl, rfl, rfl, rfl⟩
    · exact .refl s
  · exact .refl s

theorem restoreLoop_keeps (s : State) : s.Keeps s.restoreLoop := by
  have up : s.Keeps (State.restartSilence { s with intake := { s.intake with link := .up } }) :=
    (intake_keeps s _).trans (intake_keeps _ _)
  unfold State.restoreLoop
  refine .trans ?_ (report_keeps _ _)
  split
  · exact up.trans (foldl_state_keeps _ flagRestored_keeps _ _)
  · exact up

theorem symbolArrives_keeps (s : State) (sym : LoopSymbol) : s.Keeps (s.symbolArrives sym) := by
  unfold State.symbolArrives
  refine .trans ?_ (decodeSymbol_keeps _ sym)
  split
  · split
    · exact restoreLoop_keeps s
    · exact intake_keeps s _
  · exact .refl s

theorem cutFrame_keeps (s : State) : s.Keeps s.cutFrame := by
  unfold State.cutFrame
  split
  · exact .refl s
  · exact (setChecker_keeps s _).trans (endFrame_keeps _ _ _ _ _)

theorem beginOutage_keeps (s : State) : s.Keeps s.beginOutage :=
  (((intake_keeps s _).trans (cutFrame_keeps _)).trans (intake_keeps _ _)).trans (markLinks_keeps _ _)

end Sys2Proof.Machine
end

