-- ==== Sys2Proof/Proofs/EveryStep.lean ====
section
/-! What every command keeps: the queue of commands, and the invariants of the Active Map, the capacities, the Line
Buffer, the Pulse Unit and the lane records, through every step. -/

namespace Sys2Proof.Machine

/-! ### Expiries (R2, R25, R64, R81, R117, R158, R162) -/

theorem silenceExpires_keeps (s : State) : s.Keeps s.silenceExpires := by
  unfold State.silenceExpires
  split
  · exact (beginOutage_keeps s).trans (arbitrate_keeps _)
  · exact .refl s

theorem startWindowExpires_keeps (s : State) : s.Keeps s.startWindowExpires := by
  unfold State.startWindowExpires
  split
  · exact .refl s
  · split
    · exact (judgeStart_keeps s _).trans (arbitrate_keeps _)
    · exact .refl s

theorem collectionExpires_keeps (s : State) (l : Nat) : s.Keeps (s.collectionExpires l) := by
  unfold State.collectionExpires
  split
  · exact ((decideCollection_keeps s l false).trans (examineClosing_keeps _)).trans (arbitrate_keeps _)
  · exact .refl s

theorem exchangeExpires_keeps (s : State) (l : Nat) : s.Keeps (s.exchangeExpires l) := by
  unfold State.exchangeExpires
  split
  · exact .refl s
  · split
    · exact (judgeExchange_keeps s l _).trans (arbitrate_keeps _)
    · exact .refl s

theorem limitExpires_keeps (s : State) : s.Keeps s.limitExpires := by
  unfold State.limitExpires
  split
  · exact (closeHeat_keeps s _).trans (arbitrate_keeps _)
  · exact .refl s

theorem clockExpires_keeps (s : State) : s.Keeps s.clockExpires := by
  unfold State.clockExpires
  split
  · exact .refl s
  · split
    · refine .trans (.trans ?_ (makePending_keeps _ .clock)) (arbitrate_keeps _)
      exact composer_keeps s id
    · exact .refl s

theorem refreshExpires_keeps (s : State) (row : Nat) : s.Keeps (s.refreshExpires row) := by
  unfold State.refreshExpires
  split
  · exact (examineShifter_keeps s).trans (arbitrate_keeps _)
  · exact .refl s

theorem takeDue_keeps (s : State) : s.Keeps s.takeDue := by
  have collected := ((silenceExpires_keeps s).trans (startWindowExpires_keeps _)).trans
    (foldl_state_keeps _ collectionExpires_keeps Config.lanes _)
  have exchanged := collected.trans (foldl_state_keeps _ exchangeExpires_keeps Config.lanes _)
  have clocked := (exchanged.trans (limitExpires_keeps _)).trans (clockExpires_keeps _)
  exact (clocked.trans (foldl_state_keeps _ refreshExpires_keeps Config.boardRows _)).trans (stepExpires_keeps _)

/-- A command that runs keeps what its effect keeps. -/
theorem run_keeps {s t : State} {g : State → State} (next : s.run g = .next t) (h : s.Keeps (g s)) : s.Keeps t := by
  unfold State.run at next
  obtain rfl := Host.Outcome.next.inj next
  split
  · exact .refl s
  · exact h

/-! ### Completions of the board (R150, R157, R163, R164) -/

theorem writeRun_keeps (s : State) (r c : Nat) (m : PlaneMask) (cells : List Cell) :
    s.Keeps { s with board := s.board.writeRun r c m cells } := by
  refine ⟨rfl, id, ?_, id, id, id⟩
  rintro ⟨c1, c2, c3, c4, c5, c6, c7, c8, c9, c10, c11, c12⟩
  exact ⟨c1, c2, c3, c4, c5, c6, c7, c8, by simpa using c9, writeRun_rows_wide _ c10 _ _ _ _, by simpa using c11, c12⟩

theorem fillRect_keeps (s : State) (r0 r1 c0 c1 : Nat) (m : PlaneMask) (x : Cell) :
    s.Keeps { s with board := s.board.fillRect r0 r1 c0 c1 m x } := by
  unfold Board.fillRect
  generalize Config.boardRows.filter (fun r => decide (r0 ≤ r) && decide (r ≤ r1)) = rows
  induction rows generalizing s with
  | nil => exact .refl s
  | cons r rows ih =>
    exact (writeRun_keeps s r c0 m (List.replicate (c1 + 1 - c0) x)).trans
      (ih { s with board := s.board.writeRun r c0 m (List.replicate (c1 + 1 - c0) x) })

theorem loadHalf_capacity {s : State} (h : s.WithinCapacity) (row col half : Nat) (cells : List Cell) :
    (s.loadHalf row col half cells).WithinCapacity := by
  obtain ⟨c1, c2, c3, c4, c5, c6, c7, c8, c9, c10, c11, c12, c13⟩ := h
  refine ⟨c1, c2, c3, c4, c5, c6, c7, c8, c9, c10, by simpa [State.loadHalf] using c11, ?_, c13⟩
  unfold State.loadHalf
  dsimp only
  split
  · simpa using c12
  · exact c12

/-- An EMPTY half takes a load: SENDING when the Shifter is IDLE, LOADED beside a SENDING half (R161, R164). -/
theorem load_inForm {h : Shifter} (form : h.InForm) {n : Nat} (hn : n < 2) (empty : h.half n = .empty) (row col : Nat)
    (cells : List Cell) : (h.load n row col cells).InForm := by
  obtain ⟨half0, half1, scanner, claim, lastFull⟩ := h
  match n with
  | 0 =>
    obtain rfl : half0 = .empty := empty
    cases half1 with
    | empty | sending => trivial
    | loaded => exact form.elim
  | 1 =>
    obtain rfl : half1 = .empty := empty
    cases half0 with
    | empty | sending => trivial
    | loaded => exact form.elim

/-- A completed load, Board Memory freed of it. -/
theorem loaded_keeps (s : State) (row col half : Nat) (cells : List Cell)
    (empty : s.LineBufferSound → half < 2 ∧ s.shifter.half half = .empty) :
    s.Keeps { s.loadHalf row col half cells with
      board := { (s.loadHalf row col half cells).board with operation := none } } :=
  ⟨rfl, id, fun h => loadHalf_capacity h row col half cells,
    fun h => ⟨load_inForm h.1 (empty h).1 (empty h).2 row col cells, trivial⟩, id, id⟩

theorem rowLoadComplete_keeps (s : State) : ∀ t, execRowLoadComplete s = .next t → s.Keeps t := by
  refine fun t next => run_keeps next ?_
  split
  · next row col half cells live running =>
    cases live with
    | false => exact freeBoard_keeps s
    | true =>
      refine .trans (.trans ?_ (examineShifter_keeps _)) (arbitrate_keeps _)
      refine .trans (loaded_keeps s row col half cells fun h => ?_) ⟨rfl, id, id, id, id, id⟩
      have held := h.2
      rw [running] at held
      exact held
  · exact .refl s

theorem fieldWriteComplete_keeps (s : State) : ∀ t, execFieldWriteComplete s = .next t → s.Keeps t := by
  refine fun t next => run_keeps next ?_
  split
  · exact (writeRun_keeps s _ _ _ _).trans (freeBoard_keeps _)
  · exact .refl s

theorem answerHead_keeps (s : State) (op : ConsoleOp) : s.Keeps (s.answerHead op) := by
  unfold State.answerHead
  split
  · exact (reply_keeps s _ _ _ _).trans (popHead_keeps _)
  · exact .refl s

theorem answerHead_freed (s : State) (op : ConsoleOp) (o : Option BoardOperation) :
    { s.answerHead op with board := { (s.answerHead op).board with operation := o } }
      = State.answerHead { s with board := { s.board with operation := o } } op := by
  unfold State.answerHead
  cases s.mgmt.queue <;> rfl

/-- The changes of a console operation, Board Memory freed of it. -/
theorem applyConsole_keeps {s : State} {op : ConsoleOp} (running : s.board.operation = some (.console op)) :
    s.Keeps { s.applyConsole op with board := { (s.applyConsole op).board with operation := none } } := by
  cases op with
  | writeCells r c m cells => exact (writeRun_keeps s r c m cells).trans (board_freed_keeps _)
  | fill r0 r1 c0 c1 m x => exact (fillRect_keeps s r0 r1 c0 c1 m x).trans (board_freed_keeps _)
  | loadPattern | writeLayout => exact ⟨rfl, id, id, fun h => ⟨h.1, trivial⟩, id, id⟩
  | sendRow r half cells =>
    refine loaded_keeps s r 0 half cells fun h => ?_
    have held := h.2
    rw [running] at held
    exact held

theorem boardOperationComplete_keeps (s : State) : ∀ t, execBoardOperationComplete s = .next t → s.Keeps t := by
  refine fun t next => run_keeps next ?_
  split
  · next op running =>
    refine .trans (.trans ?_ (examineShifter_keeps _)) (arbitrate_keeps _)
    rw [answerHead_freed]
    exact (applyConsole_keeps running).trans (answerHead_keeps _ op)
  · exact .refl s

theorem sendDone_inForm {h : Shifter} (form : h.InForm) : h.sendDone.InForm := by
  obtain ⟨half0, half1, scanner, claim, lastFull⟩ := h
  cases half0 <;> cases half1 <;> trivial

theorem sendDone_half {h : Shifter} {n : Nat} (empty : h.half n = .empty) : h.sendDone.half n = .empty := by
  obtain ⟨half0, half1, scanner, claim, lastFull⟩ := h
  unfold Shifter.half at empty ⊢
  by_cases first : n = 0
  · rw [if_pos first] at empty ⊢
    obtain rfl : half0 = .empty := empty
    rfl
  · rw [if_neg first] at empty ⊢
    obtain rfl : half1 = .empty := empty
    unfold Shifter.sendDone
    split <;> rfl

theorem rowSendComplete_keeps (s : State) : ∀ t, execRowSendComplete s = .next t → s.Keeps t := by
  refine fun t next => run_keeps next ?_
  split
  · refine .trans (.trans ?_ (examineShifter_keeps _)) (arbitrate_keeps _)
    refine ⟨rfl, id, ?_, fun h => ⟨sendDone_inForm h.1, ?_⟩, id, id⟩
    · rintro ⟨c1, c2, c3, c4, c5, c6, c7, c8, c9, c10, c11, c12, c13⟩
      refine ⟨c1, c2, c3, c4, c5, c6, c7, c8, c9, c10, c11, ?_, c13⟩
      unfold Shifter.sendDone
      split <;> exact c12
    · have held := h.2
      dsimp only
      split at held
      · exact ⟨held.1, sendDone_half held.2⟩
      · exact ⟨held.1, sendDone_half held.2⟩
      · trivial
  · exact .refl s

/-! ### Requests of the console (R135 to R183) -/

theorem request_keeps (s : State) (code : Byte) (form : List Byte → Bool) {body : State → Request → State}
    (h : ∀ q, form q.fields = true → s.Keeps (body s q)) : s.Keeps (s.request code form body) := by
  rcases request_cases s code form body with e | ⟨f, -, e⟩ | ⟨f, -, -, formed, e⟩ <;> rw [e]
  · exact .refl s
  · exact (reply_keeps s _ _ _ _).trans (popHead_keeps _)
  · exact (h f.request formed).trans (popHead_keeps _)

theorem boardRequest_keeps (s : State) (code : Byte) (form : List Byte → Bool) (check : State → List Byte → BoardCheck) :
    s.Keeps (s.boardRequest code form check) := by
  rcases boardRequest_cases s code form check with e | ⟨q, r, d, e⟩ | ⟨f, op, -, -, e⟩ <;> rw [e]
  · exact .refl s
  · exact (reply_keeps s _ _ _ _).trans (popHead_keeps _)
  · refine .trans ?_ (arbitrate_keeps _)
    exact mgmt_keeps s id

theorem setMeet_keeps (s : State) (q : Request) : s.Keeps (setMeet s q) := by
  have replaced : ∀ new, s.Keeps (s.setMeet new) := by
    intro new
    unfold State.setMeet State.moveStartLine
    have remapped : s.Keeps
        (State.remap { s with mgmt := { s.mgmt with settings := new } } s.mgmt.settings new) := by
      have settled : s.Keeps { s with mgmt := { s.mgmt with settings := new } } := mgmt_keeps s id
      unfold State.remap
      split
      · exact .trans settled (nodes_keeps _ (fun _ => fixedMap_sound _ _) (fun _ => fixedMap_length _ _) id)
      · exact settled
    split
    · exact remapped
    · exact remapped.trans (pulse_keeps _ ⟨rfl, rfl, rfl⟩ id)
  unfold setMeet
  split
  · exact reply_keeps s _ _ _ _
  · split
    · exact reply_keeps s _ _ _ _
    · split
      · exact reply_keeps s _ _ _ _
      · exact (replaced _).trans (reply_keeps _ _ _ _ _)

@[simp] theorem writeEntries_length (m : List WorkingEntry) (i : Nat) (es : List WorkingEntry) :
    (writeEntries m i es).length = m.length := by
  induction es generalizing m i with
  | nil => cases m <;> rfl
  | cons e es ih => simp [writeEntries, ih]

theorem writeNodeEntries_keeps (s : State) (q : Request) : s.Keeps (writeNodeEntries s q) := by
  unfold writeNodeEntries
  split
  · exact reply_keeps s _ _ _ _
  · refine .trans ?_ (reply_keeps _ _ _ _ _)
    exact nodes_keeps s id id fun h => by simpa using h

theorem selectNodeMap_keeps (s : State) (q : Request) : s.Keeps (selectNodeMap s q) := by
  unfold selectNodeMap
  split
  · exact reply_keeps s _ _ _ _
  · split
    · exact reply_keeps s _ _ _ _
    · split
      · refine .trans ?_ (reply_keeps _ _ _ _ _)
        exact nodes_keeps s (fun _ => fixedMap_sound _ _) (fun _ => fixedMap_length _ _) id
      · split
        · exact reply_keeps s _ _ _ _
        · next faultless =>
          refine .trans ?_ (reply_keeps _ _ _ _ _)
          refine ⟨rfl, fun _ => workingMap_sound faultless, ?_, id, id, id⟩
          rintro ⟨c1, c2, c3, c4, c5, c6, c7, c8, c9⟩
          exact ⟨c1, c2, c3, c4, c5, c6, by simpa using c8, c8, c9⟩

theorem readNodeEntry_keeps (s : State) (q : Request) : s.Keeps (readNodeEntry s q) := by
  unfold readNodeEntry
  split
  · exact reply_keeps s _ _ _ _
  · split <;> exact reply_keeps s _ _ _ _

theorem loadHeatPlan_keeps (s : State) (q : Request) : s.Keeps (loadHeatPlan s q) := by
  unfold loadHeatPlan
  dsimp only
  split
  · exact reply_keeps s _ _ _ _
  · split
    · exact reply_keeps s _ _ _ _
    · split
      · exact reply_keeps s _ _ _ _
      · split
        · exact .trans (heat_keeps s _) (reply_keeps _ _ _ _ _)
        · exact .trans (heat_keeps s _) (reply_keeps _ _ _ _ _)

/-- Records that hold no place and no lit lamp, of lanes that hold no eligible time, are sound. -/
theorem recordsSound_of_open {rs : List LaneRecord} (lanes : (rs.map (·.lane)).Nodup)
    (h : ∀ r ∈ rs, r.lane < 10 ∧ r.place = none ∧ r.lamp = .off ∧ (r.status = .waiting ∨ r.status = .dns)) :
    RecordsSound rs := by
  refine ⟨lanes, fun r mem => ?_⟩
  obtain ⟨lane, place, lamp, status⟩ := h r mem
  have open_ : r.eligible = false ∧ r.status ≠ .final := by
    rcases status with e | e <;> simp only [LaneRecord.eligible, e] <;> exact ⟨rfl, by decide⟩
  exact ⟨lane, by rw [place, placeOf, open_.1]; rfl, by rw [lamp, LaneRecord.lampOf, if_pos open_.2]⟩

theorem planRecords_lanes (p : Plan) : p.records.map (·.lane) = p.lanes := by
  unfold Plan.records Plan.lanes
  rw [List.map_filterMap, ← List.filterMap_eq_filter]
  refine List.filterMap_congr fun l _ => ?_
  cases found : p.entries.find? (·.lane == l) with
  | none =>
    have absent : p.entries.any (·.lane == l) = false := by
      simpa only [List.any_eq_false, List.find?_eq_none] using found
    simp [absent, Option.guard]
  | some e =>
    have lane : e.lane = l := by simpa using List.find?_some found
    have present : p.entries.any (·.lane == l) = true :=
      List.any_eq_true.mpr ⟨e, List.mem_of_find?_eq_some found, by simp [lane]⟩
    simp [present, Option.guard, LaneEntry.record, lane]

theorem planRecords_sound (p : Plan) : RecordsSound p.records := by
  have lanes := planRecords_lanes p
  have nodup : Config.lanes.Nodup := by decide
  refine recordsSound_of_open (lanes ▸ nodup.filter _) fun r mem => ?_
  have inside : r.lane ∈ Config.lanes := (List.mem_filter.mp (lanes ▸ List.mem_map_of_mem mem)).1
  obtain ⟨l, -, made⟩ := List.mem_filterMap.mp mem
  obtain ⟨e, -, rfl⟩ := Option.map_eq_some_iff.mp made
  refine ⟨?_, rfl, rfl, .inl rfl⟩
  have : ∀ l ∈ Config.lanes, l < 10 := by decide
  exact this _ inside

theorem armed_plan_keeps (s : State) (q : Request) (p : Plan) : s.Keeps (s.arm q p) := by
  unfold State.arm
  refine .trans (.trans (.trans (.trans (reply_keeps s q .done 0 []) ?_) (lampsOff_keeps _)) (enterHeat_keeps _ _ _))
    (arbitrate_keeps _)
  unfold State.armed
  refine .trans (.trans (.trans ?_ (makeAllPending_keeps _ _)) (stopClock_keeps _ _)) (makeAllPending_keeps _ _)
  refine ⟨rfl, clearExpected_sound, ?_, id, id, fun _ => planRecords_sound p⟩
  rintro ⟨c1, c2, c3, c4, c5, c6, c7, c8⟩
  exact ⟨c1, c2, c3, c4, c5, by simp [freshTrackers], by simpa [clearExpected] using c7, c8⟩

theorem armHeat_keeps (s : State) (q : Request) : s.Keeps (armHeat s q) := by
  unfold armHeat
  split
  · exact reply_keeps s _ _ _ _
  · split
    · exact reply_keeps s _ _ _ _
    · split
      · exact reply_keeps s _ _ _ _
      · split
        · exact reply_keeps s _ _ _ _
        · exact armed_plan_keeps s q _

theorem stopHeat_keeps (s : State) : s.Keeps s.stopHeat := heat_keeps s _

theorem discardHeat_keeps (s : State) : s.Keeps s.discardHeat := by
  refine ⟨rfl, id, ?_, id, id, fun _ => ⟨List.nodup_nil, fun _ mem => by cases mem⟩⟩
  rintro ⟨c1, c2, c3, c4, c5, c6, c7⟩
  exact ⟨c1, c2, c3, Nat.zero_le _, c5, by simp [State.discardHeat, freshTrackers], c7⟩

theorem toIdle_keeps (s : State) (q : Request) (c : HeatCause) : s.Keeps (s.toIdle q c) :=
  (((((reply_keeps s q .done 0 []).trans (stopHeat_keeps _)).trans (discardHeat_keeps _)).trans
    (makeAllPending_keeps _ _)).trans (enterHeat_keeps _ .idle c)).trans (arbitrate_keeps _)

theorem recalled_keeps (s : State) : s.Keeps s.recalled := by
  refine ⟨rfl, id, fun ⟨c1, c2, c3, _, c5⟩ => ⟨c1, c2, c3, Nat.zero_le _, c5⟩, id, id, fun h => ?_⟩
  refine recordsSound_of_open ?_ fun r mem => ?_
  · have : (s.results.map LaneRecord.recalled).map (·.lane) = s.results.map (·.lane) := by
      simp only [List.map_map]; rfl
    exact this ▸ h.1
  · obtain ⟨r, held, rfl⟩ := List.mem_map.mp mem
    refine ⟨(h.2 r held).1, rfl, rfl, ?_⟩
    unfold LaneRecord.recalled
    dsimp only
    split
    · exact .inr rfl
    · exact .inl rfl

theorem recall_keeps (s : State) (q : Request) : s.Keeps (s.recall q) :=
  (((((((reply_keeps s q .done 0 []).trans (recalled_keeps _)).trans (stopClock_keeps _ 0)).trans
    (makeAllPending_keeps _ _)).trans (lampsOff_keeps _)).trans (firePreempting_keeps _ 1)).trans
    (enterHeat_keeps _ .armed .abort)).trans (arbitrate_keeps _)

theorem abortHeat_keeps (s : State) (q : Request) : s.Keeps (abortHeat s q) := by
  unfold abortHeat
  split
  · exact toIdle_keeps s q _
  · exact recall_keeps s q
  · exact reply_keeps s _ _ _ _
  · exact reply_keeps s _ _ _ _

theorem clearHeat_keeps (s : State) (q : Request) : s.Keeps (clearHeat s q) := by
  unfold clearHeat
  split
  · exact toIdle_keeps s q _
  · exact toIdle_keeps s q _
  · exact reply_keeps s _ _ _ _
  · exact reply_keeps s _ _ _ _

theorem closeHeatRequest_keeps (s : State) (q : Request) : s.Keeps (closeHeatRequest s q) := by
  unfold closeHeatRequest
  split
  · exact ((reply_keeps s _ _ _ _).trans (closeHeat_keeps _ _)).trans (arbitrate_keeps _)
  · exact reply_keeps s _ _ _ _

theorem dropCollector_keeps (s : State) (l : Nat) : s.Keeps (s.dropCollector l) := walls_keeps s id

theorem markDns_keeps (s : State) (q : Request) : s.Keeps (markDns s q) := by
  have marked : ∀ l, s.Keeps (s.markLaneDns q l) := by
    intro l
    unfold State.markLaneDns
    refine .trans (.trans (.trans ((reply_keeps s q .done 0 []).trans (dropCollector_keeps _ l)) ?_)
      (examineClosing_keeps _)) (arbitrate_keeps _)
    refine commit_touches_keeps _ l (fun r => ?_) _ _
    exact ⟨rfl, rfl, rfl, rfl⟩
  unfold markDns
  dsimp only
  split
  · exact reply_keeps s _ _ _ _
  · split
    · exact marked _
    · exact reply_keeps s _ _ _ _

theorem setFinish_keeps (s : State) (q : Request) (l : Nat) (t : Option HeatTime) (src : Source) :
    s.Keeps (s.setFinish q l t src) := by
  unfold State.setFinish
  refine .trans (.trans (reply_keeps s q .done 0 []) ?_) (arbitrate_keeps _)
  refine commit_keeps _ l (fun r => ?_) _ _ _ fun r _ unreached => ?_
  · rfl
  · cases unreached

theorem clearReview_keeps (s : State) (q : Request) (l : Nat) : s.Keeps (s.clearReview q l) := by
  unfold State.clearReview
  refine .trans (.trans (reply_keeps s q .done 0 []) ?_) (arbitrate_keeps _)
  refine commit_keeps _ l (fun r => ?_) _ _ _ fun r _ _ => ?_
  · rfl
  · exact ⟨rfl, rfl, rfl⟩

theorem adjudicateFinal_keeps (s : State) (q : Request) (r : LaneRecord) (l : Nat) :
    s.Keeps (adjudicateFinal s q r l) := by
  unfold adjudicateFinal
  split
  · split
    · exact reply_keeps s _ _ _ _
    · exact setFinish_keeps s q l _ _
  · split
    · exact reply_keeps s _ _ _ _
    · exact setFinish_keeps s q l _ _
  · split
    · exact setFinish_keeps s q l _ _
    · exact reply_keeps s _ _ _ _
  · exact clearReview_keeps s q l

theorem adjudicateFinish_keeps (s : State) (q : Request) : s.Keeps (adjudicateFinish s q) := by
  unfold adjudicateFinish
  dsimp only
  split
  · exact reply_keeps s _ _ _ _
  · split
    · exact reply_keeps s _ _ _ _
    · split
      · exact reply_keeps s _ _ _ _
      · split
        · exact adjudicateFinal_keeps s q _ _
        · exact reply_keeps s _ _ _ _

/-- A SET_DQ that leaves the disqualification as it was leaves what the Placer and the lamps read (R103). -/
theorem setDq_standing {r : LaneRecord} {action : Nat} (unreached : dqChanges r (r.setDq action) = false) :
    (r.setDq action).standing = r.standing := by
  have same : (r.setDq action).flags.disqualified = r.flags.disqualified := (bne_eq_false_iff_eq.mp unreached).symm
  have exhibition : (r.setDq action).flags.exhibition = r.flags.exhibition := by
    unfold LaneRecord.setDq
    dsimp only
    split <;> rfl
  simp only [LaneRecord.standing, LaneRecord.eligible, same, exhibition]
  rfl

theorem setDq_keeps (s : State) (q : Request) : s.Keeps (setDq s q) := by
  unfold setDq
  dsimp only
  split
  · exact reply_keeps s _ _ _ _
  · split
    · exact reply_keeps s _ _ _ _
    · split
      · exact reply_keeps s _ _ _ _
      · split
        · exact reply_keeps s _ _ _ _
        · refine .trans (.trans (reply_keeps s q .done 0 []) ?_) (arbitrate_keeps _)
          refine commit_keeps _ _ (fun r => ?_) _ _ _ fun r _ unreached => ?_
          · rfl
          · exact ⟨setDq_standing unreached, rfl, rfl⟩

theorem readLane_keeps (s : State) (q : Request) : s.Keeps (readLane s q) := by
  unfold readLane
  split <;> exact reply_keeps s _ _ _ _

theorem readArrivals_keeps (s : State) (q : Request) : s.Keeps (readArrivals s q) := by
  unfold readArrivals
  dsimp only
  split <;> exact reply_keeps s _ _ _ _

theorem setReportDest_keeps (s : State) (q : Request) : s.Keeps (setReportDest s q) := by
  unfold setReportDest
  dsimp only
  split
  · refine .trans ?_ (reply_keeps _ _ _ _ _)
    exact out_keeps s id
  · exact reply_keeps s _ _ _ _

theorem groups_length (k n : Nat) (fs : List Byte) : (groups k n fs).length = n := by
  induction n generalizing fs with
  | zero => rfl
  | succ n ih => simp [groups, ih]

/-- A program replaced leaves the other programs of the table. -/
theorem program_replaced (p : PulseUnit) {n m : Nat} (h : m ≠ n) (x : PulseProgram) :
    PulseUnit.program { p with programs := p.programs.set n x } m = p.program m := by
  simp [PulseUnit.program, List.getD_eq_getElem?_getD, List.getElem?_set_ne h.symm]

theorem loadProgram_keeps (s : State) (q : Request) (formed : counted 2 3 2 0 16 q.fields = true) :
    s.Keeps (loadProgram s q) := by
  unfold loadProgram
  dsimp only
  split
  · exact reply_keeps s _ _ _ _
  · split
    · exact reply_keeps s _ _ _ _
    · next repeats =>
      split
      · exact reply_keeps s _ _ _ _
      · split
        · exact reply_keeps s _ _ _ _
        · next idle =>
          refine .trans ?_ (reply_keeps _ _ _ _ _)
          refine pulse_keeps s ⟨rfl, rfl, by simp⟩ fun h => ⟨fun p mem => ?_, fun r running => ?_⟩
          · rcases List.mem_or_eq_of_mem_set mem with old | rfl
            · exact h.1 p old
            · have count : byteAt q.fields 2 ≤ 16 := by
                simp only [counted, Bool.and_eq_true, decide_eq_true_eq] at formed; exact formed.1.2
              refine ⟨by dsimp only; omega, by dsimp only; omega, ?_⟩
              simpa [programSteps, groups_length] using count
          · have other : r.program ≠ byteAt q.fields 0 := by
              rintro e
              exact idle (by rw [show s.pulse.running = some r from running]; simp [e])
            simp only [program_replaced s.pulse other]
            exact h.2 r running

theorem fireProgram_keeps (s : State) (q : Request) : s.Keeps (fireProgram s q) := by
  unfold fireProgram
  dsimp only
  split
  · exact reply_keeps s _ _ _ _
  · split
    · exact reply_keeps s _ _ _ _
    · split
      · exact reply_keeps s _ _ _ _
      · exact (beginProgram_keeps s _).trans (reply_keeps _ _ _ _ _)

theorem setLineFunction_keeps (s : State) (q : Request) : s.Keeps (setLineFunction s q) := by
  unfold setLineFunction
  dsimp only
  split
  · exact reply_keeps s _ _ _ _
  · split
    · exact reply_keeps s _ _ _ _
    · split
      · exact reply_keeps s _ _ _ _
      · refine .trans ?_ (reply_keeps _ _ _ _ _)
        exact pulse_keeps s ⟨by simp, rfl, rfl⟩ id

theorem setHeldLevel_keeps (s : State) (q : Request) : s.Keeps (setHeldLevel s q) := by
  unfold setHeldLevel
  dsimp only
  split
  · exact reply_keeps s _ _ _ _
  · split
    · exact reply_keeps s _ _ _ _
    · refine .trans ?_ (reply_keeps _ _ _ _ _)
      exact pulse_keeps s ⟨rfl, by simp, rfl⟩ id

theorem restartBoard_keeps (s : State) : s.Keeps s.restartBoard := by
  refine ⟨rfl, id, ?_, fun h => ⟨trivial, ?_⟩, id, id⟩
  · rintro ⟨c1, c2, c3, c4, -, c6, c7, c8, c9, c10, -, c12⟩
    exact ⟨c1, c2, c3, c4, List.nodup_nil, c6, c7, c8, c9, c10, by simp [State.restartBoard], c12⟩
  · have held := h.2
    unfold State.restartBoard
    dsimp only
    cases running : s.board.operation with
    | none => trivial
    | some op =>
      rw [running] at held
      cases op with
      | rowLoad row col half cells live => trivial
      | fieldWrite row col cells => trivial
      | console op =>
        cases op with
        | sendRow r half cells => exact ⟨held.1, by unfold Shifter.half; split <;> rfl⟩
        | _ => trivial

theorem restart_keeps (s : State) (q : Request) : s.Keeps (restart s q) := by
  have heat : ∀ u : State, u.Keeps u.restartHeat := fun u =>
    ((stopHeat_keeps u).trans (discardHeat_keeps _)).trans (heat_keeps _ _)
  have intake : ∀ u : State, u.Keeps u.restartIntake := fun u =>
    ⟨rfl, clearExpected_sound, fun ⟨c1, c2, c3, c4, c5, c6, c7, c8⟩ =>
      ⟨c1, c2, c3, c4, c5, c6, by simpa [State.restartIntake, clearExpected] using c7, c8⟩, id, id, id⟩
  have traffic : ∀ u : State, u.Keeps u.restartTraffic := fun u =>
    ⟨rfl, id, fun ⟨_, _, _, c4⟩ => ⟨Nat.zero_le _, Nat.zero_le _, Nat.zero_le _, c4⟩, id, id, id⟩
  have cut : ∀ u : State, u.Keeps u.restartPulse := by
    intro u
    refine (stopProgram_keeps u _).trans ⟨rfl, id, ?_, id, id, id⟩
    rintro ⟨c1, c2, c3, c4, c5, c6, c7, c8, c9, c10, c11, c12, c13, -, c15⟩
    exact ⟨c1, c2, c3, c4, c5, c6, c7, c8, c9, c10, c11, c12, c13, List.length_replicate, c15⟩
  unfold restart State.restartBlocks
  refine .trans (.trans (.trans ?_ (reportOpt_keeps _ _)) (examineShifter_keeps _)) (arbitrate_keeps _)
  exact ((((((heat s).trans (intake _)).trans (traffic _)).trans (restartBoard_keeps _)).trans (cut _)).trans
    (reply_keeps _ _ _ _ _)).trans (enterHeat_keeps _ _ _)

theorem unknownRequestCode_keeps (s : State) : ∀ t, execUnknownRequestCode s = .next t → s.Keeps t := by
  refine fun t next => run_keeps next ?_
  split
  · exact .refl s
  · split
    · exact (reply_keeps s _ _ _ _).trans (popHead_keeps _)
    · split
      · exact .refl s
      · exact (reply_keeps s _ _ _ _).trans (popHead_keeps _)

/-! ### The pin, the tick and the start line (R1, R41, R147) -/

theorem deckTime_keeps (s : State) (d : DeckTime) : s.Keeps { s with deckTime := d } := ⟨rfl, id, id, id, id, id⟩

theorem tick_keeps (s : State) : ∀ t, execTick s = .next t → s.Keeps t := by
  refine fun t next => run_keeps next ?_
  show s.Keeps { s.takeDue with deckTime := s.takeDue.deckTime + 1 }
  exact .trans (takeDue_keeps s) (deckTime_keeps _ _)

theorem senseLine_keeps (s : State) (line : Nat) (level : Bool) : s.Keeps (s.senseLine line level) :=
  pulse_keeps s ⟨rfl, rfl, rfl⟩ id

theorem notePrevious_keeps (s : State) (level : Bool) : s.Keeps (s.notePrevious level) :=
  pulse_keeps s ⟨rfl, rfl, rfl⟩ id

theorem risingEdge_keeps (s : State) : s.Keeps s.risingEdge := by
  unfold State.risingEdge
  split
  · exact (startEvent_keeps s).trans (arbitrate_keeps _)
  · exact starts_keeps s id

theorem startLineRisingEdge_keeps (s : State) : ∀ t, execStartLineRisingEdge s = .next t → s.Keeps t := by
  intro t next
  obtain rfl := Host.Outcome.next.inj next
  split
  · exact senseLine_keeps s _ _
  · exact ((senseLine_keeps s _ _).trans (notePrevious_keeps _ true)).trans (risingEdge_keeps _)

theorem lineLevelChange_keeps (line : Nat) (level : Bool) (s : State) :
    ∀ t, execLineLevelChange line level s = .next t → s.Keeps t := by
  intro t next
  obtain rfl := Host.Outcome.next.inj next
  split
  · exact .refl s
  · dsimp only
    split
    · exact (senseLine_keeps s _ _).trans (notePrevious_keeps _ _)
    · exact senseLine_keeps s _ _

theorem hardwareResetEnds_keeps (s : State) : ∀ t, execHardwareResetEnds s = .next t → s.Keeps t := by
  intro t next
  obtain rfl := Host.Outcome.next.inj next
  split
  · refine .trans (.trans ?_ (examineShifter_keeps _)) (arbitrate_keeps _)
    exact ⟨rfl, id, id, id, id, id⟩
  · exact .refl s

theorem reset_withinCapacity : State.reset.WithinCapacity := by
  refine ⟨by decide, by decide, by decide, by decide, List.nodup_nil, by decide, fixedMap_length _ _, by decide, by decide,
    fun row mem => ?_, by decide, by decide, by decide, by decide, by decide⟩
  rw [List.eq_of_mem_replicate mem]
  exact List.length_replicate

theorem reset_pulseSound : State.reset.PulseSound := by
  refine ⟨fun p mem => ?_, fun r e => by cases e⟩
  rw [List.eq_of_mem_replicate mem]
  decide

theorem reset_lineBufferSound : State.reset.LineBufferSound := ⟨trivial, trivial⟩

theorem reset_resultsSound : State.reset.ResultsSound := ⟨List.nodup_nil, fun _ mem => by cases mem⟩

theorem hardwareReset_keeps (s : State) : ∀ t, execHardwareReset s = .next t → s.Keeps t := by
  intro t next
  obtain rfl := Host.Outcome.next.inj next
  exact ⟨rfl, fun _ => fixedMap_sound 0 10, fun _ => reset_withinCapacity, fun _ => reset_lineBufferSound,
    fun _ => reset_pulseSound, fun _ => reset_resultsSound⟩

/-! ### Every command -/

theorem kept_of_run {c : Instr} {g : State → State} {s t : State} (ran : exec c s = s.run g) (next : exec c s = .next t)
    (kept : s.Keeps (g s)) : s.Keeps t :=
  run_keeps (ran.symm.trans next) kept

theorem exec_keeps {c : Instr} {s t : State} (next : exec c s = .next t) : s.Keeps t := by
  cases c with
  | hardwareReset => exact hardwareReset_keeps s t next
  | frameReceived sym =>
    refine kept_of_run (exec_frameReceived_run sym s) next ?_
    split
    · exact (symbolArrives_keeps s sym).trans (arbitrate_keeps _)
    · exact .refl s
  | loopSilenceExpiry =>
    refine kept_of_run (exec_loopSilenceExpiry_run s) next ?_
    exact (silenceExpires_keeps s)
  | loopRestored sym =>
    refine kept_of_run (exec_loopRestored_run sym s) next ?_
    split
    · exact (symbolArrives_keeps s sym).trans (arbitrate_keeps _)
    · exact .refl s
  | startLineRisingEdge => exact startLineRisingEdge_keeps s t next
  | startWindowExpiry =>
    refine kept_of_run (exec_startWindowExpiry_run s) next ?_
    exact (startWindowExpires_keeps s)
  | heatLimitExpiry =>
    refine kept_of_run (exec_heatLimitExpiry_run s) next ?_
    exact (limitExpires_keeps s)
  | lapCollectionExpiry lane =>
    refine kept_of_run (exec_lapCollectionExpiry_run lane s) next ?_
    exact (collectionExpires_keeps s lane)
  | exchangeWindowExpiry lane =>
    refine kept_of_run (exec_exchangeWindowExpiry_run lane s) next ?_
    exact (exchangeExpires_keeps s lane)
  | clockDisplayExpiry =>
    refine kept_of_run (exec_clockDisplayExpiry_run s) next ?_
    exact (clockExpires_keeps s)
  | rowFullRefreshExpiry row =>
    refine kept_of_run (exec_rowFullRefreshExpiry_run row s) next ?_
    exact (refreshExpires_keeps s row)
  | pulseStepExpiry =>
    refine kept_of_run (exec_pulseStepExpiry_run s) next ?_
    exact (stepExpires_keeps s)
  | loopOutCompletion =>
    refine kept_of_run (exec_loopOutCompletion_run s) next ?_
    split
    · exact out_keeps s fun h => LoopOut.choose_fits h
    · exact .refl s
  | rowLoadComplete => exact rowLoadComplete_keeps s t next
  | fieldWriteComplete => exact fieldWriteComplete_keeps s t next
  | boardOperationComplete => exact boardOperationComplete_keeps s t next
  | rowSendComplete => exact rowSendComplete_keeps s t next
  | readStatus =>
    refine kept_of_run (exec_readStatus_run s) next ?_
    exact (request_keeps s _ _ fun q _ => reply_keeps s q _ _ _)
  | readIntakeAnalysis =>
    exact kept_of_run (exec_readIntakeAnalysis_run s) next (request_keeps s _ _ fun q _ =>
      State.Keeps.trans (intake_keeps s _) (reply_keeps _ q _ _ _))
  | setMeet =>
    refine kept_of_run (exec_setMeet_run s) next ?_
    exact (request_keeps s _ _ fun q _ => setMeet_keeps s q)
  | lockMeet =>
    refine kept_of_run (exec_lockMeet_run s) next (request_keeps s _ _ fun q _ => .trans ?_ (reply_keeps _ q _ _ _))
    exact mgmt_keeps s id
  | writeNodeEntries =>
    refine kept_of_run (exec_writeNodeEntries_run s) next ?_
    exact (request_keeps s _ _ fun q _ => writeNodeEntries_keeps s q)
  | selectNodeMap =>
    refine kept_of_run (exec_selectNodeMap_run s) next ?_
    exact (request_keeps s _ _ fun q _ => selectNodeMap_keeps s q)
  | readNodeEntry =>
    refine kept_of_run (exec_readNodeEntry_run s) next ?_
    exact (request_keeps s _ _ fun q _ => readNodeEntry_keeps s q)
  | loadHeatPlan =>
    refine kept_of_run (exec_loadHeatPlan_run s) next ?_
    exact (request_keeps s _ _ fun q _ => loadHeatPlan_keeps s q)
  | armHeat =>
    refine kept_of_run (exec_armHeat_run s) next ?_
    exact (request_keeps s _ _ fun q _ => armHeat_keeps s q)
  | abortHeat =>
    refine kept_of_run (exec_abortHeat_run s) next ?_
    exact (request_keeps s _ _ fun q _ => abortHeat_keeps s q)
  | closeHeat =>
    refine kept_of_run (exec_closeHeat_run s) next ?_
    exact (request_keeps s _ _ fun q _ => closeHeatRequest_keeps s q)
  | clearHeat =>
    refine kept_of_run (exec_clearHeat_run s) next ?_
    exact (request_keeps s _ _ fun q _ => clearHeat_keeps s q)
  | markDns =>
    refine kept_of_run (exec_markDns_run s) next ?_
    exact (request_keeps s _ _ fun q _ => markDns_keeps s q)
  | adjudicateFinish =>
    refine kept_of_run (exec_adjudicateFinish_run s) next ?_
    exact (request_keeps s _ _ fun q _ => adjudicateFinish_keeps s q)
  | setDq =>
    refine kept_of_run (exec_setDq_run s) next ?_
    exact (request_keeps s _ _ fun q _ => setDq_keeps s q)
  | readLane =>
    refine kept_of_run (exec_readLane_run s) next ?_
    exact (request_keeps s _ _ fun q _ => readLane_keeps s q)
  | readArrivals =>
    refine kept_of_run (exec_readArrivals_run s) next ?_
    exact (request_keeps s _ _ fun q _ => readArrivals_keeps s q)
  | setReportDest =>
    refine kept_of_run (exec_setReportDest_run s) next ?_
    exact (request_keeps s _ _ fun q _ => setReportDest_keeps s q)
  | writeCells =>
    refine kept_of_run (exec_writeCells_run s) next ?_
    exact (boardRequest_keeps s _ _ _)
  | fillGroup =>
    refine kept_of_run (exec_fillGroup_run s) next ?_
    exact (boardRequest_keeps s _ _ _)
  | clearRow =>
    refine kept_of_run (exec_clearRow_run s) next ?_
    exact (boardRequest_keeps s _ _ _)
  | loadPattern =>
    refine kept_of_run (exec_loadPattern_run s) next ?_
    exact (boardRequest_keeps s _ _ _)
  | loadPlaneMask =>
    refine kept_of_run (exec_loadPlaneMask_run s) next (request_keeps s _ _ fun q _ => .trans ?_ (reply_keeps _ q _ _ _))
    exact ⟨rfl, id, id, id, id, id⟩
  | releasePlaneMask =>
    refine kept_of_run (exec_releasePlaneMask_run s) next (request_keeps s _ _ fun q _ => .trans ?_ (reply_keeps _ q _ _ _))
    exact ⟨rfl, id, id, id, id, id⟩
  | writeLayout =>
    refine kept_of_run (exec_writeLayout_run s) next ?_
    exact (boardRequest_keeps s _ _ _)
  | sendRowNow =>
    refine kept_of_run (exec_sendRowNow_run s) next ?_
    exact (boardRequest_keeps s _ _ _)
  | loadProgram =>
    refine kept_of_run (exec_loadProgram_run s) next ?_
    exact (request_keeps s _ _ fun q formed => loadProgram_keeps s q formed)
  | fireProgram =>
    refine kept_of_run (exec_fireProgram_run s) next ?_
    exact (request_keeps s _ _ fun q _ => fireProgram_keeps s q)
  | setLineFunction =>
    refine kept_of_run (exec_setLineFunction_run s) next ?_
    exact (request_keeps s _ _ fun q _ => setLineFunction_keeps s q)
  | setHeldLevel =>
    refine kept_of_run (exec_setHeldLevel_run s) next ?_
    exact (request_keeps s _ _ fun q _ => setHeldLevel_keeps s q)
  | readLines =>
    refine kept_of_run (exec_readLines_run s) next ?_
    exact (request_keeps s _ _ fun q _ => reply_keeps s q _ _ _)
  | restart =>
    refine kept_of_run (exec_restart_run s) next ?_
    exact (request_keeps s _ _ fun q _ => restart_keeps s q)
  | unknownRequestCode => exact unknownRequestCode_keeps s t next
  | tick => exact tick_keeps s t next
  | hardwareResetEnds => exact hardwareResetEnds_keeps s t next
  | loopInSymbol sym =>
    refine kept_of_run (exec_loopInSymbol_run sym s) next ?_
    exact ((symbolArrives_keeps s sym).trans (arbitrate_keeps _))
  | lineLevelChange line level => exact lineLevelChange_keeps line level s t next

/-- A step is an idle one or the run of a command on the state without it. -/
theorem step_cases {s t : State} (next : step s = .next t) :
    (s.pending = [] ∧ t = s) ∨ ∃ c rest, s.pending = c :: rest ∧ exec c { s with pending := rest } = .next t := by
  unfold step at next
  split at next
  · next idle => exact .inl ⟨idle, (Host.Outcome.next.inj next).symm⟩
  · next c rest front => exact .inr ⟨c, rest, front, next⟩

/-- An invariant that does not read the queue of commands is kept by a step when every command keeps it. -/
theorem step_preserves {P : State → Prop} (blind : ∀ s rest, P s → P { s with pending := rest })
    (kept : ∀ c s t, P s → exec c s = .next t → P t) {s t : State} (h : P s) (next : step s = .next t) : P t := by
  rcases step_cases next with ⟨-, rfl⟩ | ⟨c, rest, -, ran⟩
  · exact h
  · exact kept c _ t (blind s rest h) ran

/-- Settles O47: the fixed and the working builds are sound, and every other write of the Active Map keeps addresses,
places and enabled marks. -/
theorem everyStepKeepsMapSound : Obligations.EveryStepKeepsMapSound :=
  fun _ _ => step_preserves (fun _ _ => id) fun _ _ _ h next => (exec_keeps next).map h

/-- Settles O48: every part of a command keeps each block within its room. -/
theorem everyStepKeepsCapacity : Obligations.EveryStepKeepsCapacity :=
  fun _ _ => step_preserves (fun _ _ => id) fun _ _ _ h next => (exec_keeps next).capacity h

/-- Settles O55: a load takes an EMPTY half, and the end of a send starts the other. -/
theorem everyStepKeepsLineBufferSound : Obligations.EveryStepKeepsLineBufferSound :=
  fun _ _ => step_preserves (fun _ _ => id) fun _ _ _ h next => (exec_keeps next).buffer h

/-- Settles O59: a program begins, steps and ends in agreement with its table entry, which no load replaces meanwhile. -/
theorem everyStepKeepsPulseSound : Obligations.EveryStepKeepsPulseSound :=
  fun _ _ => step_preserves (fun _ _ => id) fun _ _ _ h next => (exec_keeps next).pulse h

/-- Settles O37: each change of a record either reaches the Placer and the lamps, or leaves what they read. -/
theorem everyStepKeepsResultsSound : Obligations.EveryStepKeepsResultsSound :=
  fun _ _ => step_preserves (fun _ _ => id) fun _ _ _ h next => (exec_keeps next).results h

end Sys2Proof.Machine
end

