-- ==== Sys2Proof/Proofs/StoredTimes.lean ====
section
/-! What no clause bounds: a frame at Loop In that holds bytes but no Deck Time of its last one, in a state that the
statement on the stored times admits, is stamped with a free value and stores a time beyond the heat limit. -/

namespace Sys2Proof.Machine

/-- The bytes of a SENSOR frame of node 0x34, lane 4 at the TURN wall under fixed plan 0: one pad press of age 0. -/
def pressFrame : List Byte := [0, 0x34, 1, 0, 5, 0, 1, 1, 0, 0, 0xCC, 0x82]

/-- A heat of the limit 10 minutes, begun at `e` and now, with lane 4 ARMED for lap 1, while the bytes of a press stand
at Loop In without the Deck Time of the last one. -/
def unstamped (e : DeckTime) : State :=
  { State.reset with
    pending := [.loopInSymbol .endDelimiter]
    resetHeld := false
    deckTime := e
    intake := { State.reset.intake with checker := .inFrame pressFrame false none }
    heat :=
      { plan := some { Plan.blank with distance := 100, heatLimit := 10 }, state := .running, epoch := some e
        startTimer := none, limitTimer := some (e + ticks (10 * 6000000)) }
    starts := { trackers := freshTrackers true, strayCount := 0 }
    walls := { collectors := [.armedAt 4 1 0], pool := [] } }

theorem unstamped_heatSound (e : DeckTime) : (unstamped e).HeatSound := by
  refine ⟨by simp [unstamped], fun h => (h rfl).elim, nofun, nofun, fun k mem => ?_⟩
  rw [List.eq_of_mem_replicate mem]
  rfl

theorem unstamped_timesBounded (e : DeckTime) : (unstamped e).TimesBounded := by
  refine ⟨?limit, nofun, fun _ => ⟨e, rfl, rfl, ?clock⟩, ?frame, ?collector, ?pool, ?record⟩
  case limit =>
    intro p h
    obtain rfl : { Plan.blank with distance := 100, heatLimit := 10 } = p := Option.some.inj h
    show 10 ≤ 60
    omega
  case clock =>
    rw [show (unstamped e).deckTime - e = 0 from sub_self e]
    exact Nat.zero_le _
  case frame => intro bytes long d h; simp [unstamped] at h
  case collector =>
    intro c mem
    obtain rfl : c = .armedAt 4 1 0 := by simpa [unstamped] using mem
    simp [Collector.armedAt]
  case pool => exact fun a mem => absurd mem List.not_mem_nil
  case record => exact fun r mem => absurd mem List.not_mem_nil

theorem verdict_accepted {s : State} {e : EndedFrame} (whole : e.broken = false) (sound : e.corrupt = false)
    (dst : (frameOf e.bytes).dst = 0) (clear : (frameOf e.bytes).qualifiers s.nodes.active = [])
    (src : (frameOf e.bytes).src ≠ 0) : s.verdict e = .accepted := by
  unfold State.verdict
  rw [whole, sound]
  simp only [Bool.false_eq_true, if_false, dst, clear, src, ne_eq, not_true_eq_false, and_false, false_and]

theorem pressFrame_verdict (s : State) (A : DeckTime) (nodes : s.nodes = State.reset.nodes) :
    s.verdict ⟨pressFrame, false, false, A⟩ = .accepted := by
  have sound : ((frameOf pressFrame).crc != crc16 (pressFrame.take (pressFrame.length - 2))) = false := by decide +kernel
  have clear : (frameOf pressFrame).qualifiers State.reset.nodes.active = [] := by decide +kernel
  have src : (frameOf pressFrame).src ≠ 0 := by decide
  exact verdict_accepted rfl sound rfl (nodes ▸ clear) src


/-- A SENSOR frame in sequence hands its edges on (R115). -/
theorem sensorFrame_in_order {s : State} {f : Frame} {n : ActiveEntry} (stamp : DeckTime)
    (node : resolveAddress s.nodes.active f.src = some n)
    (order : sequenceDistance n.expected (f.payload.getD 0 0) = 0) :
    s.sensorFrame f stamp = f.edges.foldl (State.handEdge n stamp)
      { s with nodes :=
          { s.nodes with active := recordExpected s.nodes.active f.src (f.payload.getD 0 0 + 1) } } := by
  unfold State.sensorFrame
  rw [node]
  simp only [order, if_true]

theorem press_sensorFrame {s : State} (nodes : s.nodes = State.reset.nodes) (A : DeckTime) :
    ∃ u : State, u.heat = s.heat ∧ u.walls = s.walls ∧ s.sensorFrame (frameOf pressFrame) A = u.takePress
      { lane := 4, wall := .turn, sensor := .pad, deck := A - ticks 0 - ticks 0
        time := s.heatTime (A - ticks 0 - ticks 0) } := by
  have node : resolveAddress s.nodes.active (frameOf pressFrame).src = some (fixedEntry 0 4 .turn) := by
    rw [nodes]
    decide +kernel
  have edges : (frameOf pressFrame).edges = [[1, 0, 0]] := by decide +kernel
  have deck : edgeDeck A (fixedEntry 0 4 .turn).delay [1, 0, 0] = some (A - ticks 0 - ticks 0) := if_neg (by decide)
  have sensor : Sensor.ofCode? (sensorCode [1, 0, 0]) = some .pad := by decide
  refine ⟨{ s with nodes := { s.nodes with active := recordExpected s.nodes.active 0x34 1 } }, rfl, rfl, ?_⟩
  rw [sensorFrame_in_order A node rfl, edges, List.foldl_cons, List.foldl_nil]
  simp only [State.handEdge, sensor, deck]
  rfl

/-- A pad press at the collector's wall, not before its arming time, gives an ARMED collector of RUNNING its pad value
(R54, R55). -/
theorem takePress_pad {s : State} {c : Collector} {p : Press} (found : s.collector? p.lane = some c)
    (running : s.heat.state = .running) (armed : c.state = .armed) (wall : p.wall = lapWall c.lap)
    (time : c.arming.getD 0 ≤ p.time) : s.takePress p = s.openCollection c p := by
  unfold State.takePress State.classify
  simp only [found, running, armed, wall, if_true, Int.not_lt.mpr time, if_false]

/-- An accepted SENSOR frame is handed to the sensor frames' disposal (R112). -/
theorem receiveFrame_sensor {s : State} {e : EndedFrame} (verdict : s.verdict e = .accepted)
    (kind : (frameOf e.bytes).kind = kindSensor) :
    s.receiveFrame e = (s.recordVerdict .accepted e).sensorFrame (frameOf e.bytes) e.stamp := by
  unfold State.receiveFrame State.dispose
  rw [verdict]
  exact if_pos kind

/-- An end delimiter while UP, of a frame with no Deck Time of a last byte: the frame takes a free stamp (log entry 8). -/
theorem symbolArrives_end_unstamped {s : State} {bytes : List Byte} {long : Bool} (up : s.intake.link = .up)
    (begun : s.intake.checker = .inFrame bytes long none) :
    s.symbolArrives .endDelimiter = State.receiveFrame
      { s.restartSilence.setChecker .between with freeDraws := s.freeDraws + 1 }
      { bytes := bytes, tooLong := long, cut := false, stamp := Config.freeStamp s.freeDraws } := by
  unfold State.symbolArrives
  simp only [LoopSymbol.valid, up, if_true, reduceCtorEq, if_false, State.decodeSymbol, State.restartSilence, begun]
  rfl

/-- The frame of `unstamped`, ended: accepted, and its press handed to the Wall Judge at its free stamp. -/
theorem unstamped_pressed (e : DeckTime) : ∃ u : State,
    State.symbolArrives { unstamped e with pending := [] } .endDelimiter = u.takePress
      { lane := 4, wall := .turn, sensor := .pad, deck := Config.freeStamp 0 - ticks 0 - ticks 0
        time := heatTimeFrom e (Config.freeStamp 0 - ticks 0 - ticks 0) }
      ∧ u.heat = (unstamped e).heat ∧ u.walls = (unstamped e).walls := by
  obtain ⟨u, ends, nodes, heat, walls⟩ : ∃ u : State,
      State.symbolArrives { unstamped e with pending := [] } .endDelimiter = u.receiveFrame
        { bytes := pressFrame, tooLong := false, cut := false, stamp := Config.freeStamp 0 }
        ∧ u.nodes = State.reset.nodes ∧ u.heat = (unstamped e).heat ∧ u.walls = (unstamped e).walls :=
    ⟨_, symbolArrives_end_unstamped rfl rfl, rfl, rfl, rfl⟩
  have received := ends.trans (receiveFrame_sensor (pressFrame_verdict u _ nodes) rfl)
  obtain ⟨v, vheat, vwalls, pressed⟩ := press_sensorFrame (s := u.recordVerdict .accepted _) nodes (Config.freeStamp 0)
  rw [State.heatTime, show (u.recordVerdict .accepted _).heat = (unstamped e).heat from heat] at pressed
  exact ⟨v, received.trans pressed, vheat.trans heat, vwalls.trans walls⟩

/-- The press is taken, however late its heat time. -/
theorem unstamped_step (e : DeckTime) (time : 0 ≤ heatTimeFrom e (Config.freeStamp 0 - ticks 0 - ticks 0)) :
    ∃ t, step (unstamped e) = .next t ∧ t.plan = (unstamped e).plan ∧ ∃ c ∈ t.walls.collectors,
      c.pad = some (heatTimeFrom e (Config.freeStamp 0 - ticks 0 - ticks 0)) := by
  obtain ⟨u, pressed, heat, walls⟩ := unstamped_pressed e
  have found : u.collector? 4 = some (.armedAt 4 1 0) := by
    unfold State.collector?
    rw [walls]
    rfl
  have opened := pressed.trans (takePress_pad found (by rw [heat]; rfl) rfl rfl time)
  have live : State.Live { unstamped e with pending := [] } := rfl
  have ran := (step_front rfl).trans
    ((exec_loopInSymbol_run .endDelimiter { unstamped e with pending := [] }).trans (run_live live _))
  refine ⟨_, ran, ?_, ?_⟩
  · obtain ⟨rs, w, x, o, q, -, shape⟩ := openCollection_raceOnly u (.armedAt 4 1 0) _
    unfold State.plan
    rw [arbitrate_heat, opened, shape, heat]
  · rw [arbitrate_walls, opened, State.openCollection, afterTaken_walls, setCollector_walls, walls]
    exact ⟨_, List.mem_map_of_mem (List.mem_singleton_self _), rfl⟩

theorem heatTimeFrom_add (e d : DeckTime) : heatTimeFrom e (e + d) = d.toInt := by
  unfold heatTimeFrom
  rw [add_sub_cancel_left]

/-- Refutes O33, by its second part: `TimesBounded` bounds the frame at Loop In by the Deck Time of its last byte, and says
nothing of one that holds bytes without it. `unstamped`, which no run from reset reaches, is such a state: the end delimiter
stamps its frame with a free value (log entry 8), here 10,000 s after the epoch, and the press is stored at that time under
a limit of 600 s. -/
theorem not_everyStepKeepsArrivalsSound : ¬ Obligations.EveryStepKeepsArrivalsSound := by
  rintro ⟨-, bounded⟩
  have now : Config.freeStamp 0 - ticks 0 - ticks 0 = Config.freeStamp 0 - 1000000000 + 1000000000 := by
    simp [ticks]
  have late : 0 ≤ heatTimeFrom (Config.freeStamp 0 - 1000000000) (Config.freeStamp 0 - ticks 0 - ticks 0) := by
    rw [now, heatTimeFrom_add]
    decide
  obtain ⟨t, ran, plan, c, mem, pad⟩ := unstamped_step _ late
  obtain ⟨-, -, -, -, collectors, -⟩ := bounded _ t (unstamped_heatSound _) (unstamped_timesBounded _) ran
  obtain ⟨-, high⟩ := (collectors c mem).2 _ (.inl pad)
  rw [now, heatTimeFrom_add, plan] at high
  exact absurd high (by decide)
end Sys2Proof.Machine
end

