-- ==== Sys2Proof/Proofs/HeatStates.lean ====
section
/-! What a heat state says of the other blocks, through every command: most parts of a command leave the heat, the modes
of the trackers, and the race of a heat that has not started; a close, a start, a recall and a return to IDLE set all of
them at once. -/

namespace Sys2Proof.Machine

/-! ### Changes that leave a heat as it stands -/

/-- The heat, the trackers, the walls, the exchanges and the records of `t` are those of `s`. -/
structure State.SameBlocks (s t : State) : Prop where
  heat : t.heat = s.heat
  starts : t.starts = s.starts
  walls : t.walls = s.walls
  exchanges : t.exchanges = s.exchanges
  results : t.results = s.results

theorem State.SameBlocks.trans {s t u : State} (h : s.SameBlocks t) (k : t.SameBlocks u) : s.SameBlocks u :=
  ⟨k.heat.trans h.heat, k.starts.trans h.starts, k.walls.trans h.walls, k.exchanges.trans h.exchanges,
    k.results.trans h.results⟩

theorem State.OutOnly.blocks {s t : State} : s.OutOnly t → s.SameBlocks t := by
  rintro ⟨_, -, rfl⟩
  exact ⟨rfl, rfl, rfl, rfl, rfl⟩

theorem State.PendingOnly.blocks {s t : State} : s.PendingOnly t → s.SameBlocks t := by
  rintro ⟨_, rfl⟩
  exact ⟨rfl, rfl, rfl, rfl, rfl⟩

theorem State.PulseOnly.blocks {s t : State} : s.PulseOnly t → s.SameBlocks t := by
  rintro ⟨_, _, _, _, -, rfl⟩
  exact ⟨rfl, rfl, rfl, rfl, rfl⟩

theorem State.ArbiterOnly.blocks {s t : State} : s.ArbiterOnly t → s.SameBlocks t := by
  rintro ⟨_, _, _, _, _, _, _, rfl⟩
  exact ⟨rfl, rfl, rfl, rfl, rfl⟩

theorem stopClock_blocks (s : State) (t : HeatTime) : s.SameBlocks (s.stopClock t) := by
  unfold State.stopClock
  refine .trans ?_ (makePending_pendingOnly _ .clock).blocks
  exact ⟨rfl, rfl, rfl, rfl, rfl⟩

/-- `t` is `s` as far as the heat state speaks of it: the heat but for its plan, the modes of the trackers, and, before a
start, the race (R21, R23, R51, R78). -/
structure State.Calm (s t : State) : Prop where
  heat : t.heat = { s.heat with plan := t.heat.plan }
  taking : t.starts.trackers.map (·.taking) = s.starts.trackers.map (·.taking)
  race : s.heat.state = .idle ∨ s.heat.state = .armed → (s.results = [] → t.results = [])
    ∧ t.walls.pool = s.walls.pool ∧ t.walls.collectors.map (·.state) = s.walls.collectors.map (·.state)
    ∧ t.exchanges.map (·.window) = s.exchanges.map (·.window)

theorem State.SameBlocks.calm {s t : State} (h : s.SameBlocks t) : s.Calm t :=
  ⟨by rw [h.heat], by rw [h.starts],
    fun _ => ⟨fun e => h.results.trans e, by rw [h.walls], by rw [h.walls], by rw [h.exchanges]⟩⟩

theorem State.Calm.of_kept {s t : State} (heat : t.heat = s.heat) (starts : t.starts = s.starts)
    (results : t.results = s.results) (walls : t.walls = s.walls) (exchanges : t.exchanges = s.exchanges) : s.Calm t :=
  State.SameBlocks.calm ⟨heat, starts, walls, exchanges, results⟩

theorem State.Calm.refl (s : State) : s.Calm s := .of_kept rfl rfl rfl rfl rfl

theorem State.Calm.trans {s t u : State} (h : s.Calm t) (k : t.Calm u) : s.Calm u := by
  refine ⟨by rw [k.heat, h.heat], k.taking.trans h.taking, fun early => ?_⟩
  have early' : t.heat.state = .idle ∨ t.heat.state = .armed := by rw [h.heat]; exact early
  obtain ⟨r1, p1, c1, x1⟩ := h.race early
  obtain ⟨r2, p2, c2, x2⟩ := k.race early'
  exact ⟨r2 ∘ r1, p2.trans p1, c2.trans c1, x2.trans x1⟩

/-- A heat state that agrees with the other blocks goes on agreeing. -/
theorem State.Calm.sound {s t : State} (k : s.Calm t) (h : s.HeatSound) : t.HeatSound := by
  obtain ⟨epoch, timers, idle, armed, taking⟩ := h
  obtain ⟨heat, modes, race⟩ := k
  have state : t.heat.state = s.heat.state := by rw [heat]
  refine ⟨by rw [heat]; exact epoch, fun h => ?_, fun h => ?_, fun h => ?_, fun k mem => ?_⟩
  · rw [heat]
    exact timers (state ▸ h)
  · rw [state] at h
    obtain ⟨rs, cs, pool, xs⟩ := idle h
    obtain ⟨r, p, c, x⟩ := race (.inl h)
    exact ⟨r rs, List.map_eq_nil_iff.mp (by rw [c, cs]; rfl), p.trans pool, List.map_eq_nil_iff.mp (by rw [x, xs]; rfl)⟩
  · rw [state] at h
    obtain ⟨pool, dormant, closed⟩ := armed h
    obtain ⟨-, p, c, x⟩ := race (.inr h)
    refine ⟨p.trans pool, fun d mem => ?_, fun d mem => ?_⟩
    · obtain ⟨e, held, same⟩ := List.mem_map.mp (c ▸ List.mem_map_of_mem (f := Collector.state) mem)
      exact same.symm.trans (dormant e held)
    · obtain ⟨e, held, same⟩ := List.mem_map.mp (x ▸ List.mem_map_of_mem (f := ExchangeCollector.window) mem)
      exact same.symm.trans (closed e held)
  · obtain ⟨j, held, same⟩ := List.mem_map.mp (modes ▸ List.mem_map_of_mem (f := Tracker.taking) mem)
    rw [state]
    exact same.symm.trans (taking j held)

theorem foldl_calm {α : Type} (g : State → α → State) (h : ∀ (s : State) a, s.Calm (g s a)) (as : List α) (s : State) :
    s.Calm (as.foldl g s) := foldl_keeps State.Calm .refl (fun _ _ _ => .trans) g h as s

/-! ### The shapes of the shared operations -/

theorem State.OutOnly.calm {s t : State} (h : s.OutOnly t) : s.Calm t := h.blocks.calm
theorem State.PendingOnly.calm {s t : State} (h : s.PendingOnly t) : s.Calm t := h.blocks.calm
theorem State.PulseOnly.calm {s t : State} (h : s.PulseOnly t) : s.Calm t := h.blocks.calm
theorem State.ArbiterOnly.calm {s t : State} (h : s.ArbiterOnly t) : s.Calm t := h.blocks.calm

/-- While a heat runs or stands closed the race may change in any way. -/
theorem State.RaceOnly.calm {s t : State} (h : s.RaceOnly t) (begun : s.heat.state = .running ∨ s.heat.state = .results) :
    s.Calm t := by
  obtain ⟨_, _, _, _, _, -, rfl⟩ := h
  refine ⟨rfl, rfl, fun early => ?_⟩
  rcases begun with e | e <;> rw [e] at early <;> simp at early

theorem reply_calm (s : State) (q : Request) (r : ReplyResult) (d : Nat) (fs : List Byte) : s.Calm (s.reply q r d fs) :=
  (reply_outOnly s q r d fs).calm

theorem popHead_calm (s : State) : s.Calm s.popHead := .of_kept rfl rfl rfl rfl rfl

theorem arbitrate_calm (s : State) : s.Calm s.arbitrate := (arbitrate_arbiterOnly s).calm

/-- A change of a record that no lane has is none. -/
theorem commit_nil {s : State} (empty : s.results = []) (l : Nat) (f : LaneRecord → LaneRecord)
    (reach names : LaneRecord → LaneRecord → Bool) (rep : LaneRecord → Option Report) :
    s.commit l f reach names rep = s := by
  have absent : s.record? l = none := by rw [State.record?, empty]; rfl
  unfold State.commit
  rw [absent]

theorem commit_calm (s : State) (l : Nat) (f : LaneRecord → LaneRecord) (reach names : LaneRecord → LaneRecord → Bool)
    (rep : LaneRecord → Option Report) : s.Calm (s.commit l f reach names rep) := by
  obtain ⟨rs, o, q, -, e⟩ := commit_recordsOnly s l f reach names rep
  refine ⟨by rw [e], by rw [e], fun _ => ⟨fun empty => ?_, by rw [e], by rw [e], by rw [e]⟩⟩
  rw [commit_nil empty, empty]

theorem note_calm (s : State) (l : Nat) (f : LaneRecord → LaneRecord) : s.Calm (s.note l f) := commit_calm s l f _ _ _

theorem markLinks_calm (s : State) (p : Collector → Bool) : s.Calm (s.markLinks p) := by
  refine ⟨rfl, rfl, fun _ => ⟨id, rfl, ?_, rfl⟩⟩
  rw [markLinks_walls, List.map_map]
  refine List.map_congr_left fun c _ => ?_
  simp only [Function.comp_apply]
  split <;> rfl

/-! ### Frames at Loop In (R39, R53, R115 to R118) -/

theorem staleEdge_calm (s : State) (l : Nat) : s.Calm (s.staleEdge l) := by
  unfold State.staleEdge
  dsimp only
  split
  · refine .trans ?_ (note_calm _ _ _)
    exact .of_kept rfl rfl rfl rfl rfl
  · exact .of_kept rfl rfl rfl rfl rfl

theorem take_taking (t : Tracker) (press : Bool) (deck : Option DeckTime) : (t.take press deck).taking = t.taking := by
  unfold Tracker.take
  repeat' split
  all_goals rfl

theorem trackerEdge_calm (s : State) (l : Nat) (press : Bool) (deck : Option DeckTime) :
    s.Calm (s.trackerEdge l press deck) := by
  refine ⟨rfl, ?_, fun _ => ⟨id, rfl, rfl, rfl⟩⟩
  refine List.ext_getElem? fun i => ?_
  simp only [State.trackerEdge, List.getElem?_map, List.getElem?_modify]
  cases s.starts.trackers[i]? with
  | none => rfl
  | some t => by_cases at_ : l = i <;> simp [at_, take_taking]

theorem toStartJudge_calm (s : State) (l : Nat) (w : Wall) (k : Sensor) (p : Bool) (d : Option DeckTime) :
    s.Calm (s.toStartJudge l w k p d) := by
  unfold State.toStartJudge
  split
  · exact trackerEdge_calm s l p d
  · exact .refl s

/-- Before a start a press falls on no collector that takes it (R53). -/
theorem takePress_calm (s : State) (p : Press) : s.Calm (s.takePress p) := by
  cases state : s.heat.state with
  | idle | armed =>
    have none_taken : s.takePress p = s := by
      unfold State.takePress
      rw [state]
      cases s.collector? p.lane <;> rfl
    rw [none_taken]
    exact .refl s
  | running => exact (takePress_raceOnly s p).calm (.inl state)
  | results => exact (takePress_raceOnly s p).calm (.inr state)

theorem toWallJudge_calm (s : State) (l : Nat) (w : Wall) (k : Sensor) (p : Bool) (d : Option DeckTime) :
    s.Calm (s.toWallJudge l w k p d) := by
  unfold State.toWallJudge
  split
  · exact .refl s
  · split
    · exact takePress_calm s _
    · exact .refl s

theorem handEdge_calm (n : ActiveEntry) (stamp : DeckTime) (s : State) (edge : List Byte) :
    s.Calm (s.handEdge n stamp edge) := by
  unfold State.handEdge
  split
  · exact .refl s
  · dsimp only
    refine .trans (.trans ?_ (toStartJudge_calm _ _ _ _ _ _)) (toWallJudge_calm _ _ _ _ _ _)
    split
    · exact staleEdge_calm s _
    · exact .refl s

theorem sequenceGap_calm (s : State) (n : ActiveEntry) (g : Nat) : s.Calm (s.sequenceGap n g) := by
  have counted : s.Calm { s with intake := { s.intake with lostCount := satAdd 16 s.intake.lostCount g } } :=
    .of_kept rfl rfl rfl rfl rfl
  unfold State.sequenceGap
  dsimp only
  split
  · refine .trans ?_ (markLinks_calm _ _)
    split
    · split
      · exact counted
      · exact counted.trans (note_calm _ _ _)
    · exact counted
  · exact counted

theorem sensorFrame_calm (s : State) (f : Frame) (stamp : DeckTime) : s.Calm (s.sensorFrame f stamp) := by
  unfold State.sensorFrame
  split
  · exact .refl s
  · dsimp only
    refine .trans ?_ (foldl_calm _ (handEdge_calm _ stamp) _ _)
    split
    · exact .of_kept rfl rfl rfl rfl rfl
    · refine .trans ?_ (sequenceGap_calm _ _ _)
      exact .of_kept rfl rfl rfl rfl rfl

theorem manageFrame_calm (s : State) (f : Frame) : s.Calm (s.manageFrame f) := by
  unfold State.manageFrame
  split
  · exact .of_kept rfl rfl rfl rfl rfl
  · exact reply_calm s _ _ _ _

theorem dispose_calm (s : State) (v : Verdict) (e : EndedFrame) : s.Calm (s.dispose v e) := by
  unfold State.dispose
  dsimp only
  split
  · exact .of_kept rfl rfl rfl rfl rfl
  · split
    · exact sensorFrame_calm s _ _
    · exact manageFrame_calm s _
  all_goals exact .refl s

theorem receiveFrame_calm (s : State) (e : EndedFrame) : s.Calm (s.receiveFrame e) := by
  refine .trans ?_ (dispose_calm _ _ e)
  exact .of_kept rfl rfl rfl rfl rfl

theorem endFrame_calm (s : State) (bytes : List Byte) (long : Bool) (last : Option DeckTime) (cut : Bool) :
    s.Calm (s.endFrame bytes long last cut) := by
  unfold State.endFrame
  split
  · exact receiveFrame_calm s _
  · split
    · exact receiveFrame_calm s _
    · refine .trans ?_ (receiveFrame_calm _ _)
      exact .of_kept rfl rfl rfl rfl rfl

theorem setChecker_calm (s : State) (c : Checker) : s.Calm (s.setChecker c) := .of_kept rfl rfl rfl rfl rfl

theorem decodeSymbol_calm (s : State) (sym : LoopSymbol) : s.Calm (s.decodeSymbol sym) := by
  have ends : ∀ c bytes long last cut, s.Calm ((s.setChecker c).endFrame bytes long last cut) :=
    fun c bytes long last cut => (setChecker_calm s c).trans (endFrame_calm _ bytes long last cut)
  unfold State.decodeSymbol
  split
  · exact setChecker_calm s _
  · exact .refl s
  · exact setChecker_calm s _
  all_goals exact ends _ _ _ _ _

theorem restoreLoop_calm (s : State) : s.Calm s.restoreLoop := by
  have restored : s.Calm (State.restartSilence { s with intake := { s.intake with link := .up } }) :=
    .of_kept rfl rfl rfl rfl rfl
  have flagged : ∀ (u : State) (l : Nat), u.Calm (u.flagRestored l) := by
    intro u l
    unfold State.flagRestored
    split
    · split
      · exact note_calm u _ _
      · exact .refl u
    · exact .refl u
  unfold State.restoreLoop
  refine .trans ?_ (report_outOnly _ _).calm
  dsimp only
  split
  · exact restored.trans (foldl_calm _ flagged _ _)
  · exact restored

theorem symbolArrives_calm (s : State) (sym : LoopSymbol) : s.Calm (s.symbolArrives sym) := by
  unfold State.symbolArrives
  refine .trans ?_ (decodeSymbol_calm _ sym)
  split
  · split
    · exact restoreLoop_calm s
    · exact .of_kept rfl rfl rfl rfl rfl
  · exact .refl s

theorem beginOutage_calm (s : State) : s.Calm s.beginOutage := by
  have cut : ∀ u : State, u.Calm u.cutFrame := by
    intro u
    unfold State.cutFrame
    split
    · exact .refl u
    · exact (setChecker_calm u _).trans (endFrame_calm _ _ _ _ _)
  have counted : ∀ u : State, u.Calm
      { u with intake := { u.intake with outageCount := satAdd 16 u.intake.outageCount 1 } } :=
    fun _ => .of_kept rfl rfl rfl rfl rfl
  unfold State.beginOutage
  refine .trans (.trans ?_ (counted _)) (markLinks_calm _ _)
  refine .trans ?_ (cut _)
  exact .of_kept rfl rfl rfl rfl rfl

/-! ### Judgements and decisions of a running heat (R25, R64, R65, R81) -/

theorem judgeStartLane_calm (tj : HeatTime) (s : State) (l : Nat) : s.Calm (s.judgeStartLane tj l) := by
  unfold State.judgeStartLane
  split
  · exact .refl s
  · split
    · exact .refl s
    · exact commit_calm s l _ _ _ _

/-- The heat with its start judged, but for the race. -/
theorem judgeStart_heat (s : State) (d : DeckTime) : (s.judgeStart d).heat = { s.heat with startTimer := none } := by
  have kept := foldl_keeps State.RecordsOnly .refl (fun _ _ _ => .trans) (State.judgeStartLane (s.heatTime d))
    (judgeStartLane_recordsOnly _) Config.lanes { s with heat := { s.heat with startTimer := none } }
  obtain ⟨_, _, _, -, e⟩ := kept
  unfold State.judgeStart
  rw [e]

theorem closeStart_heat (s : State) : s.closeStart.heat = { s.heat with startTimer := none } := by
  unfold State.closeStart
  split
  · exact judgeStart_heat s _
  · next off =>
    have absent : s.heat.startTimer = none := by simpa using off
    rw [← absent]

theorem closeLanes_heat (s : State) : s.closeLanes.heat = s.heat := by
  obtain ⟨_, _, _, _, _, -, e⟩ := closeLanes_raceOnly s
  rw [e]

/-- A close leaves RESULTS with the epoch and the plan, and no timer (R28). -/
theorem closeHeat_heat (s : State) (cause : HeatCause) :
    (s.closeHeat cause).heat = { s.heat with state := .results, startTimer := none, limitTimer := none } := by
  unfold State.closeHeat
  dsimp only
  split
  · rw [fireEnd_heat, stopClock_heat, enterHeat_heat, closeLanes_heat, closeStart_heat]
  · rw [stopClock_heat, enterHeat_heat, closeLanes_heat, closeStart_heat]

theorem closeHeat_starts (s : State) (cause : HeatCause) : (s.closeHeat cause).starts = s.starts := by
  obtain ⟨_, _, _, _, _, _, _, -, e⟩ := closeHeat_heatOnly s cause
  rw [e]

theorem closeHeat_heatSound {s : State} (h : s.HeatSound) (running : s.heat.state = .running) (cause : HeatCause) :
    (s.closeHeat cause).HeatSound := by
  obtain ⟨epoch, -, -, -, taking⟩ := h
  have heat := closeHeat_heat s cause
  refine ⟨?_, fun _ => ?_, fun e => ?_, fun e => ?_, fun k mem => ?_⟩
  · rw [heat]
    exact ⟨fun _ => .inr rfl, fun _ => epoch.mpr (.inl running)⟩
  · rw [heat]
    exact ⟨rfl, rfl⟩
  · rw [heat] at e
    cases e
  · rw [heat] at e
    cases e
  · rw [closeHeat_starts] at mem
    rw [taking k mem, running, heat]
    rfl

theorem examineClosing_heatSound {s : State} (h : s.HeatSound) : s.examineClosing.HeatSound := by
  unfold State.examineClosing
  split
  · next met => exact closeHeat_heatSound h (by simpa using (Bool.and_eq_true_iff.mp met).1) _
  · exact h

/-- The start event of an armed heat (R24). -/
theorem startEvent_heatSound {s : State} (h : s.HeatSound) (armed : s.heat.state = .armed) : s.startEvent.HeatSound := by
  obtain ⟨-, -, -, -, taking⟩ := h
  unfold State.startEvent
  refine examineClosing_heatSound ?_
  obtain ⟨_, _, _, _, -, fired⟩ := firePreempting_pulseOnly
    (State.armCollectors
      { s with
        heat := { s.heat with
          epoch := some s.deckTime
          startTimer := some (s.deckTime + ticks s.plan.startWindowTicks)
          limitTimer := some (s.deckTime + ticks s.plan.limitTicks) }
        results := s.results.map LaneRecord.started
        composer := { s.composer with clockRunning := true, clockTimer := some (s.deckTime + Config.clockInterval) } }) 0
  dsimp only
  rw [fired]
  refine ⟨?_, fun off => (off rfl).elim, nofun, nofun, fun k mem => ?_⟩
  · exact ⟨fun _ => .inl rfl, fun _ => rfl⟩
  · rw [taking k mem, armed]
    rfl

/-! ### Expiries (R2) -/

theorem silenceExpires_calm (s : State) : s.Calm s.silenceExpires := by
  unfold State.silenceExpires
  split
  · exact (beginOutage_calm s).trans (arbitrate_calm _)
  · exact .refl s

theorem startWindowExpires_heatSound {s : State} (h : s.HeatSound) : s.startWindowExpires.HeatSound := by
  unfold State.startWindowExpires
  split
  · exact h
  · split
    · next due =>
      have running : s.heat.state = .running := by simpa using (Bool.and_eq_true_iff.mp due).2
      refine (arbitrate_calm _).sound ?_
      have stopped : State.HeatSound { s with heat := { s.heat with startTimer := none } } := by
        obtain ⟨epoch, timers, idle, armed, taking⟩ := h
        exact ⟨epoch, fun off => ⟨rfl, (timers off).2⟩, idle, armed, taking⟩
      exact (foldl_calm _ (judgeStartLane_calm _) Config.lanes _).sound stopped
    · exact h

/-- A collection is open only once the heat has begun. -/
theorem collectionDue_begun {s : State} (h : s.HeatSound) {l : Nat} (due : s.collectionDue l = true) :
    s.heat.state = .running ∨ s.heat.state = .results := by
  obtain ⟨-, -, idle, armed, -⟩ := h
  unfold State.collectionDue at due
  split at due
  · next c found =>
    have collecting : c.state = .collecting := by simpa using (Bool.and_eq_true_iff.mp due).1
    have mem : c ∈ s.walls.collectors := List.mem_of_find?_eq_some found
    cases state : s.heat.state with
    | idle =>
      obtain ⟨-, none_held, -, -⟩ := idle state
      rw [none_held] at mem
      cases mem
    | armed =>
      obtain ⟨-, dormant, -⟩ := armed state
      rw [dormant c mem] at collecting
      cases collecting
    | running => exact .inl rfl
    | results => exact .inr rfl
  · cases due

theorem collectionExpires_heatSound {s : State} (h : s.HeatSound) (l : Nat) : (s.collectionExpires l).HeatSound := by
  unfold State.collectionExpires
  split
  · next due =>
    refine (arbitrate_calm _).sound (examineClosing_heatSound ?_)
    exact ((decideCollection_raceOnly s l false).calm (collectionDue_begun h due)).sound h
  · exact h

/-- A window is open only once the heat has begun. -/
theorem openExchange_begun {s : State} (h : s.HeatSound) {l : Nat} {o : OpenExchange} (found : s.openExchange l = some o) :
    s.heat.state = .running ∨ s.heat.state = .results := by
  obtain ⟨-, -, idle, armed, -⟩ := h
  obtain ⟨x, held, window⟩ := Option.bind_eq_some_iff.mp found
  have mem : x ∈ s.exchanges := List.mem_of_find?_eq_some held
  cases state : s.heat.state with
  | idle =>
    obtain ⟨-, -, -, none_held⟩ := idle state
    rw [none_held] at mem
    cases mem
  | armed =>
    obtain ⟨-, -, closed⟩ := armed state
    rw [closed x mem] at window
    cases window
  | running => exact .inl rfl
  | results => exact .inr rfl

theorem exchangeExpires_heatSound {s : State} (h : s.HeatSound) (l : Nat) : (s.exchangeExpires l).HeatSound := by
  unfold State.exchangeExpires
  split
  · exact h
  · next o found =>
    split
    · refine (arbitrate_calm _).sound ?_
      exact ((judgeExchange_raceOnly s l _).calm (openExchange_begun h found)).sound h
    · exact h

theorem limitExpires_heatSound {s : State} (h : s.HeatSound) : s.limitExpires.HeatSound := by
  unfold State.limitExpires
  split
  · next due =>
    refine (arbitrate_calm _).sound (closeHeat_heatSound h ?_ _)
    simpa using (Bool.and_eq_true_iff.mp due).2
  · exact h

theorem clockExpires_calm (s : State) : s.Calm s.clockExpires := by
  unfold State.clockExpires
  split
  · exact .refl s
  · split
    · refine .trans (.trans ?_ (makePending_pendingOnly _ .clock).calm) (arbitrate_calm _)
      exact .of_kept rfl rfl rfl rfl rfl
    · exact .refl s

theorem refreshExpires_calm (s : State) (row : Nat) : s.Calm (s.refreshExpires row) := by
  unfold State.refreshExpires
  split
  · exact (examineShifter_arbiterOnly s).calm.trans (arbitrate_calm _)
  · exact .refl s

theorem stepExpires_calm (s : State) : s.Calm s.stepExpires := by
  unfold State.stepExpires
  split
  · exact .refl s
  · split
    · exact (stepBoundary_pulseOnly s _).calm
    · exact .refl s

theorem foldl_heatSound {α : Type} {g : State → α → State} (kept : ∀ {s : State}, s.HeatSound → ∀ a, (g s a).HeatSound)
    (as : List α) {s : State} (h : s.HeatSound) : (as.foldl g s).HeatSound := by
  induction as generalizing s with
  | nil => exact h
  | cons a as ih => exact ih (kept h a)

theorem deckTime_calm (s : State) (d : DeckTime) : s.Calm { s with deckTime := d } := .of_kept rfl rfl rfl rfl rfl

theorem takeDue_heatSound {s : State} (h : s.HeatSound) : s.takeDue.HeatSound := by
  unfold State.takeDue
  have judged := startWindowExpires_heatSound ((silenceExpires_calm s).sound h)
  have collected := foldl_heatSound collectionExpires_heatSound Config.lanes judged
  have exchanged := foldl_heatSound exchangeExpires_heatSound Config.lanes collected
  have clocked := (clockExpires_calm _).sound (limitExpires_heatSound exchanged)
  have refreshed := (foldl_calm State.refreshExpires refreshExpires_calm Config.boardRows _).sound clocked
  exact (stepExpires_calm _).sound refreshed

/-! ### Completions and requests -/

theorem freeBoard_calm (s : State) : s.Calm s.freeBoard := (freeBoard_arbiterOnly s).calm

theorem answerHead_calm (s : State) (op : ConsoleOp) : s.Calm (s.answerHead op) := by
  unfold State.answerHead
  split
  · exact (reply_calm s _ _ _ _).trans (popHead_calm _)
  · exact .refl s

theorem applyConsole_calm (s : State) (op : ConsoleOp) : s.Calm (s.applyConsole op) := by
  cases op <;> exact .of_kept rfl rfl rfl rfl rfl

theorem request_heatSound {s : State} (h : s.HeatSound) (code : Byte) (form : List Byte → Bool)
    {body : State → Request → State} (kept : ∀ q, (body s q).HeatSound) : (s.request code form body).HeatSound := by
  rcases request_cases s code form body with e | ⟨f, -, e⟩ | ⟨f, -, -, -, e⟩ <;> rw [e]
  · exact h
  · exact ((reply_calm s _ _ _ _).trans (popHead_calm _)).sound h
  · exact (popHead_calm _).sound (kept f.request)

theorem boardRequest_calm (s : State) (code : Byte) (form : List Byte → Bool) (check : State → List Byte → BoardCheck) :
    s.Calm (s.boardRequest code form check) := by
  rcases boardRequest_cases s code form check with e | ⟨q, r, d, e⟩ | ⟨f, op, -, -, e⟩ <;> rw [e]
  · exact .refl s
  · exact (reply_calm s _ _ _ _).trans (popHead_calm _)
  · refine .trans ?_ (arbitrate_calm _)
    exact .of_kept rfl rfl rfl rfl rfl

/-- A change that leaves the heat, then the REPLY. -/
theorem State.Calm.reply {s t : State} (k : s.Calm t) (q : Request) (r : ReplyResult) (d : Nat) (fs : List Byte) :
    s.Calm (t.reply q r d fs) := k.trans (reply_calm t q r d fs)

theorem setMeet_calm (s : State) (q : Request) : s.Calm (setMeet s q) := by
  have replaced : ∀ new, s.Calm (s.setMeet new) := by
    intro new
    unfold State.setMeet State.moveStartLine State.remap
    split <;> split <;> exact .of_kept rfl rfl rfl rfl rfl
  unfold setMeet
  split
  · exact reply_calm s _ _ _ _
  · split
    · exact reply_calm s _ _ _ _
    · split
      · exact reply_calm s _ _ _ _
      · exact (replaced _).reply _ _ _ _

theorem writeNodeEntries_calm (s : State) (q : Request) : s.Calm (writeNodeEntries s q) := by
  unfold writeNodeEntries
  split
  · exact reply_calm s _ _ _ _
  · refine .reply ?_ _ _ _ _
    exact .of_kept rfl rfl rfl rfl rfl

theorem selectNodeMap_calm (s : State) (q : Request) : s.Calm (selectNodeMap s q) := by
  have built : ∀ m sel, s.Calm (s.buildMap m sel) := fun _ _ => .of_kept rfl rfl rfl rfl rfl
  unfold selectNodeMap
  split
  · exact reply_calm s _ _ _ _
  · split
    · exact reply_calm s _ _ _ _
    · split
      · exact (built _ _).reply _ _ _ _
      · split
        · exact reply_calm s _ _ _ _
        · exact (built _ _).reply _ _ _ _

theorem readNodeEntry_calm (s : State) (q : Request) : s.Calm (readNodeEntry s q) := by
  unfold readNodeEntry
  split
  · exact reply_calm s _ _ _ _
  · split <;> exact reply_calm s _ _ _ _

theorem loadHeatPlan_calm (s : State) (q : Request) : s.Calm (loadHeatPlan s q) := by
  have loaded : ∀ p, s.Calm { s with heat := { s.heat with plan := some p } } :=
    fun _ => ⟨rfl, rfl, fun _ => ⟨id, rfl, rfl, rfl⟩⟩
  unfold loadHeatPlan
  dsimp only
  split
  · exact reply_calm s _ _ _ _
  · split
    · exact reply_calm s _ _ _ _
    · split
      · exact reply_calm s _ _ _ _
      · split <;> exact (loaded _).reply _ _ _ _

/-- A heat that arming or a recall leaves: ARMED without epoch or timers, its trackers taking and its race at rest. -/
theorem heatSound_of_armed {s : State} (state : s.heat.state = .armed) (epoch : s.heat.epoch = none)
    (start : s.heat.startTimer = none) (limit : s.heat.limitTimer = none) (pool : s.walls.pool = [])
    (dormant : ∀ c ∈ s.walls.collectors, c.state = .dormant) (closed : ∀ x ∈ s.exchanges, x.window = none)
    (taking : ∀ k ∈ s.starts.trackers, k.taking = true) : s.HeatSound := by
  refine ⟨?_, fun _ => ⟨start, limit⟩, fun e => ?_, fun _ => ⟨pool, dormant, closed⟩, fun k mem => ?_⟩
  · rw [epoch, state]
    simp
  · rw [state] at e
    cases e
  · rw [state]
    exact taking k mem

/-- A heat that a disarm, a clear or a RESTART leaves: IDLE, with nothing of a race. -/
theorem heatSound_of_idle {s : State} (state : s.heat.state = .idle) (epoch : s.heat.epoch = none)
    (start : s.heat.startTimer = none) (limit : s.heat.limitTimer = none) (results : s.results = [])
    (walls : s.walls = { collectors := [], pool := [] }) (exchanges : s.exchanges = [])
    (taking : ∀ k ∈ s.starts.trackers, k.taking = false) : s.HeatSound := by
  refine ⟨?_, fun _ => ⟨start, limit⟩, fun _ => ⟨results, by rw [walls], by rw [walls], exchanges⟩, fun e => ?_,
    fun k mem => ?_⟩
  · rw [epoch, state]
    simp
  · rw [state] at e
    cases e
  · rw [state]
    exact taking k mem

theorem freshTrackers_taking {taking : Bool} : ∀ k ∈ freshTrackers taking, k.taking = taking := fun _ mem => by
  rw [List.eq_of_mem_replicate mem]

/-- Entering a heat state sets it in the heat and leaves the other blocks. -/
theorem State.SameBlocks.enter {s t : State} (h : s.SameBlocks t) (st : HeatState) (c : HeatCause) :
    State.SameBlocks { s with heat := { s.heat with state := st } } (t.enterHeat st c) := by
  have reported : State.SameBlocks { t with heat := { t.heat with state := st } } (t.enterHeat st c) :=
    (report_outOnly _ _).blocks
  exact ⟨by rw [enterHeat_heat, h.heat], reported.starts.trans h.starts, reported.walls.trans h.walls,
    reported.exchanges.trans h.exchanges, reported.results.trans h.results⟩

/-- The blocks that arming sets, but for the board's fields and the stopped clock. -/
theorem armed_blocks (s : State) (p : Plan) : State.SameBlocks
    { s with
      results := p.records
      walls := { s.walls with collectors := p.lanes.map fun l => { lane := l } }
      exchanges := if p.relay then p.lanes.map fun l => { lane := l, window := none } else []
      starts := { s.starts with trackers := freshTrackers true } }
    (s.armed p) := by
  unfold State.armed State.makeLaneRowsPending
  refine .trans (.trans (.trans ?_ (makeAllPending_pendingOnly _ _).blocks) (stopClock_blocks _ 0))
    (makeAllPending_pendingOnly _ _).blocks
  exact ⟨rfl, rfl, rfl, rfl, rfl⟩

theorem armed_plan_heatSound {s : State} (h : s.HeatSound) (idle : s.heat.state = .idle) (q : Request) (p : Plan) :
    (s.arm q p).HeatSound := by
  obtain ⟨epoch, timers, empty, -, -⟩ := h
  obtain ⟨start, limit⟩ := timers (by rw [idle]; decide)
  obtain ⟨-, -, pool, -⟩ := empty idle
  have unbegun : s.heat.epoch = none := by
    cases held : s.heat.epoch with
    | none => rfl
    | some d => simp [held, idle] at epoch
  have built := ((armed_blocks (s.reply q .done) p).trans (lampsOff_outOnly _).blocks).enter .armed .arm
  refine (built.trans (arbitrate_arbiterOnly _).blocks).calm.sound ?_
  refine heatSound_of_armed rfl unbegun start limit pool ?_ ?_ freshTrackers_taking
  · intro c mem
    obtain ⟨l, -, rfl⟩ := List.mem_map.mp mem
    rfl
  · intro x mem
    dsimp only at mem
    split at mem
    · obtain ⟨l, -, rfl⟩ := List.mem_map.mp mem
      rfl
    · cases mem

theorem armHeat_heatSound {s : State} (h : s.HeatSound) (q : Request) : (armHeat s q).HeatSound := by
  have refused : ∀ r d, (s.reply q r d).HeatSound := fun r d => (reply_calm s q r d []).sound h
  unfold armHeat
  split
  · exact refused _ _
  · split
    · exact refused _ _
    · next idle =>
      split
      · exact refused _ _
      · split
        · exact refused _ _
        · exact armed_plan_heatSound h (not_not.mp idle) q _

theorem toIdle_heatSound (s : State) (q : Request) (cause : HeatCause) : (s.toIdle q cause).HeatSound := by
  have emptied := (makeAllPending_pendingOnly (s.reply q .done).stopHeat.discardHeat
    (Config.lanes.flatMap laneFields)).blocks
  refine ((emptied.enter .idle cause).trans (arbitrate_arbiterOnly _).blocks).calm.sound ?_
  exact heatSound_of_idle rfl rfl rfl rfl rfl rfl rfl freshTrackers_taking

theorem recall_heatSound {s : State} (h : s.HeatSound) (running : s.heat.state = .running) (q : Request) :
    (s.recall q).HeatSound := by
  obtain ⟨-, -, -, -, taking⟩ := h
  have reset := (stopClock_blocks (s.reply q .done).recalled 0).trans (makeAllPending_pendingOnly _
    ((s.reply q .done).recalled.stopClock 0).recallFields).blocks
  have fired := (reset.trans (lampsOff_outOnly _).blocks).trans (firePreempting_pulseOnly _ 1).blocks
  refine ((fired.enter .armed .abort).trans (arbitrate_arbiterOnly _).blocks).calm.sound ?_
  refine heatSound_of_armed rfl rfl rfl rfl rfl ?_ ?_ fun k mem => ?_
  · intro c mem
    obtain ⟨d, -, rfl⟩ := List.mem_map.mp mem
    rfl
  · intro x mem
    obtain ⟨y, -, rfl⟩ := List.mem_map.mp mem
    rfl
  · rw [taking k mem, running]
    rfl

theorem abortHeat_heatSound {s : State} (h : s.HeatSound) (q : Request) : (abortHeat s q).HeatSound := by
  unfold abortHeat
  split
  · exact toIdle_heatSound s q _
  · next running => exact recall_heatSound h running q
  all_goals exact (reply_calm s _ _ _ _).sound h

theorem clearHeat_heatSound {s : State} (h : s.HeatSound) (q : Request) : (clearHeat s q).HeatSound := by
  unfold clearHeat
  split
  · exact toIdle_heatSound s q _
  · exact toIdle_heatSound s q _
  all_goals exact (reply_calm s _ _ _ _).sound h

theorem closeHeatRequest_heatSound {s : State} (h : s.HeatSound) (q : Request) : (closeHeatRequest s q).HeatSound := by
  unfold closeHeatRequest
  split
  · next running =>
    exact (arbitrate_calm _).sound (closeHeat_heatSound ((reply_calm s q .done 0 []).sound h) running _)
  · exact (reply_calm s _ _ _ _).sound h

/-- A collector dropped is DORMANT, so it breaks no agreement of an armed heat. -/
theorem dropCollector_heatSound {s : State} (h : s.HeatSound) (l : Nat) : (s.dropCollector l).HeatSound := by
  obtain ⟨epoch, timers, idle, armed, taking⟩ := h
  refine ⟨epoch, timers, fun e => ?_, fun e => ?_, taking⟩
  · obtain ⟨results, collectors, pool, exchanges⟩ := idle e
    exact ⟨results, by rw [State.dropCollector, collectors]; rfl, pool, exchanges⟩
  · obtain ⟨pool, dormant, closed⟩ := armed e
    refine ⟨pool, fun c mem => ?_, closed⟩
    obtain ⟨d, held, rfl⟩ := List.mem_map.mp mem
    split
    · rfl
    · exact dormant d held

theorem markDns_heatSound {s : State} (h : s.HeatSound) (q : Request) : (markDns s q).HeatSound := by
  have refused : ∀ r, (s.reply q r).HeatSound := fun r => (reply_calm s q r 0 []).sound h
  unfold markDns
  dsimp only
  split
  · exact refused _
  · split
    · refine (arbitrate_calm _).sound (examineClosing_heatSound ((commit_calm _ _ _ _ _ _).sound ?_))
      exact dropCollector_heatSound (refused .done) _
    · exact refused _

theorem adjudicateFinish_calm (s : State) (q : Request) : s.Calm (adjudicateFinish s q) := by
  have set_ : ∀ l t src, s.Calm (s.setFinish q l t src) := fun l t src =>
    ((reply_calm s q .done 0 []).trans (commit_calm _ l _ _ _ _)).trans (arbitrate_calm _)
  have cleared : ∀ l, s.Calm (s.clearReview q l) := fun l =>
    ((reply_calm s q .done 0 []).trans (commit_calm _ l _ _ _ _)).trans (arbitrate_calm _)
  have final : ∀ r l, s.Calm (adjudicateFinal s q r l) := by
    intro r l
    unfold adjudicateFinal
    split
    · split
      · exact reply_calm s _ _ _ _
      · exact set_ _ _ _
    · split
      · exact reply_calm s _ _ _ _
      · exact set_ _ _ _
    · split
      · exact set_ _ _ _
      · exact reply_calm s _ _ _ _
    · exact cleared _
  unfold adjudicateFinish
  dsimp only
  split
  · exact reply_calm s _ _ _ _
  · split
    · exact reply_calm s _ _ _ _
    · split
      · exact reply_calm s _ _ _ _
      · split
        · exact final _ _
        · exact reply_calm s _ _ _ _

theorem setDq_calm (s : State) (q : Request) : s.Calm (setDq s q) := by
  unfold setDq
  dsimp only
  split
  · exact reply_calm s _ _ _ _
  · split
    · exact reply_calm s _ _ _ _
    · split
      · exact reply_calm s _ _ _ _
      · split
        · exact reply_calm s _ _ _ _
        · exact ((reply_calm s q .done 0 []).trans (commit_calm _ _ _ _ _ _)).trans (arbitrate_calm _)

theorem readLane_calm (s : State) (q : Request) : s.Calm (readLane s q) := by
  unfold readLane
  split <;> exact reply_calm s _ _ _ _

theorem readArrivals_calm (s : State) (q : Request) : s.Calm (readArrivals s q) := by
  unfold readArrivals
  dsimp only
  split <;> exact reply_calm s _ _ _ _

theorem setReportDest_calm (s : State) (q : Request) : s.Calm (setReportDest s q) := by
  unfold setReportDest
  dsimp only
  split
  · refine .reply ?_ _ _ _ _
    exact .of_kept rfl rfl rfl rfl rfl
  · exact reply_calm s _ _ _ _

theorem loadProgram_calm (s : State) (q : Request) : s.Calm (loadProgram s q) := by
  unfold loadProgram
  dsimp only
  split
  · exact reply_calm s _ _ _ _
  · split
    · exact reply_calm s _ _ _ _
    · split
      · exact reply_calm s _ _ _ _
      · split
        · exact reply_calm s _ _ _ _
        · refine .reply ?_ _ _ _ _
          exact .of_kept rfl rfl rfl rfl rfl

theorem fireProgram_calm (s : State) (q : Request) : s.Calm (fireProgram s q) := by
  unfold fireProgram
  dsimp only
  split
  · exact reply_calm s _ _ _ _
  · split
    · exact reply_calm s _ _ _ _
    · split
      · exact reply_calm s _ _ _ _
      · exact (beginProgram_pulseOnly s _).calm.reply _ _ _ _

theorem setLineFunction_calm (s : State) (q : Request) : s.Calm (setLineFunction s q) := by
  unfold setLineFunction
  dsimp only
  split
  · exact reply_calm s _ _ _ _
  · split
    · exact reply_calm s _ _ _ _
    · split
      · exact reply_calm s _ _ _ _
      · refine .reply ?_ _ _ _ _
        exact .of_kept rfl rfl rfl rfl rfl

theorem setHeldLevel_calm (s : State) (q : Request) : s.Calm (setHeldLevel s q) := by
  unfold setHeldLevel
  dsimp only
  split
  · exact reply_calm s _ _ _ _
  · split
    · exact reply_calm s _ _ _ _
    · refine .reply ?_ _ _ _ _
      exact .of_kept rfl rfl rfl rfl rfl

theorem restart_heatSound (s : State) (q : Request) : (restart s q).HeatSound := by
  have discarded : s.restartHeat.SameBlocks
      (s.restartHeat.restartIntake.restartTraffic.restartBoard.restartPulse.reply q .done) := by
    refine .trans ?_ (reply_outOnly _ q .done 0 []).blocks
    have cut := (stopProgram_pulseOnly s.restartHeat.restartIntake.restartTraffic.restartBoard .cutByRestart).blocks
    exact ⟨cut.heat, cut.starts, cut.walls, cut.exchanges, cut.results⟩
  have told := ((discarded.enter .idle .restart).trans (reportOpt_outOnly _ (s.pulseDone .cutByRestart)).blocks).trans
    (examineShifter_arbiterOnly _).blocks
  refine (told.trans (arbitrate_arbiterOnly _).blocks).calm.sound ?_
  exact heatSound_of_idle rfl rfl rfl rfl rfl rfl rfl freshTrackers_taking

theorem reset_heatSound : State.reset.HeatSound :=
  heatSound_of_idle rfl rfl rfl rfl rfl rfl rfl freshTrackers_taking

/-! ### Every command -/

theorem run_heatSound {c : Instr} {g : State → State} {s t : State} (ran : exec c s = s.run g) (next : exec c s = .next t)
    (h : s.HeatSound) (kept : (g s).HeatSound) : t.HeatSound := by
  rw [ran, State.run] at next
  obtain rfl := Host.Outcome.next.inj next
  split
  · exact h
  · exact kept

/-- A symbol at Loop In, and the arbiter after it. -/
theorem symbol_heatSound {s : State} (h : s.HeatSound) (sym : LoopSymbol) : (s.symbolArrives sym).arbitrate.HeatSound :=
  ((symbolArrives_calm s sym).trans (arbitrate_calm _)).sound h

theorem startLineRisingEdge_heatSound {s : State} (h : s.HeatSound) :
    ∀ t, exec .startLineRisingEdge s = .next t → t.HeatSound := by
  intro t next
  obtain rfl := Host.Outcome.next.inj next
  have sensed : (s.senseLine s.mgmt.settings.startLine true).HeatSound :=
    State.Calm.sound (.of_kept rfl rfl rfl rfl rfl) h
  have noted : ((s.senseLine s.mgmt.settings.startLine true).notePrevious true).HeatSound :=
    State.Calm.sound (.of_kept rfl rfl rfl rfl rfl) h
  split
  · exact sensed
  · unfold State.risingEdge
    split
    · next armed => exact (arbitrate_calm _).sound (startEvent_heatSound noted armed)
    · exact State.Calm.sound ⟨rfl, rfl, fun _ => ⟨id, rfl, rfl, rfl⟩⟩ noted

theorem lineLevelChange_calm (line : Nat) (level : Bool) (s : State) :
    ∀ t, exec (.lineLevelChange line level) s = .next t → s.Calm t := by
  intro t next
  obtain rfl := Host.Outcome.next.inj next
  split
  · exact .refl s
  · dsimp only
    split <;> exact .of_kept rfl rfl rfl rfl rfl

theorem hardwareResetEnds_calm (s : State) : ∀ t, exec .hardwareResetEnds s = .next t → s.Calm t := by
  intro t next
  obtain rfl := Host.Outcome.next.inj next
  split
  · refine .trans (.trans ?_ (examineShifter_arbiterOnly _).calm) (arbitrate_calm _)
    exact .of_kept rfl rfl rfl rfl rfl
  · exact .refl s

theorem rowLoadComplete_calm (s : State) : s.Calm
    (match s.board.operation with
    | some (.rowLoad row col half cells live) =>
      (if live then (s.loadHalf row col half cells).moveScanner row else s).freeBoard
    | _ => s) := by
  split
  · refine .trans ?_ (freeBoard_calm _)
    split
    · exact .of_kept rfl rfl rfl rfl rfl
    · exact .refl s
  · exact .refl s

theorem readIntakeAnalysis_calm (s : State) (q : Request) : s.Calm (readIntakeAnalysis s q) := by
  refine .reply ?_ q .done 0 _
  exact .of_kept rfl rfl rfl rfl rfl

theorem lockMeet_calm (s : State) (q : Request) : s.Calm (lockMeet s q) := by
  refine .reply ?_ q .done 0 []
  exact .of_kept rfl rfl rfl rfl rfl

theorem loadPlaneMask_calm (s : State) (q : Request) : s.Calm (loadPlaneMask s q) := by
  refine .reply ?_ q .done 0 []
  exact .of_kept rfl rfl rfl rfl rfl

theorem releasePlaneMask_calm (s : State) (q : Request) : s.Calm (releasePlaneMask s q) := by
  refine .reply ?_ q .done 0 []
  exact .of_kept rfl rfl rfl rfl rfl

theorem unknownRequestCode_calm (s : State) : s.Calm
    (match s.freeHead with
    | none => s
    | some f =>
      if f.payload.length < 2 then (s.reply f.request .badRequest 3).popHead
      else if requestCodes.contains f.request.code then s
      else (s.reply f.request .badRequest 1).popHead) := by
  split
  · exact .refl s
  · split
    · exact (reply_calm s _ _ _ _).trans (popHead_calm _)
    · split
      · exact .refl s
      · exact (reply_calm s _ _ _ _).trans (popHead_calm _)

theorem exec_heatSound {c : Instr} {s t : State} (h : s.HeatSound) (next : exec c s = .next t) : t.HeatSound := by
  cases c with
  | hardwareReset =>
    obtain rfl := Host.Outcome.next.inj next
    exact State.Calm.sound (s := State.reset) (.of_kept rfl rfl rfl rfl rfl) reset_heatSound
  | frameReceived sym =>
    refine run_heatSound (exec_frameReceived_run sym s) next h ?_
    split
    · exact symbol_heatSound h sym
    · exact h
  | loopSilenceExpiry => exact run_heatSound (exec_loopSilenceExpiry_run s) next h ((silenceExpires_calm s).sound h)
  | loopRestored sym =>
    refine run_heatSound (exec_loopRestored_run sym s) next h ?_
    split
    · exact symbol_heatSound h sym
    · exact h
  | startLineRisingEdge => exact startLineRisingEdge_heatSound h t next
  | startWindowExpiry => exact run_heatSound (exec_startWindowExpiry_run s) next h (startWindowExpires_heatSound h)
  | heatLimitExpiry => exact run_heatSound (exec_heatLimitExpiry_run s) next h (limitExpires_heatSound h)
  | lapCollectionExpiry lane =>
    exact run_heatSound (exec_lapCollectionExpiry_run lane s) next h
      (collectionExpires_heatSound h lane)
  | exchangeWindowExpiry lane =>
    exact run_heatSound (exec_exchangeWindowExpiry_run lane s) next h
      (exchangeExpires_heatSound h lane)
  | clockDisplayExpiry => exact run_heatSound (exec_clockDisplayExpiry_run s) next h ((clockExpires_calm s).sound h)
  | rowFullRefreshExpiry row =>
    exact run_heatSound (exec_rowFullRefreshExpiry_run row s) next h
      ((refreshExpires_calm s row).sound h)
  | pulseStepExpiry => exact run_heatSound (exec_pulseStepExpiry_run s) next h ((stepExpires_calm s).sound h)
  | loopOutCompletion =>
    refine run_heatSound (exec_loopOutCompletion_run s) next h ?_
    split
    · exact State.Calm.sound (.of_kept rfl rfl rfl rfl rfl) h
    · exact h
  | rowLoadComplete => exact run_heatSound (exec_rowLoadComplete_run s) next h ((rowLoadComplete_calm s).sound h)
  | fieldWriteComplete =>
    refine run_heatSound (exec_fieldWriteComplete_run s) next h ?_
    split
    · exact (freeBoard_calm _).sound (State.Calm.sound (.of_kept rfl rfl rfl rfl rfl) h)
    · exact h
  | boardOperationComplete =>
    refine run_heatSound (exec_boardOperationComplete_run s) next h ?_
    split
    · exact (((applyConsole_calm s _).trans (answerHead_calm _ _)).trans (freeBoard_calm _)).sound h
    · exact h
  | rowSendComplete =>
    refine run_heatSound (exec_rowSendComplete_run s) next h ?_
    split
    · refine ((examineShifter_arbiterOnly _).calm.trans (arbitrate_calm _)).sound ?_
      exact State.Calm.sound (s := s) (.of_kept rfl rfl rfl rfl rfl) h
    · exact h
  | readStatus =>
    exact run_heatSound (exec_readStatus_run s) next h
      (request_heatSound h _ _ fun q => (reply_calm s q _ _ _).sound h)
  | readIntakeAnalysis =>
    exact run_heatSound (exec_readIntakeAnalysis_run s) next h
      (request_heatSound h _ _ fun q => (readIntakeAnalysis_calm s q).sound h)
  | setMeet =>
    exact run_heatSound (exec_setMeet_run s) next h
      (request_heatSound h _ _ fun q => (setMeet_calm s q).sound h)
  | lockMeet =>
    exact run_heatSound (exec_lockMeet_run s) next h
      (request_heatSound h _ _ fun q => (lockMeet_calm s q).sound h)
  | writeNodeEntries =>
    exact run_heatSound (exec_writeNodeEntries_run s) next h
      (request_heatSound h _ _ fun q => (writeNodeEntries_calm s q).sound h)
  | selectNodeMap =>
    exact run_heatSound (exec_selectNodeMap_run s) next h
      (request_heatSound h _ _ fun q => (selectNodeMap_calm s q).sound h)
  | readNodeEntry =>
    exact run_heatSound (exec_readNodeEntry_run s) next h
      (request_heatSound h _ _ fun q => (readNodeEntry_calm s q).sound h)
  | loadHeatPlan =>
    exact run_heatSound (exec_loadHeatPlan_run s) next h
      (request_heatSound h _ _ fun q => (loadHeatPlan_calm s q).sound h)
  | armHeat => exact run_heatSound (exec_armHeat_run s) next h (request_heatSound h _ _ fun q => armHeat_heatSound h q)
  | abortHeat =>
    exact run_heatSound (exec_abortHeat_run s) next h
      (request_heatSound h _ _ fun q => abortHeat_heatSound h q)
  | closeHeat =>
    exact run_heatSound (exec_closeHeat_run s) next h
      (request_heatSound h _ _ fun q => closeHeatRequest_heatSound h q)
  | clearHeat =>
    exact run_heatSound (exec_clearHeat_run s) next h
      (request_heatSound h _ _ fun q => clearHeat_heatSound h q)
  | markDns => exact run_heatSound (exec_markDns_run s) next h (request_heatSound h _ _ fun q => markDns_heatSound h q)
  | adjudicateFinish =>
    exact run_heatSound (exec_adjudicateFinish_run s) next h
      (request_heatSound h _ _ fun q => (adjudicateFinish_calm s q).sound h)
  | setDq => exact run_heatSound (exec_setDq_run s) next h (request_heatSound h _ _ fun q => (setDq_calm s q).sound h)
  | readLane =>
    exact run_heatSound (exec_readLane_run s) next h
      (request_heatSound h _ _ fun q => (readLane_calm s q).sound h)
  | readArrivals =>
    exact run_heatSound (exec_readArrivals_run s) next h
      (request_heatSound h _ _ fun q => (readArrivals_calm s q).sound h)
  | setReportDest =>
    exact run_heatSound (exec_setReportDest_run s) next h
      (request_heatSound h _ _ fun q => (setReportDest_calm s q).sound h)
  | writeCells => exact run_heatSound (exec_writeCells_run s) next h ((boardRequest_calm s _ _ _).sound h)
  | fillGroup => exact run_heatSound (exec_fillGroup_run s) next h ((boardRequest_calm s _ _ _).sound h)
  | clearRow => exact run_heatSound (exec_clearRow_run s) next h ((boardRequest_calm s _ _ _).sound h)
  | loadPattern => exact run_heatSound (exec_loadPattern_run s) next h ((boardRequest_calm s _ _ _).sound h)
  | loadPlaneMask =>
    exact run_heatSound (exec_loadPlaneMask_run s) next h
      (request_heatSound h _ _ fun q => (loadPlaneMask_calm s q).sound h)
  | releasePlaneMask =>
    exact run_heatSound (exec_releasePlaneMask_run s) next h
      (request_heatSound h _ _ fun q => (releasePlaneMask_calm s q).sound h)
  | writeLayout => exact run_heatSound (exec_writeLayout_run s) next h ((boardRequest_calm s _ _ _).sound h)
  | sendRowNow => exact run_heatSound (exec_sendRowNow_run s) next h ((boardRequest_calm s _ _ _).sound h)
  | loadProgram =>
    exact run_heatSound (exec_loadProgram_run s) next h
      (request_heatSound h _ _ fun q => (loadProgram_calm s q).sound h)
  | fireProgram =>
    exact run_heatSound (exec_fireProgram_run s) next h
      (request_heatSound h _ _ fun q => (fireProgram_calm s q).sound h)
  | setLineFunction =>
    exact run_heatSound (exec_setLineFunction_run s) next h
      (request_heatSound h _ _ fun q => (setLineFunction_calm s q).sound h)
  | setHeldLevel =>
    exact run_heatSound (exec_setHeldLevel_run s) next h
      (request_heatSound h _ _ fun q => (setHeldLevel_calm s q).sound h)
  | readLines =>
    exact run_heatSound (exec_readLines_run s) next h
      (request_heatSound h _ _ fun q => (reply_calm s q _ _ _).sound h)
  | restart => exact run_heatSound (exec_restart_run s) next h (request_heatSound h _ _ fun q => restart_heatSound s q)
  | unknownRequestCode => exact run_heatSound (exec_unknownRequestCode_run s) next h ((unknownRequestCode_calm s).sound h)
  | tick =>
    refine run_heatSound (exec_tick_run s) next h ?_
    exact (deckTime_calm s.takeDue (s.takeDue.deckTime + 1)).sound (takeDue_heatSound h)
  | hardwareResetEnds => exact (hardwareResetEnds_calm s t next).sound h
  | loopInSymbol sym => exact run_heatSound (exec_loopInSymbol_run sym s) next h (symbol_heatSound h sym)
  | lineLevelChange line level => exact (lineLevelChange_calm line level s t next).sound h

/-- Settles O26: what a heat state says of the other blocks is read off the walk through the commands. -/
theorem everyStepKeepsHeatSound : Obligations.EveryStepKeepsHeatSound :=
  fun _ _ => step_preserves (fun _ _ => id) fun _ _ _ => exec_heatSound

end Sys2Proof.Machine
end

