-- ==== Sys2Proof/Proofs/ResetAndStep.lean ====
section
/-! The step, and the part at hardware reset: the front command (R135), the values that HARDWARE_RESET gives, what happens
when the pin is released, and the soundness of the reset state. -/

namespace Sys2Proof.Machine

/-! ### The step (R135) -/

/-- No command is refused and none faults. -/
theorem exec_total (c : Instr) (s : State) : ∃ t, exec c s = .next t := by
  cases c <;> exact ⟨_, rfl⟩

/-- Settles O1: the step is defined by the front of the queue, and `exec_keeps` says that no command writes the queue. -/
theorem stepRunsFrontCommand : Obligations.StepRunsFrontCommand := by
  refine ⟨fun c rest s front => step_front front, fun s idle => ?_, fun c s => ?_⟩
  · unfold step
    rw [idle]
  · obtain ⟨t, next⟩ := exec_total c s
    exact ⟨t, next, (exec_keeps next).pending⟩

/-! ### Hardware reset (R1 to R176) -/

/-- Settles O2: every value is read off the reset state. -/
theorem hardwareResetReturnsEveryBlock : Obligations.HardwareResetReturnsEveryBlock := by
  intro s
  refine ⟨_, exec_hardwareReset_next s, rfl, rfl, rfl, fun _ => List.eq_of_mem_replicate, rfl, rfl, rfl, rfl, rfl, rfl, rfl,
    rfl, rfl, rfl, rfl, rfl, rfl, rfl, rfl, rfl, fun _ => List.eq_of_mem_replicate, rfl, rfl, ?rows, rfl, rfl, rfl, rfl, rfl,
    rfl, rfl, rfl, rfl, rfl, ?lines, rfl, rfl, rfl, rfl⟩
  case rows =>
    intro r inside
    exact ⟨List.getD_replicate _ inside, List.getD_replicate _ inside⟩
  case lines =>
    intro l inside
    exact ⟨List.getD_replicate _ inside, List.getD_replicate _ inside, List.getD_replicate _ inside⟩

/-! ### The release of the pin (R1, R41, R117, R163) -/

/-- The Shifter claims while Board Memory is free, a half is EMPTY and a row is due (R163). -/
theorem examineShifter_claim {s : State} (free : s.board.operation = none) (half : s.shifter.emptyHalf.isSome = true)
    (due : Config.boardRows.any s.rowDue = true) :
    s.examineShifter = { s with shifter := { s.shifter with claim := true } } := by
  unfold State.examineShifter State.shifterClaims
  rw [half, due, free]
  cases claimed : s.shifter.claim with
  | false => rfl
  | true =>
    have held : s.shifter = { s.shifter with claim := true } := by rw [← claimed]
    exact congrArg (fun h => { s with shifter := h }) held

/-- A claim that finds a load is granted it (R150, R163). -/
theorem arbitrate_load {s : State} {op : BoardOperation} (free : s.board.operation = none) (claim : s.shifter.claim = true)
    (chosen : s.chooseLoad = some op) : s.arbitrate =
      { s with shifter := { s.shifter with claim := false }, board := { s.board with operation := some op } } := by
  unfold State.arbitrate State.grantShifter
  simp only [free, claim, chosen, Option.isSome_none, Option.isSome_some, Bool.false_eq_true, if_true, if_false]

theorem row0_scanned : 0 ∈ Config.boardRows := by decide

/-- A row whose marker is a column is due (R162). -/
theorem rowDue_of_marker {s : State} {r col : Nat} (marker : s.board.marker r = some col) : s.rowDue r = true := by
  unfold State.rowDue
  rw [marker]
  rfl

/-- After scanner position 15 the scan begins with row 0; a due row 0 is loaded from its marker's column into an EMPTY half 0
(R163). -/
theorem chooseLoad_row0 {s : State} {col : Nat} (half : s.shifter.half0 = .empty) (scanner : s.shifter.scanner = 15)
    (marker : s.board.marker 0 = some col) :
    s.chooseLoad = some (.rowLoad 0 col 0 ((s.board.row 0).drop col) true) := by
  have empty : s.shifter.emptyHalf = some 0 := by rw [Shifter.emptyHalf, half]; rfl
  have first : (scanOrder s.shifter.scanner).find? s.rowDue = some 0 := by
    rw [scanner, show scanOrder 15 = 0 :: (List.range 15).map (· + 1) from rfl, List.find?_cons, rowDue_of_marker marker]
  unfold State.chooseLoad
  rw [empty, first]
  dsimp only
  rw [marker]
  rfl

/-- Settles O3: the release sets time, link and level; then the scanner's conditions are examined and the arbiter acts. -/
theorem resetEndsStartsTime : Obligations.ResetEndsStartsTime := by
  refine ⟨fun s held => ?_, fun s r next => ?_⟩
  · have ran : exec .hardwareResetEnds s = .next s.released.examineShifter.arbitrate := by
      rw [exec_hardwareResetEnds_next, if_pos held]
    obtain ⟨cl, op, ms, q, a, b, k, e⟩ :=
      (examineShifter_arbiterOnly s.released).trans (arbitrate_arbiterOnly s.released.examineShifter)
    refine ⟨_, ran, ?_⟩
    have quiet : (∀ r, s.mgmt.claim ≠ some (.sendRow r)) → s.released.ClaimsOnly s.released.examineShifter.arbitrate := by
      intro h
      have same : s.released.examineShifter.mgmt = s.mgmt := by unfold State.examineShifter; split <;> rfl
      exact (examineShifter_claimsOnly _).trans (arbitrate_claimsOnly (by rw [same]; exact h))
    have loads : ∀ col, s.board.operation = none → s.shifter.half0 = .empty → s.shifter.scanner = 15 →
        s.board.marker 0 = some col → s.released.examineShifter.arbitrate =
          { s.released with
            shifter := { s.shifter with claim := false }
            board := { s.board with operation := some (.rowLoad 0 col 0 ((s.board.row 0).drop col) true) } } := by
      intro col free half scanner marker
      have due : Config.boardRows.any s.released.rowDue = true :=
        List.any_eq_true.mpr ⟨0, row0_scanned, rowDue_of_marker (s := s.released) marker⟩
      have empty : s.released.shifter.emptyHalf.isSome = true := by
        rw [Shifter.emptyHalf, show s.released.shifter.half0 = .empty from half]; rfl
      rw [examineShifter_claim (s := s.released) free empty due]
      exact arbitrate_load free rfl (chooseLoad_row0 half scanner marker)
    refine ⟨?_, ?_, ?_, ?_, ?_, ?_, ?_, ?_, ?_, ?_, ?_, ?_, ?_, ?_, ?_, ?meet, ?_, ?_, ?_, ?_, ?_, ?_, ?halves, ?load⟩
    case halves =>
      intro h
      obtain ⟨_, _, _, _, shape⟩ := quiet h
      rw [shape]
      exact ⟨rfl, rfl, rfl⟩
    case load =>
      intro col free half scanner marker
      rw [loads col free half scanner marker]
      exact ⟨rfl, rfl, rfl, rfl⟩
    all_goals rw [e]
    case meet => exact ⟨rfl, rfl, rfl, rfl, rfl, rfl, rfl, rfl⟩
    all_goals rfl
  · obtain rfl := Host.Outcome.next.inj next
    exact ⟨rfl, rfl, rfl, rfl, rfl⟩

/-! ### The reset state is sound -/

theorem reset_arrivalsSound : State.reset.ArrivalsSound :=
  ⟨rfl, List.nodup_nil, nofun, nofun, .nil⟩

theorem reset_timesBounded : State.reset.TimesBounded := by
  refine ⟨nofun, fun _ => ⟨rfl, rfl⟩, nofun, nofun, ?_, ?_, ?_⟩
  all_goals exact fun _ mem => absurd mem List.not_mem_nil

/-- Settles O60: each invariant at reset. -/
theorem resetIsSound : Obligations.ResetIsSound :=
  ⟨reset_heatSound, reset_arrivalsSound, reset_timesBounded, reset_resultsSound, fixedMap_sound 0 10, reset_withinCapacity,
    reset_lineBufferSound, reset_pulseSound⟩

/-! ### The decided arrival (R63) -/

/-- Settles O28: by the values that are present, and the trust window when both are. -/
theorem arrivalFromPadAndBackup : Obligations.ArrivalFromPadAndBackup := by
  intro trust p b
  refine ⟨fun ⟨above, below⟩ => ?_, fun apart => ?_, rfl, rfl, rfl⟩
  · have within : ¬ trust < (p - b).natAbs := by omega
    simp only [decideArrival, within, decide_false]
  · have beyond : trust < (p - b).natAbs := by omega
    simp only [decideArrival, beyond, decide_true]

end Sys2Proof.Machine
end

