-- ==== Sys2Proof/Proofs/LoopIntake.lean ====
section
/-! Loop Intake: the frame laid out and read back (R109, R178), verdicts and qualifiers (R110, R111), disposal (R112), the
frame checker (R108) and what a symbol, the loop's silence and its restore do (R117, R118). -/

namespace Sys2Proof.Machine

/-! ### A frame laid out and read back (R109, R178) -/

theorem toNat_byte (n : Nat) : (byte n).toNat = n % 256 := BitVec.toNat_ofNat n 8

@[simp] theorem be16_length (n : Nat) : (be16 n).length = 2 := rfl

theorem bytes_eq (f : Frame) :
    f.bytes = (frameHead f.dst f.src f.kind f.flags f.payload ++ f.payload) ++ be16 f.crc.toNat := rfl

theorem bytes_length (f : Frame) : f.bytes.length = f.payload.length + 7 := by
  simp [bytes_eq, frameHead]

/-- The two bytes of a 16-bit number read back. -/
theorem ofNat_be16 (n : BitVec 16) : BitVec.ofNat 16 ((byte (n.toNat / 256)).toNat * 256 + (byte n.toNat).toNat) = n := by
  have bound := n.isLt
  apply BitVec.eq_of_toNat_eq
  rw [BitVec.toNat_ofNat, toNat_byte, toNat_byte]
  omega

theorem bytes_payload (f : Frame) : (f.bytes.drop 5).take (f.bytes.length - 7) = f.payload := by
  rw [bytes_length, Nat.add_sub_cancel]
  exact List.take_left

/-- The bytes of a frame read as that frame. -/
theorem frameOf_bytes (f : Frame) : frameOf f.bytes = f := by
  have high : f.bytes.getD (f.bytes.length - 2) 0 = byte (f.crc.toNat / 256) := by
    rw [bytes_length, bytes_eq, List.getD_append_right _ _ _ _ (by simp [frameHead])]
    simp [frameHead, be16]
  have low : f.bytes.getD (f.bytes.length - 1) 0 = byte f.crc.toNat := by
    rw [bytes_length, bytes_eq, List.getD_append_right _ _ _ _ (by simp [frameHead])]
    simp [frameHead, be16]
  unfold frameOf
  rw [bytes_payload, high, low, ofNat_be16]
  rfl

/-- Settles O5: the length byte and the CRC agree with the bytes they were formed from. -/
theorem laidOutFrameReadsBack : Obligations.LaidOutFrameReadsBack := by
  intro dst src kind flags payload stamp short
  refine ⟨?whole, ?sound, frameOf_bytes _⟩
  case whole =>
    have count : ((sealFrame dst src kind flags payload).bytes.getD 4 0).toNat = payload.length := by
      show (byte payload.length).toNat = _
      rw [toNat_byte]
      omega
    have length : (sealFrame dst src kind flags payload).bytes.length = 7 + payload.length := by
      rw [bytes_length, Nat.add_comm]
      rfl
    have long : ¬ 7 + payload.length < 7 := by omega
    simp only [EndedFrame.broken, count, length, long, decide_false, bne_self_eq_false, Bool.or_self]
  case sound =>
    have body : (sealFrame dst src kind flags payload).bytes.take ((sealFrame dst src kind flags payload).bytes.length - 2)
        = frameHead dst src kind flags payload ++ payload := by
      rw [bytes_eq, List.length_append, be16_length, Nat.add_sub_cancel]
      exact List.take_left
    simp only [EndedFrame.corrupt, frameOf_bytes, body]
    simp [sealFrame]

/-! ### Verdicts and qualifiers (R110, R111) -/

/-- The verdict's own condition holds, and that of no verdict of lower rank: the ranks are the order of the checks. -/
theorem verdict_lowest (s : State) (e : EndedFrame) : s.meetsVerdict e (s.verdict e)
    ∧ ∀ v, s.meetsVerdict e v → (s.verdict e).code.toNat ≤ v.code.toNat := by
  unfold State.verdict
  dsimp only
  split
  · next here => exact ⟨here, fun v _ => Nat.zero_le _⟩
  split
  · next no_broken here =>
    refine ⟨here, fun v met => ?_⟩
    cases v with
    | broken => exact absurd met no_broken
    | _ => decide
  split
  · next no_broken no_corrupt here =>
    refine ⟨here, fun v met => ?_⟩
    cases v with
    | broken => exact absurd met no_broken
    | corrupt => exact absurd met no_corrupt
    | _ => decide
  split
  · next no_broken no_corrupt no_inadmissible here =>
    refine ⟨here, fun v met => ?_⟩
    cases v with
    | broken => exact absurd met no_broken
    | corrupt => exact absurd met no_corrupt
    | inadmissible => exact absurd met no_inadmissible
    | _ => decide
  split
  · next no_broken no_corrupt no_inadmissible no_orphan here =>
    refine ⟨here, fun v met => ?_⟩
    cases v with
    | broken => exact absurd met no_broken
    | corrupt => exact absurd met no_corrupt
    | inadmissible => exact absurd met no_inadmissible
    | orphan => exact absurd met no_orphan
    | _ => decide
  split
  · next no_broken no_corrupt no_inadmissible no_orphan no_returned here =>
    refine ⟨here, fun v met => ?_⟩
    cases v with
    | broken => exact absurd met no_broken
    | corrupt => exact absurd met no_corrupt
    | inadmissible => exact absurd met no_inadmissible
    | orphan => exact absurd met no_orphan
    | returned => exact absurd met no_returned
    | _ => decide
  split
  · next no_broken no_corrupt no_inadmissible no_orphan no_returned no_dropped here =>
    refine ⟨here, fun v met => ?_⟩
    cases v with
    | broken => exact absurd met no_broken
    | corrupt => exact absurd met no_corrupt
    | inadmissible => exact absurd met no_inadmissible
    | orphan => exact absurd met no_orphan
    | returned => exact absurd met no_returned
    | dropped => exact absurd met no_dropped
    | _ => decide
  · next no_broken no_corrupt no_inadmissible no_orphan no_returned no_dropped no_forwarded =>
    refine ⟨not_not.mp no_forwarded, fun v met => ?_⟩
    cases v with
    | broken => exact absurd met no_broken
    | corrupt => exact absurd met no_corrupt
    | inadmissible => exact absurd met no_inadmissible
    | orphan => exact absurd met no_orphan
    | returned => exact absurd met no_returned
    | dropped => exact absurd met no_dropped
    | forwarded => exact absurd met no_forwarded
    | _ => decide

theorem resolveAddress_isNone (active : List (Option ActiveEntry)) (a : Byte) : (resolveAddress active a).isNone = true ↔
    ∀ e, some e ∈ active → e.enabled = true → e.address ≠ a := by
  simp only [resolveAddress, Option.isNone_iff_eq_none, List.findSome?_eq_none_iff]
  constructor
  · intro absent e mem enabled same
    simpa [enabled, same] using absent (some e) mem
  · intro absent slot mem
    cases slot with
    | none => rfl
    | some e =>
      have := absent e mem
      simp only [Option.bind_some, Bool.and_eq_true, beq_iff_eq, ite_eq_right_iff, reduceCtorEq, imp_false, not_and]
      exact this

theorem badEdgeCount_iff (f : Frame) : f.badEdgeCount = true ↔ f.wrongCount := by
  simp [Frame.badEdgeCount, Frame.edgeCount, Frame.wrongCount, byteAt, or_assoc]

theorem groups_eq_map (k n : Nat) (fs : List Byte) :
    groups k n fs = (List.range n).map fun j => (fs.drop (k * j)).take k := by
  induction n generalizing fs with
  | zero => rfl
  | succ n ih =>
    rw [groups, ih, List.range_succ_eq_map, List.map_cons, List.map_map]
    refine congrArg₂ _ (by simp) (List.map_congr_left fun j _ => ?_)
    simp [Nat.mul_add, Nat.add_comm]

theorem mem_qualifiers (active : List (Option ActiveEntry)) (f : Frame) (q : Qualifier) :
    q ∈ f.qualifiers active ↔ f.meets active q = true := by
  unfold Frame.qualifiers
  rw [List.mem_filter]
  exact ⟨And.right, fun h => ⟨by cases q <;> decide, h⟩⟩

/-- The first byte of each edge record of a SENSOR payload. -/
theorem mem_edges (f : Frame) (e : List Byte) :
    e ∈ f.edges ↔ ∃ j < byteAt f.payload 1, e = (f.payload.drop (2 + 3 * j)).take 3 := by
  unfold Frame.edges
  rw [groups_eq_map, List.mem_map]
  simp only [List.mem_range, List.drop_drop, Frame.edgeCount, byteAt, eq_comm (a := e)]

theorem byteAt_edge (fs : List Byte) (i : Nat) : byteAt ((fs.drop i).take 3) 0 = byteAt fs i := by
  simp [byteAt, List.getD_eq_getElem?_getD, List.getElem?_drop]

theorem badSensor_iff (active : List (Option ActiveEntry)) (f : Frame) : f.badSensor active = true ↔
    ¬ f.wrongCount ∧ ∃ j < byteAt f.payload 1, 4 < byteAt f.payload (2 + 3 * j) / 16
      ∨ (byteAt f.payload (2 + 3 * j) / 16 = 1 ∧ ∃ e, resolveAddress active f.src = some e ∧ e.wall = .turn) := by
  unfold Frame.badSensor
  rw [Bool.and_eq_true, Bool.not_eq_true', ← badEdgeCount_iff, Bool.not_eq_true, List.any_eq_true]
  refine and_congr_right fun _ => ?_
  constructor
  · rintro ⟨e, mem, bad⟩
    obtain ⟨j, inside, rfl⟩ := (mem_edges f e).mp mem
    refine ⟨j, inside, ?_⟩
    simpa [sensorCode, byteAt_edge, Option.any_eq_true] using bad
  · rintro ⟨j, inside, bad⟩
    refine ⟨_, (mem_edges f _).mpr ⟨j, inside, rfl⟩, ?_⟩
    simpa [sensorCode, byteAt_edge, Option.any_eq_true] using bad

theorem meets_iff (active : List (Option ActiveEntry)) (f : Frame) (q : Qualifier) :
    f.meets active q = true ↔ f.meetsQualifier active q := by
  cases q with
  | kindNotTaken => simp [Frame.meets, Frame.meetsQualifier, kindSensor, kindManage]
  | notConsole => simp [Frame.meets, Frame.meetsQualifier, kindManage, and_assoc]
  | unknownNode => simp only [Frame.meets, Frame.meetsQualifier, Bool.and_eq_true, beq_iff_eq, resolveAddress_isNone, kindSensor]
  | badEdgeCount => simp only [Frame.meets, Frame.meetsQualifier, Bool.and_eq_true, beq_iff_eq, badEdgeCount_iff, kindSensor]
  | badSensor => simp only [Frame.meets, Frame.meetsQualifier, Bool.and_eq_true, beq_iff_eq, badSensor_iff, kindSensor]

/-- Settles O8: the verdict is the first check that holds, and the qualifiers are those of the ranked list that hold. -/
theorem verdictIsLowestRank : Obligations.VerdictIsLowestRank := by
  refine ⟨verdict_lowest, fun active f => ⟨fun q => (mem_qualifiers active f q).trans (meets_iff active f q), ?_⟩⟩
  have ranked : [Qualifier.kindNotTaken, .notConsole, .unknownNode, .badEdgeCount, .badSensor].Pairwise
      fun p q => p.code.toNat < q.code.toNat := by decide
  exact ranked.filter _

/-! ### Disposal (R112, R134) -/

/-- An accepted frame is one for the hub without a qualifier. -/
theorem accepted_admissible {s : State} {e : EndedFrame} (verdict : s.verdict e = .accepted) :
    (frameOf e.bytes).dst = 0 ∧ (frameOf e.bytes).qualifiers s.nodes.active = [] := by
  obtain ⟨meets, lowest⟩ := verdict_lowest s e
  rw [verdict] at meets lowest
  refine ⟨meets, by_contra fun held => ?_⟩
  exact absurd (lowest .inadmissible ⟨meets, held⟩) (by decide)

/-- An accepted frame is a SENSOR or a MANAGE frame (R111). -/
theorem accepted_kind {s : State} {e : EndedFrame} (verdict : s.verdict e = .accepted)
    (notManage : (frameOf e.bytes).kind ≠ 0x10) : (frameOf e.bytes).kind = kindSensor := by
  obtain ⟨-, clear⟩ := accepted_admissible verdict
  by_contra notSensor
  have held : Qualifier.kindNotTaken ∈ (frameOf e.bytes).qualifiers s.nodes.active :=
    (mem_qualifiers _ _ _).mpr ((meets_iff _ _ _).mpr ⟨notSensor, notManage⟩)
  rw [clear] at held
  cases held

theorem receiveFrame_manage {s : State} {e : EndedFrame} (verdict : s.verdict e = .accepted)
    (kind : (frameOf e.bytes).kind = 0x10) :
    s.receiveFrame e = (s.recordVerdict .accepted e).manageFrame (frameOf e.bytes) := by
  have notSensor : (frameOf e.bytes).kind ≠ kindSensor := by rw [kind]; decide
  unfold State.receiveFrame State.dispose
  rw [verdict]
  exact if_neg notSensor

/-- A frame passed on: the PASSED mark set, the CRC formed anew, every other field and flag kept (R112). -/
theorem passOn_spec (f : Frame) : (passOn f).passed = true ∧ (∀ i < 7, (passOn f).flags.getLsbD i = f.flags.getLsbD i)
    ∧ (passOn f).dst = f.dst ∧ (passOn f).src = f.src ∧ (passOn f).kind = f.kind ∧ (passOn f).payload = f.payload
    ∧ (passOn f).crc = crc16 (frameHead (passOn f).dst (passOn f).src (passOn f).kind (passOn f).flags
        (passOn f).payload ++ (passOn f).payload) := by
  refine ⟨?_, fun i small => ?_, rfl, rfl, rfl, rfl, by simp only [passOn, sealFrame]⟩
  · simp [Frame.passed, passOn, sealFrame]
  · have clear : (0x80 : Byte).getLsbD i = false := by
      interval_cases i <;> rfl
    simp only [passOn, sealFrame, BitVec.getLsbD_or, clear, Bool.or_false]

/-- Settles O9: the disposal of each verdict. -/
theorem framesAreDisposedOf : Obligations.FramesAreDisposedOf := by
  intro s e
  refine ⟨fun refused => ?_, fun forwarded => ⟨?_, passOn_spec _⟩, fun accepted kind room => ?_, fun accepted kind full => ?_,
    fun accepted kind => receiveFrame_sensor accepted (accepted_kind accepted kind)⟩
  · unfold State.receiveFrame State.dispose
    cases verdict : s.verdict e with
    | forwarded | accepted => rw [verdict] at refused; simp [Verdict.refuses] at refused
    | _ => rfl
  · unfold State.receiveFrame
    rw [forwarded]
    rfl
  · rw [receiveFrame_manage accepted kind]
    exact if_pos room
  · rw [receiveFrame_manage accepted kind]
    exact if_neg (Nat.not_lt.mpr full)

/-! ### A symbol while the loop is UP (R108, R117) -/

/-- The silence watch after a symbol, and the frame checker in a new state (R108, R117). -/
def State.watched (s : State) (sym : LoopSymbol) (c : Checker) : State :=
  { s with intake := { s.intake with
      checker := c
      silenceTimer := if sym = .error then s.intake.silenceTimer else some (s.deckTime + 2000) } }

theorem symbolArrives_up {s : State} (up : s.intake.link = .up) (sym : LoopSymbol) :
    s.symbolArrives sym = (s.watched sym s.intake.checker).decodeSymbol sym := by
  unfold State.symbolArrives
  rw [up]
  cases sym <;> rfl

theorem symbolArrives_between {s : State} (up : s.intake.link = .up) (between : s.intake.checker = .between)
    (sym : LoopSymbol) : s.symbolArrives sym =
      s.watched sym (if sym = .startDelimiter then .inFrame [] false none else .between) := by
  rw [symbolArrives_up up, between]
  cases sym <;> rfl

theorem symbolArrives_data {s : State} (up : s.intake.link = .up) {bytes : List Byte} {long : Bool}
    {last : Option DeckTime} (begun : s.intake.checker = .inFrame bytes long last) (b : Byte) :
    s.symbolArrives (.data b) = s.watched (.data b) (.inFrame (if bytes.length < 127 then bytes ++ [b] else bytes)
      (long || decide (127 ≤ bytes.length)) (some s.deckTime)) := by
  rw [symbolArrives_up up, begun]
  unfold State.decodeSymbol
  by_cases room : bytes.length < 127
  · have fits : ¬ 127 ≤ bytes.length := by omega
    simp only [State.watched, Config.maxFrameBytes, room, fits, if_true, decide_false, Bool.or_false]
    rfl
  · have full : 127 ≤ bytes.length := by omega
    simp only [State.watched, Config.maxFrameBytes, room, full, if_false, decide_true, Bool.or_true]
    rfl

/-- Every symbol but a data byte ends the open frame; all but the end delimiter cut it. -/
theorem symbolArrives_ends {s : State} (up : s.intake.link = .up) {bytes : List Byte} {long : Bool}
    {last : Option DeckTime} (begun : s.intake.checker = .inFrame bytes long last) {sym : LoopSymbol}
    (ends : ∀ b, sym ≠ .data b) : s.symbolArrives sym =
      (s.watched sym (if sym = .startDelimiter then .inFrame [] false none else .between)).endFrame bytes long last
        (decide (sym ≠ .endDelimiter)) := by
  rw [symbolArrives_up up, begun]
  cases sym with
  | data b => exact absurd rfl (ends b)
  | _ => rfl

theorem endsFrame_of_ends {s : State} {bytes : List Byte} {long : Bool} {last : Option DeckTime}
    (begun : s.intake.checker = .inFrame bytes long last) {sym : LoopSymbol} (ends : ∀ b, sym ≠ .data b) :
    s.endsFrame sym = true := by
  unfold State.endsFrame
  rw [begun]
  cases sym with
  | data b => exact absurd rfl (ends b)
  | _ => rfl

theorem State.ArbiterOnly.sameMeet {s t : State} : s.ArbiterOnly t → s.SameMeet t := by
  rintro ⟨_, _, _, _, _, _, _, rfl⟩
  exact ⟨rfl, rfl, rfl, rfl, rfl, rfl, rfl, rfl⟩

/-- Settles O6: the checker's three cases, by its state and the symbol. -/
theorem symbolsGatherFrame : Obligations.SymbolsGatherFrame := by
  intro s sym live up
  have ran : exec (.loopInSymbol sym) s = .next (s.symbolArrives sym).arbitrate := by
    rw [exec_loopInSymbol_run, run_live live]
  refine ⟨fun between => ?_, fun bytes long last b begun data => ?_, fun bytes long last begun ends => ?_⟩
  · rw [symbolArrives_between up between] at ran
    refine ⟨_, ran, ?_⟩
    obtain ⟨_, _, _, _, _, _, _, e⟩ := arbitrate_arbiterOnly
      (s.watched sym (if sym = .startDelimiter then .inFrame [] false none else .between))
    rw [e]
    exact ⟨⟨rfl, up, rfl, rfl, rfl, rfl, rfl, rfl, rfl, rfl, rfl, rfl, rfl, rfl, rfl, rfl, rfl⟩, rfl⟩
  · subst data
    rw [symbolArrives_data up begun] at ran
    refine ⟨_, ran, ?_⟩
    obtain ⟨_, _, _, _, _, _, _, e⟩ := arbitrate_arbiterOnly (s.watched (.data b)
      (.inFrame (if bytes.length < 127 then bytes ++ [b] else bytes) (long || decide (127 ≤ bytes.length))
        (some s.deckTime)))
    rw [e]
    exact ⟨⟨rfl, up, rfl, rfl, rfl, rfl, rfl, rfl, rfl, rfl, rfl, rfl, rfl, rfl, rfl, rfl, rfl⟩, rfl⟩
  · rw [ran, exec_frameReceived_run, run_live live, if_pos (endsFrame_of_ends begun ends)]

/-! ### A frame that ends (R110, R113, R114) -/

theorem bump_total (c : VerdictCounts) (v : Verdict) : (c.bump v).total = c.total + 1 := by
  cases v <;> simp only [VerdictCounts.bump, VerdictCounts.total] <;> ring

theorem record_refused {v : Verdict} (refused : v.refuses = true) (a : IntakeAnalysis) (qs : List Qualifier) (e : EndedFrame) :
    a.record v qs e =
      { lastStamp := some e.stamp, lastVerdict := some v
        qualifier := if v = .inadmissible then qs.head? else none
        multiple := decide (v = .inadmissible ∧ 2 ≤ qs.length)
        refusedStamp := some e.stamp, refusedDst := e.bytes[0]?, refusedSrc := e.bytes[1]?, refusedKind := e.bytes[2]?
        seen := false } := by
  have multiple : (v == .inadmissible && decide (1 < qs.length)) = decide (v = .inadmissible ∧ 2 ≤ qs.length) := by
    rw [Bool.decide_and]
    rfl
  rw [IntakeAnalysis.record, if_pos refused, multiple]

theorem record_kept {v : Verdict} (kept : v.refuses = false) (a : IntakeAnalysis) (qs : List Qualifier) (e : EndedFrame) :
    a.record v qs e = { a with lastStamp := some e.stamp } := by
  rw [IntakeAnalysis.record, kept]
  rfl

/-- Settles O7: the frame that the symbol ends is received in the watched state, and its disposal leaves the counts and the
analysis record. -/
theorem endedFrameGetsOneVerdict : Obligations.EndedFrameGetsOneVerdict := by
  intro s bytes long d sym live up begun ends e v qs u
  have ending := endsFrame_of_ends begun ends
  have ran : exec (.frameReceived sym) s = .next (u.receiveFrame e).arbitrate := by
    rw [exec_frameReceived_run, run_live live, if_pos ending, symbolArrives_ends up begun ends]
    rfl
  have same : u.verdict e = v := rfl
  have disposed : (u.recordVerdict v e).FrameOnly (u.receiveFrame e) := by
    unfold State.receiveFrame
    rw [same]
    exact dispose_frameOnly _ v e
  obtain ⟨sc, lc, na, tr, rs, w, x, q, o, cq, dest, shape⟩ := disposed
  obtain ⟨_, _, _, _, _, _, _, arbitrated⟩ := arbitrate_arbiterOnly (u.receiveFrame e)
  refine ⟨_, ran, rfl, ?_, ?_, fun refused => ?_, fun kept => ?_, ?_, ?_, ?_, ?_, ?_⟩
  all_goals rw [arbitrated, shape]
  · rfl
  · exact bump_total s.intake.counts v
  · exact record_refused refused _ _ e
  · exact record_kept kept _ _ e
  · rfl
  · rfl
  · rfl
  · exact ⟨rfl, rfl, dest, rfl, rfl, rfl, rfl, rfl⟩
  · rfl

/-! ### The silence's expiry and the restore (R76, R117, R118) -/

/-- A frame that is cut is BROKEN: it is counted and recorded, and nothing else is done (R109, R112). -/
theorem receiveFrame_cut (s : State) (e : EndedFrame) (cut : e.cut = true) :
    s.receiveFrame e = s.recordVerdict .broken e := by
  have broken : s.verdict e = .broken := by
    have : e.broken = true := by rw [EndedFrame.broken, cut]; rfl
    rw [State.verdict, if_pos this]
  unfold State.receiveFrame
  rw [broken]
  rfl

theorem endFrame_cut (s : State) (bytes : List Byte) (long : Bool) (last : Option DeckTime) :
    s.endFrame bytes long last true = s.recordVerdict .broken
      { bytes := bytes, tooLong := long, cut := true, stamp := last.getD s.deckTime } := by
  unfold State.endFrame
  cases last with
  | some d => exact receiveFrame_cut s _ rfl
  | none => exact receiveFrame_cut s _ rfl

/-- The frame open at an outage is counted BROKEN; the checker is between frames (R117). -/
theorem cutFrame_intake (s : State) : ∃ a, s.cutFrame = { s with intake := { s.intake with
    checker := .between, analysis := a
    counts := if s.intake.checker = .between then s.intake.counts else s.intake.counts.bump .broken } } := by
  unfold State.cutFrame
  cases checker : s.intake.checker with
  | between =>
    have kept : s.intake = { s.intake with checker := .between } := by rw [← checker]
    exact ⟨s.intake.analysis, congrArg (fun i => { s with intake := i }) kept⟩
  | inFrame bytes long last =>
    rw [if_neg (by simp)]
    exact ⟨_, endFrame_cut _ bytes long last⟩

/-- Settles O11: the cut frame, the counts and the marks; the arbiter keeps them. -/
theorem silenceBeginsOutage : Obligations.SilenceBeginsOutage := by
  intro s live up due
  have ran : exec .loopSilenceExpiry s = .next s.beginOutage.arbitrate := by
    rw [exec_loopSilenceExpiry_run, run_live live, State.silenceExpires, if_pos ⟨up, due⟩]
  obtain ⟨a, cut⟩ := cutFrame_intake
    { s with intake := { s.intake with link := .outage, silenceTimer := none, outageStart := s.deckTime } }
  obtain ⟨_, _, _, _, _, _, _, arbitrated⟩ := arbitrate_arbiterOnly s.beginOutage
  refine ⟨_, ran, ?_⟩
  rw [arbitrated, State.beginOutage, cut]
  refine ⟨rfl, rfl, rfl, rfl, rfl, rfl, ?_, rfl, rfl, rfl, rfl, rfl, rfl, rfl, rfl, rfl, rfl, rfl, rfl, rfl, rfl⟩
  refine List.map_congr_left fun c _ => ?_
  simp

theorem find_lane_eq {rs : List LaneRecord} (nodup : (rs.map (·.lane)).Nodup) {r : LaneRecord} (mem : r ∈ rs) :
    rs.find? (·.lane == r.lane) = some r := by
  cases found : rs.find? (·.lane == r.lane) with
  | none => simpa using List.find?_eq_none.mp found r mem
  | some q =>
    have lane : q.lane = r.lane := by simpa using List.find?_some found
    rw [List.inj_on_of_nodup_map nodup (List.mem_of_find?_eq_some found) mem lane]

/-- With one record a lane, a write by two functions that agree on the lane's record is one write. -/
theorem writeRecord_congr {rs : List LaneRecord} (nodup : (rs.map (·.lane)).Nodup) {l : Nat} {q : LaneRecord}
    (held : rs.find? (·.lane == l) = some q) {f g : LaneRecord → LaneRecord} (agree : f q = g q) :
    writeRecord rs l f = writeRecord rs l g := by
  refine List.map_congr_left fun r mem => ?_
  split
  · next lane =>
    obtain rfl : r = q := by
      have := find_lane_eq nodup mem
      rw [lane, held] at this
      exact (Option.some.inj this).symm
    exact agree
  · rfl

theorem writeRecord_id (rs : List LaneRecord) (l : Nat) : writeRecord rs l id = rs := by
  simp [writeRecord]

/-- The lanes of a list written one after the other: each record of such a lane once. -/
theorem foldl_writeRecord {f : LaneRecord → LaneRecord} (keep : ∀ r, (f r).lane = r.lane) {ls : List Nat}
    (once : ls.Nodup) (rs : List LaneRecord) : ls.foldl (fun rs l => writeRecord rs l f) rs =
      rs.map fun r => if r.lane ∈ ls then f r else r := by
  induction ls generalizing rs with
  | nil => simp
  | cons l ls ih =>
    obtain ⟨fresh, once⟩ := List.nodup_cons.mp once
    rw [List.foldl_cons, ih once, writeRecord, List.map_map]
    refine List.map_congr_left fun r _ => ?_
    by_cases lane : r.lane = l
    · simp [lane, keep, fresh]
    · simp [lane]

/-- The record of a lane after a restore in RUNNING (R118). -/
def LaneRecord.restored (r : LaneRecord) : LaneRecord :=
  if r.status = .swimming ∨ r.status = .provisional then { r with flags := r.flags.markGap } else r

theorem restored_lane (r : LaneRecord) : r.restored.lane = r.lane := by
  unfold LaneRecord.restored
  split <;> rfl

theorem flagRestored_results {s : State} (nodup : (s.results.map (·.lane)).Nodup) (l : Nat) :
    (s.flagRestored l).results = writeRecord s.results l LaneRecord.restored := by
  unfold State.flagRestored
  cases held : s.record? l with
  | none => exact (writeRecord_none held _).symm
  | some q =>
    dsimp only
    split
    · next water =>
      rw [note_results]
      exact writeRecord_congr nodup held (by rw [LaneRecord.restored, if_pos water])
    · next dry =>
      have kept := writeRecord_congr nodup held (f := id) (g := LaneRecord.restored)
        (by rw [LaneRecord.restored, if_neg dry, id])
      rw [← kept, writeRecord_id]

theorem flagRestored_recordsOnly (s : State) (l : Nat) : s.RecordsOnly (s.flagRestored l) := by
  unfold State.flagRestored
  split
  · split
    · exact note_recordsOnly s _ _
    · exact .refl s
  · exact .refl s

theorem flagRestored_out (s : State) (l : Nat) : (s.flagRestored l).out = s.out := by
  unfold State.flagRestored
  split
  · split
    · exact note_out s _ _
    · rfl
  · rfl

theorem foldl_flagRestored_results (ls : List Nat) {s : State} (nodup : (s.results.map (·.lane)).Nodup) :
    (ls.foldl State.flagRestored s).results = ls.foldl (fun rs l => writeRecord rs l LaneRecord.restored) s.results := by
  induction ls generalizing s with
  | nil => rfl
  | cons l ls ih =>
    have step := flagRestored_results nodup l
    rw [List.foldl_cons, List.foldl_cons, ← step]
    exact ih (by rw [step, writeRecord_lanes _ _ _ restored_lane]; exact nodup)

/-- Between frames a start delimiter opens a frame and any other symbol is discarded (R108). -/
theorem decodeSymbol_between {s : State} (between : s.intake.checker = .between) (sym : LoopSymbol) :
    s.decodeSymbol sym = s.setChecker (if sym = .startDelimiter then .inFrame [] false none else .between) := by
  have kept : s = s.setChecker .between := by
    have same : s.intake = { s.intake with checker := .between } := by rw [← between]
    exact congrArg (fun i => { s with intake := i }) same
  unfold State.decodeSymbol
  rw [between]
  cases sym with
  | startDelimiter => rfl
  | _ => exact kept

theorem foldl_flagRestored_out (ls : List Nat) (s : State) : (ls.foldl State.flagRestored s).out = s.out := by
  induction ls generalizing s with
  | nil => rfl
  | cons l ls ih => rw [List.foldl_cons, ih, flagRestored_out]

/-- The lanes in the water flagged: the records of lanes 0 to 9, each once. -/
theorem flagAll_results {s : State} (sound : s.ResultsSound) :
    (Config.lanes.foldl State.flagRestored s).results = s.results.map LaneRecord.restored := by
  obtain ⟨nodup, inside⟩ := sound
  have scanned : ∀ l < 10, l ∈ Config.lanes := by decide
  rw [foldl_flagRestored_results _ nodup, foldl_writeRecord restored_lane (by decide)]
  exact List.map_congr_left fun r mem => if_pos (scanned _ (inside r mem).1)

/-- A restore: UP and watched, its duration reported, the lanes in the water flagged in RUNNING. -/
theorem restoreLoop_shape {s : State} (sound : s.ResultsSound) : ∃ q, s.restoreLoop = { s with
    intake := { s.intake with link := .up, silenceTimer := some (s.deckTime + 2000) }
    out := s.out.report (.loopRestored (s.deckTime - s.intake.outageStart))
    results := s.results.map fun r =>
      if s.heat.state = .running ∧ (r.status = .swimming ∨ r.status = .provisional) then
        { r with flags := { r.flags with linkGap := true, review := true } }
      else r
    composer := { s.composer with queue := q } } := by
  unfold State.restoreLoop
  by_cases running : s.heat.state = .running
  · let t := State.restartSilence { s with intake := { s.intake with link := .up } }
    obtain ⟨rs, o, q, -, shape⟩ := foldl_keeps State.RecordsOnly .refl (fun _ _ _ => .trans) State.flagRestored
      flagRestored_recordsOnly Config.lanes t
    have results := flagAll_results (s := t) sound
    have out := foldl_flagRestored_out Config.lanes t
    rw [shape] at results out
    refine ⟨q, ?_⟩
    simp only [running, if_true, true_and]
    rw [show Config.lanes.foldl State.flagRestored _ = _ from shape, show rs = _ from results, show o = _ from out]
    rfl
  · refine ⟨s.composer.queue, ?_⟩
    simp only [running, if_false, false_and, List.map_id']
    rfl

/-- Settles O12: the restore, then the symbol at a checker between frames; the arbiter keeps both. -/
theorem validSymbolRestoresLoop : Obligations.ValidSymbolRestoresLoop := by
  intro s sym live sound outage between valid
  obtain ⟨q, restored⟩ := restoreLoop_shape sound
  have ran : exec (.loopRestored sym) s = .next (s.symbolArrives sym).arbitrate := by
    rw [exec_loopRestored_run, run_live live, if_pos ⟨outage, valid⟩]
  have arrived : s.symbolArrives sym = s.restoreLoop.setChecker
      (if sym = .startDelimiter then .inFrame [] false none else .between) := by
    unfold State.symbolArrives
    rw [if_pos valid, if_pos outage]
    exact decodeSymbol_between (by rw [restored]; exact between) sym
  obtain ⟨_, _, _, _, _, _, _, arbitrated⟩ := arbitrate_arbiterOnly (s.symbolArrives sym)
  refine ⟨_, ran, ?_⟩
  rw [arbitrated, arrived, restored]
  exact ⟨rfl, rfl, rfl, rfl, rfl, rfl, rfl, rfl, rfl, rfl, rfl, LoopOut.report_reportDest _ _, rfl, rfl, rfl, rfl, rfl⟩

/-! ### Sensor frames (R6, R75, R115, R116) -/

theorem satAdd_zero {w : Nat} (c : BitVec w) : satAdd w c 0 = c := by
  have bound := c.isLt
  simp [satAdd, bound]

theorem satAdd_satAdd {w : Nat} (c : BitVec w) (a b : Nat) : satAdd w (satAdd w c a) b = satAdd w c (a + b) := by
  have ones : (BitVec.allOnes w).toNat = 2 ^ w - 1 := BitVec.toNat_allOnes
  unfold satAdd
  by_cases first : c.toNat + a < 2 ^ w
  · have read : (BitVec.ofNat w (c.toNat + a)).toNat = c.toNat + a := by
      rw [BitVec.toNat_ofNat, Nat.mod_eq_of_lt first]
    rw [if_pos first, read, Nat.add_assoc]
  · rw [if_neg first, if_neg (by omega : ¬ c.toNat + (a + b) < 2 ^ w), ones]
    split
    · next fits =>
      obtain rfl : b = 0 := by omega
      apply BitVec.eq_of_toNat_eq
      rw [BitVec.toNat_ofNat, ones, Nat.add_zero, Nat.mod_eq_of_lt (by omega)]
    · rfl

/-- The edges of known sensors handed on: each stale one is counted, and nothing else of the intake, the maps or the
Management Queue changes (R6, R116). -/
theorem foldl_handEdge_intake (n : ActiveEntry) (stamp : DeckTime) (es : List (List Byte)) (s : State)
    (known : ∀ e ∈ es, (Sensor.ofCode? (sensorCode e)).isSome = true) :
    (es.foldl (State.handEdge n stamp) s).nodes = s.nodes ∧ (es.foldl (State.handEdge n stamp) s).mgmt = s.mgmt
      ∧ (es.foldl (State.handEdge n stamp) s).intake = { s.intake with
          staleCount := satAdd 16 s.intake.staleCount (es.filter fun e => (edgeDeck stamp n.delay e).isNone).length } := by
  induction es generalizing s with
  | nil => exact ⟨rfl, rfl, by simp [satAdd_zero]⟩
  | cons e es ih =>
    obtain ⟨-, nodes, mgmt, intake⟩ := handEdge_frameOnly n stamp s e
    obtain ⟨nodes', mgmt', intake'⟩ := ih (s.handEdge n stamp e) fun x mem => known x (List.mem_cons_of_mem _ mem)
    refine ⟨nodes'.trans nodes, mgmt'.trans mgmt, ?_⟩
    rw [List.foldl_cons, intake', intake, known e List.mem_cons_self]
    cases stale : (edgeDeck stamp n.delay e).isNone with
    | false => simp [stale]
    | true => simp [stale, satAdd_satAdd, Nat.add_comm]

/-- The state in which an accepted SENSOR frame's edges are handed on: its sequence recorded, its gap counted. -/
theorem sensorFrame_eq {s : State} {f : Frame} {n : ActiveEntry} (stamp : DeckTime)
    (node : resolveAddress s.nodes.active f.src = some n) :
    let u : State := { s with nodes :=
      { s.nodes with active := recordExpected s.nodes.active f.src (f.payload.getD 0 0 + 1) } }
    let gap := sequenceDistance n.expected (f.payload.getD 0 0)
    s.sensorFrame f stamp = f.edges.foldl (State.handEdge n stamp) (if gap = 0 then u else u.sequenceGap n gap) := by
  unfold State.sensorFrame
  rw [node]

/-- A gap counted, whatever its length; a gap of 0 counts nothing. -/
theorem gap_counted (u : State) (n : ActiveEntry) (g : Nat) :
    (if g = 0 then u else u.sequenceGap n g).nodes = u.nodes ∧ (if g = 0 then u else u.sequenceGap n g).mgmt = u.mgmt
      ∧ (if g = 0 then u else u.sequenceGap n g).intake
        = { u.intake with lostCount := satAdd 16 u.intake.lostCount g } := by
  split
  · next zero => exact ⟨rfl, rfl, by rw [zero, satAdd_zero]⟩
  · exact (sequenceGap_frameOnly u n g).2

theorem sequenceDistance_toNat (x seq : Byte) : sequenceDistance (some x) seq = (seq.toNat + 256 - x.toNat) % 256 := by
  have bound := x.isLt
  show (seq - x).toNat = _
  rw [BitVec.toNat_sub]
  omega

/-- A gap in RUNNING: its lane marked unless DNS, then its node's collectors (R75, R115). -/
theorem sequenceGap_running {s : State} (running : s.heat.state = .running) (n : ActiveEntry) (g : Nat) :
    let counted : State := { s with intake := { s.intake with lostCount := satAdd 16 s.intake.lostCount g } }
    let marks (c : Collector) : Bool :=
      c.lane == n.lane && (c.state == .armed || c.state == .collecting) && lapWall c.lap == n.wall
    (∀ r, s.record? n.lane = some r → s.sequenceGap n g =
        (if r.status = .dns then counted else counted.note n.lane fun r => { r with flags := r.flags.markGap }).markLinks
          marks)
      ∧ (s.record? n.lane = none → s.sequenceGap n g = counted.markLinks marks) := by
  unfold State.sequenceGap
  refine ⟨fun r held => ?_, fun none_held => ?_⟩
  · simp only [running, if_true, held]
  · simp only [running, if_true, none_held]

/-- Settles O10: a frame's sequence, then its edges; a gap's marks by heat state. -/
theorem sensorFrameIsCounted : Obligations.SensorFrameIsCounted := by
  refine ⟨fun s f stamp n node known => ?_, fun x seq => ⟨sequenceDistance_toNat x seq, rfl⟩,
    fun s n g => ⟨fun other => if_neg other, fun running => ?_⟩⟩
  · intro seq gap u t
    have handed : t = f.edges.foldl (State.handEdge n stamp) (if gap = 0 then u else u.sequenceGap n gap) :=
      sensorFrame_eq stamp node
    obtain ⟨nodes, mgmt, intake⟩ := gap_counted u n gap
    obtain ⟨nodes', mgmt', intake'⟩ := foldl_handEdge_intake n stamp f.edges (if gap = 0 then u else u.sequenceGap n gap)
      known
    obtain ⟨_, _, _, _, _, _, _, _, _, _, -, shape⟩ := sensorFrame_frameOnly s f stamp
    refine ⟨handed, ?_, ?_, ?_, ?_, ?_, ?_, ?_⟩
    · rw [handed, nodes', nodes]
    · rw [handed, intake', intake]
    · rw [show t = _ from shape]
    · rw [handed, mgmt', mgmt]
    all_goals rw [show t = _ from shape]
  · let counted : State := { s with intake := { s.intake with lostCount := satAdd 16 s.intake.lostCount g } }
    obtain ⟨inUse, unused⟩ := sequenceGap_running running n g
    have marked : ∀ u : State, u.walls = s.walls → (u.markLinks fun c =>
        c.lane == n.lane && (c.state == .armed || c.state == .collecting) && lapWall c.lap == n.wall).walls =
        { s.walls with collectors := s.walls.collectors.map fun c =>
          if c.lane = n.lane ∧ (c.state = .armed ∨ c.state = .collecting) ∧ lapWall c.lap = n.wall then
            { c with link := true }
          else c } := by
      intro u same
      rw [markLinks_walls, same]
      refine congrArg (fun cs => { s.walls with collectors := cs }) (List.map_congr_left fun c _ => ?_)
      simp [and_assoc]
    cases held : s.record? n.lane with
    | none =>
      rw [unused held]
      exact ⟨marked counted rfl, fun _ other => (by cases other), fun _ => rfl, rfl, rfl, rfl, rfl⟩
    | some r =>
      rw [inUse r held]
      by_cases dns : r.status = .dns
      · simp only [dns, if_true]
        refine ⟨marked counted rfl, ?_, fun absent => (by cases absent), rfl, rfl, rfl, rfl⟩
        rintro _ ⟨⟩
        rw [if_pos dns]
        rfl
      · simp only [dns, if_false]
        obtain ⟨_, _, _, -, shape⟩ := note_recordsOnly counted n.lane fun r => { r with flags := r.flags.markGap }
        refine ⟨marked _ (note_walls _ _ _), ?_, fun absent => (by cases absent), ?_, note_out _ _ _, ?_, ?_⟩
        · rintro _ ⟨⟩
          rw [if_neg dns]
          exact note_unplaced counted n.lane _
        all_goals
          rw [shape]
          rfl

end Sys2Proof.Machine
end

