-- ==== Sys2Proof/Proofs/LoopOutPort.lean ====
section
/-! The Loop Out Port (R124 to R131): its choice, its queues and the symbols on Loop Out. -/

namespace Sys2Proof.Machine

/-! ### The arbiter's choice while the port is IDLE (R127) -/

theorem choose_busy {o : LoopOut} (busy : o.port.isSome = true ∨ o.cutting = true) : o.choose = o := by
  unfold LoopOut.choose
  cases port : o.port with
  | some p => rfl
  | none =>
    have cutting : o.cutting = true := by simpa [port] using busy
    rw [cutting]

theorem choose_empty {o : LoopOut} (outbound : o.outbound = []) (transit : o.transit = []) : o.choose = o := by
  unfold LoopOut.choose
  rw [outbound, transit]
  split <;> rfl

theorem choose_outbound {o : LoopOut} (port : o.port = none) (cutting : o.cutting = false) {f : Frame} {fs : List Frame}
    (outbound : o.outbound = f :: fs) (turn : o.transit = [] ∨ o.lastServed = .transit) :
    o.choose = { o with port := some (f, .outbound), outbound := fs, lastServed := .outbound } := by
  unfold LoopOut.choose
  rw [port, cutting, outbound]
  cases transit : o.transit with
  | nil => rfl
  | cons g gs =>
    have last : o.lastServed = .transit := by simpa [transit] using turn
    simp only [last]

theorem choose_transit {o : LoopOut} (port : o.port = none) (cutting : o.cutting = false) {g : Frame} {gs : List Frame}
    (transit : o.transit = g :: gs) (turn : o.outbound = [] ∨ o.lastServed = .outbound) :
    o.choose = { o with port := some (g, .transit), transit := gs, lastServed := .transit } := by
  unfold LoopOut.choose
  rw [port, cutting, transit]
  cases outbound : o.outbound with
  | nil => rfl
  | cons f fs =>
    have last : o.lastServed = .outbound := by simpa [outbound] using turn
    simp only [last]

/-! ### Frames and reports offered (R124, R131) -/

theorem offer_full {o : LoopOut} (full : 32 ≤ o.outbound.length) (f : Frame) :
    o.offer f = { o with overflow := satAdd 16 o.overflow 1 } := if_neg (Nat.not_lt.mpr full)

theorem offer_room {o : LoopOut} (room : o.outbound.length < 32) (f : Frame) :
    o.offer f = LoopOut.choose { o with outbound := o.outbound ++ [f] } := if_pos room

/-! ### Loop Out (R126, R129) -/

/-- What is sent of an abandoned frame: its first symbols and an idle one. -/
theorem abandoned_spec {o : LoopOut} {f : Frame} {q : QueueName} (port : o.port = some (f, q)) {k : Nat}
    (sent : k ≤ f.symbols.length) : (o.abandoned k).length = k + 1 ∧ (o.abandoned k).getLast? = some .idle
      ∧ ∀ i < k, (o.abandoned k)[i]? = f.symbols[i]? := by
  have cut : o.abandoned k = f.symbols.take k ++ [.idle] := by rw [LoopOut.abandoned, port]
  have length : (f.symbols.take k).length = k := by rw [List.length_take]; omega
  refine ⟨by simp [cut, length], by simp [cut], fun i below => ?_⟩
  rw [cut, List.getElem?_append_left (by omega), List.getElem?_take_of_lt below]

/-- Settles O13: the port's choice by its two queues, and what it sends. -/
theorem loopOutPortServesQueues : Obligations.LoopOutPortServesQueues := by
  refine ⟨fun s live busy => ?_, fun o f full => offer_full full f, fun o f room busy => ?_,
    fun o f outbound transit port cutting => ?_, fun o r room => if_pos room, fun o r full => ?_, fun o => ⟨fun idle => ?_,
      fun f q port => ⟨?_, ?_, fun k sent => abandoned_spec port sent⟩⟩⟩
  · have ran : exec .loopOutCompletion s =
        .next { s with out := LoopOut.choose { s.out with port := none, cutting := false } } := by
      rw [exec_loopOutCompletion_run, run_live live, if_pos (by simpa using busy)]
    exact ⟨_, ran, fun outbound transit => choose_empty outbound transit,
      fun f fs outbound turn => choose_outbound rfl rfl outbound turn,
      fun g gs transit turn => choose_transit rfl rfl transit turn⟩
  · rw [offer_room room]
    exact choose_busy busy
  · have room : o.outbound.length < 32 := by rw [outbound]; decide
    have alone : o.outbound ++ [f] = [f] := by rw [outbound, List.nil_append]
    rw [offer_room room, choose_outbound (o := { o with outbound := o.outbound ++ [f] }) port cutting alone (.inl transit),
      outbound]
  · have report : o.report r = o.offer (reportFrame o.reportDest o.reportNumber r) := if_neg (Nat.not_lt.mpr full)
    rw [report, offer_full full]
  · rw [LoopOut.line, idle]
  · rw [LoopOut.line, port]
    rfl
  · rw [bytes_length, Nat.add_comm]

end Sys2Proof.Machine
end

