-- ==== Sys2Proof/Proofs/HeatRequests.lean ====
section
/-! Requests of the console: an asked request comes to its own rule, a refusal changes the REPLY and the queue alone, and
the lowest of several faults is the first of a list in order (R18, R135, R137). -/

namespace Sys2Proof.Machine

/-! ### An asked request (R135, R137) -/

theorem exec_asked {c : Instr} {s : State} {f : Frame} {code : Byte} {form : List Byte → Bool}
    {body : State → Request → State} (ran : exec c s = s.run fun s => s.request code form body)
    (asked : s.Asks f code form) : exec c s = .next (body s f.request).popHead := by
  rw [ran, run_live asked.1, request_asked asked]

/-- A request answered by its REPLY alone. -/
theorem exec_answered {c : Instr} {s : State} {f : Frame} {code : Byte} {form : List Byte → Bool}
    {body : State → Request → State} (ran : exec c s = s.run fun s => s.request code form body)
    (asked : s.Asks f code form) {r : ReplyResult} {d : Nat} {fs : List Byte}
    (answer : body s f.request = s.reply f.request r d fs) : exec c s =
      .next { s with mgmt := s.mgmt.popped, out := s.out.offer (replyFrame f.request r d fs) } := by
  rw [exec_asked ran asked, answer]
  rfl

/-! ### The lowest fault -/

theorem lowest_congr {P Q : Nat → Prop} {d : Option Nat} (same : ∀ k, P k ↔ Q k) (h : Lowest Q d) : Lowest P d := by
  rwa [show P = Q from funext fun k => propext (same k)]

/-- The first of a list in increasing order that meets a condition is the lowest that does. -/
theorem lowest_find? {ls : List Nat} (sorted : ls.Pairwise (· < ·)) (p : Nat → Bool) :
    Lowest (fun k => k ∈ ls ∧ p k = true) (ls.find? p) := by
  refine ⟨by simp [List.find?_eq_none], fun k => ?_⟩
  rw [List.find?_eq_some_iff_append]
  constructor
  · rintro ⟨met, before, after, rfl, unmet⟩
    refine ⟨⟨by simp, met⟩, ?_⟩
    rintro j below ⟨mem, met'⟩
    obtain ⟨-, later, -⟩ := List.pairwise_append.mp sorted
    rcases List.mem_append.mp mem with early | late
    · simpa [met'] using unmet j early
    · rcases List.mem_cons.mp late with rfl | late
      · omega
      · have := List.rel_of_pairwise_cons later late
        omega
  · rintro ⟨⟨mem, met⟩, first⟩
    obtain ⟨before, after, rfl⟩ := List.append_of_mem mem
    refine ⟨met, before, after, rfl, fun j early => ?_⟩
    have below : j < k := by
      obtain ⟨-, -, cross⟩ := List.pairwise_append.mp sorted
      exact cross j early k List.mem_cons_self
    simpa [early] using first j below

/-- The number of the first entry of a numbered list whose condition holds. -/
def firstHeld (cs : List (Nat × Bool)) : Option Nat := (cs.find? (·.2)).map (·.1)

@[simp] theorem firstHeld_nil : firstHeld [] = none := rfl

/-- An if-chain of numbered faults is such a list. -/
theorem firstHeld_cons (k : Nat) (c : Prop) [Decidable c] (cs : List (Nat × Bool)) :
    firstHeld ((k, decide c) :: cs) = if c then some k else firstHeld cs := by
  by_cases held : c <;> simp [firstHeld, held]

theorem lowest_firstHeld {cs : List (Nat × Bool)} (sorted : (cs.map (·.1)).Pairwise (· < ·)) :
    Lowest (fun k => (k, true) ∈ cs) (firstHeld cs) := by
  induction cs with
  | nil => exact ⟨by simp, fun k => by simp⟩
  | cons c cs ih =>
    obtain ⟨k, held⟩ := c
    obtain ⟨above, sorted⟩ := List.pairwise_cons.mp sorted
    have higher : ∀ j, (j, true) ∈ cs → k < j := fun j mem => above j (List.mem_map_of_mem (f := Prod.fst) mem)
    obtain ⟨none_held, first⟩ := ih sorted
    cases held with
    | true =>
      refine ⟨⟨nofun, fun absent => absurd List.mem_cons_self (absent k)⟩, fun j => ?_⟩
      have found : firstHeld ((k, true) :: cs) = some k := rfl
      rw [found, Option.some.injEq]
      constructor
      · rintro rfl
        refine ⟨List.mem_cons_self, fun i below mem => ?_⟩
        rcases List.mem_cons.mp mem with same | mem
        · obtain ⟨rfl, -⟩ := Prod.mk.inj same
          omega
        · have := higher i mem
          omega
      · rintro ⟨mem, least⟩
        rcases List.mem_cons.mp mem with same | mem
        · exact (Prod.mk.inj same).1.symm
        · exact absurd List.mem_cons_self (least k (higher j mem))
    | false =>
      have found : firstHeld ((k, false) :: cs) = firstHeld cs := rfl
      have same : ∀ j, (j, true) ∈ (k, false) :: cs ↔ (j, true) ∈ cs := by simp
      rw [found]
      exact lowest_congr same ⟨none_held, first⟩

/-- A chain of numbered checks names the lowest fault that is present. -/
theorem lowest_of_checks {P : Nat → Prop} {d : Option Nat} (cs : List (Nat × Bool)) (chain : d = firstHeld cs)
    (sorted : (cs.map (·.1)).Pairwise (· < ·)) (present : ∀ k, P k ↔ (k, true) ∈ cs) : Lowest P d := by
  rw [chain]
  exact lowest_congr present (lowest_firstHeld sorted)

/-! ### The plan a request carries (R18 to R20) -/

theorem yesNo_isNone (n : Nat) : (yesNo? n).isNone = true ↔ 1 < n := by
  match n with
  | 0 | 1 => decide
  | n + 2 => exact ⟨fun _ => by omega, fun _ => rfl⟩

theorem splitMode_isNone (n : Nat) : (SplitMode.ofCode? n).isNone = true ↔ 2 < n := by
  match n with
  | 0 | 1 | 2 => decide
  | n + 3 => exact ⟨fun _ => by omega, fun _ => rfl⟩

theorem stroke_unknown (n : Nat) : (Stroke.ofCode? n).isSome = false ↔ 4 < n := by
  match n with
  | 0 | 1 | 2 | 3 | 4 => decide
  | n + 5 => exact ⟨fun _ => by omega, fun _ => rfl⟩

/-- The lowest field of a plan with a bad value (R18). -/
theorem valueFault_lowest (p : PlanFields) :
    Lowest (fun k => (k = 5 ∧ 1 < p.relay) ∨ (k = 6 ∧ 2 < p.split) ∨ (k = 15 ∧ ∃ e ∈ p.entries, 1 < byteAt e 3))
      p.valueFault := by
  refine lowest_of_checks [(5, decide ((yesNo? p.relay).isNone = true)),
    (6, decide ((SplitMode.ofCode? p.split).isNone = true)),
    (15, decide ((p.entries.any fun e => (yesNo? (byteAt e 3)).isNone) = true))] ?_ (by simp) fun k => ?_
  · simp only [firstHeld_cons, firstHeld_nil]
    rfl
  · simp only [yesNo_isNone, splitMode_isNone, List.any_eq_true, List.mem_cons, Prod.mk.injEq, true_eq_decide_iff,
      List.not_mem_nil, or_false]

theorem hasRepeat_iff (ls : List Nat) : hasRepeat ls = true ↔
    ∃ i j l : Nat, i < j ∧ ls[i]? = some l ∧ ls[j]? = some l := by
  induction ls with
  | nil => simp [hasRepeat]
  | cons a as ih =>
    rw [hasRepeat, Bool.or_eq_true, List.contains_iff_mem, ih]
    constructor
    · rintro (mem | ⟨i, j, l, below, first, second⟩)
      · obtain ⟨j, found⟩ := List.mem_iff_getElem?.mp mem
        exact ⟨0, j + 1, a, by omega, rfl, found⟩
      · exact ⟨i + 1, j + 1, l, by omega, first, second⟩
    · rintro ⟨i, j, l, below, first, second⟩
      obtain ⟨j, rfl⟩ : ∃ k, j = k + 1 := ⟨j - 1, by omega⟩
      cases i with
      | zero =>
        obtain rfl : a = l := Option.some.inj first
        exact .inl (List.mem_iff_getElem?.mpr ⟨j, second⟩)
      | succ i => exact .inr ⟨i, j, l, by omega, first, second⟩

/-- The structural faults of a plan (R19): the lowest reason code is the answer. -/
theorem planFault_lowest (m : MeetSettings) (event heat distance : Nat) (relay known : Bool) (lanes : List Nat) :
    let laps := distance / m.course.metres
    Lowest (fun k => (k = 1 ∧ (distance = 0 ∨ 1500 < distance ∨ ¬m.course.metres ∣ distance)) ∨ (k = 2 ∧ 60 < laps)
        ∨ (k = 3 ∧ relay = true ∧ (¬4 ∣ laps ∨ ¬2 ∣ laps / 4)) ∨ (k = 4 ∧ ∃ l ∈ lanes, m.laneCount ≤ l)
        ∨ (k = 5 ∧ ∃ (i j l : Nat), i < j ∧ lanes[i]? = some l ∧ lanes[j]? = some l) ∨ (k = 6 ∧ lanes.length = 0)
        ∨ (k = 7 ∧ known = false) ∨ (k = 8 ∧ (event < 1 ∨ 999 < event ∨ heat < 1 ∨ 99 < heat)))
      (planFault m event heat distance relay known lanes) := by
  intro laps
  refine lowest_of_checks
    [(1, decide (distance = 0 ∨ 1500 < distance ∨ distance % m.course.metres ≠ 0)), (2, decide (60 < laps)),
      (3, decide (relay = true ∧ (laps % 4 ≠ 0 ∨ laps / 4 % 2 = 1))),
      (4, decide ((lanes.any fun l => decide (m.laneCount ≤ l)) = true)), (5, decide (hasRepeat lanes = true)),
      (6, decide (lanes = [])), (7, decide (known = false)),
      (8, decide (event = 0 ∨ 999 < event ∨ heat = 0 ∨ 99 < heat))] ?_ (by simp) fun k => ?_
  · simp only [firstHeld_cons, firstHeld_nil]
    rfl
  · have odd : laps / 4 % 2 = 1 ↔ ¬2 ∣ laps / 4 := by omega
    simp only [hasRepeat_iff, odd, List.any_eq_true, decide_eq_true_eq, List.mem_cons, Prod.mk.injEq, true_eq_decide_iff,
      List.not_mem_nil, or_false, Nat.dvd_iff_mod_eq_zero, List.length_eq_zero_iff, Nat.lt_one_iff]

theorem stroke_code_le (k : Stroke) : ¬ 4 < k.code.toNat := by cases k <;> decide

theorem mem_lanes (l : Nat) : l ∈ Config.lanes ↔ l < 10 := by
  unfold Config.lanes
  simp only [List.mem_cons, List.not_mem_nil, or_false]
  omega

theorem mem_planLanes (p : Plan) (l : Nat) : l ∈ p.lanes ↔ l < 10 ∧ ∃ e ∈ p.entries, e.lane = l := by
  simp [Plan.lanes, mem_lanes]

theorem planLanes_sorted (p : Plan) : p.lanes.Pairwise (· < ·) := List.Pairwise.filter _ (by decide)

theorem resolvePlace_isNone (active : List (Option ActiveEntry)) (lane : Nat) (w : Wall) :
    (resolvePlace active lane w).isNone = true ↔
      ¬∃ x, some x ∈ active ∧ x.enabled = true ∧ x.lane = lane ∧ x.wall = w := by
  simp only [resolvePlace, Option.isNone_iff_eq_none, List.findSome?_eq_none_iff]
  constructor
  · rintro absent ⟨x, mem, enabled, rfl, rfl⟩
    simpa [enabled] using absent (some x) mem
  · intro absent slot mem
    cases slot with
    | none => rfl
    | some x =>
      have missing : ¬(x.enabled = true ∧ x.lane = lane ∧ x.wall = w) := fun h => absent ⟨x, mem, h⟩
      simp only [Option.bind_some, ite_eq_right_iff, Bool.and_eq_true, beq_iff_eq, reduceCtorEq, imp_false]
      rintro ⟨⟨enabled, lane⟩, wall⟩
      exact missing ⟨enabled, lane, wall⟩

/-- The lowest lane in use that lacks a node (R22). -/
theorem lackingNode_lowest (p : Plan) (active : List (Option ActiveEntry)) :
    let has (lane : Nat) (wall : Wall) : Prop := ∃ x, some x ∈ active ∧ x.enabled = true ∧ x.lane = lane ∧ x.wall = wall
    Lowest (fun l => l < 10 ∧ (∃ e ∈ p.entries, e.lane = l) ∧ (¬has l .start ∨ ¬has l .turn)) (p.lackingNode active) := by
  intro has
  refine lowest_congr (fun l => ?_) (lowest_find? (planLanes_sorted p)
    fun l => (resolvePlace active l .start).isNone || (resolvePlace active l .turn).isNone)
  rw [mem_planLanes, Bool.or_eq_true, resolvePlace_isNone, resolvePlace_isNone, and_assoc]

/-! ### The refusals (R18, R19, R22, R31, R33 to R35, R101, R103) -/

theorem refereeTime_eq_false {s : State} (early : s.heat.state = .idle ∨ s.heat.state = .armed) :
    s.refereeTime = false := by
  unfold State.refereeTime
  rcases early with e | e <;> rw [e] <;> rfl

/-- ADJUDICATE_FINISH outside the results or of a lane that is not FINAL (R101). -/
theorem adjudicateFinish_unfit {s : State} {q : Request} (inside : byteAt q.fields 0 ≤ 9)
    (inUse : s.laneInUse (byteAt q.fields 0) = true) (action : byteAt q.fields 1 ≤ 3)
    (unfit : s.heat.state = .idle ∨ s.heat.state = .armed ∨
      ∀ r, s.record? (byteAt q.fields 0) = some r → r.status ≠ .final) :
    adjudicateFinish s q = s.reply q .refusedState := by
  have valid : ¬(9 < byteAt q.fields 0 ∨ s.laneInUse (byteAt q.fields 0) = false ∨ 3 < byteAt q.fields 1) := by
    simp [inUse, Nat.not_lt.mpr inside, Nat.not_lt.mpr action]
  refine (if_neg valid).trans ?_
  by_cases early : s.refereeTime = false
  · exact if_pos early
  · refine (if_neg early).trans ?_
    have open_ : ∀ r, s.record? (byteAt q.fields 0) = some r → r.status ≠ .final := by
      rcases unfit with e | e | h
      · exact absurd (refereeTime_eq_false (.inl e)) early
      · exact absurd (refereeTime_eq_false (.inr e)) early
      · exact h
    cases held : s.record? (byteAt q.fields 0) with
    | none => rfl
    | some r => exact if_neg (open_ r held)

/-- SET_DQ outside the results or of a lane that is DNS (R103). -/
theorem setDq_unfit {s : State} {q : Request} (inside : byteAt q.fields 0 ≤ 9)
    (inUse : s.laneInUse (byteAt q.fields 0) = true) (action : byteAt q.fields 1 ≤ 1)
    (unfit : s.heat.state = .idle ∨ s.heat.state = .armed ∨
      ∀ r, s.record? (byteAt q.fields 0) = some r → r.status = .dns) : setDq s q = s.reply q .refusedState := by
  have valid : ¬(9 < byteAt q.fields 0 ∨ s.laneInUse (byteAt q.fields 0) = false ∨ 1 < byteAt q.fields 1) := by
    simp [inUse, Nat.not_lt.mpr inside, Nat.not_lt.mpr action]
  refine (if_neg valid).trans ?_
  by_cases early : s.refereeTime = false
  · exact if_pos early
  · refine (if_neg early).trans ?_
    have dns : ∀ r, s.record? (byteAt q.fields 0) = some r → r.status = .dns := by
      rcases unfit with e | e | h
      · exact absurd (refereeTime_eq_false (.inl e)) early
      · exact absurd (refereeTime_eq_false (.inr e)) early
      · exact h
    cases held : s.record? (byteAt q.fields 0) with
    | none => rfl
    | some r => exact if_pos (dns r held)

/-- Settles O17: each check of a rule that fails answers its REPLY alone; the details by the lists of checks. -/
theorem heatRequestsRefused : Obligations.HeatRequestsRefused := by
  refine ⟨fun s f => ?_, fun m p q => ⟨valueFault_lowest p, ?_, ?_⟩, fun p active => lackingNode_lowest p active⟩
  · refine ⟨fun asked busy => ?_, fun asked unready => ?_, fun p d asked idle plan fault => ?_,
      fun p l asked idle plan sound lacking => ?_, fun asked state => ?_, fun asked state => ?_,
      fun d asked idle fault => ?_, fun d asked idle values fault => ?_, fun asked bad => ?_,
      fun asked inside inUse unfit => ?_, fun asked bad => ?_, fun asked inside inUse action unfit => ?_,
      fun asked bad => ?_, fun asked inside inUse action unfit => ?_⟩
    · exact exec_answered (exec_loadHeatPlan_run s) asked (if_pos busy)
    · refine exec_answered (exec_armHeat_run s) asked ?_
      unfold armHeat
      cases plan : s.heat.plan with
      | none => rfl
      | some p => exact if_pos (unready.resolve_right (by simp [plan]))
    · refine exec_answered (exec_armHeat_run s) asked ?_
      unfold armHeat
      simp only [plan, idle, fault, ne_eq, not_true_eq_false, if_false]
    · refine exec_answered (exec_armHeat_run s) asked ?_
      unfold armHeat
      simp only [plan, idle, sound, lacking, ne_eq, not_true_eq_false, if_false]
    · refine exec_answered (exec_abortHeat_run s) asked ?_
      unfold abortHeat
      rcases state with e | e <;> rw [e]
    · refine exec_answered (exec_clearHeat_run s) asked ?_
      unfold clearHeat
      rcases state with e | e <;> rw [e]
    · refine exec_answered (exec_loadHeatPlan_run s) asked ?_
      unfold loadHeatPlan
      simp only [idle, fault, ne_eq, not_true_eq_false, if_false]
    · refine exec_answered (exec_loadHeatPlan_run s) asked ?_
      unfold loadHeatPlan
      simp only [idle, values, fault, ne_eq, not_true_eq_false, if_false]
    · exact exec_answered (exec_markDns_run s) asked (if_pos bad)
    · refine exec_answered (exec_markDns_run s) asked ?_
      have valid : ¬(9 < byteAt f.request.fields 0 ∨ s.laneInUse (byteAt f.request.fields 0) = false) := by
        simp [inUse, Nat.not_lt.mpr inside]
      refine (if_neg valid).trans (if_neg ?_)
      rintro ⟨begun, mark⟩
      obtain ⟨r, held, can⟩ : ∃ r, s.record? (byteAt f.request.fields 0) = some r ∧ r.canMark = true := by
        cases held : s.record? (byteAt f.request.fields 0) with
        | none => simp [held] at mark
        | some r => exact ⟨r, rfl, by simpa [held] using mark⟩
      simp only [LaneRecord.canMark, Bool.and_eq_true, Bool.or_eq_true, beq_iff_eq] at can
      rcases unfit with idle | results | unfit
      · rw [idle] at begun
        simp at begun
      · rw [results] at begun
        simp at begun
      · rcases unfit r held with ⟨notWaiting, notSwimming⟩ | lapped
        · exact can.1.elim notWaiting notSwimming
        · exact lapped can.2
    · exact exec_answered (exec_adjudicateFinish_run s) asked (if_pos bad)
    · exact exec_answered (exec_adjudicateFinish_run s) asked (adjudicateFinish_unfit inside inUse action unfit)
    · exact exec_answered (exec_setDq_run s) asked (if_pos bad)
    · exact exec_answered (exec_setDq_run s) asked (setDq_unfit inside inUse action unfit)
  · refine lowest_congr (fun k => ?_) (planFault_lowest m p.event p.heat p.distance (p.relay == 1)
      (Stroke.ofCode? p.stroke).isSome (p.entries.map fun e => byteAt e 0))
    simp only [stroke_unknown, beq_iff_eq]
  · refine lowest_congr (fun k => ?_) (planFault_lowest m q.event q.heat q.distance q.relay true (q.entries.map (·.lane)))
    simp only [stroke_code_le, reduceCtorEq]

/-! ### LOAD_HEAT_PLAN (R18, R20, R183) -/

theorem groups_get (k n : Nat) (fs : List Byte) {i : Nat} (below : i < n) :
    (groups k n fs)[i]? = some ((fs.drop (k * i)).take k) := by
  rw [groups_eq_map, List.getElem?_map, List.getElem?_range below]
  rfl

/-- The timing fields outside their ranges, in the order of their numbers (R17, R20). -/
def PlanFields.outside (p : PlanFields) : List (Nat × Bool) :=
  [(7, decide (60000 < p.minLap)), (8, decide (p.collectionWindow < 10 ∨ 300 < p.collectionWindow)),
    (9, decide (250 < p.trustWindow)), (10, decide (p.exchangeWindow < 10 ∨ 500 < p.exchangeWindow)),
    (11, decide (100 < p.tolerance)), (12, decide (p.startWindow < 50 ∨ 500 < p.startWindow)),
    (13, decide (250 < p.reactionFloor)), (14, decide (p.heatLimit < 1 ∨ 60 < p.heatLimit))]

/-- A value is clamped exactly when it lies outside its range. -/
theorem clampTo_ne_iff {lo hi : Nat} (range : lo ≤ hi) (v : Nat) : clampTo lo hi v ≠ v ↔ v < lo ∨ hi < v := by
  unfold clampTo
  omega

/-- The field that DONE_CLAMPED names is the first one outside its range. -/
theorem clamped_eq_firstHeld (p : PlanFields) : p.clamped = firstHeld p.outside := by
  have above (hi v : Nat) : clampTo 0 hi v ≠ v ↔ hi < v := by
    rw [clampTo_ne_iff (Nat.zero_le _)]
    omega
  simp only [PlanFields.outside, firstHeld_cons, firstHeld_nil, PlanFields.clamped, PlanFields.load, above,
    clampTo_ne_iff (show 10 ≤ 300 by omega), clampTo_ne_iff (show 10 ≤ 500 by omega),
    clampTo_ne_iff (show 50 ≤ 500 by omega), clampTo_ne_iff (show 1 ≤ 60 by omega)]

theorem stroke_code_ofCode {n : Nat} (known : (Stroke.ofCode? n).isSome = true) :
    ((Stroke.ofCode? n).getD .free).code.toNat = n := by
  match n with
  | 0 | 1 | 2 | 3 | 4 => rfl
  | n + 5 => cases known

theorem split_code_ofCode {n : Nat} (known : (SplitMode.ofCode? n).isNone = false) :
    ((SplitMode.ofCode? n).getD .allWalls).code.toNat = n := by
  match n with
  | 0 | 1 | 2 => rfl
  | n + 3 => cases known

theorem relay_toNat {n : Nat} (known : (yesNo? n).isNone = false) : (n == 1).toNat = n := by
  match n with
  | 0 | 1 => rfl
  | n + 2 => cases known

/-- A faultless plan has a known stroke. -/
theorem stroke_of_faultless {p : PlanFields} {m : MeetSettings} (sound : p.fault m = none) :
    (Stroke.ofCode? p.stroke).isSome = true := by
  obtain ⟨none_present, -⟩ := planFault_lowest m p.event p.heat p.distance (p.relay == 1)
    (Stroke.ofCode? p.stroke).isSome (p.entries.map fun e => byteAt e 0)
  by_contra unknown
  exact none_present.mp sound 7 (by simp [unknown])

/-- A plan without bad values has a known split mode and relay mark. -/
theorem known_of_valid {p : PlanFields} (valid : p.valueFault = none) :
    (SplitMode.ofCode? p.split).isNone = false ∧ (yesNo? p.relay).isNone = false := by
  obtain ⟨none_present, -⟩ := valueFault_lowest p
  have absent := none_present.mp valid
  constructor
  · by_contra bad
    exact absent 6 (.inr (.inl ⟨rfl, (splitMode_isNone _).mp (by simpa using bad)⟩))
  · by_contra bad
    exact absent 5 (.inl ⟨rfl, (yesNo_isNone _).mp (by simpa using bad)⟩)

/-- Settles O14: the plan is loaded with its fields clamped, and the answer names the first clamped one. -/
theorem loadHeatPlanClamps : Obligations.LoadHeatPlanClamps := by
  refine ⟨fun s f asked idle => ?_, fun fs => ⟨rfl, rfl⟩, fun k n fs => ⟨groups_length k n fs, fun i => groups_get k n fs⟩⟩
  intro p valid sound outside
  have loaded : loadHeatPlan s f.request = State.reply { s with heat := { s.heat with plan := some p.load } } f.request
      (if p.clamped.isSome then .doneClamped else .done) (p.clamped.getD 0) := by
    unfold loadHeatPlan
    refine (if_neg (not_not.mpr idle)).trans ?_
    simp only [show (planFields f.request.fields).valueFault = none from valid,
      show (planFields f.request.fields).fault s.mgmt.settings = none from sound]
    cases p.clamped <;> rfl
  obtain ⟨split, relay⟩ := known_of_valid valid
  refine ⟨p.load, if p.clamped.isSome then .doneClamped else .done, p.clamped.getD 0, ?_, rfl, rfl, rfl,
    stroke_code_ofCode (stroke_of_faultless sound), relay_toNat relay, split_code_ofCode split, ?_, rfl, ?_, rfl, ?_, rfl, ?_, rfl,
    rfl, ?_, fun none_outside => ?_, fun k first => ?_⟩
  · rw [exec_asked (exec_loadHeatPlan_run s) asked, loaded]
    rfl
  · exact Nat.zero_max _
  · exact Nat.zero_max _
  · exact Nat.zero_max _
  · exact Nat.zero_max _
  · show (p.entries.map _).length = _
    rw [List.length_map]
    exact groups_length _ _ _
  · have clamped : p.clamped = none := by
      rw [clamped_eq_firstHeld, firstHeld, show p.outside.find? (·.2) = none from none_outside]
      rfl
    rw [clamped]
    exact ⟨rfl, rfl⟩
  · have clamped : p.clamped = some k := by
      rw [clamped_eq_firstHeld, firstHeld, show p.outside.find? (·.2) = _ from first]
      rfl
    rw [clamped]
    exact ⟨rfl, rfl⟩

end Sys2Proof.Machine
end

