-- ==== Sys2Proof/Proofs/PulseRequests.lean ====
section
/-! Requests that are answered at once: those of a wrong form, and those of the pulse programs and signal lines; and the
step timer of a running program (R137, R169 to R175). -/

namespace Sys2Proof.Machine

/-- An asked request that changes its own block and is then answered by its REPLY. -/
theorem exec_replied {c : Instr} {s t : State} {f : Frame} {code : Byte} {form : List Byte → Bool}
    {body : State → Request → State} (ran : exec c s = s.run fun s => s.request code form body)
    (asked : s.Asks f code form) {r : ReplyResult} {d : Nat} {fs : List Byte}
    (answer : body s f.request = t.reply f.request r d fs) : exec c s =
      .next { t with mgmt := t.mgmt.popped, out := t.out.offer (replyFrame f.request r d fs) } := by
  rw [exec_asked ran asked, answer]
  rfl

/-- An asked request that changes the Pulse Unit and is then answered by its REPLY. -/
theorem exec_pulse_replied {c : Instr} {s : State} {f : Frame} {code : Byte} {form : List Byte → Bool}
    {body : State → Request → State} (ran : exec c s = s.run fun s => s.request code form body)
    (asked : s.Asks f code form) {p : PulseUnit} {r : ReplyResult} {d : Nat} {fs : List Byte}
    (answer : body s f.request = State.reply { s with pulse := p } f.request r d fs) : exec c s =
      .next { s with pulse := p, mgmt := s.mgmt.popped, out := s.out.offer (replyFrame f.request r d fs) } :=
  exec_replied ran asked answer

/-! ### Requests of a wrong form (R137) -/

theorem exec_misformed {c : Instr} {s : State} {f : Frame} {code : Byte} {form : List Byte → Bool}
    {body : State → Request → State} (ran : exec c s = s.run fun s => s.request code form body) (live : s.Live)
    (head : s.freeHead = some f) (carries : f.carries code = true) (wrong : form f.request.fields = false) :
    exec c s = .next
      { s with mgmt := s.mgmt.popped, out := s.out.offer (replyFrame f.request .badRequest 2 []) } := by
  rw [ran, run_live live, request_misformed head carries wrong]
  rfl

theorem exec_board_misformed {c : Instr} {s : State} {f : Frame} {code : Byte} {form : List Byte → Bool}
    {check : State → List Byte → BoardCheck} (ran : exec c s = s.run fun s => s.boardRequest code form check)
    (live : s.Live) (head : s.freeHead = some f) (carries : f.carries code = true)
    (wrong : form f.request.fields = false) :
    exec c s = .next
      { s with mgmt := s.mgmt.popped, out := s.out.offer (replyFrame f.request .badRequest 2 []) } := by
  rw [ran, run_live live]
  simp only [State.boardRequest, head, carries, wrong, if_true]
  rfl

theorem sized_eq_false {n : Nat} {fs : List Byte} (other : fs.length ≠ n) : sized n fs = false :=
  beq_eq_false_iff_ne.mpr other

theorem sized_zero_eq_false {fs : List Byte} (some : fs ≠ []) : sized 0 fs = false :=
  sized_eq_false (mt List.length_eq_zero_iff.mp some)

theorem counted_iff (i base each least most : Nat) (fs : List Byte) : counted i base each least most fs = true ↔
    least ≤ byteAt fs i ∧ byteAt fs i ≤ most ∧ fs.length = base + each * byteAt fs i := by
  simp [counted, and_assoc]

theorem counted_eq_false {i base each least most : Nat} {fs : List Byte}
    (other : ¬(least ≤ byteAt fs i ∧ byteAt fs i ≤ most ∧ fs.length = base + each * byteAt fs i)) :
    counted i base each least most fs = false :=
  Bool.eq_false_iff.mpr (mt (counted_iff ..).mp other)

/-- A request of no known code, or of a payload too short for a code and a tag (R137; log entry 6). -/
theorem exec_unknown {s : State} {f : Frame} (live : s.Live) (head : s.freeHead = some f) :
    (f.payload.length < 2 → exec .unknownRequestCode s = .next
      { s with mgmt := s.mgmt.popped, out := s.out.offer (replyFrame f.request .badRequest 3 []) })
    ∧ (2 ≤ f.payload.length → f.request.code ∉ requestCodes → exec .unknownRequestCode s = .next
      { s with mgmt := s.mgmt.popped, out := s.out.offer (replyFrame f.request .badRequest 1 []) }) := by
  constructor
  · intro short
    rw [exec_unknownRequestCode_run, run_live live]
    simp only [head, if_pos short]
    rfl
  · intro long unknown
    have other : requestCodes.contains f.request.code = false := by simpa using unknown
    rw [exec_unknownRequestCode_run, run_live live]
    simp only [head, if_neg (Nat.not_lt.mpr long), other]
    rfl

/-- Settles O44: each request code with the form it asks for. -/
theorem malformedRequestsAnswered : Obligations.MalformedRequestsAnswered := by
  intro s f live head bad
  have free {c : Instr} {code : Byte} {body : State → Request → State}
      (ran : exec c s = s.run fun s => s.request code (sized 0) body) (carries : f.carries code = true)
      (some : f.request.fields ≠ []) : exec c s = bad 2 :=
    exec_misformed ran live head carries (sized_zero_eq_false some)
  have fixed {c : Instr} {code : Byte} {n : Nat} {body : State → Request → State}
      (ran : exec c s = s.run fun s => s.request code (sized n) body) (carries : f.carries code = true)
      (other : f.request.fields.length ≠ n) : exec c s = bad 2 :=
    exec_misformed ran live head carries (sized_eq_false other)
  have board {c : Instr} {code : Byte} {n : Nat} {check : State → List Byte → BoardCheck}
      (ran : exec c s = s.run fun s => s.boardRequest code (sized n) check) (carries : f.carries code = true)
      (other : f.request.fields.length ≠ n) : exec c s = bad 2 :=
    exec_board_misformed ran live head carries (sized_eq_false other)
  refine ⟨?_, ?_, ?_, ?_, ?_, ?_, (exec_unknown live head).2, (exec_unknown live head).1, ?_, ?_⟩
  · simp only [List.forall_mem_cons, List.not_mem_nil, false_imp_iff, implies_true, and_true]
    exact ⟨free (exec_readStatus_run s), free (exec_readIntakeAnalysis_run s), free (exec_lockMeet_run s),
      free (exec_armHeat_run s), free (exec_abortHeat_run s), free (exec_closeHeat_run s), free (exec_clearHeat_run s),
      free (exec_releasePlaneMask_run s), free (exec_readLines_run s), free (exec_restart_run s)⟩
  · simp only [List.forall_mem_cons, List.not_mem_nil, false_imp_iff, implies_true, and_true]
    exact ⟨fixed (exec_selectNodeMap_run s), fixed (exec_readNodeEntry_run s), fixed (exec_setMeet_run s),
      fixed (exec_markDns_run s), fixed (exec_adjudicateFinish_run s), fixed (exec_setDq_run s),
      fixed (exec_readLane_run s), fixed (exec_readArrivals_run s), fixed (exec_setReportDest_run s),
      board (exec_fillGroup_run s), board (exec_clearRow_run s), board (exec_loadPattern_run s),
      fixed (exec_loadPlaneMask_run s), board (exec_writeLayout_run s), board (exec_sendRowNow_run s),
      fixed (exec_fireProgram_run s), fixed (exec_setLineFunction_run s), fixed (exec_setHeldLevel_run s)⟩
  · exact fun carries other => exec_misformed (exec_writeNodeEntries_run s) live head carries (counted_eq_false other)
  · exact fun carries other => exec_misformed (exec_loadHeatPlan_run s) live head carries
      (counted_eq_false fun h => other h.2)
  · exact fun carries other => exec_board_misformed (exec_writeCells_run s) live head carries (counted_eq_false other)
  · exact fun carries other => exec_misformed (exec_loadProgram_run s) live head carries
      (counted_eq_false fun h => other h.2)
  · intro none
    simp [Frame.request, none]
  · intro b lone
    simp [Frame.request, lone]

/-! ### Pulse programs (R172 to R175) -/

theorem beginProgram_cons {s : State} {n : Nat} {x : PulseStep} {xs : List PulseStep}
    (steps : (s.pulse.program n).steps = x :: xs) : s.beginProgram n = { s with pulse := { s.pulse with
      running := some { program := n, repeatNo := 1, step := 1, completed := 0, timer := s.stepExpiry x } } } := by
  simp only [State.beginProgram, steps]

theorem beginStep_some {s : State} {r : PulseRun} {m n : Nat} {x : PulseStep}
    (held : (s.pulse.program r.program).steps[n - 1]? = some x) : s.beginStep r m n = { s with pulse := { s.pulse with
      running := some { r with repeatNo := m, step := n, timer := s.stepExpiry x } } } := by
  simp only [State.beginStep, held]

theorem stopProgram_running {s : State} {r : PulseRun} (running : s.pulse.running = some r) (o : PulseOutcome) :
    s.stopProgram o = { s with pulse := { s.pulse with
      running := none, status := { program := some r.program, outcome := some o, completed := r.completed } } } := by
  simp only [State.stopProgram, running]

theorem endProgram_running {s : State} {r : PulseRun} (running : s.pulse.running = some r) (o : PulseOutcome) :
    s.endProgram o = { s with
      pulse := { s.pulse with
        running := none, status := { program := some r.program, outcome := some o, completed := r.completed } }
      out := s.out.report (.pulseDone r.program o) } := by
  simp only [State.endProgram, stopProgram_running running, State.pulseDone, running]
  rfl

theorem exec_step_due {s : State} {r : PulseRun} (live : s.Live) (running : s.pulse.running = some r)
    (due : timerDue s.deckTime r.timer = true) : exec .pulseStepExpiry s = .next (s.stepBoundary r) := by
  rw [exec_pulseStepExpiry_run, run_live live]
  simp only [State.stepExpires, running, due, if_true]

/-- Settles O56: the three ends of a step. -/
theorem pulseStepBoundary : Obligations.PulseStepBoundary := by
  intro s r live running due p base begun
  have boundary := exec_step_due live running due
  refine ⟨fun x _ next => ?_, fun x last more first => ?_, fun last done => ?_⟩
  · have inside : r.step < p.steps.length := (List.getElem?_eq_some_iff.mp next).1
    have held : (s.pulse.program r.program).steps[r.step + 1 - 1]? = some x := next
    rw [boundary]
    unfold State.stepBoundary
    exact congrArg _ ((if_pos inside).trans (beginStep_some held))
  · have held : (s.pulse.program r.program).steps[1 - 1]? = some x := List.head?_eq_getElem? ▸ first
    rw [boundary]
    unfold State.stepBoundary
    exact congrArg _ (((if_neg (Nat.not_lt.mpr last)).trans (if_pos more)).trans (beginStep_some held))
  · rw [boundary]
    unfold State.stepBoundary
    exact congrArg _ (((if_neg (Nat.not_lt.mpr last)).trans (if_neg (Nat.not_lt.mpr done))).trans
      (endProgram_running (s := { s with pulse := { s.pulse with running := some { r with completed := r.completed + 1 } } })
        rfl _))

/-- Settles O57, request by request. -/
theorem programRequests : Obligations.ProgramRequests := by
  refine ⟨fun s f => ⟨?_, ?_, ?_, ?_, ?_, ?_, ?_, ?_⟩, fun fs => ⟨groups_length _ _ _, fun i below => ⟨?_, fun e => ?_⟩⟩⟩
  · intro x xs asked inside idle steps
    refine exec_pulse_replied (exec_fireProgram_run s) asked ?_
    rw [fireProgram, if_neg (Nat.not_lt.mpr inside), if_neg (by simp [idle]), if_neg (by simp [steps]),
      beginProgram_cons steps]
  · intro asked inside idle steps
    refine exec_pulse_replied (exec_fireProgram_run s) asked ?_
    rw [fireProgram, if_neg (Nat.not_lt.mpr inside), if_neg (by simp [idle]), if_pos (by simp [steps])]
  · intro asked inside running
    refine exec_pulse_replied (exec_fireProgram_run s) asked ?_
    rw [fireProgram, if_neg (Nat.not_lt.mpr inside), if_pos running]
  · intro asked outside
    refine exec_pulse_replied (exec_fireProgram_run s) asked ?_
    rw [fireProgram, if_pos outside]
  · intro asked inside least most codes
    have valid : ¬(programSteps f.request.fields).any (fun e => decide (7 < byteAt e 1)) = true := by
      simpa using codes
    have body : loadProgram s f.request = if (s.pulse.running.any fun r => r.program == byteAt f.request.fields 0) = true
        then s.reply f.request .refusedBusy 2
        else State.reply
          { s with pulse := { s.pulse with
              programs := s.pulse.programs.set (byteAt f.request.fields 0)
                { repeats := byteAt f.request.fields 1
                  steps := (programSteps f.request.fields).map PulseStep.ofBytes } } }
          f.request .done := by
      rw [loadProgram, if_neg (Nat.not_lt.mpr inside), if_neg (by omega), if_neg valid]
    refine ⟨fun other => ?_, fun r running same => ?_⟩
    · refine exec_pulse_replied (exec_loadProgram_run s) asked (body.trans (if_neg ?_))
      simpa [Option.any_eq_true] using other
    · refine exec_pulse_replied (exec_loadProgram_run s) asked (body.trans (if_pos ?_))
      simp [running, same]
  · intro asked outside
    refine exec_pulse_replied (exec_loadProgram_run s) asked ?_
    rw [loadProgram, if_pos outside]
  · intro asked inside repeats
    refine exec_pulse_replied (exec_loadProgram_run s) asked ?_
    rw [loadProgram, if_neg (Nat.not_lt.mpr inside), if_pos repeats]
  · intro asked inside least most bad
    refine exec_pulse_replied (exec_loadProgram_run s) asked ?_
    rw [loadProgram, if_neg (Nat.not_lt.mpr inside), if_neg (by omega), if_pos (by simpa using bad)]
  · rw [programSteps, groups_get _ _ _ below, List.drop_drop]
  · have code : (BitVec.ofNat 3 (byteAt e 1) : BitVec 3) = BitVec.ofNat 3 (byteAt e 1 % 8) :=
      BitVec.eq_of_toNat_eq (by simp)
    rw [PulseStep.ofBytes, code]

/-! ### Signal lines (R168, R169) -/

theorem lineFunction_unknown {n : Nat} (h : 2 < n) : LineFunction.ofCode? n = none := by
  match n with
  | 0 | 1 | 2 => omega
  | _ + 3 => rfl

theorem startLine_le (m : MeetSettings) : m.startLine ≤ 7 := by
  unfold MeetSettings.startLine
  split <;> omega

theorem lineFunction_of_ne {s : State} {line : Nat} (other : line ≠ s.mgmt.settings.startLine) :
    s.lineFunction line = s.pulse.lines.getD line .input := if_neg other

/-- Settles O58: the two requests, and what each function of a line drives. -/
theorem lineRequestsAndOutputs : Obligations.LineRequestsAndOutputs := by
  refine ⟨fun s f => ⟨?_, ?_, ?_, ?_, ?_, ?_, ?_⟩, fun s line => ⟨fun input => ?_, ?_, ?_, ?_, ?_⟩⟩
  · intro g asked inside known other
    refine exec_pulse_replied (exec_setLineFunction_run s) asked ?_
    rw [setLineFunction, if_neg (Nat.not_lt.mpr inside)]
    simp only [known]
    exact if_neg other
  · intro g asked known same
    refine exec_pulse_replied (exec_setLineFunction_run s) asked ?_
    rw [setLineFunction, if_neg (Nat.not_lt.mpr (same ▸ startLine_le _))]
    simp only [known]
    exact if_pos same
  · intro asked inside level
    refine exec_pulse_replied (exec_setHeldLevel_run s) asked ?_
    rw [setHeldLevel, if_neg (Nat.not_lt.mpr inside), if_neg (Nat.not_lt.mpr level)]
  · intro asked outside
    refine exec_pulse_replied (exec_setLineFunction_run s) asked ?_
    rw [setLineFunction, if_pos outside]
  · intro asked inside unknown
    refine exec_pulse_replied (exec_setLineFunction_run s) asked ?_
    rw [setLineFunction, if_neg (Nat.not_lt.mpr inside)]
    simp only [lineFunction_unknown unknown]
  · intro asked outside
    refine exec_pulse_replied (exec_setHeldLevel_run s) asked ?_
    rw [setHeldLevel, if_pos outside]
  · intro asked inside level
    refine exec_pulse_replied (exec_setHeldLevel_run s) asked ?_
    rw [setHeldLevel, if_neg (Nat.not_lt.mpr inside), if_pos level]
  · simp only [State.lineOutput, input]
  · have input : s.lineFunction s.mgmt.settings.startLine = .input := if_pos rfl
    simp only [State.lineOutput, input]
  · intro other held
    simp only [State.lineOutput, lineFunction_of_ne other, held]
  · intro other pulse idle
    simp only [State.lineOutput, lineFunction_of_ne other, pulse, PulseUnit.currentStep, idle, Option.bind_none]
  · intro other pulse r x running _ step
    simp only [State.lineOutput, lineFunction_of_ne other, pulse, PulseUnit.currentStep, running, Option.bind_some, step]

end Sys2Proof.Machine
end

