-- ==== Sys2Proof/Proofs/MeetAndMapRequests.lean ====
section
/-! The Meet Settings and the node maps: what SET_MEET replaces and rebuilds, what WRITE_NODE_ENTRIES writes and
SELECT_NODE_MAP builds, and the lowest fault of each (R120 to R122, R140 to R143). -/

namespace Sys2Proof.Machine

/-! ### The Meet Settings (R140 to R143) -/

/-- The lowest setting outside its values (R141). -/
theorem meetFault_lowest (fs : List Byte) : Lowest (fun k => (k = 1 ∧ byteAt fs 0 ≠ 25 ∧ byteAt fs 0 ≠ 50)
      ∨ (k = 2 ∧ (byteAt fs 1 < 6 ∨ 10 < byteAt fs 1)) ∨ (k = 3 ∧ 1 < byteAt fs 2) ∨ (k = 4 ∧ 1 < byteAt fs 3)
      ∨ (k = 5 ∧ byteAt fs 4 ≠ 0 ∧ byteAt fs 4 ≠ 7) ∨ (k = 6 ∧ 3 < byteAt fs 5)) (meetFault fs) := by
  refine lowest_of_checks [(1, decide (byteAt fs 0 ≠ 25 ∧ byteAt fs 0 ≠ 50)),
    (2, decide (byteAt fs 1 < 6 ∨ 10 < byteAt fs 1)), (3, decide (1 < byteAt fs 2)), (4, decide (1 < byteAt fs 3)),
    (5, decide (byteAt fs 4 ≠ 0 ∧ byteAt fs 4 ≠ 7)), (6, decide (3 < byteAt fs 5))] ?_ (by simp) fun k => ?_
  · simp only [firstHeld_cons, firstHeld_nil]
    rfl
  · simp only [List.mem_cons, Prod.mk.injEq, true_eq_decide_iff, List.not_mem_nil, or_false]

/-- The settings of a faultless SET_MEET lie in their values (R140). -/
theorem meet_in_range {fs : List Byte} (sound : meetFault fs = none) :
    (byteAt fs 0 = 25 ∨ byteAt fs 0 = 50) ∧ byteAt fs 3 ≤ 1 ∧ (byteAt fs 4 = 0 ∨ byteAt fs 4 = 7) := by
  have none := (meetFault_lowest fs).1.mp sound
  have course := none 1
  have base := none 4
  have line := none 5
  simp at course base line
  omega

theorem startLine_ofBytes {fs : List Byte} (line : byteAt fs 4 = 0 ∨ byteAt fs 4 = 7) :
    (MeetSettings.ofBytes fs).startLine = byteAt fs 4 := by
  rcases line with e | e <;> simp [MeetSettings.startLine, MeetSettings.ofBytes, e]

theorem startLine7_eq_iff (a b : MeetSettings) : a.startLine7 = b.startLine7 ↔ b.startLine = a.startLine := by
  unfold MeetSettings.startLine
  cases a.startLine7 <;> cases b.startLine7 <;> simp

/-- What SET_MEET's change of the settings comes to (R142). -/
theorem setMeet_eq (s : State) (new : MeetSettings) : s.setMeet new = { s with
    mgmt := { s.mgmt with settings := new }
    nodes := if s.nodes.selection = .fixed
        ∧ (s.mgmt.settings.laneCount ≠ new.laneCount ∨ s.mgmt.settings.fixedPlan ≠ new.fixedPlan) then
      { s.nodes with active := new.fixedMap, selection := .fixed } else s.nodes
    pulse := { s.pulse with startPrevious := if new.startLine = s.mgmt.settings.startLine then s.pulse.startPrevious
      else s.pulse.sensed.getD new.startLine false } } := by
  unfold State.setMeet State.moveStartLine State.remap State.buildMap State.notePrevious
  simp only [startLine7_eq_iff]
  split <;> split <;> rfl

/-- Settles O42: the refusals in their order, then the six settings replaced. -/
theorem meetSettingsAndLock : Obligations.MeetSettingsAndLock := by
  refine ⟨fun s f => ⟨fun asked => ?_, fun asked locked => ?_, fun asked free busy => ?_, fun d asked free idle bad => ?_,
    fun asked free idle sound => ?_⟩, meetFault_lowest⟩
  · exact exec_replied (exec_lockMeet_run s) asked rfl
  · refine exec_replied (exec_setMeet_run s) asked ?_
    rw [setMeet, if_pos locked]
  · refine exec_replied (exec_setMeet_run s) asked ?_
    rw [setMeet, if_neg (by simp [free]), if_pos busy]
  · refine exec_replied (exec_setMeet_run s) asked ?_
    rw [setMeet, if_neg (by simp [free]), if_neg (not_not.mpr idle)]
    simp only [bad]
  · obtain ⟨course, base, line⟩ := meet_in_range sound
    have start := startLine_ofBytes line
    have answer : setMeet s f.request = (s.setMeet (.ofBytes f.request.fields)).reply f.request .done := by
      rw [setMeet, if_neg (by simp [free]), if_neg (not_not.mpr idle)]
      simp only [sound]
    rw [exec_asked (exec_setMeet_run s) asked, answer, setMeet_eq]
    refine ⟨.ofBytes f.request.fields, _, _, rfl, ?_, rfl, rfl, ?_, start, rfl, fun working => ?_, fun _ lanes plan => ?_,
      fun fixed changed => ?_, fun same => ?_, fun other => ?_⟩
    · rcases course with e | e <;> simp [MeetSettings.ofBytes, e, Course.metres]
    · rcases (by omega : byteAt f.request.fields 3 = 0 ∨ byteAt f.request.fields 3 = 1) with e | e <;>
        simp [MeetSettings.ofBytes, e, PulseBase.code]
    · exact if_neg fun h => by simp [working] at h
    · exact if_neg fun h => h.2.elim (· lanes.symm) (· plan.symm)
    · rw [if_pos ⟨fixed, changed.imp Ne.symm Ne.symm⟩, ← fixed]
      rfl
    · exact if_pos (start.trans same)
    · rw [if_neg (start ▸ other), start]

/-! ### Writing the Working Map (R121) -/

/-- What a run of entries leaves at each index (R121). -/
theorem writeEntries_get (m : List WorkingEntry) (i : Nat) (es : List WorkingEntry) {k : Nat} (inside : k < m.length) :
    (writeEntries m i es)[k]? = if i ≤ k ∧ k < i + es.length then es[k - i]? else m[k]? := by
  induction es generalizing m i with
  | nil => rw [writeEntries, if_neg (by simp only [List.length_nil]; omega)]
  | cons e es ih =>
    rw [writeEntries, ih (m.set i e) (i + 1) (by simpa using inside)]
    rcases Nat.lt_trichotomy k i with before | rfl | after
    · rw [if_neg (by omega), if_neg (by omega), List.getElem?_set_ne (by omega)]
    · rw [if_neg (by omega), if_pos (by simp), Nat.sub_self, List.getElem?_set_self inside]
      rfl
    · by_cases within : k < i + (es.length + 1)
      · rw [if_pos (by omega), if_pos ⟨by omega, within⟩, show k - i = k - (i + 1) + 1 by omega]
        rfl
      · rw [if_neg (by omega), if_neg (fun h => within h.2), List.getElem?_set_ne (by omega)]

theorem nodeEntryFault_iff (e : List Byte) :
    nodeEntryFault e = true ↔ 9 < byteAt e 1 ∨ 1 < byteAt e 2 ∨ 1 < byteAt e 4 := by
  simp [nodeEntryFault, or_assoc]

/-- A byte of a group of bytes is one of the whole. -/
theorem byteAt_group (fs : List Byte) (n k : Nat) {i : Nat} (inside : i < k) :
    byteAt ((fs.drop n).take k) i = byteAt fs (n + i) := by
  simp only [byteAt, List.getD_eq_getElem?_getD, List.getElem?_take, if_pos inside, List.getElem?_drop]

/-- The first place of a list that meets a condition is the lowest that does. -/
theorem lowest_findIdx? {α : Type} (p : α → Bool) (as : List α) :
    Lowest (fun k => ∃ x, as[k]? = some x ∧ p x = true) (as.findIdx? p) := by
  refine ⟨?_, fun k => ?_⟩
  · rw [List.findIdx?_eq_none_iff]
    refine ⟨fun none k ⟨x, found, met⟩ => ?_, fun none x mem => ?_⟩
    · simp [none x (List.mem_of_getElem? found)] at met
    · obtain ⟨k, found⟩ := List.mem_iff_getElem?.mp mem
      exact Bool.eq_false_iff.mpr fun met => none k ⟨x, found, met⟩
  · rw [List.findIdx?_eq_some_iff_getElem]
    constructor
    · rintro ⟨inside, met, first⟩
      refine ⟨⟨_, List.getElem?_eq_getElem inside, met⟩, fun j below ⟨x, found, met'⟩ => ?_⟩
      obtain ⟨_, rfl⟩ := List.getElem?_eq_some_iff.mp found
      exact first j below met'
    · rintro ⟨⟨x, found, met⟩, first⟩
      obtain ⟨inside, rfl⟩ := List.getElem?_eq_some_iff.mp found
      exact ⟨inside, met, fun j below met' => first j below ⟨_, List.getElem?_eq_getElem _, met'⟩⟩

/-- Counted from 1. -/
theorem Lowest.succ {P : Nat → Prop} {d : Option Nat} (h : Lowest P d) :
    Lowest (fun k => 1 ≤ k ∧ P (k - 1)) (d.map (· + 1)) := by
  refine ⟨?_, fun k => ?_⟩
  · rw [Option.map_eq_none_iff, h.1]
    exact ⟨fun none k held => none _ held.2, fun none k held => none (k + 1) ⟨by omega, held⟩⟩
  · rw [Option.map_eq_some_iff]
    constructor
    · rintro ⟨j, found, rfl⟩
      obtain ⟨held, first⟩ := (h.2 j).mp found
      exact ⟨⟨by omega, held⟩, fun i below held' => first (i - 1) (by omega) held'.2⟩
    · rintro ⟨⟨least, held⟩, first⟩
      exact ⟨k - 1, (h.2 _).mpr ⟨held, fun j below held' => first (j + 1) (by omega) ⟨by omega, held'⟩⟩, by omega⟩

/-- The first group at fault is the detail of a refused write (R121). -/
theorem nodeEntriesFault_lowest (fs : List Byte) :
    let entry (k i : Nat) : Nat := byteAt fs (2 + 5 * (k - 1) + i)
    Lowest (fun k => (k = 0 ∧ 32 < byteAt fs 0 + byteAt fs 1)
      ∨ (1 ≤ k ∧ k ≤ byteAt fs 1 ∧ (9 < entry k 1 ∨ 1 < entry k 2 ∨ 1 < entry k 4))) (nodeEntriesFault fs) := by
  intro entry
  unfold nodeEntriesFault
  split
  · next beyond =>
    refine ⟨⟨(fun none => by cases none), fun none => absurd (Or.inl ⟨rfl, beyond⟩) (none 0)⟩, fun k => ?_⟩
    constructor
    · rintro ⟨⟩
      exact ⟨.inl ⟨rfl, beyond⟩, fun j below => absurd below (Nat.not_lt_zero j)⟩
    · rintro ⟨-, first⟩
      by_contra other
      exact first 0 (by rw [Option.some.injEq] at other; omega) (.inl ⟨rfl, beyond⟩)
  · next within =>
    refine lowest_congr (fun k => ?_) (lowest_findIdx? nodeEntryFault (groups 5 (byteAt fs 1) (fs.drop 2))).succ
    have held {i : Nat} (below : i < byteAt fs 1) :
        (groups 5 (byteAt fs 1) (fs.drop 2))[i]? = some ((fs.drop (2 + 5 * i)).take 5) := by
      rw [groups_get _ _ _ below, List.drop_drop]
    have fault {i : Nat} : nodeEntryFault ((fs.drop (2 + 5 * i)).take 5) = true ↔
        9 < byteAt fs (2 + 5 * i + 1) ∨ 1 < byteAt fs (2 + 5 * i + 2) ∨ 1 < byteAt fs (2 + 5 * i + 4) := by
      rw [nodeEntryFault_iff, byteAt_group _ _ _ (by omega), byteAt_group _ _ _ (by omega),
        byteAt_group _ _ _ (by omega)]
    constructor
    · rintro (⟨-, beyond⟩ | ⟨least, most, bad⟩)
      · exact absurd beyond within
      · exact ⟨least, _, held (by omega), fault.mpr bad⟩
    · rintro ⟨least, x, found, bad⟩
      have below : k - 1 < byteAt fs 1 := by
        simpa only [groups_length] using (List.getElem?_eq_some_iff.mp found).1
      obtain rfl := Option.some.inj ((held below).symm.trans found)
      exact .inr ⟨least, by omega, fault.mp bad⟩

/-! ### Selecting a map (R120, R122) -/

theorem anyPair_iff {α : Type} (rel : α → α → Bool) (as : List α) : anyPair rel as = true ↔
    ∃ (i j : Nat) (x y : α), i < j ∧ as[i]? = some x ∧ as[j]? = some y ∧ rel x y = true := by
  rw [← not_iff_not, Bool.not_eq_true, anyPair_eq_false, List.pairwise_iff_getElem]
  constructor
  · rintro apart ⟨i, j, x, y, below, first, second, related⟩
    obtain ⟨hi, rfl⟩ := List.getElem?_eq_some_iff.mp first
    obtain ⟨hj, rfl⟩ := List.getElem?_eq_some_iff.mp second
    simp [apart i j hi hj below] at related
  · intro none i j hi hj below
    exact Bool.eq_false_iff.mpr fun related =>
      none ⟨i, j, _, _, below, List.getElem?_eq_getElem hi, List.getElem?_eq_getElem hj, related⟩

theorem reservedAddress_iff (a : Byte) :
    reservedAddress a = true ↔ a = 0x00 ∨ a = 0x02 ∨ a = 0x03 ∨ a = 0xFF := by
  simp [reservedAddress, or_assoc]

/-- The lowest fault of a Working Map (R122). -/
theorem mapFault_lowest (working : List WorkingEntry) (lanes : Nat) :
    let on := working.filter (·.enabled)
    let twice (same : WorkingEntry → WorkingEntry → Prop) : Prop :=
      ∃ (i j : Nat) (x y : WorkingEntry), i < j ∧ on[i]? = some x ∧ on[j]? = some y ∧ same x y
    Lowest (fun k => (k = 1 ∧ twice fun x y => x.address = y.address)
        ∨ (k = 2 ∧ twice fun x y => x.lane = y.lane ∧ x.wall = y.wall) ∨ (k = 3 ∧ ∃ e ∈ on, lanes ≤ e.lane)
        ∨ (k = 4 ∧ ∃ e ∈ on, e.address = 0x00 ∨ e.address = 0x02 ∨ e.address = 0x03 ∨ e.address = 0xFF))
      (mapFault working lanes) := by
  intro on twice
  refine lowest_of_checks [(1, decide (anyPair (fun a b => a.address == b.address) on = true)),
    (2, decide (anyPair (fun a b => a.lane == b.lane && a.wall == b.wall) on = true)),
    (3, decide ((on.any fun e => decide (lanes ≤ e.lane)) = true)),
    (4, decide ((on.any fun e => reservedAddress e.address) = true))] ?_ (by simp) fun k => ?_
  · simp only [firstHeld_cons, firstHeld_nil]
    rfl
  · simp only [anyPair_iff, reservedAddress_iff, List.any_eq_true, decide_eq_true_eq, Bool.and_eq_true, beq_iff_eq,
      List.mem_cons, Prod.mk.injEq, true_eq_decide_iff, List.not_mem_nil, or_false]
    rfl

/-- The address of a fixed plan's slot, from the table of R120. -/
theorem fixedAddress_slot {plan : Nat} (known : plan ≤ 3) (k : Nat) :
    fixedAddress plan (k / 2) (if k % 2 = 0 then .start else .turn) = BitVec.ofNat 8
      ((if k % 2 = 0 then [0x10, 0x20, 0x40, 0x80].getD plan 0 else [0x30, 0x21, 0x50, 0xC0].getD plan 0)
        + (if plan = 1 then 2 * (k / 2) else k / 2)) := by
  rcases Nat.mod_two_eq_zero_or_one k with parity | parity <;> simp only [parity, if_true, Nat.one_ne_zero, if_false] <;>
    match plan, known with
    | 0, _ | 1, _ | 2, _ | 3, _ => rfl

theorem fixedMap_slot {plan lanes i : Nat} (known : plan ≤ 3) (most : lanes ≤ 10) (inside : i < 32) :
    (fixedMap plan lanes)[i]? = some (if i < 2 * lanes then
      some
        { address := BitVec.ofNat 8
            ((if i % 2 = 0 then [0x10, 0x20, 0x40, 0x80].getD plan 0 else [0x30, 0x21, 0x50, 0xC0].getD plan 0)
              + (if plan = 1 then 2 * (i / 2) else i / 2))
          lane := i / 2, wall := if i % 2 = 0 then .start else .turn, delay := 0, enabled := true, expected := none }
      else none) := by
  rw [fixedMap_get plan lanes inside, ← fixedAddress_slot known]
  by_cases within : i < 2 * lanes
  · rw [if_pos within, if_pos (by omega)]
    rfl
  · rw [if_neg within, if_neg (by omega)]

/-- Settles O46: the requests on the maps, the fixed plans, and the faults of a map and of a write. -/
theorem nodeMapRequests : Obligations.NodeMapRequests := by
  refine ⟨fun s f => ⟨fun asked sound full => ?_, fun d asked bad => ?_, fun asked still => ?_, fun asked unknown => ?_,
      fun asked known busy => ?_⟩,
    fun plan lanes known most => ⟨fixedMap_length _ _, fun i inside => fixedMap_slot known most inside⟩, mapFault_lowest,
    fun fs _ => nodeEntriesFault_lowest fs, fun e => ?_⟩
  · have within : byteAt f.request.fields 0 + byteAt f.request.fields 1 ≤ 32 := by
      by_contra beyond
      exact ((nodeEntriesFault_lowest _).1.mp sound) 0 (.inl ⟨rfl, by omega⟩)
    refine ⟨writeEntries s.nodes.working (byteAt f.request.fields 0)
      ((groups 5 (byteAt f.request.fields 1) (f.request.fields.drop 2)).map WorkingEntry.ofBytes), ?_,
      by rw [writeEntries_length, full], fun i inside => ?_⟩
    · refine exec_asked (exec_writeNodeEntries_run s) asked |>.trans ?_
      simp only [writeNodeEntries, sound]
      rfl
    · rw [writeEntries_get _ _ _ (full ▸ inside), List.length_map, groups_length]
      split
      · next held => rw [List.getElem?_map, groups_get _ _ _ (by omega), List.drop_drop]; rfl
      · rfl
  · refine exec_asked (exec_writeNodeEntries_run s) asked |>.trans ?_
    simp only [writeNodeEntries, bad]
    rfl
  · have quiet : ¬(s.heat.state = .armed ∨ s.heat.state = .running) := by
      rcases still with e | e <;> rw [e] <;> decide
    refine ⟨fun fixed => ?_, fun working sound => ?_, fun d working bad => ?_⟩ <;>
      refine (exec_asked (exec_selectNodeMap_run s) asked).trans ?_
    · rw [selectNodeMap, if_neg (by omega), if_neg quiet, if_pos fixed]
      rfl
    · rw [selectNodeMap, if_neg (by omega), if_neg quiet, if_neg (by omega)]
      simp only [sound]
      rfl
    · rw [selectNodeMap, if_neg (by omega), if_neg quiet, if_neg (by omega)]
      simp only [bad]
      rfl
  · refine exec_replied (exec_selectNodeMap_run s) asked ?_
    rw [selectNodeMap, if_pos unknown]
  · refine exec_replied (exec_selectNodeMap_run s) asked ?_
    rw [selectNodeMap, if_neg (Nat.not_lt.mpr known), if_pos busy]
  · unfold workingSlot
    rcases eq_or_ne e.enabled true with on | off
    · rw [if_pos (by simp [on]), if_neg (by simp [on])]
    · rw [ne_eq, Bool.not_eq_true] at off
      by_cases reserved : reservedAddress e.address = true
      · rw [if_neg (by simp [off, reserved]), if_pos ⟨off, (reservedAddress_iff _).mp reserved⟩]
      · rw [if_pos (by simpa [off] using reserved), if_neg fun h => reserved ((reservedAddress_iff _).mpr h.2)]

end Sys2Proof.Machine
end

