-- ==== Sys2Proof/Proofs/ReplyLayouts.lean ====
section
/-! The layouts: what each field of a reply, a report and a row frame reads byte by byte (R177, R181 to R184). -/

namespace Sys2Proof.Machine

/-! ### Values read back from their bytes (R177) -/

theorem long_be32 {n : Nat} (bound : n < 4294967296) : ((byte (n / 16777216)).toNat * 256 + (byte (n / 65536)).toNat) * 65536
    + ((byte (n / 256)).toNat * 256 + (byte n).toNat) = n := by
  simp only [toNat_byte]
  omega

theorem long_deck (d : DeckTime) :
    ((byte (d.toNat / 16777216)).toNat * 256 + (byte (d.toNat / 65536)).toNat) * 65536
      + ((byte (d.toNat / 256)).toNat * 256 + (byte d.toNat).toNat) = d.toNat := long_be32 d.isLt

theorem word_be16 {n : Nat} (bound : n < 65536) : (byte (n / 256)).toNat * 256 + (byte n).toNat = n := by
  simp only [toNat_byte]
  omega

theorem toNat_byte_lt {n : Nat} (bound : n < 256) : (byte n).toNat = n := (toNat_byte n).trans (Nat.mod_eq_of_lt bound)

theorem toNat_boolByte (b : Bool) : (boolByte b).toNat = b.toNat := by cases b <;> rfl

theorem heatWord_lt (t : HeatTime) : heatWord t < 4294967296 := by
  unfold heatWord
  omega

theorem heatBytes_eq (t : HeatTime) : heatBytes t = be32 (heatWord t) := by
  rw [heatBytes, BitVec.toNat_ofInt]
  rfl

theorem optHeatBytes_eq (v : Option HeatTime) :
    optHeatBytes v = byte v.isSome.toNat :: be32 ((v.map heatWord).getD 0) := by
  cases v with
  | none => rfl
  | some t => rw [optHeatBytes, heatBytes_eq]; rfl

theorem optDeckBytes_eq (v : Option DeckTime) :
    optDeckBytes v = byte v.isSome.toNat :: be32 ((v.map (·.toNat)).getD 0) := by cases v <;> rfl

theorem optMarginBytes_eq (v : Option Int) :
    optMarginBytes v = byte v.isSome.toNat :: be16 ((v.getD 0) % 65536).toNat := by
  cases v with
  | none => rfl
  | some m => rw [optMarginBytes, BitVec.toNat_ofInt]; rfl

theorem toNat_optCode {α : Type} (code : α → Byte) (v : Option α) :
    (optCode code v).toNat = (v.map fun x => (code x).toNat).getD 255 := by cases v <;> rfl

theorem toNat_mark {α β : Type} (v : Option α) (word : α → β) :
    (byte v.isSome.toNat).toNat = (v.map word).isSome.toNat := by cases v <;> rfl

theorem optWord_lt (v : Option HeatTime) : (v.map heatWord).getD 0 < 4294967296 := by
  cases v with
  | none => decide
  | some t => exact heatWord_lt t

theorem optDeck_lt (v : Option DeckTime) : (v.map (·.toNat)).getD 0 < 4294967296 := by
  cases v with
  | none => decide
  | some d => exact d.isLt

/-! ### Flags as bits (R181) -/

theorem lane_bits (f : LaneFlags) : f.ReadAs f.bits := by
  have spelled : f.bits = Nat.bit f.falseStart (Nat.bit f.earlyTakeover (Nat.bit f.refereeDq (Nat.bit f.review
      (Nat.bit f.suspectReaction (Nat.bit f.backupUsed (Nat.bit f.adjudicated (Nat.bit f.linkGap
      (Nat.bit f.splitsLost (Nat.bit f.exhibition 0))))))))) := by
    simp only [LaneFlags.bits, Nat.bit_val]
    omega
  refine ⟨?_, ?_⟩
  · have most := fun b : Bool => Bool.toNat_le b
    have h1 := most f.falseStart; have h2 := most f.earlyTakeover; have h3 := most f.refereeDq; have h4 := most f.review
    have h5 := most f.suspectReaction; have h6 := most f.backupUsed; have h7 := most f.adjudicated
    have h8 := most f.linkGap; have h9 := most f.splitsLost; have h10 := most f.exhibition
    unfold LaneFlags.bits
    omega
  · rw [spelled]
    simp only [List.map_cons, List.map_nil, Nat.testBit_bit_zero, Nat.testBit_bit_succ]

theorem lane_bits_lt (f : LaneFlags) : f.bits < 65536 := lt_trans (lane_bits f).1 (by decide)

/-- Two bytes that hold the lane flags read as them. -/
theorem lane_flags_read (f : LaneFlags) :
    f.ReadAs ((byte (f.bits / 256)).toNat * 256 + (byte f.bits).toNat) := by
  rw [word_be16 (lane_bits_lt f)]
  exact lane_bits f

theorem arrival_bits (f : ArrivalFlags) : f.bits.toNat = f.review.toNat + 2 * f.latePadSeen.toNat + 4 * f.link.toNat := by
  have h1 := Bool.toNat_le f.review
  have h2 := Bool.toNat_le f.latePadSeen
  have h3 := Bool.toNat_le f.link
  exact toNat_byte_lt (by omega)

/-! ### The fields of a lane and its arrivals (R183) -/

theorem exchangeBytes_eq (e : Option ExchangeRecord) : exchangeBytes e =
    optCode (fun x : ExchangeRecord => x.verdict.code) e :: byte (e.bind (·.margin)).isSome.toNat
      :: be32 (((e.bind (·.margin)).map heatWord).getD 0) := by rw [exchangeBytes, optHeatBytes_eq]

theorem lane_reply_fields (r : LaneRecord) : r.ReplyFields (1 :: r.bytes) := by
  unfold LaneRecord.bytes
  simp only [optHeatBytes_eq, exchangeBytes_eq, be16, be32, List.cons_append, List.nil_append, LaneRecord.ReplyFields,
    carriesOpt, carriesExchange, longAt, wordAt, byteAt, Nat.reduceAdd, List.getD_cons_succ, List.getD_cons_zero]
  exact ⟨rfl, rfl, word_be16 r.entryId.isLt, trivial, lane_flags_read _, ⟨toNat_mark _ _, long_be32 (optWord_lt _)⟩,
    ⟨toNat_mark _ _, long_be32 (optWord_lt _)⟩, toNat_optCode _ _, ⟨toNat_mark _ _, long_be32 (optWord_lt _)⟩,
    ⟨toNat_mark _ _, long_be32 (optWord_lt _)⟩, toNat_byte _, trivial, toNat_byte _, trivial, trivial,
    ⟨toNat_mark _ _, long_be32 (optWord_lt _)⟩, ⟨toNat_optCode _ _, toNat_mark _ _, long_be32 (optWord_lt _)⟩,
    ⟨toNat_optCode _ _, toNat_mark _ _, long_be32 (optWord_lt _)⟩,
    ⟨toNat_optCode _ _, toNat_mark _ _, long_be32 (optWord_lt _)⟩⟩

@[simp] theorem arrival_bytes_length (a : ArrivalRecord) : a.bytes.length = 9 := rfl

theorem arrival_reply_fields (a : ArrivalRecord) : a.ReplyFields a.bytes := by
  unfold ArrivalRecord.bytes
  simp only [heatBytes_eq, be32, List.cons_append, List.nil_append, ArrivalRecord.ReplyFields, longAt, wordAt, byteAt,
    Nat.reduceAdd, List.getD_cons_succ, List.getD_cons_zero]
  exact ⟨toNat_byte _, trivial, long_be32 (heatWord_lt _), trivial, toNat_byte _, arrival_bits _⟩

/-- Groups of one length laid out one after the other: each stands at its place. -/
theorem flatMap_group {α : Type} {f : α → List Byte} {n : Nat} (fixed : ∀ a, (f a).length = n) (as : List α) {i : Nat}
    {a : α} (held : as[i]? = some a) : ((as.flatMap f).drop (n * i)).take n = f a := by
  induction as generalizing i with
  | nil => cases held
  | cons x as ih =>
    cases i with
    | zero =>
      obtain rfl := Option.some.inj held
      rw [Nat.mul_zero, List.drop_zero, List.flatMap_cons, ← fixed x, List.take_left]
    | succ i =>
      rw [List.flatMap_cons, Nat.mul_succ, Nat.add_comm, ← List.drop_drop, ← fixed x, List.drop_left, fixed x]
      exact ih held

theorem flatMap_length {α : Type} {f : α → List Byte} {n : Nat} (fixed : ∀ a, (f a).length = n) (as : List α) :
    (as.flatMap f).length = n * as.length := by
  simp [List.length_flatMap, fixed, Nat.mul_comm]

theorem arrivalFields_length (w : WallJudge) (lane first : Nat) :
    (w.arrivalFields lane first).length = 3 + 9 * min 12 (w.chain lane first).length := by
  simp only [WallJudge.arrivalFields, List.length_append, flatMap_length arrival_bytes_length, List.length_take]
  rfl

theorem arrivals_reply_fields (w : WallJudge) (lane first : Nat) :
    w.ReplyFields lane first (w.arrivalFields lane first) := by
  have stored : (w.pool.filter fun a => decide (a.lane = lane) && decide (first ≤ a.lap)) = w.chain lane first := by
    simp only [WallJudge.chain, beq_eq_decide]
  unfold WallJudge.ReplyFields
  rw [stored]
  refine ⟨arrivalFields_length w lane first, toNat_byte _, ?_, toNat_boolByte _, fun i inside a held => ?_⟩
  · show (byte ((w.chain lane first).take 12).length).toNat = _
    rw [toNat_byte_lt (by simp), List.length_take]
  · have sent : ((w.chain lane first).take 12)[i]? = some a := (List.getElem?_take_of_lt inside).trans held
    rw [← List.drop_drop]
    exact (flatMap_group arrival_bytes_length _ sent).symm ▸ arrival_reply_fields a

/-! ### The fields of the part, the intake, the maps and the lines (R138, R139, R183) -/

@[simp] theorem lane_entry_length (e : LaneEntry) : e.bytes.length = 4 := rfl

@[simp] theorem planBytes_length (p : Option Plan) : (planBytes p).length = 62 := by
  cases p with
  | none => rfl
  | some p =>
    have fixed : p.fixedBytes.length = 20 := rfl
    simp only [planBytes, Plan.entryBytes, List.length_append, List.length_cons, List.length_nil, List.length_take,
      List.length_replicate, fixed]
    omega

/-- The bytes of READ_STATUS after the plan. -/
def State.statusTail (s : State) : List Byte :=
  s.mgmt.settings.bytes
    ++ [boolByte s.mgmt.locked, s.out.reportDest, s.out.reportNumber, s.nodes.selection.code, s.intake.link.code]
    ++ be16 s.starts.strayCount.toNat
    ++ [byte s.mgmt.queue.length, byte s.out.outbound.length, byte s.out.transit.length]
    ++ be16 s.out.overflow.toNat

/-- The bytes of READ_STATUS before the plan. -/
def State.statusHead (s : State) : List Byte :=
  deckBytes s.deckTime ++ [s.heat.state.code] ++ optDeckBytes s.heat.epoch

theorem statusFields_eq (s : State) : s.statusFields = s.statusHead ++ (planBytes s.heat.plan ++ s.statusTail) := by
  simp only [State.statusFields, State.statusHead, State.statusTail, List.append_assoc]

@[simp] theorem statusHead_length (s : State) : s.statusHead.length = 10 := by
  rw [State.statusHead, optDeckBytes_eq]
  rfl

theorem status_head_get (s : State) {k : Nat} (inside : k < 10) :
    s.statusFields.getD k 0 = s.statusHead.getD k 0 := by
  rw [statusFields_eq, List.getD_append _ _ _ _ (by simpa using inside)]

theorem status_tail_get (s : State) (k : Nat) : s.statusFields.getD (k + 72) 0 = s.statusTail.getD k 0 := by
  rw [statusFields_eq, List.getD_append_right _ _ _ _ (by simp), List.getD_append_right _ _ _ _ (by simp)]
  congr 1
  simp

theorem status_plan (s : State) : (s.statusFields.drop 10).take 62 = planBytes s.heat.plan := by
  rw [statusFields_eq, ← statusHead_length s, List.drop_left, ← planBytes_length s.heat.plan, List.take_left]

theorem course_metres_lt (c : Course) : c.metres < 256 := by cases c <;> decide

theorem startLine_lt (m : MeetSettings) : m.startLine < 256 := lt_of_le_of_lt (startLine_le m) (by decide)

theorem status_fields (s : State) : s.StatusFields s.statusFields := by
  have length : s.statusFields.length = 90 := by
    simp only [statusFields_eq, List.length_append, statusHead_length, planBytes_length]
    rfl
  simp (disch := decide) only [State.StatusFields, carriesOpt, longAt, wordAt, byteAt, Nat.reduceAdd, status_head_get,
    status_tail_get]
  simp only [State.statusHead, State.statusTail, MeetSettings.bytes, deckBytes, optDeckBytes_eq, be16, be32,
    List.cons_append, List.nil_append, List.getD_cons_succ, List.getD_cons_zero]
  exact ⟨length, long_deck _, trivial, ⟨toNat_mark _ _, long_be32 (optDeck_lt _)⟩, status_plan s,
    toNat_byte_lt (course_metres_lt _), toNat_byte _, toNat_byte _, trivial, toNat_byte_lt (startLine_lt _), toNat_byte _,
    toNat_boolByte _, trivial, trivial, trivial, trivial, word_be16 s.starts.strayCount.isLt, toNat_byte _, toNat_byte _,
    toNat_byte _, word_be16 s.out.overflow.isLt⟩

theorem analysis_fields (i : Intake) : i.AnalysisFields i.fields := by
  have marks : i.analysis.refusedDst.isSome.toNat + 2 * i.analysis.refusedSrc.isSome.toNat
      + 4 * i.analysis.refusedKind.isSome.toNat < 256 := by
    have h1 := Bool.toNat_le i.analysis.refusedDst.isSome
    have h2 := Bool.toNat_le i.analysis.refusedSrc.isSome
    have h3 := Bool.toNat_le i.analysis.refusedKind.isSome
    omega
  have rank : ∀ q : Option Qualifier, ((q.map Qualifier.code).getD 0).toNat = (q.map (·.code.toNat)).getD 0 := by
    intro q
    cases q <;> rfl
  simp only [Intake.AnalysisFields, Intake.fields, IntakeAnalysis.bytes, VerdictCounts.bytes, optDeckBytes_eq, deckBytes,
    List.flatMap_cons, List.flatMap_nil, be16, be32, List.append_nil, List.cons_append, List.nil_append, carriesOpt,
    longAt, wordAt, byteAt, Nat.reduceAdd, List.getD_cons_succ, List.getD_cons_zero, List.map_cons, List.map_nil,
    long_deck]
  exact ⟨rfl, ⟨toNat_mark _ _, long_be32 (optDeck_lt _)⟩, toNat_optCode _ _, rank _, toNat_boolByte _,
    ⟨toNat_mark _ _, long_be32 (optDeck_lt _)⟩, toNat_byte_lt marks, fun x held => by rw [held]; rfl,
    fun x held => by rw [held]; rfl, fun x held => by rw [held]; rfl, toNat_boolByte _, trivial,
    word_be16 i.staleCount.isLt, word_be16 i.lostCount.isLt, word_be16 i.outageCount.isLt⟩

theorem activeFields_none {n : NodeMap} {i : Nat} (empty : (n.active[i]?).join = none) :
    n.activeFields i = [n.selection.code, 0, 0, 0, 0, 0, 0, 0, 0] := by
  rw [NodeMap.activeFields, empty]

theorem activeFields_some {n : NodeMap} {i : Nat} {e : ActiveEntry} (held : (n.active[i]?).join = some e) :
    n.activeFields i = [n.selection.code, 1, e.address, byte e.lane, e.wall.code, e.delay, boolByte e.enabled,
      byte e.expected.isSome.toNat, e.expected.getD 0] := by
  rw [NodeMap.activeFields, held]
  dsimp only
  cases e.expected <;> rfl

theorem active_fields (n : NodeMap) (i : Nat) : n.ActiveFields i (n.activeFields i) := by
  cases held : (n.active[i]?).join with
  | none =>
    rw [activeFields_none held]
    exact ⟨rfl, rfl, fun _ => rfl, fun e other => absurd (held.symm.trans other) (by simp)⟩
  | some e =>
    rw [activeFields_some held]
    refine ⟨rfl, rfl, fun absent => absurd (held.symm.trans absent) (by simp), fun x same => ?_⟩
    obtain rfl := Option.some.inj (held.symm.trans same)
    exact ⟨rfl, rfl, toNat_byte _, rfl, rfl, toNat_boolByte _, toNat_mark e.expected id |>.trans (by simp), rfl⟩

theorem working_fields {n : NodeMap} {i : Nat} {e : WorkingEntry} (held : n.working[i]? = some e) :
    e.ReplyFields (n.workingFields i) := by
  simp only [NodeMap.workingFields, held]
  exact ⟨rfl, rfl, toNat_byte _, rfl, rfl, toNat_boolByte _⟩

theorem lines_fields (s : State) : s.LinesFields s.linesFields := by
  have run : s.pulse.runBytes = byte s.pulse.running.isSome.toNat
      :: byte ((s.pulse.running.map (·.program)).getD 0) :: byte ((s.pulse.running.map (·.repeatNo)).getD 0)
      :: [byte ((s.pulse.running.map (·.step)).getD 0)] := by
    unfold PulseUnit.runBytes
    cases s.pulse.running <;> rfl
  have level : ∀ l, (boolByte (s.lineLevel l)).toNat = (match s.lineOutput l with
      | some v => v.toNat
      | none => (s.pulse.sensed.getD l false).toNat) := by
    intro l
    rw [toNat_boolByte, State.lineLevel]
    cases s.lineOutput l <;> rfl
  have resolved : ∀ l, (s.lineFunction l).code.toNat =
      (if l = s.mgmt.settings.startLine then 0 else (s.pulse.lines.getD l .input).code.toNat) := by
    intro l
    unfold State.lineFunction
    split <;> rfl
  unfold State.linesFields
  rw [run]
  refine ⟨rfl, fun l inside => ?_, fun idle => by rw [idle]; rfl, fun r running => ?_, ?_, toNat_optCode _ _, toNat_byte _,
    word_be16 s.pulse.skipped.isLt⟩
  · have inBlock : ∀ j < 4, 4 * l + j < ([0, 1, 2, 3, 4, 5, 6, 7].flatMap s.lineBytes).length := by
      intro j below
      show 4 * l + j < 32
      omega
    have held : ∀ j < 4, ([0, 1, 2, 3, 4, 5, 6, 7].flatMap s.lineBytes).getD (4 * l + j) 0 = (s.lineBytes l).getD j 0 := by
      intro j below
      interval_cases l <;> interval_cases j <;> rfl
    simp only [byteAt, List.append_assoc]
    rw [List.getD_append _ _ _ (4 * l) (inBlock 0 (by omega)), List.getD_append _ _ _ _ (inBlock 1 (by omega)),
      List.getD_append _ _ _ _ (inBlock 2 (by omega)), List.getD_append _ _ _ _ (inBlock 3 (by omega)),
      held 1 (by omega), held 2 (by omega), held 3 (by omega)]
    exact ⟨congrArg _ (held 0 (by omega)), resolved l, toNat_boolByte _, level l⟩
  · rw [running]
    exact ⟨rfl, toNat_byte _, toNat_byte _, toNat_byte _⟩
  · refine (toNat_optCode _ _).trans ?_
    cases s.pulse.status.program with
    | none => rfl
    | some p => exact toNat_byte p

/-! ### Report payloads (R182) -/

theorem places_payload (es : List (Nat × Option Nat)) : (Report.places es).PayloadFields (Report.places es).payload := by
  have fixed : ∀ e : Nat × Option Nat, [byte e.1, placeByte e.2].length = 2 := fun _ => rfl
  have group : ∀ i lane place, es[i]? = some (lane, place) →
      ((es.flatMap fun e => [byte e.1, placeByte e.2]).drop (2 * i)).take 2 = [byte lane, placeByte place] :=
    fun i lane place held => flatMap_group fixed es held
  refine ⟨?_, toNat_byte _, fun i lane place held => ⟨?_, ?_⟩⟩
  · rw [Report.payload, List.length_cons, flatMap_length fixed, Nat.add_comm]
  · have read := byteAt_group (es.flatMap fun e => [byte e.1, placeByte e.2]) (2 * i) 2 (i := 0) (by omega)
    rw [group i lane place held] at read
    rw [Nat.add_comm]
    exact read.symm.trans (toNat_byte _)
  · have read := byteAt_group (es.flatMap fun e => [byte e.1, placeByte e.2]) (2 * i) 2 (i := 1) (by omega)
    rw [group i lane place held] at read
    rw [Nat.add_comm]
    exact read.symm.trans (toNat_byte _)

theorem payload_fields (r : Report) : r.PayloadFields r.payload := by
  cases r with
  | heatState st c => exact ⟨rfl, rfl, rfl⟩
  | startJudged lane reaction f =>
    simp only [Report.PayloadFields, Report.payload, optHeatBytes_eq, be16, be32, carriesOpt, List.cons_append,
      List.nil_append, longAt, wordAt, byteAt, Nat.reduceAdd, List.getD_cons_succ, List.getD_cons_zero]
    exact ⟨rfl, toNat_byte _, ⟨toNat_mark _ _, long_be32 (optWord_lt _)⟩, lane_flags_read f⟩
  | arrival a =>
    simp only [Report.PayloadFields, Report.payload, optHeatBytes_eq, be32, carriesOpt, List.cons_append,
      List.nil_append, longAt, wordAt, byteAt, Nat.reduceAdd, List.getD_cons_succ, List.getD_cons_zero]
    exact ⟨rfl, toNat_byte _, toNat_byte _, trivial, ⟨toNat_mark _ _, long_be32 (optWord_lt _)⟩, trivial, toNat_byte _,
      arrival_bits _⟩
  | finish lane mark time source place f =>
    simp only [Report.PayloadFields, Report.payload, heatBytes_eq, be16, be32, List.cons_append,
      List.nil_append, longAt, wordAt, byteAt, Nat.reduceAdd, List.getD_cons_succ, List.getD_cons_zero]
    exact ⟨rfl, toNat_byte _, (by cases mark <;> rfl), long_be32 (heatWord_lt _), toNat_optCode _ _, toNat_byte _,
      lane_flags_read f⟩
  | exchange lane leg v margin =>
    simp only [Report.PayloadFields, Report.payload, optMarginBytes_eq, be16, List.cons_append, List.nil_append, wordAt,
      byteAt, Nat.reduceAdd, List.getD_cons_succ, List.getD_cons_zero]
    exact ⟨rfl, toNat_byte _, toNat_byte _, trivial, toNat_mark margin id |>.trans (by simp), word_be16 (by omega)⟩
  | places es => exact places_payload es
  | loopRestored d => exact ⟨rfl, long_deck d⟩
  | pulseDone program outcome => exact ⟨rfl, toNat_byte _, rfl⟩

/-! ### The row frame (R165, R184) -/

theorem cell_attr (c : Cell) : c.attr.toNat = c.colour.toNat + 8 * c.blink.toNat := by
  have colour := c.colour.isLt
  have blink := Bool.toNat_le c.blink
  exact toNat_byte_lt (by omega)

/-- A row frame before its check byte. -/
def rowFrameBody (row col : Nat) (cells : List Cell) : List Byte :=
  [byte row, byte col, byte (48 - col)] ++ cells.flatMap fun c => [c.glyph, c.attr]

theorem rowFrame_eq (row col : Nat) (cells : List Cell) :
    rowFrame row col cells = rowFrameBody row col cells ++ [(rowFrameBody row col cells).foldl (· ^^^ ·) 0] := rfl

theorem row_frame_fields {row col : Nat} {cells : List Cell} (inside : col ≤ 48) (full : cells.length = 48 - col) :
    let b := rowFrame row col cells
    b.length = 4 + 2 * (48 - col) ∧ b.foldl (· ^^^ ·) 0 = 0
      ∧ byteAt b 0 = row % 256 ∧ byteAt b 1 = col ∧ byteAt b 2 = 48 - col
      ∧ ∀ i c, cells[i]? = some c → b.getD (3 + 2 * i) 0 = c.glyph
        ∧ byteAt b (4 + 2 * i) = c.colour.toNat + 8 * c.blink.toNat := by
  intro b
  have fixed : ∀ c : Cell, [c.glyph, c.attr].length = 2 := fun _ => rfl
  have bodyLength : (rowFrameBody row col cells).length = 3 + 2 * (48 - col) := by
    rw [rowFrameBody, List.length_append, flatMap_length fixed, full]
    rfl
  refine ⟨?_, ?_, toNat_byte _, toNat_byte_lt (by omega),
    toNat_byte_lt (n := 48 - col) (by omega), fun i c held => ?_⟩
  · show (rowFrame row col cells).length = _
    rw [rowFrame_eq, List.length_append, bodyLength, List.length_singleton]
    omega
  · show (rowFrame row col cells).foldl (· ^^^ ·) 0 = 0
    rw [rowFrame_eq, List.foldl_append, List.foldl_cons, List.foldl_nil, BitVec.xor_self]
    rfl
  · have below : i < 48 - col := full ▸ (List.getElem?_eq_some_iff.mp held).1
    have group := flatMap_group fixed cells held
    have read {j : Nat} (inPair : j < 2) : b.getD (3 + 2 * i + j) 0 = [c.glyph, c.attr].getD j 0 := by
      show (rowFrameBody row col cells ++ _).getD _ _ = _
      rw [List.getD_append _ _ _ _ (by omega), ← group, rowFrameBody, Nat.add_assoc]
      simp only [List.getD_eq_getElem?_getD, List.getElem?_take, if_pos inPair, List.getElem?_drop]
      rw [List.getElem?_append_right (by simp)]
      congr 2
      simp
    refine ⟨read (j := 0) (by omega), ?_⟩
    rw [byteAt, show 4 + 2 * i = 3 + 2 * i + 1 by omega, read (by omega)]
    exact cell_attr c

/-- Settles O41, layout by layout. -/
theorem layoutLengths : Obligations.LayoutLengths := by
  refine ⟨fun s => ⟨(status_fields s).1, (analysis_fields _).1, (lines_fields s).1, fun i => (active_fields _ i).1,
    fun i inside => (working_fields (List.getElem?_eq_getElem inside)).1, fun r => (lane_reply_fields r).1,
    fun lane first => ⟨_, Nat.min_le_left _ _, arrivalFields_length _ _ _, rfl, ?_⟩⟩,
    fun s => ⟨status_fields s, analysis_fields _, lines_fields s, active_fields _, fun i e held => working_fields held,
      lane_reply_fields, arrivals_reply_fields _⟩,
    payload_fields, by unfold CodeTables; decide, fun row col cells inside full => row_frame_fields inside full⟩
  rw [arrivalFields_length]
  omega

end Sys2Proof.Machine
end

