-- ==== Sys2Proof/Proofs/Reads.lean ====
section
/-! Reads: what each answers, and the plan of READ_STATUS sent back (R18, R20, R72, R104, R123, R138, R139, R170, R183). -/

namespace Sys2Proof.Machine

/-- Settles O40: each read answers with the fields of its layout, or BAD_VALUE. -/
theorem readsAnswerAndKeep : Obligations.ReadsAnswerAndKeep := by
  intro s f fs answers bad
  have node (asked : s.Asks f 0x07 (sized 2)) {b : List Byte} (answer : readNodeEntry s f.request = s.reply f.request .done 0 b) :
      answers .readNodeEntry b := exec_replied (exec_readNodeEntry_run s) asked answer
  refine ⟨fun asked => ⟨_, status_fields s, exec_replied (exec_readStatus_run s) asked rfl⟩,
    fun asked => ⟨_, analysis_fields _, exec_asked (exec_readIntakeAnalysis_run s) asked⟩,
    fun asked active inside => ⟨_, active_fields _ _, node asked ?_⟩,
    fun e asked working inside held => ⟨_, working_fields held, node asked ?_⟩,
    fun asked inside absent => exec_replied (exec_readLane_run s) asked ?_,
    fun r asked inside held => ⟨_, lane_reply_fields r, exec_replied (exec_readLane_run s) asked ?_⟩,
    fun asked inside least most => ⟨_, arrivals_reply_fields _ _ _, exec_replied (exec_readArrivals_run s) asked ?_⟩,
    fun asked => ⟨_, lines_fields s, exec_replied (exec_readLines_run s) asked rfl⟩,
    fun asked beyond => exec_replied (exec_readNodeEntry_run s) asked (if_pos beyond),
    fun asked beyond => exec_replied (exec_readLane_run s) asked (if_pos beyond),
    fun asked beyond => exec_replied (exec_readArrivals_run s) asked (if_pos beyond)⟩
  · exact (if_neg (show ¬(1 < byteAt fs 0 ∨ 31 < byteAt fs 1) by omega)).trans (if_pos active)
  · exact (if_neg (show ¬(1 < byteAt fs 0 ∨ 31 < byteAt fs 1) by omega)).trans
      (if_neg (show ¬byteAt fs 0 = 0 by omega))
  · refine (if_neg (Nat.not_lt.mpr inside)).trans ?_
    rw [State.laneFields, absent]
  · refine (if_neg (Nat.not_lt.mpr inside)).trans ?_
    rw [State.laneFields, held]
  · exact if_neg (show ¬(9 < byteAt fs 0 ∨ byteAt fs 1 = 0 ∨ 60 < byteAt fs 1) by omega)

/-! ### The plan sent back (R183) -/

theorem groups_flatMap {α : Type} {f : α → List Byte} {n : Nat} (fixed : ∀ a, (f a).length = n) (as : List α) :
    groups n as.length (as.flatMap f) = as.map f := by
  induction as with
  | nil => rfl
  | cons a as ih =>
    rw [List.length_cons, groups, List.flatMap_cons, List.map_cons]
    rw [show (f a ++ as.flatMap f).take n = f a from fixed a ▸ List.take_left,
      show (f a ++ as.flatMap f).drop n = as.flatMap f from fixed a ▸ List.drop_left, ih]

/-- The fields that a plan's own bytes carry. -/
def Plan.asFields (p : Plan) : PlanFields :=
  { event := p.event, heat := p.heat, distance := p.distance, stroke := p.stroke.code.toNat, relay := p.relay.toNat
    split := p.split.code.toNat, minLap := p.minLap, collectionWindow := p.collectionWindow, trustWindow := p.trustWindow
    exchangeWindow := p.exchangeWindow, tolerance := p.tolerance, startWindow := p.startWindow
    reactionFloor := p.reactionFloor, heatLimit := p.heatLimit, entries := p.entries.map LaneEntry.bytes }

/-- The bytes of a LOAD_HEAT_PLAN of a plan. -/
def Plan.bytes (p : Plan) : List Byte :=
  p.fixedBytes ++ [byte p.entries.length] ++ p.entries.flatMap LaneEntry.bytes

theorem planFields_bytes {p : Plan} (range : p.InRange) : planFields p.bytes = p.asFields := by
  obtain ⟨event, heat, distance, minLap, _, window, trust, _, exchange, tolerance, _, start, floor, _, limit, entries, -⟩ := range
  simp only [planFields, Plan.bytes, Plan.fixedBytes, be16, List.cons_append, List.nil_append, wordAt, byteAt,
    Nat.reduceAdd, List.getD_cons_succ, List.getD_cons_zero, List.drop_succ_cons, List.drop_zero, word_be16 event,
    word_be16 distance, toNat_byte_lt heat, toNat_boolByte, word_be16 (show p.minLap < 65536 by omega),
    word_be16 (show p.collectionWindow < 65536 by omega), toNat_byte_lt (show p.trustWindow < 256 by omega),
    word_be16 (show p.exchangeWindow < 65536 by omega), toNat_byte_lt (show p.tolerance < 256 by omega),
    word_be16 (show p.startWindow < 65536 by omega), toNat_byte_lt (show p.reactionFloor < 256 by omega),
    toNat_byte_lt (show p.heatLimit < 256 by omega), toNat_byte_lt (show p.entries.length < 256 by omega),
    groups_flatMap lane_entry_length]
  rfl

theorem entry_read {e : LaneEntry} (range : e.lane < 256) : byteAt e.bytes 0 = e.lane
    ∧ BitVec.ofNat 16 (wordAt e.bytes 1) = e.entryId ∧ byteAt e.bytes 3 = e.exhibition.toNat := by
  simp only [LaneEntry.bytes, be16, List.cons_append, List.nil_append, wordAt, byteAt, Nat.reduceAdd,
    List.getD_cons_succ, List.getD_cons_zero, word_be16 e.entryId.isLt]
  exact ⟨toNat_byte_lt range, (by simp), toNat_boolByte _⟩

theorem yesNo_toNat (b : Bool) : yesNo? b.toNat = some b := by cases b <;> rfl

theorem toNat_beq_one (b : Bool) : (b.toNat == 1) = b := by cases b <;> rfl

theorem splitMode_code (m : SplitMode) : SplitMode.ofCode? m.code.toNat = some m := by cases m <;> rfl

theorem stroke_code (k : Stroke) : Stroke.ofCode? k.code.toNat = some k := by cases k <;> rfl

theorem clampTo_within {lo hi v : Nat} (least : lo ≤ v) (most : v ≤ hi) : clampTo lo hi v = v := by
  unfold clampTo
  omega

/-- A plan in range is loaded as it is from its own fields. -/
theorem asFields_load {p : Plan} (range : p.InRange) : p.asFields.load = p := by
  obtain ⟨event, heat, distance, minLap, w1, w2, trust, e1, e2, tolerance, s1, s2, floor, l1, l2, entries, lanes⟩ := range
  have same : (p.entries.map LaneEntry.bytes).map (fun e =>
      ({ lane := byteAt e 0, entryId := BitVec.ofNat 16 (wordAt e 1), exhibition := byteAt e 3 == 1 } : LaneEntry))
      = p.entries := by
    rw [List.map_map]
    refine (List.map_congr_left fun e mem => ?_).trans (List.map_id _)
    obtain ⟨lane, entryId, exhibition⟩ := entry_read (lanes e mem)
    simp only [Function.comp, lane, entryId, exhibition, toNat_beq_one, id]
  simp only [PlanFields.load, Plan.asFields, stroke_code, splitMode_code, Option.getD_some, toNat_beq_one, same,
    clampTo_within (Nat.zero_le _) minLap, clampTo_within w1 w2, clampTo_within (Nat.zero_le _) trust,
    clampTo_within e1 e2, clampTo_within (Nat.zero_le _) tolerance, clampTo_within s1 s2,
    clampTo_within (Nat.zero_le _) floor, clampTo_within l1 l2]

theorem asFields_valueFault {p : Plan} (range : p.InRange) : p.asFields.valueFault = none := by
  obtain ⟨_, _, _, _, _, _, _, _, _, _, _, _, _, _, _, _, lanes⟩ := range
  have marks : ¬(p.asFields.entries.any fun e => (yesNo? (byteAt e 3)).isNone) = true := by
    simp only [Plan.asFields, List.any_map, List.any_eq_true, not_exists, not_and, Function.comp]
    intro e mem
    rw [(entry_read (lanes e mem)).2.2, yesNo_toNat]
    simp
  unfold PlanFields.valueFault
  rw [if_neg (by simp [Plan.asFields, yesNo_toNat]), if_neg (by simp [Plan.asFields, splitMode_code]), if_neg marks]

theorem asFields_clamped {p : Plan} (range : p.InRange) : p.asFields.clamped = none := by
  unfold PlanFields.clamped
  rw [asFields_load range]
  simp [Plan.asFields]

theorem plan_bytes_counted {p : Plan} (range : p.InRange) : counted 20 21 4 0 10 p.bytes = true := by
  obtain ⟨_, _, _, _, _, _, _, _, _, _, _, _, _, _, _, few, -⟩ := range
  have count : byteAt p.bytes 20 = p.entries.length := toNat_byte_lt (by omega)
  rw [counted_iff, count]
  refine ⟨Nat.zero_le _, few, ?_⟩
  rw [Plan.bytes, List.length_append, flatMap_length lane_entry_length]
  rfl

theorem planBytes_some {p : Plan} (few : p.entries.length ≤ 10) :
    planBytes (some p) = [1] ++ p.bytes ++ List.replicate (40 - 4 * p.entries.length) 0 := by
  have tail : p.entryBytes = p.entries.flatMap LaneEntry.bytes ++ List.replicate (40 - 4 * p.entries.length) 0 := by
    rw [Plan.entryBytes, List.take_append, flatMap_length lane_entry_length, List.take_replicate, List.take_of_length_le]
    · congr 2
      omega
    · rw [flatMap_length lane_entry_length]
      omega
  rw [planBytes, tail, Plan.bytes]
  simp only [List.cons_append, List.nil_append, List.append_assoc]

/-- Settles O15: a plan's bytes carry its own fields, and those load it as it is. -/
theorem planBytesReadBack : Obligations.PlanBytesReadBack := by
  refine ⟨fun p range => ?_, rfl, status_plan⟩
  have read := planFields_bytes range
  refine ⟨plan_bytes_counted range, ?_, ?_, ?_, planBytes_some ?_⟩
  · exact (congrArg PlanFields.valueFault read).trans (asFields_valueFault range)
  · exact (congrArg PlanFields.clamped read).trans (asFields_clamped range)
  · exact (congrArg PlanFields.load read).trans (asFields_load range)
  · obtain ⟨_, _, _, _, _, _, _, _, _, _, _, _, _, _, _, few, -⟩ := range
    exact few

end Sys2Proof.Machine
end

