-- ==== Sys2Proof/Proofs/BoardArbiter.lean ====
section
/-! The board: masks and markers, the arbiter's choice, and what each completion changes (R149 to R166). -/

namespace Sys2Proof.Machine

/-! ### Changed columns and markers (R149) -/

theorem lowerMarker_eq (m c : Option Nat) : lowerMarker m c = markerAfter m c := by
  cases m <;> cases c <;> rfl

@[simp] theorem markerAfter_none (m : Option Nat) : markerAfter m none = m := by cases m <;> rfl

theorem changedColumn_self (row : List Cell) : changedColumn row row = none := by
  simp [changedColumn]

theorem firstChange_self (xs : List Cell) (k : Nat) : firstChange xs xs k = none := by
  induction xs generalizing k with
  | nil => rfl
  | cons x xs ih => rw [firstChange, if_pos rfl, ih]

/-- The column of the first change is one at which the rows differ. -/
theorem firstChange_differs {xs ys : List Cell} {k j : Nat} (changed : firstChange xs ys k = some j) :
    k ≤ j ∧ j - k < xs.length ∧ xs[j - k]? ≠ ys[j - k]? := by
  induction xs generalizing ys k with
  | nil => cases changed
  | cons x xs ih =>
    cases ys with
    | nil => cases changed
    | cons y ys =>
      unfold firstChange at changed
      split at changed
      · obtain ⟨below, inside, differ⟩ := ih changed
        rw [show j - k = j - (k + 1) + 1 by omega]
        exact ⟨by omega, by simpa using inside, by simpa using differ⟩
      · next differ =>
        obtain rfl := Option.some.inj changed
        exact ⟨le_rfl, by simp, by simpa using differ⟩

/-- In a row of 48 cells the first change is the lowest changed column. -/
theorem firstChange_eq_changedColumn {xs ys : List Cell} (width : xs.length = 48) (same : xs.length = ys.length) :
    firstChange xs ys 0 = changedColumn xs ys := by
  obtain ⟨agree, below⟩ := firstChange_spec xs ys 0 same
  cases changed : firstChange xs ys 0 with
  | none => rw [agree changed, changedColumn_self]
  | some j =>
    obtain ⟨-, inside, differ⟩ := firstChange_differs changed
    symm
    rw [changedColumn, List.find?_range_eq_some]
    refine ⟨by simpa using differ, by simpa [width] using inside, fun k early => ?_⟩
    have equal := (below j changed).2 k (by omega)
    simp [equal]

/-! ### Masks (R152) -/

/-- Settles O51: the two mask requests, the blend of each plane, and the marker a write leaves. -/
theorem planeMasksAndMarkers : Obligations.PlaneMasksAndMarkers := by
  refine ⟨fun s f => ⟨fun asked => exec_asked (exec_loadPlaneMask_run s) asked,
    fun asked => exec_asked (exec_releasePlaneMask_run s) asked⟩, fun m old new => ⟨rfl, rfl, rfl⟩, ?_⟩
  intro b r c m cells row marker d
  have newRow : d.row r = overlay m (b.row r) c cells := writeRun_row b row c m cells
  have newMarker : d.marker r = lowerMarker (b.marker r) (firstChange (b.row r) (d.row r) 0) := by
    rw [newRow]
    exact writeRun_marker b marker c m cells
  have width : (b.row r).length = (d.row r).length := by rw [newRow, overlay_length]
  obtain ⟨agree, below⟩ := firstChange_spec (b.row r) (d.row r) 0 width
  refine ⟨fun j lowered k early => ?_, fun clean => ?_, fun i old => ?_, fun full => ?_, fun same => ?_,
    fun i other => ⟨writeRun_row_ne b other c m cells, writeRun_marker_ne b other c m cells⟩⟩
  · cases changed : firstChange (b.row r) (d.row r) 0 with
    | none => rw [agree changed]
    | some x =>
      have most : j ≤ x := by
        rw [newMarker, changed] at lowered
        cases held : b.marker r with
        | none => rw [held] at lowered; exact (Option.some.inj lowered).ge
        | some y => rw [held] at lowered; exact Option.some.inj lowered ▸ Nat.min_le_right _ _
      exact ((below x changed).2 k (by omega)).symm
  · cases changed : firstChange (b.row r) (d.row r) 0 with
    | none => exact (agree changed).symm
    | some x => rw [newMarker, changed] at clean; cases held : b.marker r <;> rw [held] at clean <;> cases clean
  · rw [newMarker, old]
    cases firstChange (b.row r) (d.row r) 0 with
    | none => exact ⟨i, le_rfl, rfl⟩
    | some x => exact ⟨_, Nat.min_le_left _ _, rfl⟩
  · rw [newMarker, lowerMarker_eq, firstChange_eq_changedColumn full width]
  · rw [newMarker, same, firstChange_self, lowerMarker_eq, markerAfter_none]

/-! ### The arbiter's choice (R150, R162, R163) -/

theorem arbitrate_busy {s : State} (busy : s.board.operation.isSome = true) : s.arbitrate = s := if_pos busy

theorem arbitrate_unclaimed {s : State} (free : s.board.operation = none) (quiet : s.shifter.claim = false) :
    s.arbitrate = s.grantWriter := by
  have same : s.grantShifter = s := if_neg (by simp [quiet])
  unfold State.arbitrate
  simp only [same, free, Option.isSome_none, Bool.false_eq_true, if_false]

theorem arbitrate_unloaded {s : State} (free : s.board.operation = none) (claim : s.shifter.claim = true)
    (unchosen : s.chooseLoad = none) :
    s.arbitrate = State.arbitrate { s with shifter := { s.shifter with claim := false } } := by
  have granted : s.grantShifter = { s with shifter := { s.shifter with claim := false } } := by
    have board : { s.board with operation := s.chooseLoad } = s.board := by rw [unchosen, ← free]
    unfold State.grantShifter
    rw [if_pos claim, board]
  rw [arbitrate_unclaimed (s := { s with shifter := { s.shifter with claim := false } }) free rfl]
  unfold State.arbitrate
  simp only [granted, free, Option.isSome_none, Bool.false_eq_true, if_false]

theorem isEmpty_iff (x : LineHalf) : x.isEmpty = true ↔ x = .empty := by
  cases x <;> simp [LineHalf.isEmpty]

theorem emptyHalf_first {h : Shifter} {n : Nat} (inside : n < 2) (empty : h.half n = .empty)
    (second : n = 1 → h.half 0 ≠ .empty) : h.emptyHalf = some n := by
  match n, inside with
  | 0, _ => exact if_pos ((isEmpty_iff _).mpr empty)
  | 1, _ => exact (if_neg (mt (isEmpty_iff _).mp (second rfl))).trans (if_pos ((isEmpty_iff _).mpr empty))

theorem emptyHalf_none {h : Shifter} (first : h.half 0 ≠ .empty) (second : h.half 1 ≠ .empty) : h.emptyHalf = none :=
  (if_neg (mt (isEmpty_iff _).mp first)).trans (if_neg (mt (isEmpty_iff _).mp second))

theorem scanOrder_eq (scanner : Nat) : scanOrder scanner = (List.range 16).map fun k => (scanner + 1 + k) % 16 := rfl

/-- The first due row of the scanner's round. -/
theorem scan_first {s : State} {k : Nat} (inside : k < 16) (due : s.rowDue ((s.shifter.scanner + 1 + k) % 16) = true)
    (earlier : ∀ j < k, s.rowDue ((s.shifter.scanner + 1 + j) % 16) = false) :
    (scanOrder s.shifter.scanner).find? s.rowDue = some ((s.shifter.scanner + 1 + k) % 16) := by
  have first : (List.range 16).find? (s.rowDue ∘ fun k => (s.shifter.scanner + 1 + k) % 16) = some k := by
    rw [List.find?_range_eq_some]
    exact ⟨due, List.mem_range.mpr inside, fun j early => by simp [earlier j early]⟩
  rw [scanOrder_eq, List.find?_map, first]
  rfl

theorem rowDue_iff (s : State) (row : Nat) :
    s.rowDue row = true ↔ (∃ c, s.board.marker row = some c) ∨ s.refreshDue row = true := by
  rw [State.rowDue, Bool.or_eq_true, Option.isSome_iff_exists]

/-- Settles O52: each grant by its conditions, and the load chosen. -/
theorem arbiterPriority : Obligations.ArbiterPriority := by
  refine ⟨fun s => arbitrate_busy, fun s op free claim chosen => arbitrate_load free claim chosen,
    fun s fld fs free quiet waiting => ?_, fun s q free quiet none waiting => ?_,
    fun s => arbitrate_unloaded, fun s row => ⟨rfl, rowDue_iff s row⟩,
    fun s h k inside empty second within due earlier => ?_, fun s none => ?_⟩
  · rw [arbitrate_unclaimed free quiet, State.grantWriter]
    simp only [waiting]
  · rw [arbitrate_unclaimed free quiet, State.grantWriter]
    simp only [none, waiting]
  · unfold State.chooseLoad
    rw [emptyHalf_first inside empty second, scan_first within due earlier]
    dsimp only
    exact ⟨fun c marker => by rw [marker]; rfl, fun clean => by rw [clean]; rfl⟩
  · cases chosen : s.chooseLoad with
    | none => rfl
    | some op =>
      obtain ⟨half, row, found, first, -⟩ := chooseLoad_some chosen
      have due := List.find?_some first
      rcases none with ⟨a, b⟩ | quiet
      · rw [emptyHalf_none a b] at found
        cases found
      · obtain ⟨k, -, rfl⟩ := List.mem_map.mp (List.mem_of_find?_eq_some first)
        rw [quiet _ (Nat.mod_lt _ (by decide))] at due
        cases due

end Sys2Proof.Machine
end

