-- ==== Sys2Proof/Proofs/BoardCompletions.lean ====
section
/-! The completions on the board: a row load, a field write, a row transmission and a console operation (R149 to R166). -/

namespace Sys2Proof.Machine

/-! ### Halves of the Line Buffer (R161) -/

theorem half_setHalf_self (h : Shifter) (n : Nat) (v : LineHalf) : (h.setHalf n v).half n = v := by
  unfold Shifter.setHalf Shifter.half
  split <;> rfl

theorem half_setHalf_ne (h : Shifter) {n k : Nat} (first : n < 2) (second : k < 2) (other : k ≠ n) (v : LineHalf) :
    (h.setHalf n v).half k = h.half k := by
  unfold Shifter.setHalf Shifter.half
  by_cases zero : n = 0
  · rw [if_pos zero, if_neg (by omega), if_neg (by omega)]
  · rw [if_neg zero, if_pos (by omega), if_pos (by omega)]

theorem setHalf_rest (h : Shifter) (n : Nat) (v : LineHalf) :
    (h.setHalf n v).scanner = h.scanner ∧ (h.setHalf n v).lastFull = h.lastFull ∧ (h.setHalf n v).claim = h.claim := by
  unfold Shifter.setHalf
  split <;> exact ⟨rfl, rfl, rfl⟩

/-! ### What a grant leaves (R150) -/

/-- What the arbiter and the scanner leave of the race and of Board Memory. -/
theorem State.ArbiterOnly.rest {s t : State} (h : s.ArbiterOnly t) : s.SameRace t ∧ t.results = s.results
    ∧ t.out = s.out ∧ t.board.rows = s.board.rows ∧ t.shifter.scanner = s.shifter.scanner
    ∧ t.shifter.lastFull = s.shifter.lastFull := by
  obtain ⟨_, _, _, _, _, _, _, rfl⟩ := h
  exact ⟨⟨rfl, rfl, rfl, rfl, rfl, rfl, rfl, rfl, rfl⟩, rfl, rfl, rfl, rfl, rfl⟩

theorem State.ClaimsOnly.rest {s t : State} (h : s.ClaimsOnly t) : t.board.markers = s.board.markers
    ∧ t.shifter.half0 = s.shifter.half0 ∧ t.shifter.half1 = s.shifter.half1 := by
  obtain ⟨_, _, _, _, rfl⟩ := h
  exact ⟨rfl, rfl, rfl⟩

theorem State.ClaimsOnly.half {s t : State} (h : s.ClaimsOnly t) (n : Nat) : t.shifter.half n = s.shifter.half n := by
  obtain ⟨-, first, second⟩ := h.rest
  unfold Shifter.half
  rw [first, second]

theorem State.ClaimsOnly.marker {s t : State} (h : s.ClaimsOnly t) (r : Nat) : t.board.marker r = s.board.marker r := by
  unfold Board.marker
  rw [h.rest.1]

theorem State.SameRace.trans {s t u : State} : s.SameRace t → t.SameRace u → s.SameRace u := by
  rintro ⟨a1, a2, a3, a4, a5, a6, a7, a8, a9⟩ ⟨b1, b2, b3, b4, b5, b6, b7, b8, b9⟩
  exact ⟨b1.trans a1, b2.trans a2, b3.trans a3, b4.trans a4, b5.trans a5, b6.trans a6, b7.trans a7, b8.trans a8,
    b9.trans a9⟩

/-- The scanner's conditions examined, then a grant. -/
theorem examined_arbitrate_claimsOnly {s : State} (settled : ∀ r, s.mgmt.claim ≠ some (.sendRow r)) :
    s.ClaimsOnly s.examineShifter.arbitrate := by
  have examined := examineShifter_claimsOnly s
  refine examined.trans (arbitrate_claimsOnly fun r => ?_)
  have same : s.examineShifter.mgmt = s.mgmt := by
    unfold State.examineShifter
    split <;> rfl
  rw [same]
  exact settled r

theorem freeBoard_claimsOnly {s : State} (settled : ∀ r, s.mgmt.claim ≠ some (.sendRow r)) : s.ClaimsOnly s.freeBoard :=
  .trans ⟨none, s.shifter.claim, s.composer.queue, s.mgmt.claim, rfl⟩
    (examined_arbitrate_claimsOnly (s := { s with board := { s.board with operation := none } }) settled)

theorem freeBoard_claimed (s : State) : s.freeBoard.Claimed := arbitrate_claimed (examineShifter_claimed _)

theorem State.Claimed.examined {s : State} (h : s.Claimed) : s.shifter.emptyHalf.isSome = true →
    (∃ r < 16, s.rowDue r = true) → s.shifterClaims = true := fun half due => h ⟨half, due⟩

/-! ### A completed row load (R162 to R164) -/

theorem loadHalf_same (s : State) (row col half : Nat) (cells : List Cell) : s.SameRace (s.loadHalf row col half cells) :=
  ⟨rfl, rfl, rfl, rfl, rfl, rfl, rfl, rfl, rfl⟩

theorem loadHalf_half (s : State) (row col : Nat) {half : Nat} (inside : half < 2) (cells : List Cell) :
    (s.loadHalf row col half cells).shifter.half half
        = (if s.shifter.isSending then .loaded row col cells else .sending row col cells)
      ∧ ∀ k < 2, k ≠ half → (s.loadHalf row col half cells).shifter.half k = s.shifter.half k :=
  ⟨half_setHalf_self _ _ _, fun _ below other => half_setHalf_ne _ inside below other _⟩

theorem loadHalf_scanner (s : State) (row col half : Nat) (cells : List Cell) :
    (s.loadHalf row col half cells).shifter.scanner = s.shifter.scanner := (setHalf_rest _ _ _).1

theorem exec_rowLoadComplete_live {s : State} {row col half : Nat} {cells : List Cell} (live : s.Live)
    (loading : s.board.operation = some (.rowLoad row col half cells true)) : exec .rowLoadComplete s =
      .next ((s.loadHalf row col half cells).moveScanner row).freeBoard := by
  rw [exec_rowLoadComplete_run, run_live live]
  simp only [loading, if_true]

/-- A load that RESTART overtook (R167). -/
theorem exec_rowLoadComplete_overtaken {s : State} {row col half : Nat} {cells : List Cell} (live : s.Live)
    (loading : s.board.operation = some (.rowLoad row col half cells false)) :
    exec .rowLoadComplete s = .next s.freeBoard := by
  rw [exec_rowLoadComplete_run, run_live live]
  simp only [loading, Bool.false_eq_true, if_false]

theorem exec_fieldWriteComplete_live {s : State} {row col : Nat} {cells : List Cell} (live : s.Live)
    (writing : s.board.operation = some (.fieldWrite row col cells)) : exec .fieldWriteComplete s =
      .next (State.freeBoard { s with board := s.board.writeRun row col .all cells }) := by
  rw [exec_fieldWriteComplete_run, run_live live]
  simp only [writing]

/-! ### A run of cells, cell by cell (R149, R153) -/

theorem row_length {s : State} (sound : s.WithinCapacity) {r : Nat} (inside : r < 16) : (s.board.row r).length = 48 := by
  obtain ⟨-, -, -, -, -, -, -, -, rows, wide, -⟩ := sound
  unfold Board.row
  rw [List.getD_eq_getElem _ _ (rows ▸ inside)]
  exact wide _ (List.getElem_mem _)

/-- A cell of any row after a run of cells was written into one (R149, R152, R153). -/
theorem writeRun_get {s : State} (sound : s.WithinCapacity) {i k : Nat} (row : i < 16) (column : k < 48) (r c : Nat)
    (m : PlaneMask) (cells : List Cell) : ((s.board.writeRun r c m cells).row i)[k]? =
      if i = r ∧ c ≤ k ∧ k < c + cells.length then some (m.blend ((s.board.row i).getD k {}) (cells.getD (k - c) {}))
      else (s.board.row i)[k]? := by
  by_cases same : i = r
  · subst same
    obtain ⟨-, -, -, -, -, -, -, -, rows, -⟩ := id sound
    rw [writeRun_row _ (rows ▸ row), overlay_get _ _ _ _ _ ((row_length sound row).symm ▸ column)]
    simp only [true_and]
  · rw [writeRun_row_ne _ same, if_neg fun h => same h.1]

/-- Each row's marker after a run of cells was written into one (R149). -/
theorem writeRun_marker_after {s : State} (sound : s.WithinCapacity) {i : Nat} (row : i < 16) (r c : Nat) (m : PlaneMask)
    (cells : List Cell) : (s.board.writeRun r c m cells).marker i =
      markerAfter (s.board.marker i) (changedColumn (s.board.row i) ((s.board.writeRun r c m cells).row i)) := by
  by_cases same : i = r
  · subst same
    obtain ⟨-, -, -, -, -, -, -, -, rows, -, markers, -⟩ := id sound
    rw [writeRun_marker _ (markers ▸ row), writeRun_row _ (rows ▸ row), lowerMarker_eq,
      firstChange_eq_changedColumn (row_length sound row) (overlay_length ..).symm]
  · rw [writeRun_marker_ne _ same, writeRun_row_ne _ same, changedColumn_self, markerAfter_none]

/-! ### A row sent (R164) -/

theorem start_loaded {x : LineHalf} {r c : Nat} {cs : List Cell} (loaded : x = .loaded r c cs) :
    x.start = .sending r c cs := by rw [loaded]; rfl

theorem start_other {x : LineHalf} (other : ∀ r c cs, x ≠ .loaded r c cs) : x.start = x := by
  cases x with
  | loaded r c cs => exact absurd rfl (other r c cs)
  | _ => rfl

theorem exec_rowSendComplete_live {s : State} (live : s.Live) (sending : s.shifter.isSending = true) :
    exec .rowSendComplete s = .next (State.examineShifter { s with shifter := s.shifter.sendDone }).arbitrate := by
  rw [exec_rowSendComplete_run, run_live live]
  simp only [sending, if_true]

/-- A half that holds no row is not displaced (R166). -/
theorem displace_unloaded {s : State} {n : Nat} (unloaded : ∀ r c cs, s.shifter.half n ≠ .loaded r c cs) :
    s.displace n = s := by
  unfold State.displace
  split
  · next r c cs loaded => exact absurd loaded (unloaded r c cs)
  · rfl

/-- A grant to a SEND_ROW_NOW whose target half holds no row leaves halves and markers alone. -/
theorem grantConsole_claimsOnly {s : State}
    (unloaded : ∀ r c cs, s.shifter.half s.shifter.target ≠ .loaded r c cs) (q : BoardRequest) :
    s.ClaimsOnly (s.grantConsole q) := by
  unfold State.grantConsole
  cases q with
  | sendRow r =>
    dsimp only [State.consoleOp]
    rw [displace_unloaded unloaded]
    exact ⟨_, _, _, _, rfl⟩
  | _ => exact ⟨_, _, _, _, rfl⟩

theorem arbitrate_claimsOnly_of_target {s : State}
    (unloaded : ∀ r c cs, s.shifter.half s.shifter.target ≠ .loaded r c cs) : s.ClaimsOnly s.arbitrate := by
  unfold State.arbitrate
  split
  · exact .refl s
  · have granted : s.ClaimsOnly s.grantShifter := by unfold State.grantShifter; split <;> exact ⟨_, _, _, _, rfl⟩
    have kept : ∀ r c cs, s.grantShifter.shifter.half s.grantShifter.shifter.target ≠ .loaded r c cs := by
      unfold Shifter.target
      rw [granted.rest.2.1, granted.half]
      exact unloaded
    dsimp only
    split
    · exact granted
    · refine granted.trans ?_
      unfold State.grantWriter
      split
      · exact ⟨_, _, _, _, rfl⟩
      · split
        · exact grantConsole_claimsOnly kept _
        · exact .refl _

/-- After a send, with or without a row that waits in the other half. -/
theorem sent_arbitrate {s : State} (h : Shifter)
    (unloaded : ∀ r c cs, h.half h.target ≠ .loaded r c cs) :
    State.ClaimsOnly { s with shifter := h } (State.examineShifter { s with shifter := h }).arbitrate := by
  have examined := examineShifter_claimsOnly { s with shifter := h }
  refine examined.trans (arbitrate_claimsOnly_of_target ?_)
  unfold Shifter.target
  rw [examined.rest.2.1, examined.half]
  exact unloaded

/-- What every completion of a send leaves. -/
theorem sent_rest {s : State} {h : Shifter} (scanner : h.scanner = s.shifter.scanner)
    (full : h.lastFull = s.shifter.lastFull) :
    let t := (State.examineShifter { s with shifter := h }).arbitrate
    t.board.rows = s.board.rows ∧ t.shifter.lastFull = s.shifter.lastFull ∧ t.shifter.scanner = s.shifter.scanner
      ∧ s.SameRace t ∧ t.Claimed ∧ t.results = s.results ∧ t.out = s.out := by
  have acted := (examineShifter_arbiterOnly { s with shifter := h }).trans (arbitrate_arbiterOnly _)
  obtain ⟨race, results, out, rows, place, last⟩ := acted.rest
  exact ⟨rows, last.trans full, place.trans scanner, race, arbitrate_claimed (examineShifter_claimed _), results, out⟩

theorem sendDone_first {h : Shifter} (sending : h.half0.isSending = true) :
    h.sendDone = { h with half0 := .empty, half1 := h.half1.start } := if_pos sending

theorem sendDone_second {h : Shifter} (quiet : h.half0.isSending = false) :
    h.sendDone = { h with half0 := h.half0.start, half1 := .empty } := if_neg (by simp [quiet])

/-- A send completed while no SEND_ROW_NOW can be granted leaves the halves as the Shifter left them. -/
theorem sent_settled {s : State} (h : Shifter)
    (settled : (∀ r, s.mgmt.claim ≠ some (.sendRow r)) ∨ s.board.operation.isSome = true) :
    State.ClaimsOnly { s with shifter := h } (State.examineShifter { s with shifter := h }).arbitrate := by
  rcases settled with none | busy
  · exact examined_arbitrate_claimsOnly (s := { s with shifter := h }) none
  · have examined := examineShifter_claimsOnly { s with shifter := h }
    have still : (State.examineShifter { s with shifter := h }).board.operation.isSome = true := by
      unfold State.examineShifter
      split <;> exact busy
    rw [arbitrate_busy still]
    exact examined

/-- Settles O53: each completion's own change, then a grant that changes only claims. -/
theorem boardCompletions : Obligations.BoardCompletions := by
  refine ⟨fun s row col half cells live loading => ?_, fun s row col half cells live loading => ?_,
    fun s row col cells live sound inside writing => ?_, fun s row col cells live sending => ?_,
    fun s row col cells live quiet sending => ?_⟩
  · obtain ⟨u, eu⟩ : ∃ u, u = (s.loadHalf row col half cells).moveScanner row := ⟨_, rfl⟩
    have loaded : s.SameRace u ∧ u.results = s.results ∧ u.out = s.out ∧ u.board.rows = s.board.rows
        ∧ u.shifter.scanner = row ∧ u.mgmt = s.mgmt ∧ u.board.markers = s.board.markers.set row none
        ∧ u.shifter.lastFull = (if col = 0 then s.shifter.lastFull.set row s.deckTime else s.shifter.lastFull)
        ∧ ∀ k, u.shifter.half k = (s.loadHalf row col half cells).shifter.half k := by
      rw [eu]
      exact ⟨loadHalf_same s row col half cells, rfl, rfl, rfl, rfl, rfl, rfl, rfl, fun _ => rfl⟩
    obtain ⟨race, results, out, rows, scanner, mgmt, markers, full, halves⟩ := loaded
    obtain ⟨race', results', out', rows', scanner', full'⟩ := (freeBoard_arbiterOnly u).rest
    have calm (none : ∀ r, s.mgmt.claim ≠ some (.sendRow r)) : ∀ r, u.mgmt.claim ≠ some (.sendRow r) := by
      rw [mgmt]
      exact none
    refine ⟨u.freeBoard, (exec_rowLoadComplete_live live loading).trans (by rw [eu]), scanner'.trans scanner,
      rows'.trans rows, full'.trans full, fun settled => ?_, fun settled within => ?_, (freeBoard_claimed u).examined,
      race.trans race', results'.trans results, out'.trans out⟩
    · exact (freeBoard_claimsOnly (calm settled)).rest.1.trans markers
    · obtain ⟨own, other⟩ := loadHalf_half s row col within cells
      have kept := (freeBoard_claimsOnly (s := u) (calm settled)).half
      exact ⟨((kept half).trans (halves half)).trans own, fun k below ne => ((kept k).trans (halves k)).trans (other k below ne)⟩
  · obtain ⟨race, results, out, rows, scanner, full⟩ := (freeBoard_arbiterOnly s).rest
    exact ⟨s.freeBoard, exec_rowLoadComplete_overtaken live loading, scanner, rows, full,
      fun settled => (freeBoard_claimsOnly settled).rest, (freeBoard_claimed s).examined, race, results, out⟩
  · obtain ⟨u, eu⟩ : ∃ u : State, u = { s with board := s.board.writeRun row col .all cells } := ⟨_, rfl⟩
    have written : s.SameRace u ∧ u.results = s.results ∧ u.out = s.out ∧ u.shifter = s.shifter ∧ u.mgmt = s.mgmt
        ∧ u.board = s.board.writeRun row col .all cells := by
      rw [eu]
      exact ⟨⟨rfl, rfl, rfl, rfl, rfl, rfl, rfl, rfl, rfl⟩, rfl, rfl, rfl, rfl, rfl⟩
    obtain ⟨race, results, out, shifter, mgmt, board⟩ := written
    obtain ⟨race', results', out', rows', scanner', full'⟩ := (freeBoard_arbiterOnly u).rest
    have sameRow (i : Nat) : u.freeBoard.board.row i = (s.board.writeRun row col .all cells).row i := by
      unfold Board.row
      rw [rows', board]
    have calm (none : ∀ r, s.mgmt.claim ≠ some (.sendRow r)) : ∀ r, u.mgmt.claim ≠ some (.sendRow r) := by
      rw [mgmt]
      exact none
    refine ⟨u.freeBoard, (exec_fieldWriteComplete_live live writing).trans (by rw [eu]), fun i below k column => ?_,
      fun settled => ?_, full'.trans (by rw [shifter]), scanner'.trans (by rw [shifter]), (freeBoard_claimed u).examined,
      race.trans race', results'.trans results, out'.trans out⟩
    · rw [sameRow, writeRun_get sound below column]
      split
      · next written =>
        rw [blend_all, List.getD_eq_getElem?_getD, List.getElem?_eq_getElem (by omega : k - col < cells.length)]
        rfl
      · rfl
    · have kept := freeBoard_claimsOnly (s := u) (calm settled)
      refine ⟨fun i below => ?_, kept.rest.2.1.trans (by rw [shifter]), kept.rest.2.2.trans (by rw [shifter])⟩
      rw [kept.marker, sameRow, board]
      exact writeRun_marker_after sound below row col .all cells
  · have isSending : s.shifter.half0.isSending = true := by rw [sending]; rfl
    have done := sendDone_first isSending
    obtain ⟨rows, full, scanner, race, claimed, results, out⟩ := sent_rest (s := s)
      (h := { s.shifter with half0 := .empty, half1 := s.shifter.half1.start }) rfl rfl
    refine ⟨_, (exec_rowSendComplete_live live (by simp [Shifter.isSending, isSending])).trans (by rw [done]), rows,
      fun r c cs loaded => ?_, fun settled => ?_, full, scanner, race, claimed.examined, results, out⟩
    · refine (sent_arbitrate _ fun r c cs => ?_).rest.2.2.trans (start_loaded loaded)
      exact fun h => by cases h
    · obtain ⟨markers, first, second⟩ := (sent_settled _ settled).rest
      exact ⟨first, markers, fun other => second.trans (start_other other)⟩
  · have done := sendDone_second quiet
    have isSending : s.shifter.half1.isSending = true := by rw [sending]; rfl
    obtain ⟨rows, full, scanner, race, claimed, results, out⟩ := sent_rest (s := s)
      (h := { s.shifter with half0 := s.shifter.half0.start, half1 := .empty }) rfl rfl
    refine ⟨_, (exec_rowSendComplete_live live (by simp [Shifter.isSending, isSending])).trans (by rw [done]), rows,
      fun r c cs loaded => ?_, fun settled => ?_, full, scanner, race, claimed.examined, results, out⟩
    · refine (sent_arbitrate _ fun r c cs => ?_).rest.2.1.trans (start_loaded loaded)
      have target : Shifter.target { s.shifter with half0 := s.shifter.half0.start, half1 := .empty } = 1 := by
        rw [Shifter.target, start_loaded loaded]
        rfl
      rw [target]
      exact fun h => by cases h
    · obtain ⟨markers, first, second⟩ := (sent_settled _ settled).rest
      exact ⟨second, markers, fun other => first.trans (start_other other)⟩

end Sys2Proof.Machine
end

