-- ==== Sys2Proof/Proofs/ConsoleOperations.lean ====
section
/-! The console on the board: what a granted operation is, and what its completion changes (R135, R150 to R156, R166). -/

namespace Sys2Proof.Machine

/-! ### A rectangle filled (R154) -/

/-- Cells written into several rows, each once: each row's cells, and its marker. -/
theorem writeRows_row (rs : List Nat) (once : rs.Nodup) (b : Board) (c : Nat) (m : PlaneMask) (cells : List Cell) {i : Nat}
    (row : i < b.rows.length) (marker : i < b.markers.length) :
    let d := rs.foldl (fun b r => b.writeRun r c m cells) b
    d.row i = (if i ∈ rs then overlay m (b.row i) c cells else b.row i)
      ∧ d.marker i = (if i ∈ rs then lowerMarker (b.marker i) (firstChange (b.row i) (overlay m (b.row i) c cells) 0)
        else b.marker i) := by
  induction rs generalizing b with
  | nil => exact ⟨rfl, rfl⟩
  | cons r rs ih =>
    obtain ⟨apart, rest⟩ := List.nodup_cons.mp once
    obtain ⟨rows, markers⟩ := ih rest (b.writeRun r c m cells) (by simpa using row) (by simpa using marker)
    dsimp only
    rw [List.foldl_cons, rows, markers]
    by_cases same : i = r
    · subst same
      rw [if_neg apart, if_neg apart, if_pos List.mem_cons_self, if_pos List.mem_cons_self, writeRun_row _ row,
        writeRun_marker _ marker]
      exact ⟨rfl, rfl⟩
    · simp only [List.mem_cons, same, false_or, writeRun_row_ne _ same, writeRun_marker_ne _ same, and_self]

/-- The rows of a rectangle. -/
theorem mem_fillRows (r0 r1 i : Nat) :
    i ∈ (Config.boardRows.filter fun r => decide (r0 ≤ r) && decide (r ≤ r1)) ↔ i < 16 ∧ r0 ≤ i ∧ i ≤ r1 := by
  simp only [List.mem_filter, mem_boardRows, Bool.and_eq_true, decide_eq_true_eq]

theorem fillRows_nodup (r0 r1 : Nat) :
    (Config.boardRows.filter fun r => decide (r0 ≤ r) && decide (r ≤ r1)).Nodup := List.Nodup.filter _ (by decide)

/-- A cell of any row after a rectangle was filled (R152, R154). -/
theorem fillRect_get {s : State} (sound : s.WithinCapacity) {i k : Nat} (row : i < 16) (column : k < 48)
    (r0 r1 c0 c1 : Nat) (m : PlaneMask) (x : Cell) : ((s.board.fillRect r0 r1 c0 c1 m x).row i)[k]? =
      if r0 ≤ i ∧ i ≤ r1 ∧ c0 ≤ k ∧ k ≤ c1 then some (m.blend ((s.board.row i).getD k {}) x)
      else (s.board.row i)[k]? := by
  obtain ⟨-, -, -, -, -, -, -, -, rows, -, markers, -⟩ := id sound
  have filled := (writeRows_row _ (fillRows_nodup r0 r1) s.board c0 m (List.replicate (c1 + 1 - c0) x) (i := i)
    (rows ▸ row) (markers ▸ row)).1
  unfold Board.fillRect
  rw [filled]
  simp only [mem_fillRows, row, true_and]
  by_cases within : r0 ≤ i ∧ i ≤ r1
  · rw [if_pos within, overlay_get _ _ _ _ _ ((row_length sound row).symm ▸ column), List.length_replicate]
    by_cases inside : c0 ≤ k ∧ k ≤ c1
    · rw [if_pos (by omega), if_pos ⟨within.1, within.2, inside⟩, List.getD_replicate (h := by omega)]
    · rw [if_neg (by omega), if_neg fun h => inside h.2.2]
  · rw [if_neg within, if_neg fun h => within ⟨h.1, h.2.1⟩]

/-- Each row's marker after a rectangle was filled (R149). -/
theorem fillRect_marker_after {s : State} (sound : s.WithinCapacity) {i : Nat} (row : i < 16) (r0 r1 c0 c1 : Nat)
    (m : PlaneMask) (x : Cell) : (s.board.fillRect r0 r1 c0 c1 m x).marker i = markerAfter (s.board.marker i)
      (changedColumn (s.board.row i) ((s.board.fillRect r0 r1 c0 c1 m x).row i)) := by
  obtain ⟨-, -, -, -, -, -, -, -, rows, -, markers, -⟩ := id sound
  obtain ⟨newRow, newMarker⟩ := writeRows_row _ (fillRows_nodup r0 r1) s.board c0 m (List.replicate (c1 + 1 - c0) x)
    (i := i) (rows ▸ row) (markers ▸ row)
  unfold Board.fillRect
  rw [newRow, newMarker]
  split
  · rw [lowerMarker_eq, firstChange_eq_changedColumn (row_length sound row) (overlay_length ..).symm]
  · rw [changedColumn_self, markerAfter_none]

/-! ### A completed console operation (R150) -/

theorem answerHead_cons {s : State} {f : Frame} {fs : List Frame} (queue : s.mgmt.queue = f :: fs) (op : ConsoleOp) :
    s.answerHead op = { s with
      mgmt := { s.mgmt with queue := fs }
      out := s.out.offer (replyFrame f.request op.result.1 op.result.2 []) } := by
  unfold State.answerHead
  simp only [queue]
  have tail : fs = s.mgmt.queue.tail := by rw [queue]; rfl
  rw [tail]
  rfl

theorem applyConsole_rest (s : State) (op : ConsoleOp) : s.SameRace (s.applyConsole op)
    ∧ (s.applyConsole op).results = s.results ∧ (s.applyConsole op).mgmt = s.mgmt ∧ (s.applyConsole op).out = s.out
    ∧ (s.applyConsole op).shifter.scanner = s.shifter.scanner := by
  cases op with
  | sendRow r h cells => exact ⟨loadHalf_same s r 0 h cells, rfl, rfl, rfl, loadHalf_scanner s r 0 h cells⟩
  | _ => exact ⟨⟨rfl, rfl, rfl, rfl, rfl, rfl, rfl, rfl, rfl⟩, rfl, rfl, rfl, rfl⟩

theorem exec_boardOperation_live {s : State} {op : ConsoleOp} (live : s.Live)
    (running : s.board.operation = some (.console op)) : exec .boardOperationComplete s =
      .next (((s.applyConsole op).answerHead op).freeBoard) := by
  rw [exec_boardOperationComplete_run, run_live live]
  simp only [running]

/-- Each row's marker after a console operation that is no SEND_ROW_NOW (R149). -/
theorem applyConsole_marker {s : State} (sound : s.WithinCapacity) {op : ConsoleOp}
    (writer : ∀ r h cells, op ≠ .sendRow r h cells) {i : Nat} (row : i < 16) : (s.applyConsole op).board.marker i =
      markerAfter (s.board.marker i) (changedColumn (s.board.row i) ((s.applyConsole op).board.row i)) := by
  have kept {b : Board} (rows : b.rows = s.board.rows) (markers : b.markers = s.board.markers) : b.marker i =
      markerAfter (s.board.marker i) (changedColumn (s.board.row i) (b.row i)) := by
    have sameRow : b.row i = s.board.row i := by rw [Board.row, rows]; rfl
    have sameMarker : b.marker i = s.board.marker i := by rw [Board.marker, markers]; rfl
    rw [sameRow, sameMarker, changedColumn_self, markerAfter_none]
  cases op with
  | writeCells r c m cells => exact writeRun_marker_after sound row r c m cells
  | fill r0 r1 c0 c1 m x => exact fillRect_marker_after sound row r0 r1 c0 c1 m x
  | loadPattern x => exact kept rfl rfl
  | writeLayout l => exact kept rfl rfl
  | sendRow r h cells => exact absurd rfl (writer r h cells)

/-- The number of cells that a WRITE_CELLS cut at its row's end writes (R153). -/
def ConsoleOp.cut : ConsoleOp → Option Nat
  | .writeCells _ c _ cells => if 48 < c + cells.length then some (48 - c) else none
  | _ => none

theorem result_whole {op : ConsoleOp} (whole : op.cut = none) : op.result = (.done, 0) := by
  cases op with
  | writeCells r c m cells =>
    refine if_neg fun beyond => ?_
    exact absurd ((if_pos (show 48 < c + cells.length from beyond)).symm.trans whole) (by simp)
  | _ => rfl

theorem result_clamped {op : ConsoleOp} {k : Nat} (clamped : op.cut = some k) : op.result = (.doneClamped, k) := by
  cases op with
  | writeCells r c m cells =>
    by_cases beyond : 48 < c + cells.length
    · have width : 48 - c = k := Option.some.inj ((if_pos beyond).symm.trans clamped)
      exact (if_pos beyond).trans (congrArg _ width)
    · exact absurd ((if_neg beyond).symm.trans clamped) (by simp)
  | _ => cases clamped

theorem State.ArbiterOnly.meet {s t : State} (h : s.ArbiterOnly t) :
    t.board.pattern = s.board.pattern ∧ t.board.layout = s.board.layout := by
  obtain ⟨_, _, _, _, _, _, _, rfl⟩ := h
  exact ⟨rfl, rfl⟩

/-- Settles O50: the operation's own changes, its REPLY, and a grant that changes only claims. -/
theorem boardOperationCompletes : Obligations.BoardOperationCompletes := by
  intro s f fs op live sound running queue cut settled
  obtain ⟨race, results, mgmt, out, scanner⟩ := applyConsole_rest s op
  obtain ⟨v, ev⟩ : ∃ v, v = s.applyConsole op := ⟨_, rfl⟩
  have answered := answerHead_cons (s := v) (f := f) (fs := fs) (by rw [ev, mgmt, queue]) op
  obtain ⟨w, ew⟩ : ∃ w, w = v.answerHead op := ⟨_, rfl⟩
  rw [← ew] at answered
  have kept : v.SameRace w ∧ w.results = v.results ∧ w.board = v.board ∧ w.shifter = v.shifter
      ∧ w.mgmt = { v.mgmt with queue := fs } ∧ w.out = v.out.offer (replyFrame f.request op.result.1 op.result.2 []) := by
    rw [answered]
    exact ⟨⟨rfl, rfl, rfl, rfl, rfl, rfl, rfl, rfl, rfl⟩, rfl, rfl, rfl, rfl, rfl⟩
  obtain ⟨race', results', board', shifter', mgmt', out'⟩ := kept
  obtain ⟨race'', results'', out'', rows'', scanner'', full''⟩ := (freeBoard_arbiterOnly w).rest
  have keptBoard := (freeBoard_arbiterOnly w).meet
  have calm (none : settled) : ∀ r, w.mgmt.claim ≠ some (.sendRow r) := by
    rw [mgmt', ev, mgmt]
    exact none
  have told : w.freeBoard.out = s.out.offer (replyFrame f.request op.result.1 op.result.2 []) := by
    rw [out'', out', ev, out]
  have row (i : Nat) : w.freeBoard.board.row i = (s.applyConsole op).board.row i := by
    unfold Board.row
    rw [rows'', board', ev]
  refine ⟨w.freeBoard, (exec_boardOperation_live live running).trans (by rw [ew, ev]), ?_, ?_, ?_,
    (ev ▸ race).trans (race'.trans race''), results''.trans (results'.trans (by rw [ev, results])), ?_, ?_, ?_, ?_, ?_, ?_⟩
  · obtain ⟨_, _, _, _, _, _, _, e⟩ := freeBoard_arbiterOnly w
    rw [e, mgmt']
  · intro whole
    rw [told, result_whole whole]
  · intro k clamped
    rw [told, result_clamped clamped]
  · intro r c m cells writes i below k column
    rw [row, writes]
    exact writeRun_get sound below column r c m cells
  · intro r0 r1 c0 c1 m x fills i below k column
    rw [row, fills]
    exact fillRect_get sound below column r0 r1 c0 c1 m x
  · intro x loads
    rw [keptBoard.1, board', ev, loads, rows'', board', ev, loads]
    exact ⟨rfl, rfl⟩
  · intro l writes
    rw [keptBoard.2, board', ev, writes, rows'', board', ev, writes]
    exact ⟨rfl, rfl⟩
  · intro none writer i below
    rw [(freeBoard_claimsOnly (calm none)).marker, board', row, ev]
    exact applyConsole_marker sound writer below
  · intro r h cells sends
    have loaded : v = s.loadHalf r 0 h cells := by rw [ev, sends]; rfl
    refine ⟨by rw [rows'', board', loaded]; rfl, by rw [scanner'', shifter', ev, scanner], fun inside => ?_,
      fun none within => ?_⟩
    · obtain ⟨-, -, -, -, -, -, -, -, -, -, -, last, -⟩ := sound
      rw [full'', shifter', loaded]
      show (s.shifter.lastFull.set r s.deckTime).getD r 0 = s.deckTime
      rw [List.getD_eq_getElem _ _ (by simpa [last] using inside), List.getElem_set_self]
    · have claims := freeBoard_claimsOnly (calm none)
      obtain ⟨own, other⟩ := loadHalf_half s r 0 within cells
      have half (k : Nat) : w.freeBoard.shifter.half k = (s.loadHalf r 0 h cells).shifter.half k := by
        rw [claims.half, shifter', loaded]
      refine ⟨?_, (half h).trans own, fun k below ne => (half k).trans (other k below ne)⟩
      rw [claims.rest.1, board', loaded]
      rfl

end Sys2Proof.Machine
end

