-- ==== Sys2Proof/Proofs/BoardRequests.lean ====
section
/-! Board requests: what each check grants, refuses and reads from its request (R135, R150 to R156, R166, R183). -/

namespace Sys2Proof.Machine

/-! ### A claim of the console (R135, R150) -/

theorem exec_board_claimed {c : Instr} {s : State} {f : Frame} {code : Byte} {form : List Byte → Bool}
    {check : State → List Byte → BoardCheck} (ran : exec c s = s.run fun s => s.boardRequest code form check)
    (asked : s.Asks f code form) {q : BoardRequest} (passed : check s f.request.fields = .claim q) :
    exec c s = .next (State.arbitrate { s with mgmt := { s.mgmt with claim := some q } }) := by
  rw [ran, run_live asked.1, boardRequest_asked asked, passed]

theorem exec_board_refused {c : Instr} {s : State} {f : Frame} {code : Byte} {form : List Byte → Bool}
    {check : State → List Byte → BoardCheck} (ran : exec c s = s.run fun s => s.boardRequest code form check)
    (asked : s.Asks f code form) {r : ReplyResult} {d : Nat} (failed : check s f.request.fields = .refuse r d) :
    exec c s = .next { s with mgmt := s.mgmt.popped, out := s.out.offer (replyFrame f.request r d []) } := by
  rw [ran, run_live asked.1, boardRequest_asked asked, failed]
  rfl

theorem displace_mgmt (s : State) (n : Nat) : (s.displace n).mgmt = s.mgmt := by
  unfold State.displace State.examineShifter
  split
  · split <;> rfl
  · rfl

theorem grantConsole_mgmt (s : State) (q : BoardRequest) : (s.grantConsole q).mgmt = { s.mgmt with claim := none } := by
  unfold State.grantConsole
  cases q with
  | sendRow r => exact congrArg (fun m => { m with claim := none }) (displace_mgmt s _)
  | _ => rfl

/-- A claim raised while Board Memory is free and no other claim waits is granted (R150). -/
theorem arbitrate_console {s : State} (free : s.board.operation = none ∧ s.shifter.claim = false ∧ s.composer.queue = [])
    (q : BoardRequest) : State.arbitrate { s with mgmt := { s.mgmt with claim := some q } } =
      State.grantConsole { s with mgmt := { s.mgmt with claim := some q } } q := by
  obtain ⟨idle, quiet, none⟩ := free
  rw [arbitrate_unclaimed (s := { s with mgmt := { s.mgmt with claim := some q } }) idle quiet, State.grantWriter]
  simp only [none]

/-- A granted claim: the operation in progress, the head of the queue kept, the rest as it was. -/
theorem board_granted {s : State} (free : s.board.operation = none ∧ s.shifter.claim = false ∧ s.composer.queue = [])
    (q : BoardRequest) :
    let t := State.arbitrate { s with mgmt := { s.mgmt with claim := some q } }
    t.board.operation = some (.console (s.consoleOp q)) ∧ t.mgmt = { s.mgmt with claim := none } ∧ t.out = s.out
      ∧ s.SameRace t ∧ s.SameMeet t ∧ t.results = s.results := by
  rw [arbitrate_console free]
  have acted := grantConsole_arbiterOnly { s with mgmt := { s.mgmt with claim := some q } } q
  obtain ⟨race, results, out, -⟩ := acted.rest
  exact ⟨by unfold State.grantConsole; cases q <;> rfl, grantConsole_mgmt _ _, out, race, acted.sameMeet, results⟩

/-- The half that a granted SEND_ROW_NOW displaces (R166). -/
theorem displace_loaded {s : State} {n r c : Nat} {cs : List Cell} (loaded : s.shifter.half n = .loaded r c cs) :
    State.ClaimsOnly
      { s with
        shifter := s.shifter.setHalf n .empty
        board := { s.board with markers := s.board.markers.set r (markerAfter (s.board.marker r) (some c)) } }
      (s.displace n) := by
  unfold State.displace
  simp only [loaded, ← lowerMarker_eq]
  exact examineShifter_claimsOnly _

theorem target_lt (h : Shifter) : h.target < 2 := by
  unfold Shifter.target
  split <;> decide

/-- What the grant of a SEND_ROW_NOW does to the halves and the markers (R166). -/
theorem sendRow_granted {s : State} (free : s.board.operation = none ∧ s.shifter.claim = false ∧ s.composer.queue = [])
    (row : Nat) :
    let t := State.arbitrate { s with mgmt := { s.mgmt with claim := some (.sendRow row) } }
    (∀ r c cs, s.shifter.half s.shifter.target = .loaded r c cs → t.shifter.half s.shifter.target = .empty
        ∧ t.board.markers = s.board.markers.set r (markerAfter (s.board.marker r) (some c)))
      ∧ ((∀ r c cs, s.shifter.half s.shifter.target ≠ .loaded r c cs) →
        t.shifter = s.shifter ∧ t.board.markers = s.board.markers)
      ∧ (∀ h < 2, h ≠ s.shifter.target → t.shifter.half h = s.shifter.half h)
      ∧ t.shifter.scanner = s.shifter.scanner ∧ t.shifter.lastFull = s.shifter.lastFull := by
  rw [arbitrate_console free]
  obtain ⟨u, eu⟩ : ∃ u : State, u = { s with mgmt := { s.mgmt with claim := some (.sendRow row) } } := ⟨_, rfl⟩
  have shifter : u.shifter = s.shifter := by rw [eu]
  have board : u.board = s.board := by rw [eu]
  rw [← eu, ← shifter, ← board]
  have acted := grantConsole_arbiterOnly u (.sendRow row)
  obtain ⟨-, -, -, -, scanner, full⟩ := acted.rest
  have held : (u.grantConsole (.sendRow row)).shifter = (u.displace u.shifter.target).shifter := rfl
  have marked : (u.grantConsole (.sendRow row)).board.markers = (u.displace u.shifter.target).board.markers := rfl
  have halves (n : Nat) : (u.grantConsole (.sendRow row)).shifter.half n = (u.displace u.shifter.target).shifter.half n := by
    rw [held]
  refine ⟨fun r c cs loaded => ?_, fun unloaded => ?_, fun h below other => ?_, scanner, full⟩
  · have displaced := displace_loaded loaded
    exact ⟨(halves _).trans ((displaced.half _).trans (half_setHalf_self _ _ _)), marked.trans displaced.rest.1⟩
  · rw [held, marked, displace_unloaded unloaded]
    exact ⟨rfl, rfl⟩
  · rw [halves]
    cases target : u.shifter.half u.shifter.target with
    | loaded r c cs =>
      exact ((displace_loaded target).half h).trans (half_setHalf_ne _ (target_lt _) below other _)
    | _ => rw [displace_unloaded fun r c cs => by rw [target]; simp]

/-! ### The layout of a request (R156, R183) -/

theorem take_map_toNat {n : Nat} {fs : List Byte} (inside : n ≤ fs.length) :
    (fs.take n).map (·.toNat) = (List.range n).map (byteAt fs) := by
  refine List.ext_getElem (by simpa using inside) fun i below _ => ?_
  simp only [List.length_map, List.length_take] at below
  simp only [List.getElem_map, List.getElem_take, List.getElem_range, byteAt, List.getD_eq_getElem?_getD]
  rw [List.getElem?_eq_getElem (by omega)]
  rfl

theorem getElem?_byteAt {fs : List Byte} {i : Nat} (inside : i < fs.length) :
    ∃ b : Byte, fs[i]? = some b ∧ byteAt fs i = b.toNat := by
  refine ⟨fs[i], List.getElem?_eq_getElem inside, ?_⟩
  rw [byteAt, List.getD_eq_getElem?_getD, List.getElem?_eq_getElem inside]
  rfl

theorem toNat_eq_255 (b : Byte) : b.toNat = 255 ↔ b = 0xFF :=
  ⟨fun h => BitVec.eq_of_toNat_eq h, fun h => by rw [h]; rfl⟩

/-- The lowest field of a layout at fault, or 14 for the Lane Row Map (R156). -/
theorem layoutFaults_lowest {fs : List Byte} (full : fs.length = 26) :
    let past (i width : Nat) : Prop := 47 < byteAt fs i + width - 1
    Lowest (fun k => (k = 1 ∧ (15 < byteAt fs 0 ∨ past 1 3)) ∨ (k = 2 ∧ (15 < byteAt fs 2 ∨ past 3 2))
        ∨ (k = 3 ∧ (15 < byteAt fs 4 ∨ past 5 7)) ∨ (k = 4 ∧ past 6 2) ∨ (k = 5 ∧ past 7 3) ∨ (k = 6 ∧ past 8 5)
        ∨ (k = 7 ∧ past 9 8) ∨ (8 ≤ k ∧ k ≤ 13 ∧ 7 < byteAt fs (k + 2))
        ∨ (k = 14 ∧ ∃ i < 10, 15 < byteAt fs (16 + i) ∧ byteAt fs (16 + i) ≠ 255)) (firstHeld (layoutFaults fs)) := by
  intro past
  have rows : ((fs.drop 16).any fun b => decide (15 < b.toNat) && b != 0xFF) = true ↔
      ∃ i < 10, 15 < byteAt fs (16 + i) ∧ byteAt fs (16 + i) ≠ 255 := by
    rw [List.any_eq_true]
    constructor
    · rintro ⟨b, mem, bad⟩
      obtain ⟨i, found⟩ := List.mem_iff_getElem?.mp mem
      have inside := (List.getElem?_eq_some_iff.mp found).1
      rw [List.length_drop, full] at inside
      obtain ⟨b', same, value⟩ := getElem?_byteAt (fs := fs) (i := 16 + i) (by omega)
      rw [List.getElem?_drop, same] at found
      obtain rfl := Option.some.inj found
      refine ⟨i, by omega, ?_⟩
      rw [value, ne_eq, toNat_eq_255]
      simpa using bad
    · rintro ⟨i, below, bad⟩
      obtain ⟨b, found, value⟩ := getElem?_byteAt (fs := fs) (i := 16 + i) (by omega)
      refine ⟨b, List.mem_iff_getElem?.mpr ⟨i, by rw [List.getElem?_drop, found]⟩, ?_⟩
      rw [value, ne_eq, toNat_eq_255] at bad
      simpa using bad
  refine lowest_of_checks (layoutFaults fs) rfl (by simp [layoutFaults]) fun k => ?_
  simp only [layoutFaults, List.mem_cons, Prod.mk.injEq, List.not_mem_nil, or_false, eq_comm (a := true),
    Bool.or_eq_true, decide_eq_true_eq, rows]
  have colours : (8 ≤ k ∧ k ≤ 13 ∧ 7 < byteAt fs (k + 2)) ↔ (k = 8 ∧ 7 < byteAt fs 10) ∨ (k = 9 ∧ 7 < byteAt fs 11)
      ∨ (k = 10 ∧ 7 < byteAt fs 12) ∨ (k = 11 ∧ 7 < byteAt fs 13) ∨ (k = 12 ∧ 7 < byteAt fs 14)
      ∨ (k = 13 ∧ 7 < byteAt fs 15) := by
    constructor
    · rintro ⟨least, most, bad⟩
      interval_cases k <;> simpa using bad
    · rintro (⟨rfl, bad⟩ | ⟨rfl, bad⟩ | ⟨rfl, bad⟩ | ⟨rfl, bad⟩ | ⟨rfl, bad⟩ | ⟨rfl, bad⟩) <;>
        exact ⟨by decide, by decide, bad⟩
  rw [colours]
  simp only [or_assoc, past]

/-- The layout that a request's bytes carry (R155, R183). -/
theorem layout_bytes {fs : List Byte} (full : fs.length = 26) :
    let l := Layout.ofBytes fs
    [l.eventRow, l.eventCol, l.heatRow, l.heatCol, l.clockRow, l.clockCol, l.laneCol, l.placeCol, l.reactionCol,
        l.timeCol] = (fs.take 10).map (·.toNat)
      ∧ [l.normal, l.first, l.second, l.third, l.disqualified, l.review].map (·.toNat)
        = ((fs.drop 10).take 6).map (·.toNat % 8)
      ∧ l.laneRows.length = 10
      ∧ ∀ i < 10, l.laneRows[i]? = some (if byteAt fs (16 + i) = 255 then none else some (byteAt fs (16 + i))) := by
  refine ⟨(take_map_toNat (n := 10) (fs := fs) (by omega)).symm, ?_, ?_, fun i below => ?_⟩
  · have colours := congrArg (List.map (· % 8)) (take_map_toNat (n := 6) (fs := fs.drop 10) (by simp [full]))
    rw [List.map_map] at colours
    refine .trans ?_ colours.symm
    have read (i : Nat) : byteAt (fs.drop 10) i = byteAt fs (10 + i) := by
      simp only [byteAt, List.getD_eq_getElem?_getD, List.getElem?_drop]
    show _ = [0, 1, 2, 3, 4, 5].map fun i => byteAt (fs.drop 10) i % 8
    simp only [read, List.map_cons, List.map_nil, Layout.ofBytes, BitVec.toNat_ofNat, Nat.reduceAdd, Nat.reducePow]
  · simp [Layout.ofBytes, full]
  · obtain ⟨b, found, value⟩ := getElem?_byteAt (fs := fs) (i := 16 + i) (by omega)
    simp only [Layout.ofBytes, List.getElem?_map, List.getElem?_drop, found, Option.map_some, value, toNat_eq_255]

theorem ofBytes_cell (fs : List Byte) : Cell.ofBytes fs =
    { glyph := fs.getD 0 0, colour := BitVec.ofNat 3 (byteAt fs 1 % 8), blink := byteAt fs 1 / 8 % 2 == 1 } := by
  have colour : BitVec.ofNat 3 (byteAt fs 1) = BitVec.ofNat 3 (byteAt fs 1 % 8) := BitVec.eq_of_toNat_eq (by simp)
  have blink : (byteAt fs 1).testBit 3 = (byteAt fs 1 / 8 % 2 == 1) := by
    rw [Nat.testBit_eq_decide_div_mod_eq, beq_eq_decide]
  rw [Cell.ofBytes, colour, blink]

theorem find?_of_firstHeld {cs : List (Nat × Bool)} :
    (firstHeld cs = none → cs.find? (·.2) = none) ∧ ∀ d, firstHeld cs = some d → ∃ b, cs.find? (·.2) = some (d, b) := by
  unfold firstHeld
  refine ⟨fun none => Option.map_eq_none_iff.mp none, fun d some => ?_⟩
  obtain ⟨⟨k, b⟩, found, rfl⟩ := Option.map_eq_some_iff.mp some
  exact ⟨b, found⟩

/-- Settles O49: each check, then the claim or the refusal it gives. -/
theorem boardRequestsGranted : Obligations.BoardRequestsGranted := by
  refine ⟨fun s f => ?_, fun b => rfl, ofBytes_cell, fun fs full => layout_bytes full⟩
  intro fs bad free mask claims refused cells target
  have claiming {c : Instr} {code : Byte} {form : List Byte → Bool} {check : State → List Byte → BoardCheck}
      (ran : exec c s = s.run fun s => s.boardRequest code form check) (asked : s.Asks f code form) {q : BoardRequest}
      {op : ConsoleOp} (passed : check s f.request.fields = .claim q) (granted : s.consoleOp q = op) : claims c q op := by
    refine ⟨fun unclaimed => ⟨_, exec_board_claimed ran asked passed, ?_⟩, fun busy => ?_⟩
    · exact granted ▸ board_granted unclaimed q
    · rw [exec_board_claimed ran asked passed]
      exact congrArg _ (arbitrate_busy busy)
  have refusing {c : Instr} {code : Byte} {form : List Byte → Bool} {check : State → List Byte → BoardCheck}
      (ran : exec c s = s.run fun s => s.boardRequest code form check) (asked : s.Asks f code form) {r : ReplyResult}
      {d : Nat} (failed : check s f.request.fields = .refuse r d) : refused c r d := exec_board_refused ran asked failed
  have form26 (asked : s.Asks f 0x1E (sized 26)) : fs.length = 26 := by simpa [sized] using asked.2.2.2
  refine ⟨fun asked row col => ?_, fun asked rows last cols width => ?_, fun asked row => ?_, fun asked colour blink => ?_,
    fun asked idle sound => ?_, fun asked row => ?_, fun asked row unclaimed t ran => ?_, fun asked row => ?_,
    fun asked row col => ?_, fun asked row => ?_, fun asked rows last col => ?_, fun asked row => ?_,
    fun asked colour => ?_, fun asked colour blink => ?_, fun asked busy => ?_, fun d asked idle fault first => ?_,
    fun asked row => ?_⟩
  · refine claiming (exec_writeCells_run s) asked ?_ rfl
    exact (if_neg (Nat.not_lt.mpr row)).trans (if_neg (Nat.not_lt.mpr col))
  · refine claiming (exec_fillGroup_run s) asked ?_ rfl
    exact (if_neg (show ¬(15 < byteAt fs 0 ∨ 15 < byteAt fs 1 ∨ byteAt fs 1 < byteAt fs 0) by omega)).trans
      (if_neg (show ¬(47 < byteAt fs 2 ∨ 47 < byteAt fs 3 ∨ byteAt fs 3 < byteAt fs 2) by omega))
  · exact claiming (exec_clearRow_run s) asked (if_neg (Nat.not_lt.mpr row)) rfl
  · refine claiming (exec_loadPattern_run s) asked ?_ rfl
    exact (if_neg (Nat.not_lt.mpr colour)).trans (if_neg (Nat.not_lt.mpr blink))
  · refine claiming (exec_writeLayout_run s) asked ?_ rfl
    have none := find?_of_firstHeld.1 ((layoutFaults_lowest (form26 asked)).1.mpr sound)
    refine (if_neg (not_not.mpr idle)).trans ?_
    rw [none]
  · exact claiming (exec_sendRowNow_run s) asked (if_neg (Nat.not_lt.mpr row)) rfl
  · have eq : exec .sendRowNow s = _ := exec_board_claimed (exec_sendRowNow_run s) asked (if_neg (Nat.not_lt.mpr row))
    rw [eq] at ran
    cases ran
    exact sendRow_granted unclaimed (byteAt fs 0)
  · exact refusing (exec_writeCells_run s) asked (if_pos row)
  · exact refusing (exec_writeCells_run s) asked ((if_neg (Nat.not_lt.mpr row)).trans (if_pos col))
  · exact refusing (exec_fillGroup_run s) asked (if_pos row)
  · refine refusing (exec_fillGroup_run s) asked ?_
    exact (if_neg (show ¬(15 < byteAt fs 0 ∨ 15 < byteAt fs 1 ∨ byteAt fs 1 < byteAt fs 0) by omega)).trans (if_pos col)
  · exact refusing (exec_clearRow_run s) asked (if_pos row)
  · exact refusing (exec_loadPattern_run s) asked (if_pos colour)
  · exact refusing (exec_loadPattern_run s) asked ((if_neg (Nat.not_lt.mpr colour)).trans (if_pos blink))
  · exact refusing (exec_writeLayout_run s) asked (if_pos busy)
  · obtain ⟨b, found⟩ := find?_of_firstHeld.2 d (((layoutFaults_lowest (form26 asked)).2 d).mpr ⟨fault, first⟩)
    refine refusing (exec_writeLayout_run s) asked ((if_neg (not_not.mpr idle)).trans ?_)
    rw [found]
  · exact refusing (exec_sendRowNow_run s) asked (if_pos row)

end Sys2Proof.Machine
end

