-- ==== Sys2Proof/Proofs/PendingFields.lean ====
section
/-! The fields a command makes pending and the lanes it hands over, through the grant that may follow (R150, R157,
R160). -/

namespace Sys2Proof.Machine

/-! ### Field writes formed alike -/

/-- Two states that form the same field write of every field. -/
def State.ShowsAlike (s t : State) : Prop := ∀ x, t.fieldWrite x = s.fieldWrite x

theorem State.ArbiterOnly.showsAlike {s t : State} (h : s.ArbiterOnly t) : s.ShowsAlike t := by
  obtain ⟨_, _, _, _, _, _, _, rfl⟩ := h
  intro x
  cases x <;> rfl

theorem popHead_showsAlike (s : State) : s.ShowsAlike s.popHead := by
  intro x
  cases x <;> rfl

/-! ### A grant to the Composer -/

theorem displace_composer (s : State) (n : Nat) : (s.displace n).composer = s.composer := by
  unfold State.displace
  split
  · unfold State.examineShifter
    split <;> rfl
  · rfl

theorem grantConsole_composer (s : State) (q : BoardRequest) : (s.grantConsole q).composer = s.composer := by
  cases q with
  | sendRow r => exact displace_composer s _
  | _ => rfl

/-- A grant leaves the pending list, or takes its head for a field write. -/
theorem arbitrate_queue (s : State) : s.arbitrate.composer.queue = s.composer.queue
    ∨ ∃ x, s.composer.queue = x :: s.arbitrate.composer.queue ∧ s.arbitrate.board.operation = some (s.fieldWrite x) := by
  have shifter : s.grantShifter.composer = s.composer := by
    unfold State.grantShifter
    split <;> rfl
  unfold State.arbitrate
  dsimp only
  split
  · exact .inl rfl
  · split
    · exact .inl (by rw [shifter])
    · unfold State.grantWriter
      split
      · next x fs queue =>
        refine .inr ⟨x, shifter ▸ queue, ?_⟩
        exact congrArg some ((grantShifter_arbiterOnly s).showsAlike x)
      · split
        · next q _ =>
          left
          rw [grantConsole_composer, shifter]
        · exact .inl (by rw [shifter])

theorem arbitrate_busy_queue {s : State} (busy : s.board.operation.isSome = true) :
    s.arbitrate.composer.queue = s.composer.queue := by rw [arbitrate_busy busy]

/-! ### The fields a command makes pending -/

theorem hides_eq (l : Layout) (x : BoardField) :
    (x.lane?.any fun n => (l.laneRows[n]?).join.isNone) = l.hides x := by
  cases x <;> rfl

/-- A command that puts fields on the list, and then lets the arbiter act. -/
theorem pends_arbitrate {s u : State} {fields : List BoardField} (operation : u.board.operation = s.board.operation)
    (queue : u.composer.queue = s.composer.queue
      ++ fields.filter fun x => !s.board.layout.hides x && !s.composer.queue.contains x) :
    s.Pends u.arbitrate fields := by
  unfold State.Pends
  dsimp only
  simp only [hides_eq, ← queue]
  refine ⟨fun busy => arbitrate_busy_queue (operation ▸ busy), ?_⟩
  rcases arbitrate_queue u with same | ⟨x, head, granted⟩
  · exact .inl same
  · exact .inr ⟨x, head, granted.trans (congrArg some ((arbitrate_arbiterOnly u).showsAlike x).symm)⟩

theorem State.Pends.popHead {s u : State} {fields : List BoardField} (h : s.Pends u fields) : s.Pends u.popHead fields := by
  obtain ⟨busy, free⟩ := h
  refine ⟨busy, free.imp id fun ⟨x, head, granted⟩ => ⟨x, head, ?_⟩⟩
  exact granted.trans (congrArg some (popHead_showsAlike u x).symm)

/-! ### The lanes handed over -/

/-- Each field of a lane is on the pending list, unless the lane is hidden. -/
def State.LanePending (s : State) (lane : Nat) : Prop :=
  ∀ x ∈ Machine.laneFields lane, s.board.layout.hides x = false → x ∈ s.composer.queue

/-- The pending list of `t` holds what that of `s` holds, under the same layout. -/
def State.PendsMore (s t : State) : Prop :=
  t.board.layout = s.board.layout ∧ ∀ x ∈ s.composer.queue, x ∈ t.composer.queue

theorem State.PendsMore.refl (s : State) : s.PendsMore s := ⟨rfl, fun _ => id⟩

theorem State.PendsMore.trans {s t u : State} (h : s.PendsMore t) (k : t.PendsMore u) : s.PendsMore u :=
  ⟨k.1.trans h.1, fun x mem => k.2 x (h.2 x mem)⟩

theorem State.LanePending.more {s t : State} {lane : Nat} (h : s.LanePending lane) (k : s.PendsMore t) :
    t.LanePending lane := fun x field shown => k.2 x (h x field (k.1 ▸ shown))

theorem handOver_pendsMore (s : State) (old : List LaneRecord) (named : Option Nat) :
    s.PendsMore (s.handOver old named) := by
  refine ⟨?_, fun x mem => (mem_handOver s old named x).mpr (.inl mem)⟩
  obtain ⟨_, e⟩ : s.PendingOnly (s.handOver old named) := makeAllPending_pendingOnly s _
  rw [e]

theorem decideLamp_composer (s : State) (lane : Nat) : (s.decideLamp lane).composer = s.composer := by
  unfold State.decideLamp
  split
  · rfl
  · split
    · rfl
    · next r _ _ =>
      obtain ⟨_, -, e⟩ := offerLamp_outOnly s lane r.lampOf
      simp only [e]

theorem placerPass_composer (s : State) (w : List LaneRecord) (lane : Nat) (rep : LaneRecord → Option Report) :
    (s.placerPass w lane rep).composer = s.composer := by
  have lamps : ∀ u : State, u.decideLamps.composer = u.composer := fun u =>
    foldl_keeps (fun a b : State => b.composer = a.composer) (fun _ => rfl) (fun _ _ _ h k => k.trans h) _
      decideLamp_composer _ u
  have reported : ∀ (u : State) (r : Option Report), (u.reportOpt r).composer = u.composer := by
    intro u r
    cases r <;> rfl
  unfold State.placerPass
  dsimp only
  rw [lamps]
  split
  · rw [reported]
  · exact reported _ _

theorem commit_pendsMore (s : State) (lane : Nat) (f : LaneRecord → LaneRecord)
    (reach names : LaneRecord → LaneRecord → Bool) (rep : LaneRecord → Option Report) :
    s.PendsMore (s.commit lane f reach names rep) := by
  have layout : (s.commit lane f reach names rep).board = s.board := by
    obtain ⟨_, _, _, -, e⟩ := commit_recordsOnly s lane f reach names rep
    rw [e]
  refine ⟨by rw [layout], fun x mem => ?_⟩
  unfold State.commit
  split
  · exact mem
  · refine (handOver_pendsMore _ _ _).2 x ?_
    split
    · rw [placerPass_composer]
      exact mem
    · next r _ _ =>
      cases rep (f r) <;> exact mem

/-- A named change hands its lane over (R160). -/
theorem commit_lanePending {s : State} {lane : Nat} {f : LaneRecord → LaneRecord} {r : LaneRecord}
    (held : s.record? lane = some r) (lanes : ∀ x, (f x).lane = x.lane) {reach names : LaneRecord → LaneRecord → Bool}
    (named : names r (f r) = true) (rep : LaneRecord → Option Report) :
    (s.commit lane f reach names rep).LanePending lane := by
  have same := commit_lanes s lane lanes reach names rep
  obtain ⟨u, whole, results⟩ : ∃ u : State, s.commit lane f reach names rep = u.handOver s.results (some lane)
      ∧ u.results = (s.commit lane f reach names rep).results := by
    unfold State.commit
    simp only [held, named, if_true]
    exact ⟨_, rfl, (handOver_results _ _ _).symm⟩
  have layout : (u.handOver s.results (some lane)).board = u.board := by
    obtain ⟨_, e⟩ : u.PendingOnly (u.handOver s.results (some lane)) := makeAllPending_pendingOnly u _
    rw [e]
  rw [whole]
  intro x field shown
  rw [layout] at shown
  refine (mem_handOver _ _ _ _).mpr (.inr ⟨?_, shown⟩)
  obtain ⟨i, inside, at_⟩ := List.mem_iff_getElem.mp (List.mem_of_find?_eq_some held)
  have lanes_eq : u.results.map (·.lane) = s.results.map (·.lane) := by rw [results, same]
  have length : u.results.length = s.results.length := by simpa using congrArg List.length lanes_eq
  have there : i < u.results.length := length ▸ inside
  have number : u.results[i].lane = lane := by
    have r_lane : r.lane = lane := by simpa using List.find?_some held
    have h : (u.results.map (·.lane))[i]? = (s.results.map (·.lane))[i]? := by rw [lanes_eq]
    simp only [List.getElem?_map, List.getElem?_eq_getElem there, List.getElem?_eq_getElem inside, Option.map_some,
      Option.some.injEq, at_, r_lane] at h
    exact h
  refine ⟨(r, u.results[i]), List.mem_iff_getElem.mpr ⟨i, by simpa using ⟨inside, there⟩, by simp [at_]⟩, ?_, ?_⟩
  · simp [LaneRecord.handsOver, number]
  · rw [number]
    exact field

/-- A lane whose fields are pending is handed over, whatever the arbiter then grants. -/
theorem State.LanePending.arbitrate {u : State} {lane : Nat} (h : u.LanePending lane) : u.arbitrate.HandedOver lane := by
  intro x field
  have layout : u.arbitrate.board.layout = u.board.layout := by
    obtain ⟨_, _, _, _, _, _, _, e⟩ := arbitrate_arbiterOnly u
    rw [e]
  have own : x.lane? = some lane := by
    simp only [List.mem_cons, List.not_mem_nil, or_false] at field
    rcases field with rfl | rfl | rfl | rfl <;> rfl
  rw [layout]
  by_cases hidden : u.board.layout.hides x = true
  · right; right
    unfold Layout.hides Layout.rowOf at hidden
    rw [own] at hidden
    simpa using hidden
  · have pending := h x field (by simpa using hidden)
    rcases arbitrate_queue u with same | ⟨y, head, granted⟩
    · exact .inl (same ▸ pending)
    · rw [head, List.mem_cons] at pending
      rcases pending with rfl | later
      · exact .inr (.inl (granted.trans (congrArg some ((arbitrate_arbiterOnly u).showsAlike x).symm)))
      · exact .inl later

theorem State.HandedOver.popHead {u : State} {lane : Nat} (h : u.HandedOver lane) : u.popHead.HandedOver lane :=
  fun x field => (h x field).imp id fun rest => rest.imp
    (fun granted => granted.trans (congrArg some (popHead_showsAlike u x).symm)) id

end Sys2Proof.Machine
end

