-- ==== Sys2Proof/Proofs/RefereeRequests.lean ====
section
/-! The referee's requests on the results: disqualification, and the adjudication of a finish (R101 to R103). -/

namespace Sys2Proof.Machine

/-! ### A change of one record by a request -/

/-- A request that changes lane records, once the arbiter has acted and its frame has left the queue. -/
theorem State.RecordsOnly.request {s u : State} (h : s.RecordsOnly u) : s.SameRace u.arbitrate.popHead
    ∧ s.SameMeet u.arbitrate.popHead ∧ u.arbitrate.popHead.mgmt.queue = s.mgmt.queue.tail
    ∧ u.arbitrate.popHead.results = u.results ∧ u.arbitrate.popHead.out = u.out := by
  obtain ⟨_, _, _, _, _, _, _, e⟩ := arbitrate_arbiterOnly u
  rw [e]
  obtain ⟨_, _, _, dest, rfl⟩ := h
  exact ⟨⟨rfl, rfl, rfl, rfl, rfl, rfl, rfl, rfl, rfl⟩, ⟨rfl, rfl, dest, rfl, rfl, rfl, rfl, rfl⟩, rfl, rfl, rfl⟩

/-- The frames of a change that reaches the Placer (R93). -/
theorem commit_reached {s : State} {lane : Nat} {f : LaneRecord → LaneRecord} {r : LaneRecord}
    (held : s.record? lane = some r) {reach names : LaneRecord → LaneRecord → Bool} (reaches : reach r (f r) = true)
    (rep : LaneRecord → Option Report) :
    (s.commit lane f reach names rep).out = s.afterPlacer (writeRecord s.results lane f) lane rep := by
  unfold State.commit
  simp only [held, reaches, if_true, handOver_out, placerPass_out]

/-! ### SET_DQ (R103) -/

theorem setDq_record {s : State} {q : Request} {r : LaneRecord} (inside : byteAt q.fields 0 < 10)
    (inUse : s.laneInUse (byteAt q.fields 0) = true) (time : s.heat.state = .running ∨ s.heat.state = .results)
    (held : s.record? (byteAt q.fields 0) = some r) (swam : r.status ≠ .dns) (action : byteAt q.fields 1 ≤ 1) :
    setDq s q = ((s.reply q .done).commit (byteAt q.fields 0) (·.setDq (byteAt q.fields 1)) dqChanges unnamed
      fun _ => none).arbitrate := by
  have valid : ¬(9 < byteAt q.fields 0 ∨ s.laneInUse (byteAt q.fields 0) = false ∨ 1 < byteAt q.fields 1) := by
    rw [inUse]
    simp only [Bool.true_eq_false, false_or]
    omega
  have open_ : s.refereeTime = true := by
    unfold State.refereeTime
    rcases time with e | e <;> rw [e] <;> rfl
  unfold setDq
  simp only [if_neg valid, open_, Bool.true_eq_false, if_false, held, swam]

/-- Settles O39: a SET_DQ writes the flags of its lane, and the Placer follows when the disqualification changes. -/
theorem setDqWritesFlags : Obligations.SetDqWritesFlags := by
  intro s f lane r asked at_ inside inUse time held swam action
  subst at_
  dsimp only
  obtain ⟨u, eu⟩ : ∃ u, u = (s.reply f.request .done).commit (byteAt f.request.fields 0)
    (·.setDq (byteAt f.request.fields 1)) dqChanges unnamed fun _ => none := ⟨_, rfl⟩
  have ran : exec .setDq s = .next u.arbitrate.popHead := by
    rw [exec_asked (exec_setDq_run s) asked, setDq_record inside inUse time held swam action, eu]
  have changes : s.RecordsOnly u :=
    eu ▸ (reply_outOnly s _ _ _ _).records.trans (commit_recordsOnly _ _ _ _ _ _)
  obtain ⟨race, meet, queue, results, out⟩ := changes.request
  have same : (s.reply f.request .done).record? (byteAt f.request.fields 0) = some r := held
  refine ⟨_, ran, ?_, fun keeps => ?_, fun differs => ?_, race, meet, queue⟩
  · unfold State.unplaced
    rw [results, eu]
    exact commit_unplaced _ _ _ _ _ _
  · have unreached : dqChanges r (r.setDq (byteAt f.request.fields 1)) = false := bne_eq_false_iff_eq.mpr keeps.symm
    rw [results, out, eu]
    exact commit_unreached same unreached _
  · have reached : dqChanges r (r.setDq (byteAt f.request.fields 1)) = true := bne_iff_ne.mpr (Ne.symm differs)
    rw [out, eu]
    exact commit_reached same reached _

/-! ### ADJUDICATE_FINISH (R101, R102) -/

/-- A FINAL record of lane 0. -/
def finalRecord (review : Bool) : LaneRecord := { lane := 0, entryId := 0, status := .final, flags := { review := review } }

/-- A CLEAR_REVIEW of lane 0 at the head of the queue of a running heat whose Result Table holds two records of that lane,
of which the second alone is under review. -/
def twiceRecorded : State :=
  { State.reset with
    resetHeld := false
    heat :=
      { plan := some { Plan.blank with entries := [⟨0, 1, false⟩] }, state := .running, epoch := some 0
        startTimer := none, limitTimer := none }
    results := [finalRecord false, finalRecord true]
    mgmt :=
      { State.reset.mgmt with
        queue := [{ dst := 0, src := 2, kind := 0x10, flags := 0, payload := [0x0E, 7, 0, 3, 0, 0, 0, 0], crc := 0 }] } }

/-- Refutes O38, by its clause on a REVIEW that was clear: the statement admits a Result Table with two records of a lane.
In `twiceRecorded`, which no run from reset reaches, the first of the two is not under review and the second is; the
request clears the second. -/
theorem not_adjudicationSetsFinish : ¬ Obligations.AdjudicationSetsFinish := by
  intro h
  obtain ⟨-, -, -, cleared, -⟩ := h twiceRecorded
    { dst := 0, src := 2, kind := 0x10, flags := 0, payload := [0x0E, 7, 0, 3, 0, 0, 0, 0], crc := 0 } 0
    (finalRecord false) ⟨rfl, rfl, rfl, rfl⟩ rfl (by decide) rfl (.inl rfl) rfl rfl
  obtain ⟨t, -, changed, -, -, -, kept⟩ := cleared rfl
  have same : t.unplaced = twiceRecorded.unplaced := kept rfl
  have reviews : t.unplaced.map (·.flags.review) = [false, false] := changed ▸ rfl
  rw [same] at reviews
  exact absurd reviews (by decide)

end Sys2Proof.Machine
end

