-- ==== Sys2Proof/Proofs/HeatTransitions.lean ====
section
/-! The heat's own transitions: the return to IDLE, the arming, the recall, and the edges of the start line that start no
heat (R21, R23, R31, R32, R34, R41, R42). -/

namespace Sys2Proof.Machine

/-! ### The pending list, written out (R157, R158) -/

theorem makePending_eq (s : State) (f : BoardField) : s.makePending f =
    { s with composer := { s.composer with queue := (s.makePending f).composer.queue } } := by
  obtain ⟨_, e⟩ := makePending_pendingOnly s f
  rw [e]

/-- What joins the list depends on the layout and the list alone. -/
theorem makePending_congr {s t : State} (layout : t.board.layout = s.board.layout)
    (queue : t.composer.queue = s.composer.queue) (f : BoardField) :
    (t.makePending f).composer.queue = (s.makePending f).composer.queue := by
  unfold State.makePending
  rw [layout, queue]
  split
  · exact queue
  · rfl

theorem makeAllPending_congr {s t : State} (layout : t.board.layout = s.board.layout)
    (queue : t.composer.queue = s.composer.queue) (fs : List BoardField) :
    (t.makeAllPending fs).composer.queue = (s.makeAllPending fs).composer.queue := by
  unfold State.makeAllPending
  induction fs generalizing s t with
  | nil => exact queue
  | cons f fs ih =>
    refine ih ?_ (makePending_congr layout queue f)
    rw [makePending_eq s, makePending_eq t]
    exact layout

/-- The list of `s` with some fields made pending. -/
def State.pendingWith (s : State) (fields : List BoardField) : List BoardField :=
  s.composer.queue ++ fields.filter fun x => !s.board.layout.hides x && !s.composer.queue.contains x

/-- Fields made pending on a list that already took some. -/
theorem makeAllPending_after {s u : State} {fs gs : List BoardField} (layout : u.board.layout = s.board.layout)
    (queue : u.composer.queue = s.pendingWith fs) (nodup : (fs ++ gs).Nodup) : u.makeAllPending gs =
      { u with composer := { u.composer with queue := s.pendingWith (fs ++ gs) } } := by
  obtain ⟨q, e⟩ := makeAllPending_pendingOnly u gs
  have first : (s.makeAllPending fs).composer.queue = s.pendingWith fs :=
    makeAllPending_queue s fs (List.nodup_append.mp nodup).1
  have both : (s.makeAllPending (fs ++ gs)).composer.queue = s.pendingWith (fs ++ gs) := makeAllPending_queue s _ nodup
  have board : (s.makeAllPending fs).board = s.board := by
    obtain ⟨_, e⟩ := makeAllPending_pendingOnly s fs
    rw [e]
  have taken : (u.makeAllPending gs).composer.queue = s.pendingWith (fs ++ gs) := by
    rw [makeAllPending_congr (s := s.makeAllPending fs) (layout.trans (by rw [board])) (queue.trans first.symm), ← both]
    exact congrArg (fun v : State => v.composer.queue) (List.foldl_append ..).symm
  rw [← taken, e]

theorem pendingWith_nil (s : State) : s.pendingWith [] = s.composer.queue := List.append_nil _

theorem makeAllPending_eq (s : State) {fs : List BoardField} (nodup : fs.Nodup) : s.makeAllPending fs =
    { s with composer := { s.composer with queue := s.pendingWith fs } } :=
  makeAllPending_after (s := s) (fs := []) rfl (pendingWith_nil s).symm nodup

/-- The clock stopped on a list that already took some fields. -/
theorem stopClock_after {s u : State} {fs : List BoardField} (layout : u.board.layout = s.board.layout)
    (queue : u.composer.queue = s.pendingWith fs) (nodup : (fs ++ [BoardField.clock]).Nodup) (held : HeatTime) :
    u.stopClock held = { u with composer := { clockRunning := false, clockHeld := held, clockTimer := none
                                              queue := s.pendingWith (fs ++ [.clock]) } } :=
  makeAllPending_after (s := s) (fs := fs) (gs := [.clock])
    (u := { u with composer := { u.composer with clockRunning := false, clockHeld := held, clockTimer := none } })
    layout queue nodup

/-- Fields made pending, the clock stopped, and more fields made pending. -/
theorem stopClock_among {s v : State} {fs gs : List BoardField} (layout : v.board.layout = s.board.layout)
    (queue : v.composer.queue = s.composer.queue) (nodup : (fs ++ [BoardField.clock] ++ gs).Nodup) (held : HeatTime) :
    ((v.makeAllPending fs).stopClock held).makeAllPending gs =
      { v with composer := { clockRunning := false, clockHeld := held, clockTimer := none
                             queue := s.pendingWith (fs ++ [.clock] ++ gs) } } := by
  have early : (fs ++ [BoardField.clock]).Nodup := (List.nodup_append.mp nodup).1
  rw [makeAllPending_after (s := s) (fs := []) (gs := fs) layout (queue.trans (pendingWith_nil s).symm)
      (List.nodup_append.mp early).1, stopClock_after (s := s) (fs := [] ++ fs) ?_ ?_ early,
    makeAllPending_after (s := s) (fs := [] ++ fs ++ [.clock]) (gs := gs) ?_ ?_ nodup]
  · rfl
  · exact layout
  · rfl
  · exact layout
  · rfl

theorem lampsOff_eq (s : State) : s.lampsOff = { s with out := s.out.offers s.offFrames } := by
  rw [← lampsOff_out]
  obtain ⟨_, -, e⟩ := lampsOff_outOnly s
  rw [e]

/-! ### The end of a request that leaves or enters a heat state -/

/-- A request that puts fields on the pending list, once the arbiter has acted and its frame has left the queue. -/
theorem pended_request {s u : State} {fields : List BoardField} (board : u.board = s.board)
    (queue : u.composer.queue = s.pendingWith fields) : s.Pends u.arbitrate.popHead fields :=
  (pends_arbitrate (by rw [board]) queue).popHead

/-- What the arbiter and the end of the request leave. -/
theorem arbitrate_popHead (u : State) : ∃ cl op ms q a b k, u.arbitrate.popHead = { u with
    mgmt := { u.mgmt with claim := cl, queue := u.mgmt.queue.tail }
    board := { u.board with operation := op, markers := ms }
    composer := { u.composer with queue := q }
    shifter := { u.shifter with half0 := a, half1 := b, claim := k } } := by
  obtain ⟨cl, op, ms, q, a, b, k, e⟩ := arbitrate_arbiterOnly u
  exact ⟨cl, op, ms, q, a, b, k, by rw [e]; rfl⟩

/-! ### The return to IDLE (R31, R34) -/

theorem laneFields_nodup : allLaneFields.Nodup := by decide

/-- A heat returned to IDLE, before the arbiter acts. -/
def State.idled (s : State) (q : Request) (cause : HeatCause) : State :=
  { s with
    heat := { plan := s.heat.plan, state := .idle, epoch := none, startTimer := none, limitTimer := none }
    results := []
    walls := { collectors := [], pool := [] }
    exchanges := []
    starts := { s.starts with trackers := freshTrackers false }
    composer := { s.composer with queue := s.pendingWith allLaneFields }
    out := (s.out.offer (replyFrame q .done 0 [])).report (.heatState .idle cause) }

theorem toIdle_eq (s : State) (q : Request) (cause : HeatCause) : s.toIdle q cause = (s.idled q cause).arbitrate := by
  have rows := makeAllPending_eq (s.reply q .done).stopHeat.discardHeat laneFields_nodup
  unfold State.toIdle State.makeLaneRowsPending
  exact congrArg (fun u : State => (u.enterHeat .idle cause).arbitrate) rows

theorem freshTracker {taking : Bool} {k : Tracker} (mem : k ∈ freshTrackers taking) :
    k = { state := .unknown, lastRelease := none, taking := taking } := List.eq_of_mem_replicate mem

/-- Settles O23: both requests return the heat to IDLE alike. -/
theorem clearAndDisarmReturnToIdle : Obligations.ClearAndDisarmReturnToIdle := by
  intro s f returns
  have idles {c : Instr} {code : Byte} {form : List Byte → Bool} {body : State → Request → State} {cause : HeatCause}
      (ran : exec c s = s.run fun s => s.request code form body) (asked : s.Asks f code form)
      (goes : body s f.request = s.toIdle f.request cause) : returns c cause := by
    have pends : s.Pends (s.idled f.request cause).arbitrate.popHead allLaneFields := pended_request rfl rfl
    have dest : (s.idled f.request cause).out.reportDest = s.out.reportDest := by
      rw [State.idled, LoopOut.report_reportDest, LoopOut.offer_reportDest]
    refine ⟨_, by rw [exec_asked ran asked, goes, toIdle_eq], ?_⟩
    obtain ⟨_, _, _, _, _, _, _, e⟩ := arbitrate_popHead (s.idled f.request cause)
    rw [e] at pends ⊢
    exact ⟨rfl, rfl, rfl, rfl, rfl, fun k => freshTracker, rfl, rfl, rfl, rfl, rfl, pends, rfl, rfl,
      rfl, rfl, dest, rfl, rfl, rfl, rfl, rfl⟩
  refine ⟨fun asked state => ?_, fun asked state => ?_⟩
  · exact idles (exec_clearHeat_run s) asked (by rcases state with e | e <;> simp only [clearHeat, e])
  · exact idles (exec_abortHeat_run s) asked (by simp only [abortHeat, state])

/-! ### Arming (R23) -/

theorem offers_reportDest (o : LoopOut) (fs : List Frame) : (o.offers fs).reportDest = o.reportDest := by
  induction fs generalizing o with
  | nil => rfl
  | cons f fs ih => rw [offers_cons, ih, LoopOut.offer_reportDest]

theorem resolvePlace_clearExpected (active : List (Option ActiveEntry)) (lane : Nat) (w : Wall) :
    (resolvePlace (clearExpected active) lane w).map (·.address) = (resolvePlace active lane w).map (·.address) := by
  unfold resolvePlace clearExpected
  induction active with
  | nil => rfl
  | cons slot slots ih =>
    cases slot with
    | none => exact ih
    | some e =>
      simp only [List.map_cons, Option.map_some, List.findSome?_cons, Option.bind_some]
      by_cases here : (e.enabled && e.lane == lane && e.wall == w) = true
      · simp only [here, if_true, Option.map_some]
      · simp only [here, Bool.false_eq_true, if_false]
        exact ih

/-- The LAMP OFF frames depend on the lanes of the meet and on the addresses of their START nodes. -/
theorem offFrames_congr {s t : State} (settings : t.mgmt = s.mgmt)
    (addresses : ∀ l, (resolvePlace t.nodes.active l .start).map (·.address)
      = (resolvePlace s.nodes.active l .start).map (·.address)) : t.offFrames = s.offFrames := by
  unfold State.offFrames
  rw [settings]
  refine List.filterMap_congr fun l _ => ?_
  have frames : ∀ x : Option ActiveEntry, (x.map fun e => hubFrame e.address 0x13 [0])
      = (x.map (·.address)).map fun a => hubFrame a 0x13 [0] := fun x => by rw [Option.map_map]; rfl
  rw [frames, frames, addresses]

/-- A heat armed with a plan, before the arbiter acts. -/
def State.armedWith (s : State) (q : Request) (p : Plan) : State :=
  { s with
    heat := { s.heat with state := .armed }
    results := p.records
    walls := { s.walls with collectors := p.lanes.map fun l => { lane := l } }
    exchanges := if p.relay then p.lanes.map fun l => { lane := l, window := none } else []
    starts := { s.starts with trackers := freshTrackers true }
    nodes := { s.nodes with active := clearExpected s.nodes.active }
    composer := { clockRunning := false, clockHeld := 0, clockTimer := none
                  queue := s.pendingWith ([.event, .heat] ++ [.clock] ++ allLaneFields) }
    out := ((s.out.offer (replyFrame q .done 0 [])).offers s.offFrames).report (.heatState .armed .arm) }

theorem armedFields_nodup : ([.event, .heat] ++ [.clock] ++ allLaneFields : List BoardField).Nodup := by decide

theorem armed_plan_eq (s : State) (q : Request) (p : Plan) : s.arm q p = (s.armedWith q p).arbitrate := by
  obtain ⟨v, ev⟩ : ∃ v : State, v = { s.reply q .done with
    results := p.records
    walls := { s.walls with collectors := p.lanes.map fun l => { lane := l } }
    exchanges := if p.relay then p.lanes.map fun l => { lane := l, window := none } else []
    starts := { s.starts with trackers := freshTrackers true }
    nodes := { s.nodes with active := clearExpected s.nodes.active } } := ⟨_, rfl⟩
  obtain ⟨fields, listed⟩ : ∃ fields, fields = allLaneFields := ⟨_, rfl⟩
  have board : v.board = s.board := by rw [ev]; rfl
  have queue : v.composer.queue = s.composer.queue := by rw [ev]; rfl
  have set := stopClock_among (s := s) (v := v) (by rw [board]) queue (listed ▸ armedFields_nodup) 0
  have off := offFrames_congr (s := s)
    (t := { v with composer := { clockRunning := false, clockHeld := 0, clockTimer := none
                                 queue := s.pendingWith ([.event, .heat] ++ [.clock] ++ fields) } })
    (by rw [ev]; rfl) fun l => by rw [ev]; exact resolvePlace_clearExpected _ _ _
  have whole : s.arm q p = ((((v.makeAllPending [.event, .heat]).stopClock 0).makeAllPending fields).lampsOff.enterHeat
      .armed .arm).arbitrate := by
    rw [ev, listed]
    rfl
  rw [whole, set, lampsOff_eq, off, ev, listed]
  rfl

/-- Settles O16: the blocks that arming sets, its frames and its fields. -/
theorem armHeatBuildsHeat : Obligations.ArmHeatBuildsHeat := by
  intro s f p asked idle plan sound mapped
  have goes : armHeat s f.request = s.arm f.request p := by
    unfold armHeat
    simp only [plan, idle, ne_eq, not_true_eq_false, if_false, sound, mapped]
  have pends : s.Pends (s.armedWith f.request p).arbitrate.popHead ([.event, .heat] ++ [.clock] ++ allLaneFields) :=
    pended_request rfl rfl
  have dest : (s.armedWith f.request p).out.reportDest = s.out.reportDest := by
    rw [State.armedWith, LoopOut.report_reportDest, offers_reportDest, LoopOut.offer_reportDest]
  have lanes := planRecords_lanes p
  refine ⟨_, by rw [exec_asked (exec_armHeat_run s) asked, goes, armed_plan_eq], ?_⟩
  obtain ⟨_, _, _, _, _, _, _, e⟩ := arbitrate_popHead (s.armedWith f.request p)
  rw [e] at pends ⊢
  refine ⟨rfl, fun l => ?_, fun r mem => ?_, ?_, ?_, fun k => freshTracker, rfl, rfl, rfl, rfl, pends, rfl, rfl, rfl, rfl,
    rfl, rfl, rfl, rfl, dest, rfl, rfl, rfl, rfl, rfl⟩
  · rw [← mem_planLanes, ← lanes]
    show (p.records.find? (·.lane == l)).isSome = true ↔ _
    simp only [List.find?_isSome, beq_iff_eq, List.mem_map]
  · obtain ⟨l, -, made⟩ := List.mem_filterMap.mp mem
    obtain ⟨x, found, rfl⟩ := Option.map_eq_some_iff.mp made
    exact ⟨x, List.mem_of_find?_eq_some found, rfl, rfl, rfl, rfl, rfl, rfl, rfl, rfl, rfl, rfl, rfl, rfl, rfl, rfl, rfl⟩
  · show p.lanes.map _ = p.records.map _
    rw [← lanes, List.map_map]
    rfl
  · show (if p.relay then p.lanes.map _ else []) = if p.relay then p.records.map _ else []
    rw [← lanes, List.map_map]
    rfl

/-! ### Programs fired by the heat (R174, R175) -/

theorem firePreempting_empty {s : State} {n : Nat} (empty : (s.pulse.program n).steps = []) : s.firePreempting n = s := by
  unfold State.firePreempting
  rw [empty]
  rfl

/-- A program that is not empty begins; one that runs ends PREEMPTED first. -/
theorem firePreempting_cons {s : State} {n : Nat} {x : PulseStep} {xs : List PulseStep}
    (steps : (s.pulse.program n).steps = x :: xs) : s.firePreempting n =
      { s with
        pulse := { s.pulse with
          running := some { program := n, repeatNo := 1, step := 1, completed := 0, timer := s.stepExpiry x }
          status := (s.pulse.running.map fun r : PulseRun =>
            { program := some r.program, outcome := some .preempted, completed := r.completed }).getD s.pulse.status }
        out := s.out.reports (s.pulse.running.map fun r => .pulseDone r.program .preempted) } := by
  unfold State.firePreempting
  rw [steps]
  show (s.endProgram .preempted).beginProgram n = _
  cases running : s.pulse.running with
  | none =>
    have idle : s.endProgram .preempted = s := by
      simp only [State.endProgram, State.stopProgram, State.pulseDone, running]
      rfl
    rw [idle, beginProgram_cons steps]
    rfl
  | some r =>
    rw [endProgram_running running]
    exact beginProgram_cons steps

/-! ### The recall (R32) -/

/-- A heat recalled, before program 1 is fired. -/
def State.recallSet (s : State) (q : Request) : State :=
  { s with
    heat := { plan := s.heat.plan, state := s.heat.state, epoch := none, startTimer := none, limitTimer := none }
    walls := { collectors := s.walls.collectors.map fun c => { lane := c.lane }, pool := [] }
    exchanges := s.exchanges.map fun c => { c with window := none }
    results := s.results.map LaneRecord.recalled
    composer := { clockRunning := false, clockHeld := 0, clockTimer := none
                  queue := s.pendingWith ([] ++ [.clock] ++ s.recallFields) }
    out := (s.out.offer (replyFrame q .done 0 [])).offers s.offFrames }

theorem recalled_present (rs : List LaneRecord) (l : Nat) :
    ((rs.map LaneRecord.recalled).find? (·.lane == l)).isSome = (rs.find? (·.lane == l)).isSome := by
  rw [List.find?_map]
  exact Option.isSome_map

theorem recallFields_congr {s t : State} (same : ∀ l, (t.record? l).isSome = (s.record? l).isSome) :
    t.recallFields = s.recallFields := by
  unfold State.recallFields
  rw [List.filter_congr fun l _ => same l]

theorem recallFields_nodup (s : State) : ([] ++ [BoardField.clock] ++ s.recallFields).Nodup := by
  have all : ([] ++ [.clock] ++ Config.lanes.flatMap fun l => [.place l, .reaction l, .time l] : List BoardField).Nodup := by
    decide
  refine all.sublist (List.Sublist.append (.refl _) ?_)
  exact List.filter_sublist.flatMap _

theorem recall_eq (s : State) (q : Request) : s.recall q =
    (((s.recallSet q).firePreempting 1).enterHeat .armed .abort).arbitrate := by
  obtain ⟨v, ev⟩ : ∃ v, v = (s.reply q .done).recalled := ⟨_, rfl⟩
  have board : v.board = s.board := by rw [ev]; rfl
  have queue : v.composer.queue = s.composer.queue := by rw [ev]; rfl
  have fields : (v.stopClock 0).recallFields = s.recallFields := by
    refine recallFields_congr fun l => ?_
    unfold State.record?
    rw [(stopClock_blocks v 0).results, ev]
    exact recalled_present _ _
  have set := stopClock_among (s := s) (v := v) (fs := []) (by rw [board]) queue (recallFields_nodup s) 0
  have off : (State.offFrames { v with composer := { clockRunning := false, clockHeld := 0, clockTimer := none
                                                     queue := s.pendingWith ([] ++ [.clock] ++ s.recallFields) } })
      = s.offFrames := offFrames_congr (by rw [ev]; rfl) fun l => by rw [ev]; rfl
  have whole : s.recall q = (((((v.makeAllPending []).stopClock 0).makeAllPending
      (v.stopClock 0).recallFields).lampsOff.firePreempting
      1).enterHeat .armed .abort).arbitrate := by
    rw [ev]
    rfl
  rw [whole, fields, set, lampsOff_eq, off, ev]
  rfl

/-- Settles O24: the blocks that a recall sets, and what program 1 does. -/
theorem recallResetsStart : Obligations.RecallResetsStart := by
  intro s f asked running reports
  have goes : abortHeat s f.request = s.recall f.request := by simp only [abortHeat, running]
  obtain ⟨w, ew⟩ : ∃ w, w = s.recallSet f.request := ⟨_, rfl⟩
  obtain ⟨u, eu⟩ : ∃ u, u = (w.firePreempting 1).enterHeat .armed .abort := ⟨_, rfl⟩
  have shape := firePreempting_pulseOnly w 1
  have pulse : u.pulse = (w.firePreempting 1).pulse := by rw [eu]; rfl
  have out : u.out = (w.firePreempting 1).out.report (.heatState .armed .abort) := by rw [eu]; rfl
  have old : w.pulse = s.pulse := by rw [ew]; rfl
  have first : w.out = (s.out.offer (replyFrame f.request .done 0 [])).offers s.offFrames := by rw [ew]; rfl
  have pends : s.Pends u.arbitrate.popHead ([] ++ [.clock] ++ s.recallFields) := by
    obtain ⟨_, _, _, _, -, e⟩ := shape
    rw [e, ew] at eu
    refine pended_request ?_ ?_ <;> rw [eu] <;> rfl
  have dest : u.out.reportDest = s.out.reportDest := by
    obtain ⟨_, _, _, _, dest, e⟩ := shape
    rw [out, LoopOut.report_reportDest, e, dest, first, offers_reportDest, LoopOut.offer_reportDest]
  have fires : ((s.pulse.program 1).steps ≠ [] →
        (∃ r, u.pulse.running = some r ∧ r.program = 1 ∧ r.repeatNo = 1 ∧ r.step = 1)
          ∧ u.out = reports (s.pulse.running.map fun r => .pulseDone r.program .preempted)
          ∧ ∀ r, s.pulse.running = some r →
              u.pulse.status = { program := some r.program, outcome := some .preempted, completed := r.completed })
      ∧ ((s.pulse.program 1).steps = [] → u.pulse = s.pulse ∧ u.out = reports none) := by
    rw [pulse, out]
    refine ⟨fun steps => ?_, fun empty => ?_⟩
    · obtain ⟨x, xs, cons⟩ := List.exists_cons_of_ne_nil steps
      rw [firePreempting_cons (s := w) (old ▸ cons), first, old]
      exact ⟨⟨_, rfl, rfl, rfl, rfl⟩, rfl, fun r begun => by rw [begun]; rfl⟩
    · rw [firePreempting_empty (s := w) (old ▸ empty), first, old]
      exact ⟨rfl, rfl⟩
  refine ⟨_, by rw [exec_asked (exec_abortHeat_run s) asked, goes, recall_eq, ← ew, ← eu], ?_⟩
  obtain ⟨_, _, _, _, _, _, _, e⟩ := arbitrate_popHead u
  rw [e] at pends ⊢
  obtain ⟨_, _, _, _, -, fired⟩ := shape
  rw [fired, ew] at eu
  rw [eu] at pends fires dest ⊢
  exact ⟨rfl, rfl, rfl, rfl, rfl, rfl, rfl, rfl, pends, fires.1, fires.2, rfl, rfl, rfl, rfl, rfl, rfl, dest, rfl, rfl,
    rfl, rfl, rfl⟩

/-! ### Edges that start no heat (R41, R42) -/

/-- Settles O19: the edges at a free pin, by the line and the level. -/
theorem strayStartsAndLineChanges : Obligations.StrayStartsAndLineChanges := by
  refine ⟨fun s live unarmed low => ?_, fun s live => ?_, fun s line level live other => ?_⟩
  · have free : (s.resetHeld || s.pulse.startPrevious) = false := by rw [show s.resetHeld = false from live, low]; rfl
    rw [exec_startLineRisingEdge_next]
    simp only [free, Bool.false_eq_true, if_false]
    exact congrArg _ (if_neg unarmed)
  · have falling : s.isRising s.mgmt.settings.startLine false = false := by
      unfold State.isRising
      rw [Bool.and_false, Bool.false_and]
    rw [exec_lineLevelChange_next]
    simp only [falling, Bool.false_eq_true, if_false]
    exact congrArg _ (if_pos ⟨trivial, live⟩)
  · have unnoticed : s.isRising line level = false := by
      unfold State.isRising
      rw [beq_eq_false_iff_ne.mpr other, Bool.and_false, Bool.false_and, Bool.false_and]
    rw [exec_lineLevelChange_next]
    simp only [unnoticed, Bool.false_eq_true, if_false, other, false_and]
    rfl

end Sys2Proof.Machine
end

