-- ==== Sys2Proof/Proofs/StartAndWithdrawal.lean ====
section
/-! The start event, the judgement of the start, and a lane taken out of the heat (R24, R35, R41, R43). -/

namespace Sys2Proof.Machine

/-! ### The start event (R24) -/

/-- The state at the start event, before program 0 is fired. -/
def State.startSet (s : State) : State :=
  { s with
    heat := { s.heat with
      epoch := some s.deckTime
      startTimer := some (s.deckTime + ticks (s.plan.startWindow * 1000))
      limitTimer := some (s.deckTime + ticks (s.plan.heatLimit * 6000000)) }
    results := s.results.map LaneRecord.started
    walls := { s.walls with collectors := s.walls.collectors.map fun c =>
      if (s.record? c.lane).any (fun r => r.status == .dns) then c
      else { lane := c.lane, lap := 1, state := .armed, arming := some (s.plan.minLap * 1000 : Nat) } }
    composer := { s.composer with clockRunning := true, clockTimer := some (s.deckTime + 10000) } }

theorem started_dns (rs : List LaneRecord) (l : Nat) :
    (((rs.map LaneRecord.started).find? (·.lane == l)).any fun r => r.status == .dns)
      = (rs.find? (·.lane == l)).any fun r => r.status == .dns := by
  have lane : ((·.lane == l) ∘ LaneRecord.started) = (·.lane == l) := by
    funext r
    unfold LaneRecord.started
    simp only [Function.comp_apply]
    split <;> rfl
  rw [List.find?_map, lane]
  cases rs.find? (·.lane == l) with
  | none => rfl
  | some r =>
    show (r.started.status == .dns) = (r.status == .dns)
    unfold LaneRecord.started
    split
    · next waiting =>
      rw [waiting]
      rfl
    · rfl

theorem startEvent_eq (s : State) :
    s.startEvent = ((s.startSet.firePreempting 0).enterHeat .running .start).examineClosing := by
  obtain ⟨v, ev⟩ : ∃ v : State, v =
    { s with
      heat := { s.heat with
        epoch := some s.deckTime
        startTimer := some (s.deckTime + ticks s.plan.startWindowTicks)
        limitTimer := some (s.deckTime + ticks s.plan.limitTicks) }
      results := s.results.map LaneRecord.started
      composer := { s.composer with clockRunning := true, clockTimer := some (s.deckTime + Config.clockInterval) } } :=
    ⟨_, rfl⟩
  have whole : s.startEvent = ((v.armCollectors.firePreempting 0).enterHeat .running .start).examineClosing := by
    rw [ev]
    rfl
  have collectors : v.walls.collectors.map (fun c => if v.isDns c.lane then c else .armedAt c.lane 1 v.plan.minLapTicks)
      = s.walls.collectors.map fun c => if (s.record? c.lane).any (fun r => r.status == .dns) then c
        else { lane := c.lane, lap := 1, state := .armed, arming := some (s.plan.minLap * 1000 : Nat) } := by
    rw [ev]
    refine List.map_congr_left fun c _ => ?_
    have dns : State.isDns v c.lane = (s.record? c.lane).any fun r => r.status == .dns := by
      rw [ev]
      exact started_dns s.results c.lane
    rw [ev] at dns
    rw [dns]
    rfl
  have armed : v.armCollectors = s.startSet := by
    unfold State.armCollectors
    rw [collectors, ev]
    rfl
  rw [whole, armed]

/-- A lane in the water keeps the heat open. -/
theorem examineClosing_open {s : State} {r : LaneRecord} (mem : r ∈ s.results)
    (open_ : r.status ≠ .final ∧ r.status ≠ .noFinish ∧ r.status ≠ .dns) : s.examineClosing = s := by
  have unclosed : s.allClosed = false := by
    unfold State.allClosed
    rw [List.all_eq_false]
    exact ⟨r, mem, by simp [open_]⟩
  unfold State.examineClosing
  rw [unclosed, Bool.and_false]
  rfl

theorem examineClosing_idle {s : State} (waits : s.heat.state ≠ .running) : s.examineClosing = s := by
  unfold State.examineClosing
  rw [beq_eq_false_iff_ne.mpr waits, Bool.false_and]
  rfl

/-- Once every lane is FINAL, NO_FINISH or DNS the closing condition holds (R26). -/
theorem examineClosing_closed {s : State} (running : s.heat.state = .running)
    (closed : ∀ r ∈ s.results, r.status = .final ∨ r.status = .noFinish ∨ r.status = .dns) :
    s.examineClosing = s.closeHeat .closeAllFinal := by
  have all : s.allClosed = true := by
    unfold State.allClosed
    rw [List.all_eq_true]
    intro r mem
    rcases closed r mem with e | e | e <;> rw [e] <;> rfl
  have condition : (s.heat.state == .running && s.allClosed) = true := by
    rw [all, running]
    rfl
  exact if_pos condition

/-- The heat begun, before the closing condition is examined, of the state in which the rising edge was sensed. -/
def State.begun (s : State) : State :=
  ((State.startSet ((s.senseLine s.mgmt.settings.startLine true).notePrevious true)).firePreempting 0).enterHeat
    .running .start

theorem exec_start {s : State} (live : s.Live) (armed : s.heat.state = .armed) (low : s.pulse.startPrevious = false) :
    exec .startLineRisingEdge s = .next s.begun.examineClosing.arbitrate := by
  have free : (s.resetHeld || s.pulse.startPrevious) = false := by rw [show s.resetHeld = false from live, low]; rfl
  rw [exec_startLineRisingEdge_next]
  simp only [free, Bool.false_eq_true, if_false]
  refine congrArg _ ((if_pos armed).trans ?_)
  rw [startEvent_eq]
  rfl

theorem firePreempting_skipped (s : State) (n : Nat) : (s.firePreempting n).pulse.skipped = s.pulse.skipped := by
  cases steps : (s.pulse.program n).steps with
  | nil => rw [firePreempting_empty steps]
  | cons x xs => rw [firePreempting_cons steps]

/-- Settles O18: the blocks that the start sets, program 0, and the close of a heat with every lane DNS. -/
theorem startEventStartsHeat : Obligations.StartEventStartsHeat := by
  intro s live armed low started
  obtain ⟨v, ev⟩ : ∃ v, v = State.startSet ((s.senseLine s.mgmt.settings.startLine true).notePrevious true) := ⟨_, rfl⟩
  have begun : s.begun = (v.firePreempting 0).enterHeat .running .start := by rw [ev]; rfl
  have steps_eq : v.pulse.program 0 = s.pulse.program 0 := by rw [ev]; rfl
  have old : v.pulse.running = s.pulse.running ∧ v.pulse.status = s.pulse.status ∧ v.out = s.out := by
    rw [ev]
    exact ⟨rfl, rfl, rfl⟩
  have expiry : ∀ x, v.stepExpiry x = s.stepExpiry x := fun x => by rw [ev]; rfl
  have fires : ((s.pulse.program 0).steps = [] → s.begun.pulse.running = s.pulse.running
        ∧ s.begun.pulse.status = s.pulse.status ∧ s.begun.out = s.out.report (.heatState .running .start))
      ∧ ∀ x xs, (s.pulse.program 0).steps = x :: xs →
        s.begun.pulse.running = some
            { program := 0, repeatNo := 1, step := 1, completed := 0, timer := s.stepExpiry x }
          ∧ (s.pulse.running = none → s.begun.pulse.status = s.pulse.status
              ∧ s.begun.out = s.out.report (.heatState .running .start))
          ∧ ∀ r, s.pulse.running = some r →
              s.begun.pulse.status = { program := some r.program, outcome := some .preempted, completed := r.completed }
                ∧ s.begun.out = (s.out.report (.pulseDone r.program .preempted)).report (.heatState .running .start) := by
    obtain ⟨running, status, out⟩ := old
    rw [begun]
    refine ⟨fun empty => ?_, fun x xs steps => ?_⟩
    · rw [firePreempting_empty (s := v) (steps_eq ▸ empty)]
      exact ⟨running, status, congrArg (LoopOut.report · _) out⟩
    · rw [firePreempting_cons (s := v) (steps_eq ▸ steps), ← expiry, ← running, ← status, ← out]
      refine ⟨rfl, fun idle => ?_, fun r begun => ?_⟩
      · exact ⟨by rw [idle]; rfl, by rw [idle]; rfl⟩
      · exact ⟨by rw [begun]; rfl, by rw [begun]; rfl⟩
  have startedAfter : ∀ t, s.begun.ArbiterOnly t → s.Pends t [] → started t := by
    rintro t ⟨_, _, _, _, _, _, _, rfl⟩ pends
    obtain ⟨_, _, _, _, dest, fired⟩ := firePreempting_pulseOnly v 0
    have skipped := firePreempting_skipped v 0
    rw [fired, ev] at begun skipped
    have kept : s.begun.out.reportDest = s.out.reportDest := by
      rw [begun, enterHeat_out, LoopOut.report_reportDest]
      exact dest.trans (by rw [old.2.2])
    rw [begun] at pends fires kept ⊢
    exact ⟨rfl, rfl, rfl, rfl, rfl, rfl, pends, rfl, rfl, rfl, rfl, rfl, rfl, skipped, fires.1, fires.2, rfl, rfl, kept, rfl,
      rfl, rfl, rfl, rfl⟩
  have list : s.begun.composer.queue = s.composer.queue ∧ s.begun.board = s.board ∧ s.begun.heat.state = .running
      ∧ s.begun.results = s.results.map LaneRecord.started := by
    obtain ⟨_, _, _, _, -, fired⟩ := firePreempting_pulseOnly v 0
    rw [begun, fired, ev]
    exact ⟨rfl, rfl, rfl, rfl⟩
  obtain ⟨queue, board, running, results⟩ := list
  refine ⟨fun ⟨r, mem, waiting⟩ => ?_, fun gone => ⟨s.begun, ?_, ?_⟩⟩
  · have swims : r.started.status = .swimming := by
      unfold LaneRecord.started
      rw [if_pos waiting]
    have open_ := examineClosing_open (s := s.begun) (results ▸ List.mem_map_of_mem mem)
      (by rw [swims]; decide)
    refine ⟨_, (exec_start live armed low).trans (by rw [open_]), startedAfter _ (arbitrate_arbiterOnly _) ?_⟩
    exact pends_arbitrate (by rw [board]) (queue.trans (pendingWith_nil s).symm)
  · have full : s.begun.composer.queue = s.pendingWith [] := queue.trans (pendingWith_nil s).symm
    exact startedAfter _ (.refl _) ⟨fun _ => full, .inl full⟩
  · have closed := examineClosing_closed running fun r mem => by
      obtain ⟨q, held, rfl⟩ := List.mem_map.mp (results ▸ mem)
      have stays : q.started.status = .dns := by
        unfold LaneRecord.started
        rw [if_neg (by rw [gone q held]; decide)]
        exact gone q held
      exact .inr (.inr stays)
    exact (exec_start live armed low).trans (by rw [closed])

/-! ### The records after a change (R93) -/

/-- Each record after a change is one before it, changed when it is of that lane, but for place and lamp. -/
theorem commit_mem {s : State} {lane : Nat} {f : LaneRecord → LaneRecord} {reach names : LaneRecord → LaneRecord → Bool}
    {rep : LaneRecord → Option Report} {q : LaneRecord} (mem : q ∈ (s.commit lane f reach names rep).results) :
    ∃ x ∈ s.results, q.unplaced = (if x.lane = lane then f x else x).unplaced := by
  have same : q.unplaced ∈ s.changed lane f := commit_unplaced s lane f reach names rep ▸ List.mem_map_of_mem mem
  obtain ⟨y, held, eq⟩ := List.mem_map.mp same
  obtain ⟨x, there, rfl⟩ := List.mem_map.mp held
  exact ⟨x, there, eq.symm⟩

/-- A record of another lane is still there, but for place and lamp. -/
theorem mem_commit {s : State} {lane : Nat} {x : LaneRecord} (mem : x ∈ s.results) (other : x.lane ≠ lane)
    (f : LaneRecord → LaneRecord) (reach names : LaneRecord → LaneRecord → Bool) (rep : LaneRecord → Option Report) :
    ∃ q ∈ (s.commit lane f reach names rep).results, q.unplaced = x.unplaced := by
  have there : x ∈ writeRecord s.results lane f := List.mem_map.mpr ⟨x, mem, if_neg other⟩
  have same : x.unplaced ∈ (s.commit lane f reach names rep).unplaced :=
    commit_unplaced s lane f reach names rep ▸ List.mem_map_of_mem there
  obtain ⟨q, held, eq⟩ := List.mem_map.mp same
  exact ⟨q, held, eq⟩

theorem status_of_unplaced {r q : LaneRecord} (same : r.unplaced = q.unplaced) : r.status = q.status :=
  show r.unplaced.status = q.unplaced.status from congrArg LaneRecord.status same

theorem State.LanePending.handedOver {s : State} {lane : Nat} (h : s.LanePending lane) : s.HandedOver lane := by
  intro x field
  have own : x.lane? = some lane := by
    simp only [List.mem_cons, List.not_mem_nil, or_false] at field
    rcases field with rfl | rfl | rfl | rfl <;> rfl
  by_cases hidden : s.board.layout.hides x = true
  · right; right
    unfold Layout.hides Layout.rowOf at hidden
    rw [own] at hidden
    simpa using hidden
  · exact .inl (h x field (by simpa using hidden))

/-! ### MARK_DNS (R35) -/

theorem markDns_lane {s : State} {q : Request} {r : LaneRecord} (inside : byteAt q.fields 0 < 10)
    (inUse : s.laneInUse (byteAt q.fields 0) = true) (begun : s.heat.state = .armed ∨ s.heat.state = .running)
    (held : s.record? (byteAt q.fields 0) = some r) (can : (r.status = .waiting ∨ r.status = .swimming) ∧ r.lapCount = 0) :
    markDns s q = s.markLaneDns q (byteAt q.fields 0) := by
  have valid : ¬(9 < byteAt q.fields 0 ∨ s.laneInUse (byteAt q.fields 0) = false) := by
    rw [inUse]
    simp only [Bool.true_eq_false, or_false]
    omega
  have mark : (s.record? (byteAt q.fields 0)).any LaneRecord.canMark = true := by
    rw [held]
    simpa [LaneRecord.canMark] using can
  exact (if_neg valid).trans (if_pos ⟨begun, mark⟩)

/-- A lane taken out, before the closing condition is examined. -/
def State.lostLane (s : State) (q : Request) (lane : Nat) : State :=
  ((s.reply q .done).dropCollector lane).commit lane LaneRecord.didNotStart touchesPlacer alwaysNamed fun _ => none

theorem lostLane_shape (s : State) (q : Request) (lane : Nat) : ∃ rs o fields, o.reportDest = s.out.reportDest
    ∧ s.lostLane q lane = { s with
        walls := { s.walls with collectors := s.walls.collectors.map fun c =>
          if c.lane = lane then { lane := c.lane, lap := c.lap, state := .dormant } else c }
        results := rs, out := o, composer := { s.composer with queue := fields } } := by
  obtain ⟨rs, o, fields, dest, e⟩ := commit_recordsOnly ((s.reply q .done).dropCollector lane) lane
    LaneRecord.didNotStart touchesPlacer alwaysNamed fun _ => none
  exact ⟨rs, o, fields, dest.trans (LoopOut.offer_reportDest _ _), e⟩

/-- A lane taken out by a request: what the arbiter and the end of the request may do besides. -/
def State.Served (s t : State) : Prop :=
  ∃ m op ms q a b k, m.settings = s.mgmt.settings ∧ m.locked = s.mgmt.locked ∧ t = { s with
    mgmt := m
    board := { s.board with operation := op, markers := ms }
    composer := { s.composer with queue := q }
    shifter := { s.shifter with half0 := a, half1 := b, claim := k } }

theorem State.Served.refl (s : State) : s.Served s := ⟨_, _, _, _, _, _, _, rfl, rfl, rfl⟩

theorem served_request (s : State) : s.Served s.arbitrate.popHead := by
  obtain ⟨cl, op, ms, q, a, b, k, e⟩ := arbitrate_popHead s
  exact ⟨{ s.mgmt with claim := cl, queue := s.mgmt.queue.tail }, op, ms, q, a, b, k, rfl, rfl, e⟩

/-- What a lane taken out leaves, before a close. -/
theorem lostLane_rest (s : State) (q : Request) (lane : Nat) {t : State} (served : (s.lostLane q lane).Served t) :
    t.walls = { s.walls with collectors := s.walls.collectors.map fun c =>
        if c.lane = lane then { lane := c.lane, lap := c.lap, state := .dormant } else c }
      ∧ t.heat = s.heat ∧ t.starts = s.starts ∧ t.exchanges = s.exchanges ∧ t.intake = s.intake ∧ t.nodes = s.nodes
      ∧ t.pulse = s.pulse ∧ s.SameMeet t ∧ t.results = (s.lostLane q lane).results ∧ t.out = (s.lostLane q lane).out := by
  obtain ⟨m, _, _, _, _, _, _, settings, locked, rfl⟩ := served
  obtain ⟨_, _, _, dest, e⟩ := lostLane_shape s q lane
  rw [e] at settings locked ⊢
  exact ⟨rfl, rfl, rfl, rfl, rfl, rfl, rfl, ⟨settings, locked, dest, rfl, rfl, rfl, rfl, rfl⟩, rfl, rfl⟩

/-- The frames of a change depend on the records, the frames before and the map. -/
theorem framesOf_congr {s t : State} (results : t.results = s.results) (out : t.out = s.out) (nodes : t.nodes = s.nodes)
    (lane : Nat) (f : LaneRecord → LaneRecord) (rep : LaneRecord → Option Report) :
    t.framesOf lane f rep = s.framesOf lane f rep := by
  unfold State.framesOf State.afterPlacer State.lampFrames State.record?
  rw [results, out, nodes]

theorem lostLane_records (s : State) (q : Request) (lane : Nat) :
    (s.lostLane q lane).unplaced = s.changed lane LaneRecord.didNotStart
      ∧ (s.lostLane q lane).out = (s.reply q .done).framesOf lane LaneRecord.didNotStart fun _ => none :=
  ⟨commit_unplaced _ _ _ _ _ _, (commit_out _ _ _ _ _).trans (framesOf_congr (s := s.reply q .done) rfl rfl rfl _ _ _)⟩

theorem markLaneDns_eq (s : State) (q : Request) (lane : Nat) :
    s.markLaneDns q lane = (s.lostLane q lane).examineClosing.arbitrate := rfl

theorem lostLane_pending {s : State} {lane : Nat} {r : LaneRecord} (held : s.record? lane = some r) (q : Request) :
    (s.lostLane q lane).LanePending lane := by
  have same : ((s.reply q .done).dropCollector lane).record? lane = some r := held
  unfold State.lostLane
  exact commit_lanePending (reach := touchesPlacer) (names := alwaysNamed) (f := LaneRecord.didNotStart) same (fun _ => rfl) rfl _

theorem lostLane_mem {s : State} {q : Request} {lane : Nat} {x : LaneRecord} (mem : x ∈ (s.lostLane q lane).results) :
    ∃ y ∈ s.results, x.unplaced = (if y.lane = lane then y.didNotStart else y).unplaced :=
  commit_mem (s := (s.reply q .done).dropCollector lane) mem

theorem mem_lostLane {s : State} {lane : Nat} {y : LaneRecord} (mem : y ∈ s.results) (other : y.lane ≠ lane)
    (q : Request) : ∃ x ∈ (s.lostLane q lane).results, x.unplaced = y.unplaced :=
  mem_commit (s := (s.reply q .done).dropCollector lane) mem other _ _ _ _

/-- A lane that is not open is FINAL, NO_FINISH or DNS. -/
theorem closed_of_not_open {q : LaneRecord}
    (shut : ¬(q.status = .waiting ∨ q.status = .swimming ∨ q.status = .provisional)) :
    q.status = .final ∨ q.status = .noFinish ∨ q.status = .dns := by
  cases status : q.status with
  | waiting | swimming | provisional => simp [status] at shut
  | final => exact .inl rfl
  | noFinish => exact .inr (.inl rfl)
  | dns => exact .inr (.inr rfl)

/-- Settles O25: the lane's record and collector, and the close when it was the last open lane. -/
theorem markDnsTakesLaneOut : Obligations.MarkDnsTakesLaneOut := by
  intro s f lane r asked at_ inside inUse begun held can gone goneOut isOpen
  subst at_
  obtain ⟨lane, el⟩ : ∃ lane, lane = byteAt f.request.fields 0 := ⟨_, rfl⟩
  obtain ⟨u, eu⟩ : ∃ u, u = s.lostLane f.request lane := ⟨_, rfl⟩
  have ran : exec .markDns s = .next u.examineClosing.arbitrate.popHead := by
    rw [exec_asked (exec_markDns_run s) asked, markDns_lane inside inUse begun held can, markLaneDns_eq, eu, el]
  have pending : u.LanePending lane := by
    rw [eu]
    exact lostLane_pending (by rw [el]; exact held) f.request
  have takesOut : ∀ t, u.Served t → t.HandedOver lane → goneOut t := by
    intro t served handed
    obtain ⟨unplaced, out⟩ := lostLane_records s f.request lane
    obtain ⟨walls, heat, starts, exchanges, intake, nodes, pulse, meet, results, frames⟩ :=
      lostLane_rest s f.request lane (eu ▸ served)
    rw [el] at *
    refine ⟨?_, walls, frames.trans out, handed, heat, starts, exchanges, intake, nodes, pulse, meet⟩
    unfold State.unplaced
    rw [results]
    exact unplaced
  have state : u.heat = s.heat := (lostLane_rest s f.request lane (eu ▸ .refl u)).2.1
  refine ⟨fun stays => ?_, fun runs last => ?_⟩
  · have open_ : u.examineClosing = u := by
      rcases stays with armed | ⟨q, mem, other, swims⟩
      · refine examineClosing_idle ?_
        rw [state, armed]
        decide
      · obtain ⟨x, there, same⟩ := mem_lostLane (lane := lane) mem (by rw [el]; exact other) f.request
        rw [← eu] at there
        refine examineClosing_open there ?_
        rw [status_of_unplaced same]
        rcases swims with e | e | e <;> rw [e] <;> decide
    refine ⟨_, by rw [ran, open_], takesOut _ (served_request u) pending.arbitrate.popHead, ?_⟩
    obtain ⟨_, _, _, _, _, _, _, e⟩ := arbitrate_popHead u
    obtain ⟨_, _, _, -, e'⟩ := lostLane_shape s f.request lane
    rw [e, eu, e']
  · refine ⟨u, takesOut u (.refl u) pending.handedOver, ?_⟩
    have closed : u.examineClosing = u.closeHeat .closeAllFinal := by
      refine examineClosing_closed (state ▸ runs) fun q mem => ?_
      obtain ⟨x, there, same⟩ := lostLane_mem (s := s) (by rw [← eu]; exact mem)
      rw [status_of_unplaced same]
      split
      · exact .inr (.inr rfl)
      · next other => exact closed_of_not_open (last x there (el ▸ other))
    rw [ran, closed]

end Sys2Proof.Machine
end

