-- ==== Sys2Proof/Proofs/StartJudgement.lean ====
section
/-! The judgement of the start, lane by lane and as a whole (R8, R25, R43 to R46). -/

namespace Sys2Proof.Machine

/-! ### One lane judged -/

/-- A record judged at a heat time, from the lane's tracker (R43 to R45). -/
def State.startJudged (s : State) (tj : HeatTime) (r : LaneRecord) : LaneRecord :=
  if r.status = .dns then r
  else
    { r with
      reaction := s.reaction r.lane tj
      flags := r.flags.afterStart (s.plan.reactionFloor * 100) (s.reaction r.lane tj) }

theorem startJudged_lane (s : State) (tj : HeatTime) (r : LaneRecord) : (s.startJudged tj r).lane = r.lane := by
  unfold State.startJudged
  split <;> rfl

theorem startJudged_unplaced (s : State) (tj : HeatTime) (r : LaneRecord) :
    (s.startJudged tj r).unplaced = s.startJudged tj r.unplaced := by
  unfold State.startJudged
  by_cases gone : r.status = .dns
  · rw [if_pos gone, if_pos (show r.unplaced.status = .dns from gone)]
  · rw [if_neg gone, if_neg (show ¬r.unplaced.status = .dns from gone)]
    rfl

theorem judgeStartLane_dns {s : State} {lane : Nat} {r : LaneRecord} (held : s.record? lane = some r)
    (gone : r.status = .dns) (tj : HeatTime) : s.judgeStartLane tj lane = s := by
  unfold State.judgeStartLane
  simp only [held, gone, if_true]

theorem judgeStartLane_absent {s : State} {lane : Nat} (absent : s.record? lane = none) (tj : HeatTime) :
    s.judgeStartLane tj lane = s := by
  unfold State.judgeStartLane
  simp only [absent]

/-- The change that the judgement makes to the record of a lane. -/
def State.startChange (s : State) (tj : HeatTime) (lane : Nat) (x : LaneRecord) : LaneRecord :=
  { x with
    reaction := s.reaction lane tj
    flags := x.flags.afterStart (s.plan.reactionFloor * 100) (s.reaction lane tj) }

theorem judgeStartLane_swam {s : State} {lane : Nat} {r : LaneRecord} (held : s.record? lane = some r)
    (swam : r.status ≠ .dns) (tj : HeatTime) : s.judgeStartLane tj lane =
      s.commit lane (s.startChange tj lane) touchesPlacer alwaysNamed
        fun x => some (.startJudged lane x.reaction x.flags) := by
  unfold State.judgeStartLane
  simp only [held, swam, if_false]
  rfl

/-- A lane judged, but for places and lamps. -/
theorem judgeStartLane_unplaced {s : State} (nodup : (s.results.map (·.lane)).Nodup) (tj : HeatTime) (lane : Nat) :
    (s.judgeStartLane tj lane).unplaced = s.changed lane (s.startJudged tj) := by
  cases held : s.record? lane with
  | none =>
    rw [judgeStartLane_absent held, State.changed, writeRecord_none held]
    rfl
  | some r =>
    have own : r.lane = lane := by simpa using List.find?_some held
    by_cases gone : r.status = .dns
    · have same : s.startJudged tj r = id r := if_pos gone
      rw [judgeStartLane_dns held gone, State.changed, writeRecord_congr nodup held same, writeRecord_id]
      rfl
    · have same : s.startChange tj lane r = s.startJudged tj r := by
        rw [← own]
        exact (if_neg gone).symm
      rw [judgeStartLane_swam held gone, commit_unplaced, State.changed, State.changed, writeRecord_congr nodup held same]

theorem judgeStartLane_pendsMore (tj : HeatTime) (s : State) (lane : Nat) : s.PendsMore (s.judgeStartLane tj lane) := by
  cases held : s.record? lane with
  | none =>
    rw [judgeStartLane_absent held]
    exact .refl s
  | some r =>
    by_cases gone : r.status = .dns
    · rw [judgeStartLane_dns held gone]
      exact .refl s
    · rw [judgeStartLane_swam held gone]
      exact commit_pendsMore s lane _ _ _ _

theorem judgeStartLane_lanes {s : State} (nodup : (s.results.map (·.lane)).Nodup) (tj : HeatTime) (lane : Nat) :
    (s.judgeStartLane tj lane).results.map (·.lane) = s.results.map (·.lane) := by
  rw [lanes_of_unplaced (judgeStartLane_unplaced nodup tj lane), writeRecord_lanes _ _ _ (startJudged_lane s tj)]

/-! ### The lanes judged one after the other -/

theorem startJudged_congr {s t : State} (h : s.RecordsOnly t) (tj : HeatTime) : t.startJudged tj = s.startJudged tj := by
  obtain ⟨_, _, _, -, rfl⟩ := h
  rfl

theorem foldl_judgeStart_unplaced (tj : HeatTime) {ls : List Nat} (once : ls.Nodup) {s : State}
    (nodup : (s.results.map (·.lane)).Nodup) : (ls.foldl (State.judgeStartLane tj) s).unplaced =
      s.unplaced.map fun r => if r.lane ∈ ls then s.startJudged tj r else r := by
  induction ls generalizing s with
  | nil => simp
  | cons l ls ih =>
    obtain ⟨fresh, once⟩ := List.nodup_cons.mp once
    have lanes := judgeStartLane_lanes nodup tj l
    rw [List.foldl_cons, ih once (lanes ▸ nodup), startJudged_congr (judgeStartLane_recordsOnly tj s l),
      judgeStartLane_unplaced nodup, State.changed, State.unplaced, writeRecord]
    simp only [List.map_map]
    refine List.map_congr_left fun r _ => ?_
    simp only [Function.comp_apply, List.mem_cons]
    by_cases here : r.lane = l
    · simp only [here, if_true, unplaced_lane, startJudged_lane, fresh, if_false, true_or, startJudged_unplaced]
    · simp only [here, if_false, unplaced_lane, false_or]

theorem foldl_judgeStart_pendsMore (tj : HeatTime) (ls : List Nat) (s : State) :
    s.PendsMore (ls.foldl (State.judgeStartLane tj) s) :=
  foldl_keeps State.PendsMore .refl (fun _ _ _ => .trans) _ (judgeStartLane_pendsMore tj) ls s

/-- A judgement of another lane leaves a lane's record, but for place and lamp. -/
theorem judgeStartLane_record_ne {s : State} (nodup : (s.results.map (·.lane)).Nodup) (tj : HeatTime) {l lane : Nat}
    (other : lane ≠ l) : ((s.judgeStartLane tj l).record? lane).map LaneRecord.unplaced
      = (s.record? lane).map LaneRecord.unplaced := by
  have found := find_of_unplaced (judgeStartLane_unplaced nodup tj l) lane
  rwa [find_writeRecord_ne (startJudged_lane s tj) other] at found

/-- Every lane judged that is not DNS is handed over. -/
theorem foldl_judgeStart_pending (tj : HeatTime) {lane : Nat} {ls : List Nat} (judged : lane ∈ ls) {s : State}
    (nodup : (s.results.map (·.lane)).Nodup) {r : LaneRecord} (held : s.record? lane = some r) (swam : r.status ≠ .dns) :
    (ls.foldl (State.judgeStartLane tj) s).LanePending lane := by
  induction ls generalizing s r with
  | nil => cases judged
  | cons l ls ih =>
    rw [List.foldl_cons]
    by_cases here : lane = l
    · subst here
      have pending : (s.judgeStartLane tj lane).LanePending lane := by
        rw [judgeStartLane_swam held swam]
        exact commit_lanePending (reach := touchesPlacer) (names := alwaysNamed) (f := s.startChange tj lane) held
          (fun _ => rfl) rfl _
      exact pending.more (foldl_judgeStart_pendsMore tj ls _)
    · have kept := judgeStartLane_record_ne nodup tj here
      rw [held] at kept
      obtain ⟨q, found, same⟩ := Option.map_eq_some_iff.mp kept
      refine ih ((List.mem_cons.mp judged).resolve_left here) (judgeStartLane_lanes nodup tj l ▸ nodup) found ?_
      rw [status_of_unplaced same]
      exact swam

/-! ### The judgement (R43) -/

/-- The start judged: the timer, and every record but for places and lamps. -/
theorem judgeStart_unplaced {s : State} (sound : s.ResultsSound) (d : DeckTime) :
    (s.judgeStart d).unplaced = s.unplaced.map (s.startJudged (s.heatTime d)) := by
  obtain ⟨nodup, inside⟩ := sound
  have scanned : ∀ l < 10, l ∈ Config.lanes := by decide
  unfold State.judgeStart
  rw [foldl_judgeStart_unplaced (s := { s with heat := { s.heat with startTimer := none } }) _ (by decide) nodup]
  refine List.map_congr_left fun r mem => ?_
  obtain ⟨q, held, rfl⟩ := List.mem_map.mp mem
  exact if_pos (scanned _ (inside q held).1)

theorem judgeStart_pending {s : State} (sound : s.ResultsSound) (d : DeckTime) {r : LaneRecord} (mem : r ∈ s.results)
    (swam : r.status ≠ .dns) : (s.judgeStart d).LanePending r.lane := by
  have scanned : ∀ l < 10, l ∈ Config.lanes := by decide
  unfold State.judgeStart
  exact foldl_judgeStart_pending (s := { s with heat := { s.heat with startTimer := none } }) _
    (scanned _ (sound.2 r mem).1) sound.1 (find_lane_eq sound.1 mem) swam

/-- What a judgement leaves alone. -/
theorem judgeStart_shape (s : State) (d : DeckTime) : ∃ rs o q, o.reportDest = s.out.reportDest ∧ s.judgeStart d =
    { s with
      heat := { s.heat with startTimer := none }, results := rs, out := o
      composer := { s.composer with queue := q } } :=
  foldl_keeps State.RecordsOnly .refl (fun _ _ _ => .trans) (State.judgeStartLane (s.heatTime d))
    (judgeStartLane_recordsOnly _) Config.lanes { s with heat := { s.heat with startTimer := none } }

theorem exec_startWindow_due {s : State} {e : DeckTime} (live : s.Live) (running : s.heat.state = .running)
    (timer : s.heat.startTimer = some e) (due : timerDue s.deckTime e = true) :
    exec .startWindowExpiry s = .next (s.judgeStart e).arbitrate := by
  rw [exec_startWindowExpiry_run, run_live live]
  simp only [State.startWindowExpires, timer, due, running, beq_self_eq_true, Bool.and_self, if_true]

theorem reaction_released {s : State} {lane : Nat} {d : DeckTime} (released : (s.tracker lane).state = .released)
    (last : (s.tracker lane).lastRelease = some d) (tj : Int) : s.reaction lane tj =
      if -1000000 ≤ s.heatTime d ∧ s.heatTime d ≤ tj then some (s.heatTime d) else none := by
  have held : (s.tracker lane).release = some d := by
    unfold Tracker.release
    rw [if_pos released, last]
  have horizon : -Config.preStartHorizon = (-1000000 : Int) := rfl
  unfold State.reaction
  rw [held, Option.map_some, Option.filter_some, horizon]
  simp only [Bool.and_eq_true, decide_eq_true_eq]

theorem reaction_absent {s : State} {lane : Nat}
    (absent : (s.tracker lane).state ≠ .released ∨ (s.tracker lane).lastRelease = none) (tj : Int) :
    s.reaction lane tj = none := by
  have missing : (s.tracker lane).release = none := by
    unfold Tracker.release
    rcases absent with other | never
    · exact if_neg other
    · rw [never, ite_self]
  unfold State.reaction
  rw [missing]
  rfl

/-- Settles O20: the judgement of all lanes, of one lane, the reaction and the start flags. -/
theorem startWindowJudgesLanes : Obligations.StartWindowJudgesLanes := by
  refine ⟨fun s e live sound running timer due => ?_, fun s lane r tj held => ?_, fun s lane tj => ?_,
    fun f floor => ?_⟩
  · obtain ⟨u, eu⟩ : ∃ u, u = s.judgeStart e := ⟨_, rfl⟩
    have judged : u.unplaced = s.results.map fun r =>
        if r.status = .dns then r.unplaced
        else
          { r.unplaced with
            reaction := s.reaction r.lane (s.heatTime e)
            flags := r.flags.afterStart (s.plan.reactionFloor * 100) (s.reaction r.lane (s.heatTime e)) } := by
      rw [eu, judgeStart_unplaced sound, State.unplaced, List.map_map]
      rfl
    have frames : u.out = (Config.lanes.foldl (State.judgeStartLane (s.heatTime e))
        { s with heat := { s.heat with startTimer := none } }).out := eu ▸ rfl
    have handed : ∀ r ∈ s.results, r.status ≠ .dns → u.arbitrate.HandedOver r.lane := fun r mem swam =>
      State.LanePending.arbitrate (eu ▸ judgeStart_pending sound e mem swam)
    refine ⟨_, by rw [exec_startWindow_due live running timer due, ← eu], ?_⟩
    obtain ⟨_, _, _, dest, shape⟩ := judgeStart_shape s e
    obtain ⟨_, _, _, _, _, _, _, granted⟩ := arbitrate_arbiterOnly u
    rw [granted] at handed ⊢
    have kept : u.out.reportDest = s.out.reportDest := by rw [eu, shape, dest]
    refine ⟨?_, judged, frames, handed, ?_⟩
    · rw [eu, shape]
    · rw [eu, shape] at kept ⊢
      exact ⟨rfl, rfl, rfl, rfl, rfl, rfl, rfl, rfl, rfl, kept, rfl, rfl, rfl, rfl, rfl⟩
  · refine ⟨fun gone => judgeStartLane_dns held gone tj, fun swam => ?_⟩
    rw [judgeStartLane_swam held swam]
    exact commit_out _ _ _ _ _
  · exact ⟨fun d released last => reaction_released released last tj, fun absent => reaction_absent absent tj⟩
  · refine ⟨rfl, fun t early => if_pos early, fun t after low => ?_, fun t after high => ?_⟩
    · exact (if_neg (Int.not_lt.mpr after)).trans (if_pos low)
    · exact (if_neg (Int.not_lt.mpr after)).trans (if_neg (Int.not_lt.mpr high))

end Sys2Proof.Machine
end

