-- ==== Sys2Proof/Proofs/DecisionsAndExchanges.lean ====
section
/-! Decided collections and judged exchanges: what each writes, said once, and the expiries that make them (R62 to R66,
R80 to R85). -/

namespace Sys2Proof.Machine

/-! ### The rest of a race -/

/-- What a press or a decision leaves alone. -/
theorem State.RaceOnly.rest {s t : State} (h : s.RaceOnly t) : t.heat = s.heat ∧ t.starts = s.starts
    ∧ t.intake = s.intake ∧ t.pulse = s.pulse ∧ t.deckTime = s.deckTime ∧ t.nodes = s.nodes ∧ s.SameMeet t
    ∧ t.mgmt = s.mgmt := by
  obtain ⟨_, _, _, _, _, dest, rfl⟩ := h
  exact ⟨rfl, rfl, rfl, rfl, rfl, rfl, ⟨rfl, rfl, dest, rfl, rfl, rfl, rfl, rfl⟩, rfl⟩

/-- What the arbiter leaves of a race, its lane records and its frames. -/
theorem arbitrate_race (s : State) : s.SameRace s.arbitrate ∧ s.arbitrate.results = s.results ∧ s.arbitrate.out = s.out
    ∧ s.SameMeet s.arbitrate := by
  have kept := arbitrate_arbiterOnly s
  obtain ⟨race, results, out, -⟩ := kept.rest
  exact ⟨race, results, out, kept.sameMeet⟩

theorem State.SameMeet.trans {s t u : State} : s.SameMeet t → t.SameMeet u → s.SameMeet u := by
  rintro ⟨a1, a2, a3, a4, a5, a6, a7, a8⟩ ⟨b1, b2, b3, b4, b5, b6, b7, b8⟩
  exact ⟨b1.trans a1, b2.trans a2, b3.trans a3, b4.trans a4, b5.trans a5, b6.trans a6, b7.trans a7, b8.trans a8⟩

theorem unplaced_congr {s t : State} (results : t.results = s.results) : t.unplaced = s.unplaced := by
  unfold State.unplaced
  rw [results]

theorem openExchange_congr {s t : State} (exchanges : t.exchanges = s.exchanges) (l : Nat) :
    t.openExchange l = s.openExchange l := by
  unfold State.openExchange
  rw [exchanges]

theorem record?_congr {s t : State} (results : t.results = s.results) (l : Nat) : t.record? l = s.record? l := by
  unfold State.record?
  rw [results]

/-! ### A judged exchange (R81 to R83) -/

theorem judgeExchange_none {s : State} {lane : Nat} (shut : s.openExchange lane = none) (d : DeckTime) :
    s.judgeExchange lane d = s := by
  unfold State.judgeExchange
  simp only [shut]

theorem judgeExchange_some {s : State} {lane : Nat} {o : OpenExchange} (open_ : s.openExchange lane = some o)
    (d : DeckTime) : s.judgeExchange lane d = (s.writeExchange lane o.number
      (exchangeVerdict (s.plan.tolerance * 100) o (s.heatTime d) ((s.tracker lane).release.map s.heatTime))).setWindow
        lane none := by
  unfold State.judgeExchange
  simp only [open_]
  rfl

/-- A verdict written: the record, its frames, and nothing of the walls and the windows. -/
theorem writeExchange_facts (s : State) (lane k : Nat) (e : ExchangeRecord) :
    (s.writeExchange lane k e).unplaced = s.changed lane (fun x => x.judged k e)
      ∧ (s.writeExchange lane k e).out = s.framesOf lane (fun x => x.judged k e)
          (fun _ => some (.exchange lane (k + 1) e.verdict (e.margin.map marginMs)))
      ∧ (s.writeExchange lane k e).walls = s.walls ∧ (s.writeExchange lane k e).exchanges = s.exchanges :=
  ⟨commit_unplaced _ _ _ _ _ _, commit_out _ _ _ _ _, commit_walls _ _ _ _ _ _, commit_exchanges _ _ _ _ _ _⟩

theorem judgeExchange_facts {s : State} {lane : Nat} {o : OpenExchange} (open_ : s.openExchange lane = some o)
    (d : DeckTime) :
    let e := exchangeVerdict (s.plan.tolerance * 100) o (s.heatTime d) ((s.tracker lane).release.map s.heatTime)
    (s.judgeExchange lane d).unplaced = s.changed lane (fun x => x.judged o.number e)
      ∧ (s.judgeExchange lane d).out = s.framesOf lane (fun x => x.judged o.number e)
          (fun _ => some (.exchange lane (o.number + 1) e.verdict (e.margin.map marginMs)))
      ∧ (s.judgeExchange lane d).walls = s.walls := by
  rw [judgeExchange_some open_]
  obtain ⟨unplaced, out, walls, -⟩ := writeExchange_facts s lane o.number
    (exchangeVerdict (s.plan.tolerance * 100) o (s.heatTime d) ((s.tracker lane).release.map s.heatTime))
  exact ⟨unplaced, out, walls⟩

theorem judgeExchange_windows_ne (s : State) {lane l : Nat} (other : l ≠ lane) (d : DeckTime) :
    (s.judgeExchange lane d).openExchange l = s.openExchange l := by
  cases open_ : s.openExchange lane with
  | none => rw [judgeExchange_none open_]
  | some o =>
    rw [judgeExchange_some open_, openExchange_ne _ other]
    exact openExchange_congr (writeExchange_facts s lane _ _).2.2.2 l

/-- The lanes that have an exchange collector stay those. -/
theorem judgeExchange_windowLanes (s : State) (lane : Nat) (d : DeckTime) :
    (s.judgeExchange lane d).exchanges.map (·.lane) = s.exchanges.map (·.lane) := by
  cases open_ : s.openExchange lane with
  | none => rw [judgeExchange_none open_]
  | some o =>
    rw [judgeExchange_some open_, setWindow_exchanges, (writeExchange_facts s lane _ _).2.2.2, List.map_map]
    refine List.map_congr_left fun x _ => ?_
    simp only [Function.comp_apply]
    split <;> rfl

theorem exec_exchange_due {s : State} {lane : Nat} {o : OpenExchange} (live : s.Live)
    (open_ : s.openExchange lane = some o) (due : timerDue s.deckTime o.timer = true) :
    exec (.exchangeWindowExpiry lane) s = .next (s.judgeExchange lane o.timer).arbitrate := by
  rw [exec_exchangeWindowExpiry_run, run_live live]
  simp only [State.exchangeExpires, open_, due, if_true]

/-- Settles O34: the judgement at the expiry value, and the verdict rule. -/
theorem exchangeExpiryJudges : Obligations.ExchangeExpiryJudges := by
  refine ⟨fun s lane o live open_ due => ?_, fun tol o tj tr f => ?_⟩
  · obtain ⟨u, eu⟩ : ∃ u, u = s.judgeExchange lane o.timer := ⟨_, rfl⟩
    obtain ⟨unplaced, out, walls⟩ := judgeExchange_facts open_ o.timer
    have shut : u.openExchange lane = none := eu ▸ judgeExchange_closed s lane o.timer
    have others : ∀ l, l ≠ lane → u.openExchange l = s.openExchange l := fun l other =>
      eu ▸ judgeExchange_windows_ne s other o.timer
    have rest := (eu ▸ judgeExchange_raceOnly s lane o.timer : s.RaceOnly u).rest
    rw [← eu] at unplaced out walls
    obtain ⟨heat, starts, intake, pulse, -, nodes, meet, -⟩ := rest
    obtain ⟨⟨-, -, intake', nodes', heat', starts', walls', exchanges', pulse'⟩, results', out', meet'⟩ := arbitrate_race u
    refine ⟨u.arbitrate, by rw [exec_exchange_due live open_ due, ← eu], (unplaced_congr results').trans unplaced,
      out'.trans out, (openExchange_congr exchanges' lane).trans shut,
      fun l other => (openExchange_congr exchanges' l).trans (others l other), walls'.trans walls, starts'.trans starts,
      heat'.trans heat, intake'.trans intake, nodes'.trans nodes, pulse'.trans pulse, meet.trans meet'⟩
  · refine ⟨fun low high near => ?_, fun low high far => ?_, fun outside => ?_, rfl, rfl, rfl, rfl, rfl,
      fun k => ⟨fun other => if_neg other, fun released => if_pos released⟩⟩
    · simp only [exchangeVerdict, low, high, and_self, if_true, near]
    · simp only [exchangeVerdict, low, high, and_self, if_true, Int.not_le.mpr far, if_false]
    · have unusable : ¬(o.arming ≤ tr ∧ tr ≤ tj) := fun ⟨low, high⟩ =>
        outside.elim (fun early => absurd low (Int.not_le.mpr early)) fun after => absurd high (Int.not_le.mpr after)
      simp only [exchangeVerdict, unusable, if_false]

/-! ### A decided lap below the last (R64) -/

/-- A record with a decided lap below the last. -/
def State.lapped (s : State) (c : Collector) (a : Arrival) (x : LaneRecord) : LaneRecord :=
  { x with
    lapCount := x.lapCount + 1
    flags := { x.flags with
      review := x.flags.review || a.review
      backupUsed := x.flags.backupUsed || a.backupUsed
      splitsLost := x.flags.splitsLost || decide (512 ≤ s.walls.pool.length) }
    displayed := if s.plan.split.shows s.laps c.lap then some a.time else x.displayed }

/-- The lap counted, stored and reported, before any handoff. -/
def State.lapTold (s : State) (c : Collector) (a : Arrival) : State :=
  let counted := (s.store (c.record a)).note c.lane (s.lapped c a)
  if s.plan.split.reports s.laps c.lap then counted.report (.arrival (c.record a)) else counted

/-- The pool with an arrival offered to it (R71). -/
theorem store_pool (w : WallJudge) (a : ArrivalRecord) : (w.store a).pool =
    if w.pool.length < 512 then w.pool ++ [a] else w.pool := by
  unfold WallJudge.store WallJudge.full
  simp only [decide_eq_true_eq, show Config.poolCapacity = 512 from rfl]
  by_cases room : w.pool.length < 512
  · rw [if_neg (by omega), if_pos room]
  · rw [if_pos (by omega), if_neg room]

theorem store_collectors (w : WallJudge) (a : ArrivalRecord) : (w.store a).collectors = w.collectors := by
  unfold WallJudge.store
  split <;> rfl

theorem note_exchanges (s : State) (l : Nat) (f : LaneRecord → LaneRecord) : (s.note l f).exchanges = s.exchanges :=
  commit_exchanges s l f _ _ _

theorem lapTold_facts (s : State) (c : Collector) (a : Arrival) :
    (s.lapTold c a).results = writeRecord s.results c.lane (s.lapped c a)
      ∧ (s.lapTold c a).out = (if s.plan.split.reports s.laps c.lap then s.out.report (.arrival (c.record a)) else s.out)
      ∧ (s.lapTold c a).walls = s.walls.store (c.record a) ∧ (s.lapTold c a).exchanges = s.exchanges := by
  have results := note_results (s.store (c.record a)) c.lane (s.lapped c a)
  have out := note_out (s.store (c.record a)) c.lane (s.lapped c a)
  have walls := note_walls (s.store (c.record a)) c.lane (s.lapped c a)
  have exchanges := note_exchanges (s.store (c.record a)) c.lane (s.lapped c a)
  unfold State.lapTold
  dsimp only
  split
  · exact ⟨results, by rw [report_out, out]; rfl, walls, exchanges⟩
  · exact ⟨results, out, walls, exchanges⟩

theorem lapTold_raceOnly (s : State) (c : Collector) (a : Arrival) : s.RaceOnly (s.lapTold c a) := by
  have counted := (store_raceOnly s (c.record a)).trans (note_recordsOnly _ c.lane (s.lapped c a)).race
  unfold State.lapTold
  dsimp only
  split
  · exact counted.trans (report_outOnly _ _).records.race
  · exact counted

/-- The collector after a decided lap below the last. -/
def State.lapCollector (s : State) (c : Collector) (a : Arrival) (closing : Bool) : Collector :=
  if closing then c.close else .armedAt c.lane (c.lap + 1) (a.time + s.plan.minLapTicks)

theorem decideLap_plain {s : State} {c : Collector} (plain : exchangeAt s.plan.relay s.laps c.lap = none) (a : Arrival)
    (closing : Bool) : s.decideLap c a closing = (s.lapTold c a).setCollector (s.lapCollector c a closing) := by
  unfold State.decideLap
  simp only [plain]
  rfl

theorem decideLap_exchange {s : State} {c : Collector} {k : Nat} (at_ : exchangeAt s.plan.relay s.laps c.lap = some k)
    (a : Arrival) (closing : Bool) : s.decideLap c a closing =
      ((s.lapTold c a).handoff c.lane k c.lap (c.arming.getD 0) a.time s.deckTime).setCollector
        (s.lapCollector c a closing) := by
  unfold State.decideLap
  simp only [at_]
  rfl

theorem lapCollector_lane (s : State) (c : Collector) (a : Arrival) (closing : Bool) :
    (s.lapCollector c a closing).lane = c.lane := by
  cases closing <;> rfl

/-! ### The split mode (R61) -/

/-- A lap below the last is displayed, and reported, at every wall or at the START wall, as the mode says. -/
theorem shows_iff {m : SplitMode} {laps lap : Nat} (below : lap ≠ laps) :
    (m.shows laps lap = true ↔ m = .allWalls ∨ (m = .startWall ∧ lapWall lap = .start))
      ∧ m.reports laps lap = m.shows laps lap := by
  have other : (lap == laps) = false := beq_eq_false_iff_ne.mpr below
  have differs : (lap != laps) = true := bne_iff_ne.mpr below
  cases m <;> simp [SplitMode.shows, SplitMode.reports, other, differs]

/-! ### A decided finish (R65) -/

/-- A record with its finish decided. -/
def State.finished (s : State) (c : Collector) (a : Arrival) (x : LaneRecord) : LaneRecord :=
  { x with
    lapCount := x.lapCount + 1, status := .final, finish := some a.time, source := some a.source
    finishPad := c.pad, finishBackup := backupValue c.buttons, displayed := some a.time
    flags := { x.flags with
      review := x.flags.review || a.review
      backupUsed := x.flags.backupUsed || a.backupUsed
      splitsLost := x.flags.splitsLost || decide (512 ≤ s.walls.pool.length) } }

theorem decideFinish_eq (s : State) (c : Collector) (a : Arrival) : s.decideFinish c a =
    ((s.store (c.record a)).commit c.lane (s.finished c a) touchesPlacer alwaysNamed
      fun x => some (finishReport .final x)).setCollector c.close := rfl

/-! ### The collection's expiry (R64, R65) -/

theorem decideCollection_lap {s : State} {lane : Nat} {c : Collector} {a : Arrival} (found : s.collector? lane = some c)
    (open_ : c.state = .collecting) (decided : decideArrival s.plan.trustTicks c.pad (backupValue c.buttons) = some a)
    (below : c.lap < s.laps) (closing : Bool) : s.decideCollection lane closing = s.decideLap c a closing := by
  unfold State.decideCollection
  simp only [found, open_, if_true, decided, below]

theorem decideCollection_finish {s : State} {lane : Nat} {c : Collector} {a : Arrival}
    (found : s.collector? lane = some c) (open_ : c.state = .collecting)
    (decided : decideArrival s.plan.trustTicks c.pad (backupValue c.buttons) = some a) (last : s.laps ≤ c.lap)
    (closing : Bool) : s.decideCollection lane closing = s.decideFinish c a := by
  unfold State.decideCollection
  simp only [found, open_, if_true, decided, Nat.not_lt.mpr last, if_false]

theorem exec_collection_due {s : State} {lane : Nat} {c : Collector} (live : s.Live) (found : s.collector? lane = some c)
    (open_ : c.state = .collecting) (due : s.expired c.timer = true) :
    exec (.lapCollectionExpiry lane) s = .next (s.decideCollection lane false).examineClosing.arbitrate := by
  rw [exec_lapCollectionExpiry_run, run_live live]
  have acts : s.collectionDue lane = true := by
    unfold State.collectionDue
    simp only [found, open_, due, beq_self_eq_true, Bool.and_self]
  exact congrArg _ (if_pos acts)

/-- Settles O31: a decided lap below the last that is no exchange lap. -/
theorem collectionExpiryDecidesLap : Obligations.CollectionExpiryDecidesLap := by
  intro s lane c a r live running found open_ due below plain decided held swims stored shows
  obtain rfl : c.lane = lane := collector?_lane found
  obtain ⟨u, eu⟩ : ∃ u, u = (s.lapTold c a).setCollector (s.lapCollector c a false) := ⟨_, rfl⟩
  have whole : s.decideCollection c.lane false = u := by
    rw [decideCollection_lap found open_ decided below, decideLap_plain plain, eu]
  obtain ⟨results, out, walls, exchanges⟩ := lapTold_facts s c a
  have results : u.results = writeRecord s.results c.lane (s.lapped c a) := by rw [eu]; exact results
  obtain ⟨heat, starts, intake, pulse, time, nodes, meet, -⟩ :=
    (eu ▸ (lapTold_raceOnly s c a).trans (setCollector_raceOnly _ _) : s.RaceOnly u).rest
  have closing : u.examineClosing = u := by
    have mem : s.lapped c a r ∈ u.results := by
      rw [results]
      exact List.mem_map.mpr ⟨r, List.mem_of_find?_eq_some held, if_pos (by simpa using List.find?_some held)⟩
    refine examineClosing_open mem ?_
    rw [show (s.lapped c a r).status = r.status from rfl, swims]
    decide
  obtain ⟨⟨time', -, intake', nodes', heat', starts', walls', exchanges', pulse'⟩, results', out', meet'⟩ := arbitrate_race u
  obtain ⟨shown, reported⟩ := shows_iff (m := s.plan.split) (Nat.ne_of_lt below)
  have told : u.out = if s.plan.split.reports s.laps c.lap then s.out.report (.arrival stored) else s.out := by
    rw [eu]
    exact out
  rw [reported] at told
  have before : (s.lapTold c a).walls.collectors = s.walls.collectors := by rw [walls, store_collectors]
  have set : u.collector? c.lane = some (s.lapCollector c a false) := by
    rw [eu]
    exact collector?_setCollector ((collector?_congr before _).trans found) rfl
  have others : ∀ l, l ≠ c.lane → u.collector? l = s.collector? l := by
    intro l other
    rw [eu, collector?_setCollector_ne (lapCollector_lane s c a false ▸ other.symm)]
    exact collector?_congr before l
  have pool : u.walls.pool = if s.walls.pool.length < 512 then s.walls.pool ++ [stored] else s.walls.pool := by
    rw [eu, setCollector_walls, walls]
    exact store_pool _ _
  have collectors : ∀ l, u.arbitrate.collector? l = u.collector? l := fun l => collector?_congr (by rw [walls']) l
  refine ⟨u.arbitrate, by rw [exec_collection_due live found open_ due, whole, closing], ?_, shown,
    fun s => ?_, fun n => ?_, (congrArg _ walls').trans pool, (collectors _).trans set,
    fun l other => (collectors l).trans (others l other), heat'.trans heat, exchanges'.trans ?_, starts'.trans starts,
    intake'.trans intake, pulse'.trans pulse, time'.trans time, nodes'.trans nodes, meet.trans meet'⟩
  · unfold State.unplaced
    rw [results', results]
    rfl
  · rw [out', told, if_pos (shown.mpr s)]
  · rw [out', told, if_neg fun yes => n (shown.mp yes)]
  · rw [eu]
    exact exchanges

theorem decideFinish_facts (s : State) (c : Collector) (a : Arrival) :
    (s.decideFinish c a).unplaced = s.changed c.lane (s.finished c a)
      ∧ (s.decideFinish c a).out = s.framesOf c.lane (s.finished c a)
          (fun x => some (.finish x.lane .final (x.finish.getD 0) x.source x.place x.flags))
      ∧ (s.decideFinish c a).exchanges = s.exchanges := by
  rw [decideFinish_eq]
  refine ⟨commit_unplaced _ _ _ _ _ _, ?_, commit_exchanges _ _ _ _ _ _⟩
  exact (commit_out _ _ _ _ _).trans (framesOf_congr (s := s) rfl rfl rfl _ _ _)

theorem decideFinish_walls {s : State} {c : Collector} (found : s.collector? c.lane = some c) (a : Arrival) :
    (s.decideFinish c a).walls.pool = (if s.walls.pool.length < 512 then s.walls.pool ++ [c.record a] else s.walls.pool)
      ∧ (s.decideFinish c a).collector? c.lane = some c.close
      ∧ ∀ l, l ≠ c.lane → (s.decideFinish c a).collector? l = s.collector? l := by
  obtain ⟨u, eu, walls⟩ : ∃ u : State, s.decideFinish c a = u.setCollector c.close
      ∧ u.walls = s.walls.store (c.record a) := ⟨_, decideFinish_eq s c a, commit_walls _ _ _ _ _ _⟩
  have before : u.walls.collectors = s.walls.collectors := by rw [walls, store_collectors]
  rw [eu]
  refine ⟨?_, collector?_setCollector ((collector?_congr before _).trans found) rfl, fun l other => ?_⟩
  · rw [setCollector_walls, walls]
    exact store_pool _ _
  · exact (collector?_setCollector_ne (d := c.close) other.symm).trans (collector?_congr before l)

theorem decideFinish_pending {s : State} {c : Collector} {r : LaneRecord} (held : s.record? c.lane = some r)
    (a : Arrival) : (s.decideFinish c a).LanePending c.lane := by
  have same : (s.store (c.record a)).record? c.lane = some r := held
  rw [decideFinish_eq]
  exact (commit_lanePending (reach := touchesPlacer) (names := alwaysNamed) (f := s.finished c a) same (fun _ => rfl) rfl
    _).more ⟨rfl, fun _ => id⟩

/-- Each record after a finish is one before it, FINAL when it is of that lane. -/
theorem decideFinish_mem {s : State} {c : Collector} {a : Arrival} {x : LaneRecord}
    (mem : x ∈ (s.decideFinish c a).results) :
    ∃ y ∈ s.results, x.unplaced = (if y.lane = c.lane then s.finished c a y else y).unplaced := by
  rw [decideFinish_eq] at mem
  exact commit_mem (s := s.store (c.record a)) mem

theorem mem_decideFinish {s : State} {c : Collector} {y : LaneRecord} (mem : y ∈ s.results) (other : y.lane ≠ c.lane)
    (a : Arrival) : ∃ x ∈ (s.decideFinish c a).results, x.unplaced = y.unplaced := by
  rw [decideFinish_eq]
  exact mem_commit (s := s.store (c.record a)) mem other _ _ _ _

/-- Settles O32: the finish decided, and the close when it was the last open lane's. -/
theorem finishExpiryMakesFinal : Obligations.FinishExpiryMakesFinal := by
  intro s lane c a r live running found open_ due last decided held final finalOut isOpen
  obtain rfl : c.lane = lane := collector?_lane found
  obtain ⟨u, eu⟩ : ∃ u, u = s.decideFinish c a := ⟨_, rfl⟩
  have whole : s.decideCollection c.lane false = u := by rw [decideCollection_finish found open_ decided last, eu]
  have ran := exec_collection_due live found open_ due
  rw [whole] at ran
  obtain ⟨unplaced, out, exchanges⟩ := decideFinish_facts s c a
  obtain ⟨pool, own, others⟩ := decideFinish_walls found a
  have pending : u.LanePending c.lane := eu ▸ decideFinish_pending held a
  obtain ⟨heat, starts, intake, pulse, -, nodes, meet, -⟩ := (eu ▸ decideFinish_raceOnly s c a : s.RaceOnly u).rest
  rw [← eu] at unplaced out exchanges pool own others
  have finals : ∀ t, u.SameRace t → t.results = u.results → t.out = u.out → u.SameMeet t → t.HandedOver c.lane →
      finalOut t := by
    rintro t ⟨-, -, intake', nodes', heat', starts', walls', exchanges', pulse'⟩ results' out' meet' handed
    have collectors : ∀ l, t.collector? l = u.collector? l := fun l => collector?_congr (by rw [walls']) l
    exact ⟨(unplaced_congr results').trans unplaced, out'.trans out, handed, (congrArg _ walls').trans pool,
      (collectors _).trans own, fun l other => (collectors l).trans (others l other), heat'.trans heat,
      exchanges'.trans exchanges, starts'.trans starts, intake'.trans intake, pulse'.trans pulse, nodes'.trans nodes,
      meet.trans meet'⟩
  refine ⟨fun ⟨q, mem, other, swims⟩ => ?_, fun lastOpen => ?_⟩
  · obtain ⟨x, there, same⟩ := mem_decideFinish mem other a
    have closing : u.examineClosing = u := by
      refine examineClosing_open (eu ▸ there) ?_
      rw [status_of_unplaced same]
      rcases swims with e | e | e <;> rw [e] <;> decide
    obtain ⟨race, results', out', meet'⟩ := arbitrate_race u
    exact ⟨_, by rw [ran, closing], finals _ race results' out' meet' pending.arbitrate⟩
  · have closing : u.examineClosing = u.closeHeat .closeAllFinal := by
      refine examineClosing_closed (by rw [heat, running]) fun q mem => ?_
      obtain ⟨y, there, same⟩ := decideFinish_mem (s := s) (by rw [← eu]; exact mem)
      rw [status_of_unplaced same]
      split
      · exact .inl rfl
      · next other => exact closed_of_not_open (lastOpen y there other)
    refine ⟨u, finals u ⟨rfl, rfl, rfl, rfl, rfl, rfl, rfl, rfl, rfl⟩ rfl rfl ⟨rfl, rfl, rfl, rfl, rfl, rfl, rfl, rfl⟩
      pending.handedOver, by rw [ran, closing]⟩

end Sys2Proof.Machine
end

