-- ==== Sys2Proof/Proofs/ExchangeLaps.lean ====
section
/-! Exchange laps: the handoff of a decided one, and a missed one (R64, R68, R80, R85). -/

namespace Sys2Proof.Machine

/-! ### Changes of one lane's record, one after the other -/

theorem writeRecord_writeRecord (rs : List LaneRecord) (lane : Nat) {g : LaneRecord → LaneRecord}
    (lanes : ∀ x, (g x).lane = x.lane) (f : LaneRecord → LaneRecord) :
    writeRecord (writeRecord rs lane g) lane f = writeRecord rs lane fun x => f (g x) := by
  simp only [writeRecord, List.map_map]
  refine List.map_congr_left fun x _ => ?_
  by_cases here : x.lane = lane
  · simp only [Function.comp_apply, here, if_true, lanes]
  · simp only [Function.comp_apply, here, if_false]

/-- Two changes of a lane's record make one change of it, but for places and lamps. -/
theorem changed_trans {s t u : State} {lane : Nat} {f g : LaneRecord → LaneRecord} (first : t.unplaced = s.changed lane g)
    (second : u.unplaced = t.changed lane f) (lanes : ∀ x, (g x).lane = x.lane)
    (blind : ∀ x, (f x).unplaced = (f x.unplaced).unplaced) : u.unplaced = s.changed lane fun x => f (g x) := by
  have both := writeRecord_unplaced (rs := t.results) (qs := writeRecord s.results lane g) first lane blind
  rw [second, State.changed, both, writeRecord_writeRecord _ _ lanes, State.changed]

/-- The changed record, found. -/
theorem record_of_changed {s t : State} {lane : Nat} {g : LaneRecord → LaneRecord} {r : LaneRecord}
    (changes : t.unplaced = s.changed lane g) (lanes : ∀ x, (g x).lane = x.lane) (held : s.record? lane = some r) :
    ∃ q, t.record? lane = some q ∧ q.unplaced = (g r).unplaced := by
  have found := find_of_unplaced (rs := t.results) (qs := writeRecord s.results lane g) changes lane
  rw [find_writeRecord lanes held] at found
  exact Option.map_eq_some_iff.mp found

/-- The record of another lane, found. -/
theorem record_of_changed_ne {s t : State} {lane l : Nat} {g : LaneRecord → LaneRecord}
    (changes : t.unplaced = s.changed lane g) (lanes : ∀ x, (g x).lane = x.lane) (other : l ≠ lane) :
    (t.record? l).map LaneRecord.unplaced = (s.record? l).map LaneRecord.unplaced := by
  have found := find_of_unplaced (rs := t.results) (qs := writeRecord s.results lane g) changes l
  rwa [find_writeRecord_ne lanes other] at found

theorem changed_id (s : State) (lane : Nat) : s.changed lane id = s.unplaced := by
  rw [State.changed, writeRecord_id]
  rfl

theorem judged_lane (x : LaneRecord) (k : Nat) (e : ExchangeRecord) : (x.judged k e).lane = x.lane := by
  unfold LaneRecord.judged LaneRecord.setExchange
  split <;> rfl

theorem judged_unplaced (x : LaneRecord) (k : Nat) (e : ExchangeRecord) :
    (x.judged k e).unplaced = (x.unplaced.judged k e).unplaced := by
  unfold LaneRecord.judged LaneRecord.setExchange
  split <;> rfl

/-! ### The handoff (R80) -/

theorem handoff_eq (s : State) (lane k lap : Nat) (arming touch : HeatTime) (dd : DeckTime) :
    s.handoff lane k lap arming touch dd = (s.judgeExchange lane dd).setWindow lane
      (some { number := k, lap := lap, arming := arming, touch := touch
              timer := dd + ticks (s.plan.exchangeWindow * 1000) }) := rfl

theorem handoff_window {s : State} {lane : Nat} (has : ∃ x ∈ s.exchanges, x.lane = lane) (k lap : Nat)
    (arming touch : HeatTime) (dd : DeckTime) : (s.handoff lane k lap arming touch dd).openExchange lane =
      some { number := k, lap := lap, arming := arming, touch := touch
             timer := dd + ticks (s.plan.exchangeWindow * 1000) } := by
  rw [handoff_eq]
  refine openExchange_opened ?_ _
  obtain ⟨x, mem, rfl⟩ := has
  have there := judgeExchange_windowLanes s x.lane dd
  have lane : x.lane ∈ (s.judgeExchange x.lane dd).exchanges.map (·.lane) := there ▸ List.mem_map_of_mem mem
  obtain ⟨y, held, same⟩ := List.mem_map.mp lane
  exact ⟨y, held, same⟩

theorem handoff_windows_ne (s : State) {lane l : Nat} (other : l ≠ lane) (k lap : Nat) (arming touch : HeatTime)
    (dd : DeckTime) : (s.handoff lane k lap arming touch dd).openExchange l = s.openExchange l := by
  rw [handoff_eq, openExchange_ne _ other, judgeExchange_windows_ne s other]

/-- A handoff writes what the judgement of a window still open writes. -/
theorem handoff_records (s : State) (lane k lap : Nat) (arming touch : HeatTime) (dd : DeckTime) :
    (s.handoff lane k lap arming touch dd).results = (s.judgeExchange lane dd).results
      ∧ (s.handoff lane k lap arming touch dd).out = (s.judgeExchange lane dd).out := ⟨rfl, rfl⟩

/-! ### A missed exchange lap (R85) -/

theorem missedExchange_eq (s : State) (lane k : Nat) : s.missedExchange lane k =
    (s.judgeExchange lane s.deckTime).writeExchange lane k { verdict := .notJudged, margin := none } := rfl

theorem missedExchange_windows (s : State) (lane k : Nat) : (s.missedExchange lane k).openExchange lane = none
    ∧ ∀ l, l ≠ lane → (s.missedExchange lane k).openExchange l = s.openExchange l := by
  have kept := openExchange_congr (writeExchange_facts (s.judgeExchange lane s.deckTime) lane k
    { verdict := .notJudged, margin := none }).2.2.2
  exact ⟨(kept lane).trans (judgeExchange_closed s lane _),
    fun l other => (kept l).trans (judgeExchange_windows_ne s other _)⟩

/-- A verdict of NOT_JUDGED does not reach the Placer. -/
theorem framesOf_notJudged {s : State} {lane : Nat} {r : LaneRecord} (held : s.record? lane = some r) (k : Nat)
    (rep : Report) : s.framesOf lane (fun x => x.judged k { verdict := .notJudged, margin := none }) (fun _ => some rep)
      = s.out.report rep := by
  have kept : ∀ x : LaneRecord, (x.judged k { verdict := .notJudged, margin := none }).status = x.status
      ∧ (x.judged k { verdict := .notJudged, margin := none }).finish = x.finish := by
    intro x
    unfold LaneRecord.judged LaneRecord.setExchange
    split <;> exact ⟨rfl, rfl⟩
  unfold State.framesOf
  rw [held]
  exact if_pos ⟨(kept r).1, (kept r).2, rfl, rfl, rfl⟩

/-! ### The expiry of an exchange lap's collection -/

/-- A decided exchange lap, but for what its judged window writes. -/
theorem decideLap_exchange_facts {s : State} {c : Collector} {k : Nat} (found : s.collector? c.lane = some c)
    (at_ : exchangeAt s.plan.relay s.laps c.lap = some k) (has : ∃ x ∈ s.exchanges, x.lane = c.lane) (a : Arrival) :
    let t := s.decideLap c a false
    t.openExchange c.lane = some { number := k, lap := c.lap, arming := c.arming.getD 0, touch := a.time
                                   timer := s.deckTime + ticks (s.plan.exchangeWindow * 1000) }
      ∧ (∀ l, l ≠ c.lane → t.openExchange l = s.openExchange l ∧ t.collector? l = s.collector? l)
      ∧ t.collector? c.lane = some (s.lapCollector c a false)
      ∧ t.walls.pool = (if s.walls.pool.length < 512 then s.walls.pool ++ [c.record a] else s.walls.pool)
      ∧ t.results = ((s.lapTold c a).judgeExchange c.lane s.deckTime).results
      ∧ t.out = ((s.lapTold c a).judgeExchange c.lane s.deckTime).out := by
  intro t
  obtain ⟨u, eu⟩ : ∃ u, u = s.lapTold c a := ⟨_, rfl⟩
  obtain ⟨-, -, walls, exchanges⟩ := lapTold_facts s c a
  rw [← eu] at walls exchanges
  have before : u.walls.collectors = s.walls.collectors := by rw [walls, store_collectors]
  have plan : u.plan = s.plan := by
    unfold State.plan
    rw [(eu ▸ lapTold_raceOnly s c a : s.RaceOnly u).rest.1]
  obtain ⟨v, ev⟩ : ∃ v, v = u.handoff c.lane k c.lap (c.arming.getD 0) a.time s.deckTime := ⟨_, rfl⟩
  have whole : t = v.setCollector (s.lapCollector c a false) := by rw [ev, eu]; exact decideLap_exchange at_ a false
  have kept : v.walls = u.walls := ev ▸ handoff_walls u _ _ _ _ _ _
  have collectors : ∀ l, v.collector? l = s.collector? l := fun l => collector?_congr (by rw [kept, before]) l
  rw [whole, ← eu]
  refine ⟨?_, fun l other => ⟨?_, ?_⟩, ?_, ?_, ?_, ?_⟩
  · show v.openExchange c.lane = _
    rw [ev, handoff_window (by rw [exchanges]; exact has), plan]
  · show v.openExchange l = _
    rw [ev, handoff_windows_ne u other]
    exact openExchange_congr exchanges l
  · exact (collector?_setCollector_ne (lapCollector_lane s c a false ▸ other.symm)).trans (collectors l)
  · exact collector?_setCollector ((collectors _).trans found) (lapCollector_lane s c a false)
  · rw [setCollector_walls, kept, walls]
    exact store_pool _ _
  · rw [ev]
    rfl
  · rw [ev]
    rfl

/-! ### A skip-ahead (R67, R68) -/

/-- A record with a missed lap. -/
def State.skipped (s : State) (x : LaneRecord) : LaneRecord :=
  { x with
    lapCount := x.lapCount + 1
    flags := { x.flags with
      review := true, splitsLost := x.flags.splitsLost || decide (512 ≤ s.walls.pool.length) } }

/-- The missed lap counted, stored and reported, before its exchange. -/
def State.missTold (s : State) (lane lap : Nat) : State :=
  ((s.store (missedArrival lane lap)).note lane s.skipped).report (.arrival (missedArrival lane lap))

theorem missTold_facts (s : State) (lane lap : Nat) : (s.missTold lane lap).results = writeRecord s.results lane s.skipped
    ∧ (s.missTold lane lap).out = s.out.report (.arrival (missedArrival lane lap))
    ∧ (s.missTold lane lap).walls = s.walls.store (missedArrival lane lap)
    ∧ (s.missTold lane lap).exchanges = s.exchanges := by
  refine ⟨note_results _ _ _, ?_, note_walls _ _ _, note_exchanges _ _ _⟩
  rw [State.missTold, report_out, note_out]
  rfl

theorem missTold_raceOnly (s : State) (lane lap : Nat) : s.RaceOnly (s.missTold lane lap) :=
  (store_raceOnly s _).trans ((note_recordsOnly _ lane _).race.trans (report_outOnly _ _).records.race)

theorem recordMissed_plain {s : State} {lap : Nat} (plain : exchangeAt s.plan.relay s.laps lap = none) (lane : Nat) :
    s.recordMissed lane lap = s.missTold lane lap := by
  unfold State.recordMissed
  simp only [plain]
  rfl

theorem recordMissed_exchange {s : State} {lap k : Nat} (at_ : exchangeAt s.plan.relay s.laps lap = some k) (lane : Nat) :
    s.recordMissed lane lap = (s.missTold lane lap).missedExchange lane k := by
  unfold State.recordMissed
  simp only [at_]
  rfl

/-- A missed lap leaves the collectors. -/
theorem recordMissed_walls (s : State) (lane lap : Nat) :
    (s.recordMissed lane lap).walls = s.walls.store (missedArrival lane lap) := by
  obtain ⟨-, -, walls, -⟩ := missTold_facts s lane lap
  cases at_ : exchangeAt s.plan.relay s.laps lap with
  | none => rw [recordMissed_plain at_, walls]
  | some k => rw [recordMissed_exchange at_, missedExchange_walls, walls]

/-! ### What a taken press does beyond its collector (R60, R61) -/

theorem afterTaken_other {p : Press} (other : p.sensor ≠ .pad) (s : State) (n : Nat) : s.afterTaken p n = s := if_neg other

/-- A record with a provisional finish at a press (R60). -/
def Press.provisional (p : Press) (x : LaneRecord) : LaneRecord :=
  { x with status := .provisional, finish := some p.time, source := some .pad, displayed := some p.time }

/-- A record with a press displayed (R61). -/
def Press.shown (p : Press) (x : LaneRecord) : LaneRecord := { x with displayed := some p.time }

theorem afterTaken_finish {s : State} {p : Press} {n : Nat} (pad : p.sensor = .pad) (last : n = s.laps) :
    s.afterTaken p n = s.commit p.lane p.provisional touchesPlacer alwaysNamed
      fun r => some (finishReport .provisional r) := by
  unfold State.afterTaken State.padTaken
  rw [if_pos pad, if_pos last]
  rfl

theorem afterTaken_shown {s : State} {p : Press} {n : Nat} (pad : p.sensor = .pad) (below : n ≠ s.laps)
    (shows : s.plan.split.shows s.laps n = true) : s.afterTaken p n = s.note p.lane p.shown := by
  unfold State.afterTaken State.padTaken
  rw [if_pos pad, if_neg below, if_pos shows]
  rfl

theorem afterTaken_hidden {s : State} {p : Press} {n : Nat} (below : n ≠ s.laps)
    (hides : s.plan.split.shows s.laps n = false) : s.afterTaken p n = s := by
  unfold State.afterTaken State.padTaken
  rw [if_neg below, hides]
  simp

/-- A change that leaves the counts, the flags and the exchanges of a record. -/
structure KeepsCounts (g : LaneRecord → LaneRecord) : Prop where
  lane : ∀ x, (g x).lane = x.lane
  lapCount : ∀ x, (g x).lapCount = x.lapCount
  flags : ∀ x, (g x).flags = x.flags
  exchange : ∀ x k, (g x).exchange k = x.exchange k

/-- A taken press changes its lane's finish and displayed time at most. -/
theorem afterTaken_changes (s : State) (p : Press) (n : Nat) :
    ∃ g, KeepsCounts g ∧ (s.afterTaken p n).unplaced = s.changed p.lane g := by
  have nothing : s.unplaced = s.changed p.lane id := (changed_id s p.lane).symm
  have kept : KeepsCounts id := ⟨fun _ => rfl, fun _ => rfl, fun _ => rfl, fun _ _ => rfl⟩
  by_cases pad : p.sensor = .pad
  · by_cases last : n = s.laps
    · rw [afterTaken_finish pad last]
      exact ⟨p.provisional, ⟨fun _ => rfl, fun _ => rfl, fun _ => rfl, fun _ _ => rfl⟩, commit_unplaced _ _ _ _ _ _⟩
    · cases shows : s.plan.split.shows s.laps n with
      | true =>
        rw [afterTaken_shown pad last shows]
        exact ⟨p.shown, ⟨fun _ => rfl, fun _ => rfl, fun _ => rfl, fun _ _ => rfl⟩, note_unplaced _ _ _⟩
      | false =>
        rw [afterTaken_hidden last shows]
        exact ⟨id, kept, nothing⟩
  · rw [afterTaken_other pad]
    exact ⟨id, kept, nothing⟩

theorem afterTaken_exchanges (s : State) (p : Press) (n : Nat) : (s.afterTaken p n).exchanges = s.exchanges := by
  unfold State.afterTaken State.padTaken
  split
  · split
    · exact commit_exchanges _ _ _ _ _ _
    · split
      · exact note_exchanges _ _ _
      · rfl
  · rfl

/-- A press on a RUNNING lane whose collector takes presses. -/
theorem takePress_classify {s : State} {c : Collector} {p : Press} (running : s.heat.state = .running)
    (found : s.collector? p.lane = some c) (takes : c.state = .armed ∨ c.state = .collecting) :
    s.takePress p = s.classify c p := by
  unfold State.takePress
  simp only [found, running]
  rcases takes with e | e <;> simp only [e]

/-- The collector that a press opens (R55). -/
def State.opened (s : State) (c : Collector) (p : Press) : Collector :=
  { c.setValue p.time p.sensor with
    state := .collecting
    openTime := some p.deck
    timer := some (p.deck + ticks (s.plan.collectionWindow * 1000)) }

theorem openCollection_eq (s : State) (c : Collector) (p : Press) :
    s.openCollection c p = (s.setCollector (s.opened c p)).afterTaken p c.lap := rfl

/-- A press a lap later at the other wall (R67). -/
theorem classify_skip {s : State} {c : Collector} {p : Press} {a : Int} (armed : c.state = .armed)
    (arming : c.arming = some a) (elsewhere : p.wall ≠ lapWall c.lap)
    (late : a + (s.plan.minLap * 1000 : Nat) ≤ p.time) (below : c.lap < s.laps) :
    s.classify c p = ((s.recordMissed p.lane c.lap).setCollector
      (s.opened (.armedAt p.lane (c.lap + 1) (a + (s.plan.minLap * 1000 : Nat))) p)).afterTaken p (c.lap + 1) := by
  have time : ¬(2 ≤ c.lap ∧ p.time < a) := fun ⟨_, early⟩ => by
    have : a ≤ p.time := le_trans (le_add_of_nonneg_right (Int.natCast_nonneg _)) late
    exact absurd early (Int.not_lt.mpr this)
  have plan : (s.recordMissed p.lane c.lap).plan = s.plan := by
    unfold State.plan
    rw [(recordMissed_raceOnly s p.lane c.lap).rest.1]
  unfold State.classify
  simp only [arming, Option.getD_some, elsewhere, if_false, time]
  refine (if_pos ⟨armed, below, late⟩).trans ?_
  have same : (s.recordMissed p.lane c.lap).opened = s.opened := by
    unfold State.opened
    rw [plan]
  rw [State.skipAhead, openCollection_eq, same]
  rfl

theorem exchangeAt_range {relay : Bool} {laps n k : Nat} (at_ : exchangeAt relay laps n = some k) : 1 ≤ k ∧ k ≤ 3 := by
  unfold exchangeAt at at_
  split at at_
  · dsimp only at at_
    split at at_
    · next range => exact Option.some.inj at_ ▸ range
    · cases at_
  · cases at_

theorem judged_exchange {k : Nat} (range : 1 ≤ k ∧ k ≤ 3) (x : LaneRecord) (e : ExchangeRecord) :
    (x.judged k e).exchange k = some e := by
  have which : k = 1 ∨ k = 2 ∨ k = 3 := by omega
  rcases which with rfl | rfl | rfl <;> rfl

theorem unplaced_exchange (x : LaneRecord) (k : Nat) : x.unplaced.exchange k = x.exchange k := by
  unfold LaneRecord.exchange
  split <;> rfl

theorem afterVerdict_splitsLost (f : LaneFlags) (v : ExchangeVerdict) : (f.afterVerdict v).splitsLost = f.splitsLost := by
  cases v <;> rfl

/-- A judgement changes the record of its lane, or nothing; laps are not its business. -/
theorem judgeExchange_changes (s : State) (lane : Nat) (d : DeckTime) : ∃ g : LaneRecord → LaneRecord,
    (∀ x, (g x).lane = x.lane ∧ (g x).lapCount = x.lapCount ∧ (g x).status = x.status
      ∧ (g x).flags.splitsLost = x.flags.splitsLost) ∧ (s.judgeExchange lane d).unplaced = s.changed lane g := by
  cases open_ : s.openExchange lane with
  | none =>
    rw [judgeExchange_none open_]
    exact ⟨id, fun _ => ⟨rfl, rfl, rfl, rfl⟩, (changed_id s lane).symm⟩
  | some o =>
    refine ⟨_, fun x => ⟨judged_lane x _ _, ?_⟩, (judgeExchange_facts open_ d).1⟩
    unfold LaneRecord.judged LaneRecord.setExchange
    split <;> exact ⟨rfl, rfl, afterVerdict_splitsLost _ _⟩

/-- What a missed exchange lap leaves of its lane's record. -/
theorem missedExchange_record {s : State} {lane k : Nat} {r : LaneRecord} (held : s.record? lane = some r)
    (range : 1 ≤ k ∧ k ≤ 3) : ∃ q, (s.missedExchange lane k).record? lane = some q
      ∧ q.exchange k = some { verdict := .notJudged, margin := none } ∧ q.flags.review = true
      ∧ q.lapCount = r.lapCount ∧ q.flags.splitsLost = r.flags.splitsLost := by
  obtain ⟨g, kept, judged⟩ := judgeExchange_changes s lane s.deckTime
  obtain ⟨x, there, same⟩ := record_of_changed judged (fun x => (kept x).1) held
  obtain ⟨written, -⟩ := writeExchange_facts (s.judgeExchange lane s.deckTime) lane k { verdict := .notJudged, margin := none }
  obtain ⟨q, found, eq⟩ := record_of_changed written (fun x => judged_lane x _ _) there
  have laps : (x.judged k { verdict := .notJudged, margin := none }).lapCount = x.lapCount := by
    unfold LaneRecord.judged LaneRecord.setExchange
    split <;> rfl
  refine ⟨q, found, ?_, ?_, ?_, ?_⟩
  · rw [← unplaced_exchange, eq, unplaced_exchange, judged_exchange range]
  · exact congrArg (fun y : LaneRecord => y.flags.review) eq
  · rw [show q.lapCount = q.unplaced.lapCount from rfl, eq, unplaced_lapCount, laps,
      show x.lapCount = x.unplaced.lapCount from rfl,
      same, unplaced_lapCount, (kept r).2.1]
  · rw [show q.flags = q.unplaced.flags from rfl, eq,
      show (x.judged k _).unplaced.flags.splitsLost = x.unplaced.flags.splitsLost from rfl,
      same, show (g r).unplaced.flags = (g r).flags from rfl, (kept r).2.2.2]

/-- A takeover depends on the heat, the trackers and Deck Time. -/
theorem takeover_congr {s t : State} (heat : t.heat = s.heat) (starts : t.starts = s.starts)
    (time : t.deckTime = s.deckTime) (lane : Nat) (o : OpenExchange) : t.takeover lane o = s.takeover lane o := by
  unfold State.takeover State.plan State.heatTime State.tracker
  rw [heat, starts, time]

/-- A window judged at the present Deck Time. -/
theorem judgeExchange_now {s : State} {lane : Nat} {o : OpenExchange} (open_ : s.openExchange lane = some o) :
    (s.judgeExchange lane s.deckTime).unplaced = s.changed lane (fun x => x.judged o.number (s.takeover lane o))
      ∧ (s.judgeExchange lane s.deckTime).out = s.framesOf lane (fun x => x.judged o.number (s.takeover lane o))
          (fun _ => some (.exchange lane (o.number + 1) (s.takeover lane o).verdict
            ((s.takeover lane o).margin.map marginMs))) :=
  ⟨(judgeExchange_facts open_ s.deckTime).1, (judgeExchange_facts open_ s.deckTime).2.1⟩

/-- Settles O35: the two functions alone, a decided exchange lap, and a missed one. -/
theorem exchangeLapsOpenOrMiss : Obligations.ExchangeLapsOpenOrMiss := by
  refine ⟨fun s lane k lap arming touch dd shut has => ?_, fun s lane k shut => ?_,
    fun s lane k c arming a r live running found open_ armed due below at_ decided held swims has => ?_,
    fun s c p a k r running found armed arming elsewhere late below at_ held => ?_⟩
  · obtain ⟨results, out⟩ := handoff_records s lane k lap arming touch dd
    rw [judgeExchange_none shut] at results out
    obtain ⟨-, starts, -⟩ := (handoff_raceOnly s lane k lap arming touch dd).rest
    exact ⟨handoff_window has k lap arming touch dd, results, out, handoff_walls _ _ _ _ _ _ _, starts⟩
  · obtain ⟨unplaced, out, walls, -⟩ := writeExchange_facts s lane k { verdict := .notJudged, margin := none }
    obtain ⟨-, starts, -⟩ := (missedExchange_raceOnly s lane k).rest
    have window := (missedExchange_windows s lane k).1
    rw [missedExchange_eq, judgeExchange_none shut] at window starts ⊢
    exact ⟨unplaced, out, window, walls, starts⟩
  · obtain rfl : c.lane = lane := collector?_lane found
    obtain ⟨u, eu⟩ : ∃ u, u = s.decideLap c a false := ⟨_, rfl⟩
    obtain ⟨v, ev⟩ : ∃ v, v = s.lapTold c a := ⟨_, rfl⟩
    have whole : s.decideCollection c.lane false = u := by rw [decideCollection_lap found open_ decided below, eu]
    obtain ⟨window, others, own, pool, judgedResults, judgedOut⟩ := decideLap_exchange_facts found at_ has a
    obtain ⟨results, out, walls, exchanges⟩ := lapTold_facts s c a
    obtain ⟨heat, starts, intake, pulse, time, nodes, meet, -⟩ := (eu ▸ decideLap_raceOnly s c a false : s.RaceOnly u).rest
    obtain ⟨vheat, vstarts, -, -, vtime, vnodes, -⟩ := (ev ▸ lapTold_raceOnly s c a : s.RaceOnly v).rest
    rw [← ev] at results out exchanges judgedResults judgedOut
    rw [← eu] at window others own pool judgedResults judgedOut
    rw [← vtime] at judgedResults judgedOut
    obtain ⟨shown, reported⟩ := shows_iff (m := s.plan.split) (Nat.ne_of_lt below)
    have laps : v.unplaced = s.changed c.lane (s.lapped c a) := by
      unfold State.unplaced
      rw [results]
      rfl
    have closing : u.examineClosing = u := by
      obtain ⟨x, there, same⟩ := record_of_changed laps (fun _ => rfl) held
      obtain ⟨g, kept, judged⟩ := judgeExchange_changes v c.lane v.deckTime
      obtain ⟨q, found, eq⟩ := record_of_changed ((unplaced_congr judgedResults).trans judged) (fun x => (kept x).1) there
      refine examineClosing_open (List.mem_of_find?_eq_some found) ?_
      rw [status_of_unplaced eq, (kept x).2.2.1, status_of_unplaced same, show (s.lapped c a r).status = r.status from rfl,
        swims]
      decide
    have told : v.out = if s.plan.split = .allWalls ∨ (s.plan.split = .startWall ∧ lapWall c.lap = .start) then
        s.out.report (.arrival (c.record a)) else s.out := by
      rw [out, reported]
      exact if_congr shown rfl rfl
    obtain ⟨⟨time', -, intake', nodes', heat', starts', walls', exchanges', pulse'⟩, results', out', meet'⟩ :=
      arbitrate_race u
    have collectors : ∀ l, u.arbitrate.collector? l = u.collector? l := fun l => collector?_congr (by rw [walls']) l
    have windows : ∀ l, u.arbitrate.openExchange l = u.openExchange l := openExchange_congr exchanges'
    refine ⟨u.arbitrate, by rw [exec_collection_due live found open_ due, whole, closing], ?_,
      fun l other => ⟨(windows l).trans (others l other).1, (collectors l).trans (others l other).2⟩,
      (collectors _).trans own, (congrArg _ walls').trans pool, fun shut => ?_, fun o begun => ?_, heat'.trans heat,
      starts'.trans starts, intake'.trans intake, pulse'.trans pulse, time'.trans time, nodes'.trans nodes,
      meet.trans meet'⟩
    · rw [windows, window, armed]
      rfl
    · rw [judgeExchange_none ((openExchange_congr exchanges _).trans shut)] at judgedResults judgedOut
      exact ⟨(unplaced_congr (results'.trans judgedResults)).trans laps, out'.trans (judgedOut.trans told)⟩
    · obtain ⟨written, frames⟩ := judgeExchange_now ((openExchange_congr exchanges _).trans begun)
      rw [takeover_congr vheat vstarts vtime] at written frames
      have unplaced : u.arbitrate.unplaced = v.changed c.lane fun x => x.judged o.number (s.takeover c.lane o) :=
        (unplaced_congr (results'.trans judgedResults)).trans written
      refine ⟨changed_trans laps unplaced (fun _ => rfl) fun x => judged_unplaced x _ _, ?_⟩
      refine (out'.trans (judgedOut.trans frames)).trans (framesOf_congr ?_ ?_ ?_ _ _ _)
      · exact results
      · exact told
      · exact vnodes
  · obtain ⟨v, ev⟩ : ∃ v, v = s.missTold p.lane c.lap := ⟨_, rfl⟩
    obtain ⟨results, out, -, exchanges⟩ := missTold_facts s p.lane c.lap
    obtain ⟨vheat, vstarts, -, -, vtime, vnodes, -⟩ := (ev ▸ missTold_raceOnly s p.lane c.lap : s.RaceOnly v).rest
    rw [← ev] at results out exchanges
    have skips : v.unplaced = s.changed p.lane s.skipped := by
      unfold State.unplaced
      rw [results]
      rfl
    obtain ⟨w, ew⟩ : ∃ w, w = (v.missedExchange p.lane k).setCollector
      (s.opened (.armedAt p.lane (c.lap + 1) (a + (s.plan.minLap * 1000 : Nat))) p) := ⟨_, rfl⟩
    have whole : s.takePress p = w.afterTaken p (c.lap + 1) := by
      rw [takePress_classify running found (.inl armed), classify_skip armed arming elsewhere late below,
        recordMissed_exchange at_, ← ev, ← ew]
    have wresults : w.results = (v.missedExchange p.lane k).results := by rw [ew]; rfl
    have wout : w.out = (v.missedExchange p.lane k).out := by rw [ew]; rfl
    have wexchanges : w.exchanges = (v.missedExchange p.lane k).exchanges := by rw [ew]; rfl
    have windows : ∀ l, (s.takePress p).openExchange l = (v.missedExchange p.lane k).openExchange l := fun l =>
      openExchange_congr (by rw [whole, afterTaken_exchanges, wexchanges]) l
    obtain ⟨shut, others⟩ := missedExchange_windows v p.lane k
    obtain ⟨x, there, same⟩ := record_of_changed skips (fun _ => rfl) held
    have range := exchangeAt_range at_
    refine ⟨(windows _).trans shut, fun l other => ((windows l).trans (others l other)).trans (openExchange_congr exchanges l),
      ?_, fun other idle => ?_, fun other o begun => ?_⟩
    · obtain ⟨y, found', exchange, review, laps, -⟩ := missedExchange_record there range
      obtain ⟨g, kept, changes⟩ := afterTaken_changes w p (c.lap + 1)
      obtain ⟨q, found'', eq⟩ := record_of_changed changes kept.lane ((record?_congr wresults _).trans found')
      refine ⟨q, by rw [whole]; exact found'', ?_, ?_, ?_⟩
      · rw [← unplaced_exchange, eq, unplaced_exchange, kept.exchange, exchange]
      · rw [show q.flags = q.unplaced.flags from rfl, eq, show (g y).unplaced.flags = (g y).flags from rfl, kept.flags, review]
      · rw [show q.lapCount = q.unplaced.lapCount from rfl, eq, unplaced_lapCount, kept.lapCount, laps,
          show x.lapCount = x.unplaced.lapCount from rfl, same]
        rfl
    · obtain ⟨written, frames, -⟩ := writeExchange_facts v p.lane k { verdict := .notJudged, margin := none }
      have missed : v.missedExchange p.lane k = v.writeExchange p.lane k { verdict := .notJudged, margin := none } := by
        rw [missedExchange_eq, judgeExchange_none ((openExchange_congr exchanges _).trans idle)]
      rw [whole, afterTaken_other other]
      refine ⟨(unplaced_congr wresults).trans ?_, wout.trans ?_⟩
      · rw [missed]
        exact changed_trans skips written (fun _ => rfl) fun x => judged_unplaced x _ _
      · rw [missed, frames]
        exact (framesOf_notJudged there k _).trans (by rw [out]; rfl)
    · obtain ⟨judged, told⟩ := judgeExchange_now ((openExchange_congr exchanges _).trans begun)
      rw [takeover_congr vheat vstarts vtime] at judged told
      obtain ⟨y, there', -⟩ := record_of_changed judged (fun x => judged_lane x _ _) there
      obtain ⟨written, frames, -⟩ := writeExchange_facts (v.judgeExchange p.lane v.deckTime) p.lane k
        { verdict := .notJudged, margin := none }
      rw [whole, afterTaken_other other]
      refine ⟨(unplaced_congr wresults).trans ?_, wout.trans ?_⟩
      · exact changed_trans (changed_trans skips judged (fun _ => rfl) fun x => judged_unplaced x _ _) written
          (fun x => judged_lane _ _ _) fun x => judged_unplaced x _ _
      · rw [missedExchange_eq, frames, framesOf_notJudged there' k, told]
        refine congrArg (LoopOut.report · _) (framesOf_congr (s := { s with
          results := writeRecord s.results p.lane s.skipped
          out := s.out.report (.arrival (missedArrival p.lane c.lap)) }) ?_ ?_ vnodes _ _ _)
        · exact results
        · exact out

end Sys2Proof.Machine
end

