-- ==== Sys2Proof/Proofs/EdgesAndPresses.lean ====
section
/-! Presses and edges: where an edge goes, and how a press is classified (R6, R37 to R40, R53 to R61, R67, R68). -/

namespace Sys2Proof.Machine

/-! ### Late presses (R58) -/

/-- A record with a late press. -/
def Press.late (p : Press) (review : Bool) (x : LaneRecord) : LaneRecord :=
  { x with late := satAdd 8 x.late 1, flags := x.flags.orReview (p.sensor == .pad && review) }

/-- The walls after a late press of a closed lap, if it is of one. -/
def Press.marks (p : Press) (w : WallJudge) : Option Nat → WallJudge
  | some n => if p.sensor = .pad then w.markLate p.lane n else w
  | none => w

theorem latePress_facts (s : State) (p : Press) (n : Option Nat) (review : Bool) :
    (s.latePress p n review).unplaced = s.changed p.lane (p.late review)
      ∧ (s.latePress p n review).walls = p.marks s.walls n ∧ (s.latePress p n review).exchanges = s.exchanges := by
  have noted := note_unplaced s p.lane (p.late review)
  have walls := note_walls s p.lane (p.late review)
  have exchanges := note_exchanges s p.lane (p.late review)
  cases n with
  | none => exact ⟨noted, walls, exchanges⟩
  | some n =>
    by_cases pad : p.sensor = .pad
    · have whole : s.latePress p (some n) review = { s.note p.lane (p.late review) with
          walls := (s.note p.lane (p.late review)).walls.markLate p.lane n } := if_pos (beq_iff_eq.mpr pad)
      rw [whole]
      refine ⟨noted, ?_, exchanges⟩
      show WallJudge.markLate _ _ _ = _
      rw [walls]
      exact (if_pos pad).symm
    · have whole : s.latePress p (some n) review = s.note p.lane (p.late review) := if_neg (by simpa using pad)
      rw [whole]
      exact ⟨noted, walls.trans (if_neg pad).symm, exchanges⟩

theorem marks_collectors (p : Press) (w : WallJudge) (n : Option Nat) : (p.marks w n).collectors = w.collectors := by
  unfold Press.marks
  split
  · split <;> rfl
  · rfl

/-! ### An edge handed on (R6, R38 to R40) -/

/-- The trackers after an edge of a lane. -/
def State.tracked (s : State) (n : ActiveEntry) (k : Sensor) (press : Bool) (deck : Option DeckTime) : StartJudge :=
  if n.wall = .start ∧ k = s.plan.startSensor then
    { s.starts with trackers := s.starts.trackers.modify n.lane fun x =>
        if x.taking = false then x
        else if press = true then { x with state := .pressed }
        else { x with state := .released, lastRelease := deck } }
  else s.starts

theorem take_eq (x : Tracker) (press : Bool) (deck : Option DeckTime) : x.take press deck =
    if x.taking = false then x
    else if press = true then { x with state := .pressed }
    else { x with state := .released, lastRelease := deck } := by
  unfold Tracker.take
  cases x.taking <;> cases press <;> rfl

theorem toStartJudge_eq (s : State) (n : ActiveEntry) (k : Sensor) (press : Bool) (deck : Option DeckTime) :
    s.toStartJudge n.lane n.wall k press deck = { s with starts := s.tracked n k press deck } := by
  unfold State.toStartJudge State.tracked
  split
  · unfold State.trackerEdge
    simp only [take_eq]
  · rfl

theorem toWallJudge_release (s : State) (lane : Nat) (wall : Wall) (sensor : Sensor) (deck : Option DeckTime) :
    s.toWallJudge lane wall sensor false deck = s := by
  cases deck <;> rfl

theorem toWallJudge_platform (s : State) (lane : Nat) (wall : Wall) (press : Bool) (deck : Option DeckTime) :
    s.toWallJudge lane wall .platform press deck = s := by
  cases deck <;> cases press <;> rfl

theorem toWallJudge_press (s : State) (lane : Nat) (wall : Wall) {sensor : Sensor} (timed : sensor ≠ .platform)
    (d : DeckTime) : s.toWallJudge lane wall sensor true (some d) =
      s.takePress { lane := lane, wall := wall, sensor := sensor, deck := d, time := s.heatTime d } := by
  have takes : (true && sensor != .platform) = true := by simpa using timed
  exact if_pos takes

theorem handEdge_eq {edge : List Byte} {k : Sensor} (known : Sensor.ofCode? (byteAt edge 0 / 16) = some k)
    (n : ActiveEntry) (stamp : DeckTime) (s : State) : s.handEdge n stamp edge =
      (State.toStartJudge (if (edgeDeck stamp n.delay edge).isNone then s.staleEdge n.lane else s) n.lane n.wall k
        ((byteAt edge 0).testBit 0) (edgeDeck stamp n.delay edge)).toWallJudge n.lane n.wall k
          ((byteAt edge 0).testBit 0) (edgeDeck stamp n.delay edge) := by
  unfold State.handEdge
  rw [show Sensor.ofCode? (sensorCode edge) = some k from known]

theorem staleEdge_facts (s : State) (lane : Nat) :
    (s.staleEdge lane).intake = { s.intake with staleCount := satAdd 16 s.intake.staleCount 1 }
      ∧ (s.staleEdge lane).walls = s.walls ∧ (s.staleEdge lane).out = s.out ∧ (s.staleEdge lane).heat = s.heat
      ∧ (s.staleEdge lane).starts = s.starts
      ∧ (s.heat.state = .running → (s.staleEdge lane).unplaced =
          s.changed lane fun x => { x with flags := { x.flags with review := true } })
      ∧ (s.heat.state ≠ .running → (s.staleEdge lane).results = s.results) := by
  obtain ⟨u, eu⟩ : ∃ u : State, u = { s with intake := { s.intake with staleCount := satAdd 16 s.intake.staleCount 1 } } :=
    ⟨_, rfl⟩
  by_cases running : s.heat.state = .running
  · have whole : s.staleEdge lane = u.note lane fun r => { r with flags := r.flags.orReview true } :=
      eu ▸ if_pos running
    obtain ⟨rs, o, q, -, shape⟩ := note_recordsOnly u lane fun r => { r with flags := r.flags.orReview true }
    have same : (fun r : LaneRecord => { r with flags := r.flags.orReview true })
        = fun x => { x with flags := { x.flags with review := true } } := by
      funext x
      simp only [LaneFlags.orReview, Bool.or_true]
    have noted := note_unplaced u lane fun r => { r with flags := r.flags.orReview true }
    have out := note_out u lane fun r => { r with flags := r.flags.orReview true }
    refine ⟨?_, ?_, ?_, ?_, ?_, fun _ => ?_, fun other => absurd running other⟩
    · rw [whole, shape, eu]
    · rw [whole, shape, eu]
    · rw [whole, out, eu]
    · rw [whole, shape, eu]
    · rw [whole, shape, eu]
    · rw [whole, noted, same, eu]
      rfl
  · have whole : s.staleEdge lane = u := eu ▸ if_neg running
    rw [whole, eu]
    exact ⟨rfl, rfl, rfl, rfl, rfl, fun yes => absurd yes running, fun _ => rfl⟩

/-- Settles O30: the edge handed on by its time and sensor, and the presses that no collection takes. -/
theorem pressesWithoutCollection : Obligations.PressesWithoutCollection := by
  refine ⟨fun s n stamp edge k known => ?_, fun p => ?_, toWallJudge_release, toWallJudge_platform, fun _ _ _ _ _ => rfl,
    fun s p idle => ?_, fun s c p found late => ?_⟩
  · have whole := handEdge_eq known n stamp s
    refine ⟨fun d timed press other => ?_, fun d timed ignored => ?_, fun stale => ?_⟩
    · rw [timed, press, toStartJudge_eq] at whole
      rw [whole, press]
      exact toWallJudge_press _ _ _ other d
    · rw [timed, toStartJudge_eq] at whole
      rw [whole]
      rcases ignored with release | platform
      · rw [release]
        exact toWallJudge_release _ _ _ _ _
      · subst platform
        exact toWallJudge_platform _ _ _ _ _
    · obtain ⟨intake, walls, out, heat, starts, running, other⟩ := staleEdge_facts s n.lane
      rw [stale, toStartJudge_eq] at whole
      rw [whole]
      refine ⟨?_, intake, walls, out, heat, running, other⟩
      have plan : (s.staleEdge n.lane).plan = s.plan := by
        unfold State.plan
        rw [heat]
      show State.tracked (s.staleEdge n.lane) n k _ none = _
      unfold State.tracked
      rw [plan, starts]
  · unfold Plan.startSensor
    cases p.stroke <;> simp
  · unfold State.takePress
    cases found : s.collector? p.lane with
    | none => rfl
    | some c =>
      rcases idle with e | e | e | ⟨e, d, found', dormant⟩
      · simp only [e]
      · simp only [e]
      · rw [found] at e
        cases e
      · obtain rfl : c = d := Option.some.inj (found.symm.trans found')
        simp only [e, dormant]
  · have whole : s.takePress p = s.lateAfterClose c p := by
      unfold State.takePress
      rcases late with e | ⟨e, closed⟩
      · simp only [found, e]
      · simp only [found, e, closed]
    obtain ⟨unplaced, walls, exchanges⟩ := latePress_facts s p (if p.wall = lapWall c.lap then some c.lap else none)
      (p.wall == lapWall s.laps)
    obtain ⟨heat, starts, -, pulse, -⟩ := (latePress_raceOnly s p (if p.wall = lapWall c.lap then some c.lap else none)
      (p.wall == lapWall s.laps)).rest
    rw [whole]
    refine ⟨unplaced, (congrArg WallJudge.collectors walls).trans (marks_collectors _ _ _),
      (congrArg WallJudge.pool walls).trans ?_, heat, exchanges, starts, pulse⟩
    by_cases here : p.wall = lapWall c.lap
    · by_cases pad : p.sensor = .pad
      · simp [here, pad, Press.marks, WallJudge.markLate]
      · simp [here, pad, Press.marks]
    · simp [here, Press.marks]

/-! ### A press that a collector classifies (R54) -/

theorem classify_early_own {s : State} {c : Collector} {p : Press} {a : Int} (arming : c.arming = some a)
    (own : p.wall = lapWall c.lap) (early : p.time < a) : s.classify c p = s.earlyPress p.lane := by
  unfold State.classify
  simp only [arming, Option.getD_some]
  exact (if_pos own).trans (if_pos early)

theorem classify_open {s : State} {c : Collector} {p : Press} {a : Int} (arming : c.arming = some a)
    (own : p.wall = lapWall c.lap) (time : a ≤ p.time) (armed : c.state = .armed) :
    s.classify c p = s.openCollection c p := by
  unfold State.classify
  simp only [arming, Option.getD_some]
  exact ((if_pos own).trans (if_neg (Int.not_lt.mpr time))).trans (if_pos armed)

theorem classify_join {s : State} {c : Collector} {p : Press} {a : Int} (arming : c.arming = some a)
    (own : p.wall = lapWall c.lap) (time : a ≤ p.time) (collecting : c.state = .collecting) :
    s.classify c p = s.joinCollection c p := by
  unfold State.classify
  simp only [arming, Option.getD_some]
  exact ((if_pos own).trans (if_neg (Int.not_lt.mpr time))).trans (if_neg (by rw [collecting]; decide))

theorem classify_late {s : State} {c : Collector} {p : Press} {a : Int} (arming : c.arming = some a)
    (elsewhere : p.wall ≠ lapWall c.lap) (lap : 2 ≤ c.lap) (before : p.time < a) :
    s.classify c p = s.latePress p (some (c.lap - 1)) false := by
  unfold State.classify
  simp only [arming, Option.getD_some]
  exact (if_neg elsewhere).trans (if_pos ⟨lap, before⟩)

/-- At the other wall, neither late nor far enough for a skip-ahead. -/
theorem classify_early_elsewhere {s : State} {c : Collector} {p : Press} {a : Int} (arming : c.arming = some a)
    (elsewhere : p.wall ≠ lapWall c.lap) (timely : ¬(2 ≤ c.lap ∧ p.time < a))
    (near : ¬(c.state = .armed ∧ c.lap < s.laps ∧ a + s.plan.minLapTicks ≤ p.time)) :
    s.classify c p = s.earlyPress p.lane := by
  unfold State.classify
  simp only [arming, Option.getD_some]
  exact ((if_neg elsewhere).trans (if_neg timely)).trans (if_neg near)

/-- A press that its collection takes: it opens the collection, or sets or lowers the value of its sensor (R55, R56). -/
theorem classify_taken {s : State} {c : Collector} {p : Press} {a : Int} (takes : c.state = .armed ∨ c.state = .collecting)
    (arming : c.arming = some a) (own : p.wall = lapWall c.lap) (time : a ≤ p.time)
    (lowers : c.state = .armed ∨ ∀ v, c.value p.sensor = some v → p.time < v) : ∃ d, d.lane = c.lane
      ∧ s.classify c p = (s.setCollector d).afterTaken p c.lap
      ∧ d = if c.state = .armed then s.opened c p else c.setValue p.time p.sensor := by
  by_cases armed : c.state = .armed
  · refine ⟨s.opened c p, setValue_lane _ _ _, ?_, (if_pos armed).symm⟩
    rw [classify_open arming own time armed, openCollection_eq]
  · have collecting := takes.resolve_left armed
    have loose : c.keeps p = false := by
      unfold Collector.keeps
      cases value : c.value p.sensor with
      | none => rfl
      | some v => exact decide_eq_false (Int.not_le.mpr (lowers.resolve_left armed v value))
    refine ⟨c.setValue p.time p.sensor, setValue_lane _ _ _, ?_, (if_neg armed).symm⟩
    rw [classify_join arming own time collecting]
    unfold State.joinCollection
    rw [loose]
    rfl

/-- A press at or above the value already held is not taken (R56). -/
theorem classify_kept {s : State} {c : Collector} {p : Press} {a : Int} (collecting : c.state = .collecting)
    (arming : c.arming = some a) (own : p.wall = lapWall c.lap) (time : a ≤ p.time) {v : HeatTime}
    (value : c.value p.sensor = some v) (above : v ≤ p.time) : s.classify c p = s := by
  have keeps : c.keeps p = true := by
    unfold Collector.keeps
    rw [value]
    exact decide_eq_true above
  rw [classify_join arming own time collecting]
  unfold State.joinCollection
  rw [keeps]
  rfl

/-! ### Only its own lane (R54) -/

/-- The collectors and the records of the other lanes, but for places and lamps, are as they were. -/
def State.OnlyLane (lane : Nat) (s t : State) : Prop := ∀ l, l ≠ lane → t.collector? l = s.collector? l
  ∧ (t.record? l).map LaneRecord.unplaced = (s.record? l).map LaneRecord.unplaced

theorem State.OnlyLane.refl (lane : Nat) (s : State) : s.OnlyLane lane s := fun _ _ => ⟨rfl, rfl⟩

theorem State.OnlyLane.trans {lane : Nat} {s t u : State} (h : s.OnlyLane lane t) (k : t.OnlyLane lane u) :
    s.OnlyLane lane u := fun l other => ⟨(k l other).1.trans (h l other).1, (k l other).2.trans (h l other).2⟩

theorem onlyLane_of_changed {s t : State} {lane : Nat} {g : LaneRecord → LaneRecord} (lanes : ∀ x, (g x).lane = x.lane)
    (changes : t.unplaced = s.changed lane g) (walls : t.walls.collectors = s.walls.collectors) : s.OnlyLane lane t :=
  fun l other => ⟨collector?_congr walls l, record_of_changed_ne changes lanes other⟩

theorem setCollector_onlyLane (s : State) {d : Collector} {lane : Nat} (own : d.lane = lane) :
    s.OnlyLane lane (s.setCollector d) :=
  fun _ other => ⟨collector?_setCollector_ne (own ▸ other.symm), rfl⟩

theorem afterTaken_onlyLane (s : State) (p : Press) (n : Nat) : s.OnlyLane p.lane (s.afterTaken p n) := by
  obtain ⟨g, kept, changes⟩ := afterTaken_changes s p n
  exact onlyLane_of_changed kept.lane changes (by rw [afterTaken_walls])

theorem openCollection_onlyLane (s : State) {c : Collector} {p : Press} (own : c.lane = p.lane) :
    s.OnlyLane p.lane (s.openCollection c p) := by
  have lane : (s.opened c p).lane = p.lane := (setValue_lane c p.time p.sensor).trans own
  rw [openCollection_eq]
  exact (setCollector_onlyLane s lane).trans (afterTaken_onlyLane _ p _)

theorem joinCollection_onlyLane (s : State) {c : Collector} {p : Press} (own : c.lane = p.lane) :
    s.OnlyLane p.lane (s.joinCollection c p) := by
  unfold State.joinCollection
  split
  · exact .refl _ s
  · exact (setCollector_onlyLane s ((setValue_lane _ _ _).trans own)).trans (afterTaken_onlyLane _ p _)

theorem latePress_onlyLane (s : State) (p : Press) (n : Option Nat) (b : Bool) : s.OnlyLane p.lane (s.latePress p n b) := by
  obtain ⟨changes, walls, -⟩ := latePress_facts s p n b
  refine onlyLane_of_changed (g := p.late b) (fun _ => rfl) changes ?_
  rw [walls, marks_collectors]

theorem note_onlyLane (s : State) (lane : Nat) {f : LaneRecord → LaneRecord} (lanes : ∀ x, (f x).lane = x.lane) :
    s.OnlyLane lane (s.note lane f) :=
  onlyLane_of_changed lanes (note_unplaced s lane f) (by rw [note_walls])

theorem missedExchange_onlyLane (s : State) (lane k : Nat) : s.OnlyLane lane (s.missedExchange lane k) := by
  obtain ⟨g, kept, judged⟩ := judgeExchange_changes s lane s.deckTime
  obtain ⟨written, -, walls, -⟩ := writeExchange_facts (s.judgeExchange lane s.deckTime) lane k
    { verdict := .notJudged, margin := none }
  refine (onlyLane_of_changed (fun x => (kept x).1) judged (by rw [judgeExchange_walls])).trans ?_
  exact onlyLane_of_changed (fun x => judged_lane x _ _) written (congrArg WallJudge.collectors walls)

theorem recordMissed_onlyLane (s : State) (lane lap : Nat) : s.OnlyLane lane (s.recordMissed lane lap) := by
  obtain ⟨results, -, walls, -⟩ := missTold_facts s lane lap
  have told : s.OnlyLane lane (s.missTold lane lap) := by
    refine onlyLane_of_changed (g := s.skipped) (fun _ => rfl) ?_ (by rw [walls, store_collectors])
    unfold State.unplaced
    rw [results]
    rfl
  cases at_ : exchangeAt s.plan.relay s.laps lap with
  | none => rw [recordMissed_plain at_]; exact told
  | some k => rw [recordMissed_exchange at_]; exact told.trans (missedExchange_onlyLane _ lane k)

theorem classify_onlyLane (s : State) {c : Collector} {p : Press} (own : c.lane = p.lane) :
    s.OnlyLane p.lane (s.classify c p) := by
  have early : s.OnlyLane p.lane (s.earlyPress p.lane) := note_onlyLane s p.lane fun _ => rfl
  unfold State.classify
  dsimp only
  split
  · split
    · exact early
    · split
      · exact openCollection_onlyLane s own
      · exact joinCollection_onlyLane s own
  · split
    · exact latePress_onlyLane s p _ _
    · split
      · exact (recordMissed_onlyLane s p.lane c.lap).trans
          (openCollection_onlyLane _ (c := .armedAt p.lane (c.lap + 1) _) rfl)
      · exact early

end Sys2Proof.Machine
end

