-- ==== Sys2Proof/Proofs/PressClasses.lean ====
section
/-! A press of a RUNNING lane whose collector is ARMED or COLLECTING, by its wall and its heat time (R54 to R61, R67,
R68). -/

namespace Sys2Proof.Machine

theorem earlyPress_facts (s : State) (lane : Nat) :
    (s.earlyPress lane).unplaced = s.changed lane (fun r => { r with early := satAdd 8 r.early 1 })
      ∧ (s.earlyPress lane).walls = s.walls := ⟨note_unplaced _ _ _, note_walls _ _ _⟩

/-- The collector of a press that its collection takes, and the pool. -/
theorem taken_walls {s : State} {c d : Collector} {p : Press} (found : s.collector? p.lane = some c) (own : d.lane = p.lane)
    (n : Nat) : ((s.setCollector d).afterTaken p n).collector? p.lane = some d
      ∧ ((s.setCollector d).afterTaken p n).walls.pool = s.walls.pool := by
  refine ⟨?_, by rw [afterTaken_walls, setCollector_walls]⟩
  exact (collector?_congr (by rw [afterTaken_walls]) _).trans (collector?_setCollector found own)

/-- The value that a joining press leaves (R56). -/
theorem joined_value {c : Collector} {p : Press} (timed : p.sensor ≠ .platform)
    (lowers : ∀ v, c.value p.sensor = some v → p.time < v) :
    (c.setValue p.time p.sensor).value p.sensor = some (min p.time ((c.value p.sensor).getD p.time)) := by
  rw [value_setValue c p.time timed]
  cases value : c.value p.sensor with
  | none => simp
  | some v => exact congrArg some (min_eq_left (le_of_lt (lowers v value))).symm

/-- A collection that a press of its own wall joins, whether or not it lowers the value held (R56). -/
theorem classify_join_value {s : State} {c : Collector} {p : Press} {a : Int} (found : s.collector? p.lane = some c)
    (arming : c.arming = some a) (own : p.wall = lapWall c.lap) (time : a ≤ p.time) (collecting : c.state = .collecting)
    (timed : p.sensor ≠ .platform) : ∃ d, (s.classify c p).collector? p.lane = some d
      ∧ d.value p.sensor = some (min p.time ((c.value p.sensor).getD p.time)) ∧ d.timer = c.timer
      ∧ d.state = .collecting ∧ d.lap = c.lap ∧ (s.classify c p).walls.pool = s.walls.pool := by
  by_cases lowers : ∀ v, c.value p.sensor = some v → p.time < v
  · obtain ⟨d, lane, whole, rfl⟩ := classify_taken (s := s) (.inr collecting) arming own time (.inr lowers)
    rw [if_neg (by rw [collecting]; decide)] at whole
    obtain ⟨there, pool⟩ := taken_walls found ((setValue_lane c p.time p.sensor).trans (collector?_lane found)) c.lap
    rw [whole]
    exact ⟨_, there, joined_value timed lowers, setValue_timer _ _ _, (setValue_state _ _ _).trans collecting,
      setValue_lap _ _ _, pool⟩
  · simp only [not_forall] at lowers
    obtain ⟨v, value, above⟩ := lowers
    rw [classify_kept collecting arming own time value (Int.not_lt.mp above)]
    refine ⟨c, found, ?_, rfl, collecting, rfl, rfl⟩
    rw [value, Option.getD_some, min_eq_right (Int.not_lt.mp above)]

/-- The record of a lane after a skip-ahead, and the pool (R68). -/
theorem recordMissed_record {s : State} {lane lap : Nat} {r : LaneRecord} (held : s.record? lane = some r) :
    ∃ q, (s.recordMissed lane lap).record? lane = some q ∧ q.lapCount = r.lapCount + 1 ∧ q.flags.review = true
      ∧ q.flags.splitsLost = (r.flags.splitsLost || decide (512 ≤ s.walls.pool.length)) := by
  obtain ⟨results, -⟩ := missTold_facts s lane lap
  have there : (s.missTold lane lap).record? lane = some (s.skipped r) := by
    unfold State.record?
    rw [results]
    exact find_writeRecord (fun _ => rfl) held
  cases at_ : exchangeAt s.plan.relay s.laps lap with
  | none =>
    rw [recordMissed_plain at_]
    exact ⟨_, there, rfl, rfl, rfl⟩
  | some k =>
    rw [recordMissed_exchange at_]
    obtain ⟨q, found, -, review, laps, lost⟩ := missedExchange_record there (exchangeAt_range at_)
    exact ⟨q, found, laps, review, lost⟩

/-- Settles O29: each class of press, and what none of them touches. -/
theorem pressIsClassified : Obligations.PressIsClassified := by
  intro s c p a running found takes arming early late own lowers shows provisional missed t
  have classified : t = s.classify c p := takePress_classify running found takes
  have lane := collector?_lane found
  have rest := (takePress_raceOnly s p).rest
  obtain ⟨earlyRecords, earlyWalls⟩ := earlyPress_facts s p.lane
  refine ⟨fun here before => ?_, fun here after armed => ?_, fun here after collecting timed => ?_,
    fun here after lowers pad last => ?_, fun here after lowers pad below shows => ?_, fun here after other => ?_,
    fun away lap before => ?_, fun away lap before => ?_, fun away after near => ?_, fun away far armed below => ?_,
    fun l other => ?_, rest.1, rest.2.1, rest.2.2.1, rest.2.2.2.2.2.1, rest.2.2.2.1⟩
  · rw [classified, classify_early_own arming here before]
    exact ⟨earlyRecords, earlyWalls⟩
  · have opened : (s.opened c p).lane = p.lane := (setValue_lane c p.time p.sensor).trans lane
    obtain ⟨there, pool⟩ := taken_walls found opened c.lap
    rw [classified, classify_open arming here after armed, openCollection_eq]
    exact ⟨_, there, setValue_lap _ _ _, rfl, rfl, fun timed => value_setValue c p.time timed, pool⟩
  · rw [classified]
    exact classify_join_value found arming here after collecting timed
  · obtain ⟨d, own, whole, -⟩ := classify_taken (s := s) takes arming here after lowers
    rw [classified, whole, afterTaken_finish (s := s.setCollector d) pad last]
    refine ⟨commit_unplaced _ _ _ _ _ _, (commit_out _ _ _ _ _).trans (framesOf_congr (s := s) rfl rfl rfl _ _ _),
      fun present => ?_⟩
    obtain ⟨r, held⟩ := Option.ne_none_iff_exists'.mp present
    have same : (s.setCollector d).record? p.lane = some r := held
    exact (commit_lanePending (reach := touchesPlacer) (names := alwaysNamed) (f := p.provisional) same (fun _ => rfl) rfl
      _).handedOver
  · obtain ⟨d, own, whole, -⟩ := classify_taken (s := s) takes arming here after lowers
    have shown : (s.setCollector d).plan.split.shows (s.setCollector d).laps c.lap = true :=
      (shows_iff below).1.mpr shows
    rw [classified, whole, afterTaken_shown (s := s.setCollector d) pad below shown]
    exact ⟨note_unplaced _ _ _, note_out _ _ _⟩
  · by_cases lowering : lowers
    · obtain ⟨d, own, whole, -⟩ := classify_taken (s := s) takes arming here after lowering
      have same : (s.setCollector d).afterTaken p c.lap = s.setCollector d := by
        rcases other with raises | sensor | ⟨below, hidden⟩
        · exact absurd lowering raises
        · exact afterTaken_other sensor _ _
        · refine afterTaken_hidden (s := s.setCollector d) below (Bool.eq_false_iff.mpr fun shown => hidden ?_)
          exact (shows_iff below).1.mp shown
      rw [classified, whole, same]
      exact ⟨rfl, rfl⟩
    · simp only [lowers, not_or, not_forall] at lowering
      obtain ⟨unarmed, v, value, above⟩ := lowering
      rw [classified, classify_kept (takes.resolve_left unarmed) arming here after value (Int.not_lt.mp above)]
      exact ⟨rfl, rfl⟩
  · obtain ⟨changes, walls, -⟩ := latePress_facts s p (some (c.lap - 1)) false
    rw [classified, classify_late arming away lap before]
    have same : p.late false = fun r => { r with late := satAdd 8 r.late 1 } := by
      funext r
      simp only [Press.late, LaneFlags.orReview, Bool.and_false, Bool.or_false]
    have number : ∀ n, n + 1 = c.lap ↔ n = c.lap - 1 := fun n => by omega
    rw [same] at changes
    rw [walls]
    refine ⟨changes, marks_collectors _ _ _, ?_, fun sensor => if_neg sensor⟩
    by_cases pad : p.sensor = .pad
    · simp [Press.marks, pad, WallJudge.markLate, number]
    · simp [Press.marks, pad]
  · have short : ¬(c.state = .armed ∧ c.lap < s.laps ∧ a + s.plan.minLapTicks ≤ p.time) := fun ⟨_, _, far⟩ =>
      absurd before (Int.not_lt.mpr (le_trans (le_add_of_nonneg_right (Int.natCast_nonneg _)) far))
    rw [classified, classify_early_elsewhere arming away (fun ⟨two, _⟩ => by omega) short]
    exact ⟨earlyRecords, earlyWalls⟩
  · have short : ¬(c.state = .armed ∧ c.lap < s.laps ∧ a + s.plan.minLapTicks ≤ p.time) := by
      rintro ⟨armed, below, far⟩
      rcases near with collecting | last | short
      · rw [armed] at collecting
        cases collecting
      · omega
      · exact absurd short (Int.not_lt.mpr far)
    have timely : ¬(2 ≤ c.lap ∧ p.time < a) := fun ⟨_, before⟩ => absurd before (Int.not_lt.mpr after)
    rw [classified, classify_early_elsewhere arming away timely short]
    exact ⟨earlyRecords, earlyWalls⟩
  · obtain ⟨d, ed⟩ : ∃ d, d = s.opened (.armedAt p.lane (c.lap + 1) (a + (s.plan.minLap * 1000 : Nat))) p := ⟨_, rfl⟩
    have own : d.lane = p.lane := by rw [ed]; exact setValue_lane _ _ _
    have walls := recordMissed_walls s p.lane c.lap
    have before : (s.recordMissed p.lane c.lap).collector? p.lane = some c :=
      (collector?_congr (by rw [walls, store_collectors]) _).trans found
    obtain ⟨there, pool⟩ := taken_walls before own (c.lap + 1)
    have whole : t = ((s.recordMissed p.lane c.lap).setCollector d).afterTaken p (c.lap + 1) := by
      rw [classified, classify_skip armed arming away far below, ed]
    rw [whole]
    refine ⟨⟨d, there, ?_, ?_, ?_, ?_⟩, ?_, fun r held => ?_, fun plain sensor => ?_⟩
    · rw [ed]
      exact setValue_lap _ _ _
    · rw [ed]
      rfl
    · rw [ed]
      show (Collector.setValue _ _ p.sensor).link = false
      cases p.sensor <;> rfl
    · rw [ed]
      show (Collector.setValue _ _ p.sensor).arming = _
      cases p.sensor <;> rfl
    · rw [pool, walls]
      exact store_pool _ _
    · obtain ⟨x, missed, laps, review, lost⟩ := recordMissed_record (lap := c.lap) held
      obtain ⟨g, kept, changes⟩ := afterTaken_changes ((s.recordMissed p.lane c.lap).setCollector d) p (c.lap + 1)
      obtain ⟨q, record, same⟩ := record_of_changed changes kept.lane missed
      have flags : q.flags = x.flags := (show q.unplaced.flags = _ from congrArg LaneRecord.flags same).trans (kept.flags x)
      have count : q.lapCount = x.lapCount := by
        rw [← kept.lapCount x, ← unplaced_lapCount q, same, unplaced_lapCount]
      exact ⟨q, record, count.trans laps, flags ▸ review, flags ▸ lost⟩
    · rw [afterTaken_other sensor, recordMissed_plain plain]
      exact (missTold_facts s p.lane c.lap).2.1
  · rw [classified]
    exact classify_onlyLane s lane l other

end Sys2Proof.Machine
end

