-- ==== Sys2Proof/Proofs/Restart.lean ====
section
/-! RESTART: the heat and the traffic discarded, the meet kept (R36, R129, R145, R146, R167). -/

namespace Sys2Proof.Machine

/-! ### The blocks (R146) -/

theorem stopProgram_eq (s : State) (o : PulseOutcome) : s.stopProgram o = { s with pulse := { s.pulse with
    running := none
    status := (s.pulse.running.map fun r : PulseRun =>
      { program := some r.program, outcome := some o, completed := r.completed }).getD s.pulse.status } } := by
  cases running : s.pulse.running with
  | none =>
    simp only [State.stopProgram, running]
    exact congrArg (fun run => { s with pulse := { s.pulse with running := run } }) running
  | some r => exact stopProgram_running running o

/-- The blocks as RESTART leaves them, before its frames. -/
def State.restarted (s : State) : State :=
  { s with
    heat := { plan := s.heat.plan, state := .idle, epoch := none, startTimer := none, limitTimer := none }
    results := []
    walls := { collectors := [], pool := [] }
    exchanges := []
    starts := { s.starts with trackers := freshTrackers false }
    intake := { s.intake with analysis := {} }
    nodes := { s.nodes with active := clearExpected s.nodes.active }
    mgmt := { s.mgmt with queue := [], claim := none }
    out := { s.out with
      outbound := [], transit := [], port := none, cutting := s.out.cutting || s.out.port.isSome }
    board := { s.board with
      maskPersistent := false
      markers := List.replicate 16 (some 0)
      operation := s.board.operation.map BoardOperation.overtaken }
    composer := { s.composer with queue := [], clockRunning := false, clockTimer := none }
    shifter := { s.shifter with half0 := .empty, half1 := .empty }
    pulse := { s.pulse with
      running := none
      status := (s.pulse.running.map fun r : PulseRun =>
        { program := some r.program, outcome := some .cutByRestart, completed := r.completed }).getD s.pulse.status
      held := List.replicate 8 false } }

theorem restartBlocks_eq (s : State) : s.restartBlocks = s.restarted := by
  unfold State.restartBlocks State.restartPulse
  rw [stopProgram_eq]
  rfl

/-! ### The frames (R129, R145) -/

/-- Loop Out with the REPLY, HEAT_STATE and, when a program ran, PULSE_DONE offered, the port just reset. -/
def State.restartOut (s : State) (reply : Frame) : LoopOut :=
  ((s.restarted.out.offer reply).report (.heatState .idle .restart)).reports (s.pulseDone .cutByRestart)

/-- A frame that joins a short queue while the port does not choose. -/
theorem offer_waits {o : LoopOut} (room : o.outbound.length < 32) (waits : o.port.isSome = true ∨ o.cutting = true)
    (f : Frame) : o.offer f = { o with outbound := o.outbound ++ [f] } := by
  unfold LoopOut.offer
  rw [if_pos (show o.outbound.length < Config.outboundCapacity from room)]
  unfold LoopOut.choose
  rcases waits with busy | cutting
  · obtain ⟨x, port⟩ := Option.isSome_iff_exists.mp busy
    simp only [port]
  · simp only [cutting]
    cases o.port <;> rfl

/-- A report that joins a short queue while the port does not choose. -/
theorem report_waits {o : LoopOut} (room : o.outbound.length < 32) (waits : o.port.isSome = true ∨ o.cutting = true)
    (r : Report) : o.report r = { o with
      outbound := o.outbound ++ [reportFrame o.reportDest o.reportNumber r], reportNumber := o.reportNumber + 1 } := by
  unfold LoopOut.report
  rw [if_pos (show o.outbound.length < Config.outboundCapacity from room), offer_waits room waits]

/-- The reports of RESTART behind at most one frame, while the port does not choose. -/
theorem restart_reports {o : LoopOut} (room : o.outbound.length ≤ 1) (waits : o.port.isSome = true ∨ o.cutting = true)
    (running : Option PulseRun) :
    let told : List Frame := hubFrame o.reportDest 0x12 [0x01, o.reportNumber, HeatState.idle.code, HeatCause.restart.code] ::
      (running.toList.map fun r => hubFrame o.reportDest 0x12
        [0x08, o.reportNumber + 1, BitVec.ofNat 8 r.program, PulseOutcome.cutByRestart.code])
    (o.report (.heatState .idle .restart)).reports (running.map fun r => .pulseDone r.program .cutByRestart) =
      { o with outbound := o.outbound ++ told, reportNumber := o.reportNumber + BitVec.ofNat 8 told.length } := by
  have first := report_waits (by omega) waits (.heatState .idle .restart)
  rw [first]
  cases running with
  | none => rfl
  | some r =>
    have second := report_waits (o := { o with
        outbound := o.outbound ++ [reportFrame o.reportDest o.reportNumber (.heatState .idle .restart)]
        reportNumber := o.reportNumber + 1 })
      (by simp only [List.length_append, List.length_singleton]; omega) waits (.pulseDone r.program .cutByRestart)
    refine second.trans ?_
    simp only [List.append_assoc, BitVec.add_assoc]
    rfl

/-- The frames that a RESTART tells after its REPLY. -/
def State.restartFrames (s : State) : List Frame :=
  hubFrame s.out.reportDest 0x12 [0x01, s.out.reportNumber, HeatState.idle.code, HeatCause.restart.code] ::
    (s.pulse.running.toList.map fun r => hubFrame s.out.reportDest 0x12
      [0x08, s.out.reportNumber + 1, BitVec.ofNat 8 r.program, PulseOutcome.cutByRestart.code])

/-- Loop Out after a RESTART: the REPLY goes out at once from an idle port, and waits behind an abandoned frame. -/
theorem restart_traffic (s : State) (reply : Frame) :
    (s.out.port = none → s.out.cutting = false → (s.restartOut reply).port = some (reply, .outbound)
        ∧ (s.restartOut reply).cutting = false ∧ (s.restartOut reply).lastServed = .outbound
        ∧ (s.restartOut reply).outbound = s.restartFrames)
      ∧ (s.out.port.isSome = true ∨ s.out.cutting = true → (s.restartOut reply).port = none
        ∧ (s.restartOut reply).cutting = true ∧ (s.restartOut reply).lastServed = s.out.lastServed
        ∧ (s.restartOut reply).outbound = reply :: s.restartFrames)
      ∧ (s.restartOut reply).reportNumber = s.out.reportNumber + BitVec.ofNat 8 s.restartFrames.length
      ∧ (s.restartOut reply).reportDest = s.out.reportDest ∧ (s.restartOut reply).overflow = s.out.overflow
      ∧ (s.restartOut reply).transit = [] := by
  by_cases waits : s.out.cutting || s.out.port.isSome
  · have first : s.restarted.out.offer reply = { s.restarted.out with outbound := [reply] } :=
      offer_waits (o := s.restarted.out) (Nat.zero_lt_succ _) (.inr waits) reply
    have whole := restart_reports (o := { s.restarted.out with outbound := [reply] }) le_rfl (.inr waits) s.pulse.running
    have told : s.restartOut reply = _ := (congrArg (fun o : LoopOut =>
      (o.report (.heatState .idle .restart)).reports (s.pulseDone .cutByRestart)) first).trans whole
    rw [told]
    refine ⟨fun idle calm => ?_, fun _ => ⟨rfl, waits, rfl, rfl⟩, rfl, rfl, rfl, rfl⟩
    rw [idle, calm] at waits
    cases waits
  · have calm : (s.out.cutting || s.out.port.isSome) = false := by simpa using waits
    have first : s.restarted.out.offer reply =
        { s.restarted.out with port := some (reply, .outbound), lastServed := .outbound } := by
      unfold State.restarted
      rw [calm]
      rfl
    have whole := restart_reports
      (o := { s.restarted.out with port := some (reply, .outbound), lastServed := .outbound }) (Nat.zero_le _) (.inl rfl)
      s.pulse.running
    have told : s.restartOut reply = _ := (congrArg (fun o : LoopOut =>
      (o.report (.heatState .idle .restart)).reports (s.pulseDone .cutByRestart)) first).trans whole
    rw [told]
    refine ⟨fun _ _ => ⟨rfl, calm, rfl, rfl⟩, fun busy => ?_, rfl, rfl, rfl, rfl⟩
    rcases busy with port | cutting
    · rw [port, Bool.or_true] at calm
      cases calm
    · rw [cutting, Bool.true_or] at calm
      cases calm

/-! ### The command -/

/-- RESTART carried out, before the scanner's conditions are examined. -/
def State.restartTold (s : State) (q : Request) : State :=
  { s.restarted with out := s.restartOut (replyFrame q .done 0 []) }

theorem restart_eq (s : State) (q : Request) : restart s q = (s.restartTold q).examineShifter.arbitrate := by
  have told : ((s.restartBlocks.reply q .done).enterHeat .idle .restart).reportOpt (s.pulseDone .cutByRestart)
      = s.restartTold q := by
    rw [restartBlocks_eq]
    unfold State.restartTold State.restartOut
    cases s.pulseDone .cutByRestart <;> rfl
  unfold restart
  rw [← told]

/-- With nothing pending and no console claim the arbiter can grant a row load alone. -/
theorem restart_granted (s : State) (q : Request) : ∃ op claim m, (s.restartTold q).examineShifter.arbitrate.popHead =
    { s.restartTold q with
      board := { (s.restartTold q).board with operation := op }
      shifter := { (s.restartTold q).shifter with claim := claim }
      mgmt := { (s.restartTold q).mgmt with claim := m } } := by
  have settled : ∀ r, (s.restartTold q).mgmt.claim ≠ some (.sendRow r) := fun r h => by cases h
  obtain ⟨op, claim, fields, m, e⟩ := examined_arbitrate_claimsOnly settled
  have empty : (s.restartTold q).examineShifter.composer.queue = [] := by
    unfold State.examineShifter
    split <;> rfl
  have none_pending : (s.restartTold q).examineShifter.arbitrate.composer.queue = [] := by
    rcases arbitrate_queue (s.restartTold q).examineShifter with same | ⟨x, head, -⟩
    · rw [same, empty]
    · rw [empty] at head
      cases head
  have nothing : fields = [] := by
    rw [e] at none_pending
    exact none_pending
  exact ⟨op, claim, m, by rw [e, nothing]; rfl⟩

/-! ### The Board Link cut (R165, R167) -/

theorem boardLink_sending {h : Shifter} {n r c : Nat} {cs : List Cell} (inside : n < 2) (sends : h.half n = .sending r c cs)
    (alone : n = 1 → h.half0.isSending = false) : h.boardLink = some (rowFrame r c cs) := by
  unfold Shifter.boardLink
  have which : n = 0 ∨ n = 1 := by omega
  rcases which with rfl | rfl
  · simp only [show h.half0 = .sending r c cs from sends]
  · have other := alone rfl
    simp only [show h.half1 = .sending r c cs from sends]
    cases first : h.half0 with
    | sending => rw [first] at other; cases other
    | _ => rfl

/-- Settles O45: the blocks, the frames behind an idle port and behind an abandoned frame, and the cut row frame. -/
theorem restartKeepsTheMeet : Obligations.RestartKeepsTheMeet := by
  refine ⟨fun s f asked => ?_, fun h n r c cs inside sends alone => ?_⟩
  · obtain ⟨op, claim, m, granted⟩ := restart_granted s f.request
    refine ⟨_, (exec_asked (exec_restart_run s) asked).trans (by rw [restart_eq]), ?_⟩
    rw [granted]
    have held : ∀ l < 8, (List.replicate 8 false).getD l true = false := by decide
    obtain ⟨idle, cut, number, dest, overflow, transit⟩ := restart_traffic s (replyFrame f.request .done 0 [])
    refine ⟨rfl, rfl, rfl, fun k => freshTracker, rfl, rfl, rfl, rfl, rfl, rfl, rfl, rfl, rfl, transit, idle, cut, number,
      dest, overflow, rfl, rfl, rfl, rfl, rfl, rfl, rfl, rfl, rfl, rfl, rfl, rfl, rfl, rfl, rfl, held, fun r ran => ?_,
      fun still => ?_⟩
    · show Option.getD (Option.map _ s.pulse.running) _ = _
      rw [ran]
      rfl
    · show Option.getD (Option.map _ s.pulse.running) _ = _
      rw [still]
      rfl
  · have link := boardLink_sending inside sends alone
    refine ⟨link, fun whole below => ⟨(rowFrame r c cs).take (whole + 1), ?_, ?_, fun i before => ?_⟩⟩
    · unfold Shifter.cutFrame
      rw [link]
      rfl
    · rw [List.length_take]
      omega
    · rw [List.getElem?_take, if_pos (by omega)]

end Sys2Proof.Machine
end

