-- ==== Sys2Proof/Proofs/RefreshAndClock.lean ====
section
/-! The texts, colours and places of the display fields, the expiries that write them, and the fields a change makes
pending (R13 to R16, R105, R155 to R160, R162, R163). -/

namespace Sys2Proof.Machine

/-! ### Numbers and times as text (R13 to R16) -/

theorem digit_eq (n : Nat) : digit n = glyphOf (n % 10) := rfl

theorem digit_of_lt {n : Nat} (small : n < 10) : digit n = glyphOf n := by rw [digit_eq, Nat.mod_eq_of_lt small]

theorem decimal_one (fuel : Nat) {n : Nat} (small : n < 10) : decimal (fuel + 1) n = [glyphOf n] := by
  rw [decimal, if_pos small, digit_of_lt small]

theorem decimal_more (fuel : Nat) {n : Nat} (large : ¬ n < 10) :
    decimal (fuel + 1) n = decimal fuel (n / 10) ++ [glyphOf (n % 10)] := by
  rw [decimal, if_neg large, digit_eq]

theorem decimal_two (fuel : Nat) {n : Nat} (small : n < 100) : decimal (fuel + 2) n = plainNumber n := by
  unfold plainNumber
  by_cases one : n < 10
  · rw [decimal_one _ one, if_pos one]
  · rw [decimal_more _ one, decimal_one fuel (by omega), if_neg one, if_pos small]
    rfl

theorem decimal_three (fuel : Nat) {n : Nat} (small : n < 1000) : decimal (fuel + 3) n = plainNumber n := by
  by_cases two : n < 100
  · exact decimal_two _ two
  · have large : ¬ n < 10 := by omega
    have tens : ¬ n / 10 < 10 := by omega
    unfold plainNumber
    rw [decimal_more _ large, decimal_more _ tens, decimal_one fuel (by omega), if_neg large, if_neg two,
      Nat.div_div_eq_div_mul]
    rfl

/-- Seconds and hundredths, as a finish time shows them after its minutes (R14). -/
theorem digits2_eq (n : Nat) : digits2 n = [glyphOf (n / 10 % 10), glyphOf (n % 10)] := rfl

theorem timeText_seconds {h : Nat} (short : h < 6000) :
    timeText h = plainNumber (h / 100) ++ [0x2E, glyphOf (h / 10 % 10), glyphOf (h % 10)] := by
  have tenths : h % 100 / 10 % 10 = h / 10 % 10 := by omega
  have last : h % 100 % 10 = h % 10 := by omega
  unfold timeText
  rw [if_pos (by omega), Nat.mod_eq_of_lt short, decimal_two _ (by omega), digits2_eq, tenths, last,
    List.append_assoc]
  rfl

theorem timeText_minutes {h : Nat} (long : 6000 ≤ h) (bound : h ≤ 360000) : timeText h = plainNumber (h / 6000) ++
    [0x3A, glyphOf (h % 6000 / 1000), glyphOf (h % 6000 / 100 % 10), 0x2E, glyphOf (h / 10 % 10), glyphOf (h % 10)] := by
  have tens : h % 6000 / 100 / 10 % 10 = h % 6000 / 1000 := by omega
  have tenths : h % 100 / 10 % 10 = h / 10 % 10 := by omega
  have last : h % 100 % 10 = h % 10 := by omega
  unfold timeText
  rw [if_neg (by omega), decimal_three _ (by omega), digits2_eq, digits2_eq, tens, tenths, last]
  simp only [List.append_assoc]
  rfl

theorem clockText_eq {n rest : Nat} (bound : n ≤ 36000) (part : rest < 10000) :
    clockText ((10000 * n + rest : Nat) : Int) = plainNumber (n / 600)
      ++ [0x3A, glyphOf (n % 600 / 100), glyphOf (n % 600 / 10 % 10), 0x2E, glyphOf (n % 10)] := by
  have whole : (((10000 * n + rest : Nat) : Int) / 10000).toNat = n := by omega
  have tens : n % 600 / 10 / 10 % 10 = n % 600 / 100 := by omega
  have last : n % 10 % 10 = n % 10 := by omega
  unfold clockText
  dsimp only
  rw [whole, decimal_three _ (by omega), digits2_eq, tens, digit_eq, last]
  simp only [List.append_assoc]
  rfl

theorem reactionText_eq (t : Int) : reactionText t =
    (if t < 0 then [0x2D] else []) ++ [glyphOf (min 999 (t.natAbs / 1000) / 100), 0x2E,
      glyphOf (min 999 (t.natAbs / 1000) / 10 % 10), glyphOf (min 999 (t.natAbs / 1000) % 10)] := by
  have size : (t.tdiv 1000).natAbs = t.natAbs / 1000 := by rw [Int.natAbs_tdiv]; rfl
  obtain ⟨m, value⟩ : ∃ m, m = min 999 (t.natAbs / 1000) := ⟨_, rfl⟩
  have bound : m ≤ 999 := by omega
  have first : m / 100 % 10 = m / 100 := by omega
  have tenths : m % 100 / 10 % 10 = m / 10 % 10 := by omega
  have last : m % 100 % 10 = m % 10 := by omega
  unfold reactionText
  dsimp only
  rw [size, ← value, digits2_eq, digit_eq, first, tenths, last]
  split <;> rfl

/-- Text no wider than its field stands at the field's right (R13). -/
theorem rightAlign_fits {width : Nat} {text : List Byte} (fits : text.length ≤ width) :
    rightAlign width text = List.replicate (width - text.length) 0x20 ++ text := by
  unfold rightAlign
  rw [Nat.sub_eq_zero_of_le fits]
  rfl

/-- Whole hundredths are rounded down alike, whichever way a negative time is divided. -/
theorem hundredths_eq (t : Int) : (t.tdiv 1000).toNat = (t / 1000).toNat := by
  rcases Int.le_total 0 t with up | down
  · rw [Int.tdiv_eq_ediv_of_nonneg up]
  · have truncated : t.tdiv 1000 ≤ 0 := by
      have opposite := Int.neg_tdiv t 1000
      have up := Int.tdiv_nonneg (a := -t) (b := 1000) (by omega) (by omega)
      omega
    have floored : t / 1000 ≤ 0 := by omega
    omega

/-! ### What a lane's fields show (R105, R155, R159) -/

theorem disqualified_iff (f : LaneFlags) :
    f.disqualified = true ↔ f.falseStart = true ∨ f.earlyTakeover = true ∨ f.refereeDq = true := by
  simp only [LaneFlags.disqualified, Bool.or_eq_true, or_assoc]

theorem placeText_eq {s : State} {r : LaneRecord} (small : r.place.getD 0 < 100) (n : Nat) :
    r.placeText = s.shownText r (.place n) := by
  unfold LaneRecord.placeText State.shownText
  simp only [disqualified_iff]
  split
  · rfl
  · cases place : r.place with
    | none => rfl
    | some p => exact decimal_two 0 (by simpa [place] using small)

theorem timeFieldText_eq (s : State) (r : LaneRecord) (n : Nat) : r.timeFieldText = s.shownText r (.time n) := by
  have whole : ∀ t : Int, timeText (t.tdiv 1000).toNat = timeText (t / 1000).toNat := fun t => by rw [hundredths_eq]
  unfold LaneRecord.timeFieldText State.shownText
  cases r.status <;> cases r.displayed <;> simp [textDns, textNt, whole]

theorem colourOf_colourClass (l : Layout) (r : LaneRecord) : l.colourOf r.colourClass = l.shownColour r := by
  unfold LaneRecord.colourClass Layout.shownColour
  simp only [← disqualified_iff]
  split
  · rfl
  · split
    · rfl
    · generalize r.place = place
      match place with
      | none | some 0 | some 1 | some 2 | some 3 | some (_ + 4) => rfl

/-- A lane field shows the lane's record. -/
theorem field_shows {s : State} {x : BoardField} {r : LaneRecord} {lane : Nat} (own : x.lane? = some lane)
    (held : s.record? lane = some r) (place : r.place.getD 0 < 100) (number : lane + s.mgmt.settings.numberingBase < 100) :
    s.fieldText x = s.shownText r x ∧ s.fieldColour x = s.board.layout.shownColour r
      ∧ (s.fieldBlink x = true ↔ x = .time lane ∧ r.status = .provisional) := by
  have colour : s.fieldColour x = s.board.layout.shownColour r := by
    unfold State.fieldColour
    simp only [own, Option.bind_some, held, colourOf_colourClass]
  refine ⟨?_, colour, ?_⟩
  · cases x with
    | event | heat | clock => cases own
    | lane n =>
      cases own
      simp only [State.fieldText, held, Option.map_some, Option.getD_some]
      exact decimal_two 0 number
    | place n =>
      cases own
      simp only [State.fieldText, held, Option.map_some, Option.getD_some]
      exact placeText_eq place _
    | reaction n =>
      cases own
      simp only [State.fieldText, held, Option.map_some, Option.getD_some]
      rfl
    | time n =>
      cases own
      simp only [State.fieldText, held, Option.map_some, Option.getD_some]
      exact timeFieldText_eq s r _
  · cases x with
    | time n =>
      cases own
      simp [State.fieldBlink, held]
    | _ => simp [State.fieldBlink]

/-- A lane field of a lane without a record is blank (R159). -/
theorem field_blank {s : State} {x : BoardField} {lane : Nat} (own : x.lane? = some lane) (absent : s.record? lane = none) :
    s.fieldText x = [] ∧ s.fieldColour x = s.board.layout.normal ∧ s.fieldBlink x = false := by
  refine ⟨?_, ?_, ?_⟩
  · cases x <;> cases own <;> simp [State.fieldText, absent]
  · simp [State.fieldColour, own, absent]
  · cases x <;> cases own <;> simp [State.fieldBlink, absent]

/-- A field of no lane is of the normal colour and does not blink (R158, R159). -/
theorem field_plain (s : State) {x : BoardField} (own : x.lane? = none) :
    s.fieldColour x = s.board.layout.normal ∧ s.fieldBlink x = false := by
  refine ⟨by simp [State.fieldColour, own], ?_⟩
  cases x <;> cases own <;> rfl

theorem fieldText_plan {s : State} {p : Plan} (loaded : s.heat.plan = some p) (event : p.event < 1000)
    (heat : p.heat < 100) : s.fieldText .event = plainNumber p.event ∧ s.fieldText .heat = plainNumber p.heat := by
  simp only [State.fieldText, loaded, Option.map_some, Option.getD_some]
  exact ⟨decimal_three 0 event, decimal_two 0 heat⟩

theorem fieldText_planless {s : State} (absent : s.heat.plan = none) :
    s.fieldText .event = [] ∧ s.fieldText .heat = [] := by
  simp [State.fieldText, absent]

/-! ### The expiries that write the board (R158, R162, R163) -/

/-- A claim of the Shifter in a state whose conditions hold is held on, or granted as its load (R163). -/
theorem arbitrate_shifterClaims {s : State} (claimed : s.Claimed) (due : s.LoadDue) :
    s.arbitrate.shifterClaims = true := by
  cases busy : s.board.operation with
  | some op => rw [arbitrate_busy (by rw [busy]; rfl)]; exact claimed due
  | none =>
    have claim : s.shifter.claim = true := by simpa [State.shifterClaims, busy] using claimed due
    obtain ⟨r, c, k, cells, chosen⟩ := chooseLoad_isSome due
    rw [arbitrate_load busy claim chosen]
    simp [State.shifterClaims]

theorem examineShifter_loadDue {s : State} (due : s.LoadDue) : s.examineShifter.LoadDue := by
  unfold State.examineShifter
  split
  · exact due
  · exact due

/-- A due refresh makes the Shifter claim or load (R162, R163). -/
theorem refreshExpires_claims {s : State} {row : Nat} (inside : row < 16) (due : s.refreshDue row = true)
    (half : s.shifter.emptyHalf.isSome = true) : (s.refreshExpires row).shifterClaims = true := by
  have load : s.LoadDue := ⟨half, row, inside, by unfold State.rowDue; rw [due, Bool.or_true]⟩
  unfold State.refreshExpires
  rw [if_pos (by rw [due]; simpa using inside)]
  exact arbitrate_shifterClaims (examineShifter_claimed s) (examineShifter_loadDue load)

theorem refreshExpires_arbiterOnly (s : State) (row : Nat) : s.ArbiterOnly (s.refreshExpires row) := by
  unfold State.refreshExpires
  split
  · exact (examineShifter_arbiterOnly s).trans (arbitrate_arbiterOnly _)
  · exact .refl s

/-- CLOCK is pending after a due clock timer, or its write is in progress, on the timer's next round (R158). -/
theorem clockExpires_eq {s : State} {e : DeckTime} (running : s.heat.state = .running)
    (timer : s.composer.clockTimer = some e) (due : timerDue s.deckTime e = true) :
    s.clockExpires = (State.makePending
      { s with composer := { s.composer with clockTimer := some (e + 10000) } } .clock).arbitrate := by
  unfold State.clockExpires
  simp only [timer, due, running, Bool.true_and, beq_self_eq_true, if_true]
  rfl

theorem arbitrate_pending {s : State} {x : BoardField} (pending : x ∈ s.composer.queue) :
    x ∈ s.arbitrate.composer.queue ∨ s.arbitrate.board.operation = some (s.arbitrate.fieldWrite x) := by
  rcases arbitrate_queue s with same | ⟨y, head, granted⟩
  · exact .inl (same ▸ pending)
  · rw [head, List.mem_cons] at pending
    rcases pending with rfl | later
    · exact .inr (granted.trans (congrArg some ((arbitrate_arbiterOnly s).showsAlike x).symm))
    · exact .inl later

theorem arbitrate_clock (s : State) : s.arbitrate.composer.clockTimer = s.composer.clockTimer
    ∧ s.arbitrate.composer.clockRunning = s.composer.clockRunning
    ∧ s.arbitrate.composer.clockHeld = s.composer.clockHeld := by
  obtain ⟨_, _, _, _, _, _, _, e⟩ := arbitrate_arbiterOnly s
  rw [e]
  exact ⟨rfl, rfl, rfl⟩

/-! ### The fields a change makes pending (R105, R160) -/

theorem makeAllPending_joins (s : State) (fs : List BoardField) :
    ∃ joined, (s.makeAllPending fs).composer.queue = s.composer.queue ++ joined ∧ ∀ x ∈ joined, x ∈ fs := by
  induction fs generalizing s with
  | nil => exact ⟨[], (List.append_nil _).symm, fun _ mem => nomatch mem⟩
  | cons f fs ih =>
    obtain ⟨joined, queue, inside⟩ := ih (s.makePending f)
    have later : ∀ x ∈ joined, x ∈ f :: fs := fun x mem => List.mem_cons_of_mem _ (inside x mem)
    refine if hidden : s.board.layout.hides f || s.composer.queue.contains f then ?_ else ?_
    · exact ⟨joined, queue.trans (by rw [State.makePending, if_pos hidden]), later⟩
    · refine ⟨f :: joined, queue.trans (by rw [State.makePending, if_neg hidden, List.append_assoc]; rfl), ?_⟩
      exact List.forall_mem_cons.mpr ⟨List.mem_cons_self, later⟩

/-- Two result tables of the same lanes, record by record: with one record a lane, a pair is of one lane's records. -/
theorem mem_zip_iff {rs qs : List LaneRecord} (lanes : qs.map (·.lane) = rs.map (·.lane)) (nodup : (rs.map (·.lane)).Nodup)
    (r q : LaneRecord) : (r, q) ∈ rs.zip qs ↔
      rs.find? (·.lane == r.lane) = some r ∧ qs.find? (·.lane == r.lane) = some q := by
  have length : qs.length = rs.length := by simpa using congrArg List.length lanes
  have same : ∀ i (h : i < rs.length), (qs[i]'(length ▸ h)).lane = rs[i].lane := by
    intro i h
    have at_ : (qs.map (·.lane))[i]? = (rs.map (·.lane))[i]? := by rw [lanes]
    simpa [List.getElem?_map, List.getElem?_eq_getElem, h, length ▸ h] using at_
  have found : ∀ i (h : i < rs.length), qs.find? (·.lane == rs[i].lane) = some (qs[i]'(length ▸ h)) := by
    intro i h
    rw [← same i h]
    exact find_lane_eq (lanes ▸ nodup) (List.getElem_mem _)
  constructor
  · intro mem
    obtain ⟨i, inside, at_⟩ := List.mem_iff_getElem.mp mem
    have h : i < rs.length := by simp only [List.length_zip] at inside; omega
    simp only [List.getElem_zip, Prod.mk.injEq] at at_
    obtain ⟨rfl, rfl⟩ := at_
    exact ⟨find_lane_eq nodup (List.getElem_mem _), found i h⟩
  · rintro ⟨old, new⟩
    obtain ⟨i, h, rfl⟩ := List.mem_iff_getElem.mp (List.mem_of_find?_eq_some old)
    obtain rfl : qs[i]'(length ▸ h) = q := Option.some.inj ((found i h).symm.trans new)
    exact List.mem_iff_getElem.mpr ⟨i, by simp only [List.length_zip]; omega, List.getElem_zip⟩

/-- A change is written, and then its lanes are handed over, to the list of pending fields as it was. -/
theorem commit_handOver {s : State} {lane : Nat} {r : LaneRecord} (held : s.record? lane = some r)
    (f : LaneRecord → LaneRecord) (reach names : LaneRecord → LaneRecord → Bool) (rep : LaneRecord → Option Report) :
    ∃ u : State, s.commit lane f reach names rep = u.handOver s.results (if names r (f r) then some lane else none)
      ∧ u.results = (s.commit lane f reach names rep).results ∧ u.composer = s.composer ∧ u.board = s.board := by
  obtain ⟨u, value⟩ : ∃ u : State, u = if reach r (f r) then s.placerPass (writeRecord s.results lane f) lane rep
    else State.reportOpt { s with results := writeRecord s.results lane f } (rep (f r)) := ⟨_, rfl⟩
  have whole : s.commit lane f reach names rep = u.handOver s.results (if names r (f r) then some lane else none) := by
    unfold State.commit
    simp only [held, value]
  have board : (s.commit lane f reach names rep).board = s.board := by
    obtain ⟨_, _, _, -, e⟩ := commit_recordsOnly s lane f reach names rep
    rw [e]
  obtain ⟨_, handed⟩ : u.PendingOnly (u.handOver s.results (if names r (f r) then some lane else none)) :=
    makeAllPending_pendingOnly u _
  refine ⟨u, whole, ?_, ?_, ?_⟩
  · rw [whole, handOver_results]
  · rw [value]
    split
    · exact placerPass_composer ..
    · cases rep (f r) <;> rfl
  · rw [← board, whole, handed]

/-- What a lane's fields show, of its record. -/
theorem field_congr {s t : State} (layout : t.board.layout = s.board.layout)
    (settings : t.mgmt.settings = s.mgmt.settings) {l : Nat}
    (records : (t.record? l).map LaneRecord.boardValues = (s.record? l).map LaneRecord.boardValues)
    {x : BoardField} (own : x.lane? = some l) : t.fieldText x = s.fieldText x ∧ t.fieldColour x = s.fieldColour x
      ∧ t.fieldBlink x = s.fieldBlink x := by
  cases old : s.record? l with
  | none =>
    have new : t.record? l = none := by simpa [old] using records
    obtain ⟨text, colour, blink⟩ := field_blank own old
    obtain ⟨text', colour', blink'⟩ := field_blank own new
    rw [text, colour, blink, text', colour', blink', layout]
    exact ⟨rfl, rfl, rfl⟩
  | some r =>
    obtain ⟨q, new, values⟩ : ∃ q, t.record? l = some q ∧ q.boardValues = r.boardValues := by simpa [old] using records
    simp only [LaneRecord.boardValues, BoardValues.mk.injEq] at values
    obtain ⟨place, time, reaction, colour, blink⟩ := values
    cases x with
    | event | heat | clock => cases own
    | lane n | place n | reaction n | time n =>
      cases own
      simp [State.fieldText, State.fieldColour, State.fieldBlink, BoardField.lane?, old, new, place, time, reaction, colour,
        blink, layout, settings]

theorem mem_laneFields_lane {x : BoardField} {l : Nat} (field : x ∈ laneFields l) : x.lane? = some l := by
  simp only [laneFields, List.mem_cons, List.not_mem_nil, or_false] at field
  rcases field with rfl | rfl | rfl | rfl <;> rfl

/-- A lane a change alters on the board has its four fields pending, unless it is hidden (R105, R160). -/
theorem commit_altered_pending {s : State} {lane l : Nat} {f : LaneRecord → LaneRecord} (lanes : ∀ x, (f x).lane = x.lane)
    (nodup : (s.results.map (·.lane)).Nodup) {reach names : LaneRecord → LaneRecord → Bool}
    {rep : LaneRecord → Option Report}
    (altered : ((s.commit lane f reach names rep).record? l).map LaneRecord.boardValues
      ≠ (s.record? l).map LaneRecord.boardValues) : (s.commit lane f reach names rep).LanePending l := by
  cases held : s.record? lane with
  | none =>
    refine absurd ?_ altered
    unfold State.commit
    simp only [held]
  | some r₀ =>
    have same := commit_lanes s lane lanes reach names rep
    obtain ⟨u, whole, results, -, board⟩ := commit_handOver held f reach names rep
    obtain ⟨t, value⟩ : ∃ t, t = s.commit lane f reach names rep := ⟨_, rfl⟩
    have layout : t.board = s.board := by
      obtain ⟨_, _, _, -, e⟩ := commit_recordsOnly s lane f reach names rep
      rw [value, e]
    rw [← value] at altered whole results same ⊢
    intro x field shown
    have number : ∀ {r : LaneRecord}, s.record? l = some r → r.lane = l := fun h => by simpa using List.find?_some h
    have pair : ∃ r q, (r, q) ∈ s.results.zip t.results ∧ r.lane = l ∧ q.lane = l ∧ r.boardValues ≠ q.boardValues := by
      have both : (s.record? l).isSome = (t.record? l).isSome := by
        have member : ∀ rs : List LaneRecord, (rs.find? (·.lane == l)).isSome = (rs.map (·.lane)).contains l := fun rs => by
          rw [Bool.eq_iff_iff]; simp
        exact (member _).trans ((congrArg (·.contains l) same.symm).trans (member _).symm)
      cases old : s.record? l with
      | none =>
        have new : t.record? l = none := by simpa [old] using both
        exact absurd (by rw [old, new]) altered
      | some r =>
        obtain ⟨q, new⟩ : ∃ q, t.record? l = some q := Option.isSome_iff_exists.mp (by rw [← both, old]; rfl)
        have own : r.lane = l := number old
        refine ⟨r, q, (mem_zip_iff same nodup r q).mpr ⟨own ▸ old, own ▸ new⟩, own, ?_, fun equal => altered ?_⟩
        · simpa using List.find?_some new
        · rw [old, new, Option.map_some, Option.map_some, equal]
    obtain ⟨r, q, mem, -, own, differ⟩ := pair
    rw [whole]
    refine (mem_handOver ..).mpr (.inr ⟨⟨(r, q), results ▸ mem, ?_, own.symm ▸ field⟩, ?_⟩)
    · simp [LaneRecord.handsOver, differ]
    · rw [board, ← layout]
      exact shown

/-- The fields that join the pending list with a change: of lanes whose board values it alters, and of the lane of a named
change (R105, R160). -/
theorem commit_joined {s : State} {lane : Nat} {f : LaneRecord → LaneRecord} (lanes : ∀ x, (f x).lane = x.lane)
    (nodup : (s.results.map (·.lane)).Nodup) (reach names : LaneRecord → LaneRecord → Bool)
    (rep : LaneRecord → Option Report) : ∃ joined,
      (s.commit lane f reach names rep).composer.queue = s.composer.queue ++ joined ∧ ∀ x ∈ joined, ∃ r q,
        x ∈ laneFields r.lane ∧ s.record? r.lane = some r ∧ (s.commit lane f reach names rep).record? r.lane = some q
          ∧ (r.boardValues ≠ q.boardValues ∨ (r.lane = lane ∧ names r (f r) = true)) := by
  cases held : s.record? lane with
  | none =>
    refine ⟨[], ?_, fun _ mem => nomatch mem⟩
    unfold State.commit
    simp only [held, List.append_nil]
  | some r₀ =>
    have same := commit_lanes s lane lanes reach names rep
    obtain ⟨u, whole, results, composer, -⟩ := commit_handOver held f reach names rep
    obtain ⟨t, value⟩ : ∃ t, t = s.commit lane f reach names rep := ⟨_, rfl⟩
    rw [← value] at whole results same ⊢
    obtain ⟨joined, queue, inside⟩ : ∃ joined, t.composer.queue = u.composer.queue ++ joined ∧ ∀ x ∈ joined,
        x ∈ (s.results.zip u.results).flatMap fun p =>
          if p.1.handsOver (if names r₀ (f r₀) then some lane else none) p.2 then laneFields p.2.lane else [] := by
      rw [whole]
      exact makeAllPending_joins u _
    refine ⟨joined, composer ▸ queue, fun x mem => ?_⟩
    obtain ⟨⟨r, q⟩, pair, field⟩ := List.mem_flatMap.mp (inside x mem)
    obtain ⟨handed, field⟩ := List.mem_ite_nil_right.mp field
    obtain ⟨old, new⟩ := (mem_zip_iff same nodup r q).mp (results ▸ pair)
    have own : q.lane = r.lane := by simpa using List.find?_some new
    refine ⟨r, q, own ▸ field, old, new, ?_⟩
    simp only [LaneRecord.handsOver, Bool.or_eq_true, decide_eq_true_eq, beq_iff_eq] at handed
    refine handed.symm.imp id fun named => ?_
    split at named
    · next names_ =>
      have at_ : r.lane = lane := own ▸ (Option.some.inj named).symm
      have first : r₀ = r := Option.some.inj (held.symm.trans (at_ ▸ old))
      exact ⟨at_, first ▸ names_⟩
    · cases named

/-- Settles O54. -/
theorem refreshAndClockExpiries : Obligations.RefreshAndClockExpiries := by
  unfold Obligations.RefreshAndClockExpiries
  refine ⟨?_, ?_, ?_, ?_, ?_, ?_, ?_, ?_, ?_, ?_⟩
  · intro s row live inside due half
    obtain ⟨race, results, out, rows, -⟩ := (refreshExpires_arbiterOnly s row).rest
    refine ⟨_, ?_, refreshExpires_claims inside due half, rows, race, results, out⟩
    rw [exec_rowFullRefreshExpiry_run, run_live live]
  · intro s e live running timer due
    obtain ⟨u, value⟩ : ∃ u, u = State.makePending
      { s with composer := { s.composer with clockTimer := some (e + 10000) } } .clock := ⟨_, rfl⟩
    obtain ⟨queue, pended⟩ : State.PendingOnly { s with composer := { s.composer with clockTimer := some (e + 10000) } } u :=
      value ▸ makePending_pendingOnly _ _
    have pending : BoardField.clock ∈ u.composer.queue := by
      rw [value]
      exact (mem_makePending _ _ _).mpr (.inr ⟨rfl, rfl⟩)
    obtain ⟨clock, run, held⟩ := arbitrate_clock u
    obtain ⟨race, results, out, -⟩ := (arbitrate_arbiterOnly u).rest
    have kept : s.SameRace u ∧ u.results = s.results ∧ u.out = s.out ∧ u.composer.clockTimer = some (e + 10000)
        ∧ u.composer.clockRunning = s.composer.clockRunning ∧ u.composer.clockHeld = s.composer.clockHeld := by
      rw [pended]
      exact ⟨⟨rfl, rfl, rfl, rfl, rfl, rfl, rfl, rfl, rfl⟩, rfl, rfl, rfl, rfl, rfl⟩
    obtain ⟨race₀, results₀, out₀, clock₀, run₀, held₀⟩ := kept
    refine ⟨u.arbitrate, ?_, clock.trans clock₀, run.trans run₀, held.trans held₀, arbitrate_pending pending,
      race₀.trans race, results.trans results₀, out.trans out₀⟩
    rw [exec_clockDisplayExpiry_run, run_live live, clockExpires_eq running timer due, value]
  · intro h bound
    refine ⟨fun short => ?_, fun low short => ?_, fun long => timeText_minutes long bound⟩
    · have unit : h / 100 < 10 := by omega
      rw [timeText_seconds (by omega), plainNumber, if_pos unit, Nat.mod_eq_of_lt unit]
      rfl
    · rw [timeText_seconds short, plainNumber, if_neg (by omega), if_pos (by omega), Nat.div_div_eq_div_mul]
      rfl
  · exact fun n bound rest part => clockText_eq bound part
  · intro t _ _
    refine ⟨fun negative => ?_, fun positive => ?_⟩
    · rw [reactionText_eq, if_pos negative]
      rfl
    · rw [reactionText_eq, if_neg (by omega)]
      rfl
  · exact fun width text fits => rightAlign_fits fits
  · exact fun s x r lane own => ⟨fun held place number => field_shows own held place number, field_blank own⟩
  · intro s x own
    obtain ⟨colour, blink⟩ := field_plain s own
    exact ⟨colour, blink, fun p loaded event heat => fieldText_plan loaded event heat, fieldText_planless, rfl⟩
  · intro s x row col width
    refine ⟨fun place => ?_, rfl, rfl, rfl, fun lane shown => ?_⟩
    · unfold State.fieldWrite
      simp only [place]
      rfl
    · simp [Layout.position, Layout.rowOf, shown]
  · intro s lane g reach names rep lanes nodup
    obtain ⟨joined, queue, inside⟩ := commit_joined lanes nodup reach names rep (lane := lane)
    refine ⟨fun l ⟨y, own, differ⟩ x field => ?_, fun r held named => ?_, joined, queue, inside⟩
    · obtain ⟨_, _, _, -, e⟩ := commit_recordsOnly s lane g reach names rep
      have board : (s.commit lane g reach names rep).board = s.board := by rw [e]
      have settings : (s.commit lane g reach names rep).mgmt.settings = s.mgmt.settings := by rw [e]
      have altered : ((s.commit lane g reach names rep).record? l).map LaneRecord.boardValues
          ≠ (s.record? l).map LaneRecord.boardValues := by
        intro same
        obtain ⟨text, colour, blink⟩ := field_congr (by rw [board]) settings same (mem_laneFields_lane own)
        exact differ.elim (· text) (·.elim (· colour) (· blink))
      by_cases hidden : s.board.layout.hides x = true
      · right
        unfold Layout.hides Layout.rowOf at hidden
        rw [mem_laneFields_lane field] at hidden
        simpa using hidden
      · left
        rw [List.contains_iff_mem]
        exact commit_altered_pending lanes nodup altered x field (by rw [board]; simpa using hidden)
    · exact (commit_lanePending held lanes named rep).handedOver

end Sys2Proof.Machine
end

