-- ==== Sys2Proof/Proofs/TickAndExpiries.lean ====
section
/-! A tick takes every expiry that is due, and then Deck Time counts; modular Deck Time (R1, R2, R5 to R7, R25, R64, R81,
R117, R158, R163, R173). -/

namespace Sys2Proof.Machine

/-! ### What an expiry can do to the clocks and the heat -/

/-- What an expiry of the race leaves of the clocks: Deck Time, the intake and the timers of the heat and of the clock, but
for a start timer that it stops, or a heat that it closes. -/
def State.Onward (s t : State) : Prop :=
  t.deckTime = s.deckTime ∧ t.intake = s.intake ∧
    ((t.heat.state = s.heat.state ∧ t.heat.limitTimer = s.heat.limitTimer
        ∧ t.composer.clockTimer = s.composer.clockTimer
        ∧ (t.heat.startTimer = s.heat.startTimer ∨ t.heat.startTimer = none))
      ∨ t.heat.state = .results)

theorem State.Onward.refl (s : State) : s.Onward s := ⟨rfl, rfl, .inl ⟨rfl, rfl, rfl, .inl rfl⟩⟩

theorem State.Onward.trans {s t u : State} (h : s.Onward t) (k : t.Onward u) : s.Onward u := by
  obtain ⟨deck, intake, first⟩ := h
  obtain ⟨deck', intake', second⟩ := k
  refine ⟨deck'.trans deck, intake'.trans intake, ?_⟩
  rcases second with ⟨state', limit', clock', start'⟩ | closed
  · rcases first with ⟨state, limit, clock, start⟩ | closed
    · refine .inl ⟨state'.trans state, limit'.trans limit, clock'.trans clock, ?_⟩
      rcases start' with same | off
      · exact start.imp same.trans same.trans
      · exact .inr off
    · exact .inr (state'.trans closed)
  · exact .inr closed

theorem State.RaceOnly.onward {s t : State} (h : s.RaceOnly t) : s.Onward t := by
  obtain ⟨_, _, _, _, _, -, rfl⟩ := h
  exact ⟨rfl, rfl, .inl ⟨rfl, rfl, rfl, .inl rfl⟩⟩

theorem State.ArbiterOnly.onward {s t : State} (h : s.ArbiterOnly t) : s.Onward t := by
  obtain ⟨_, _, _, _, _, _, _, rfl⟩ := h
  exact ⟨rfl, rfl, .inl ⟨rfl, rfl, rfl, .inl rfl⟩⟩

theorem State.PulseOnly.onward {s t : State} (h : s.PulseOnly t) : s.Onward t := by
  obtain ⟨_, _, _, _, -, rfl⟩ := h
  exact ⟨rfl, rfl, .inl ⟨rfl, rfl, rfl, .inl rfl⟩⟩

theorem closeHeat_onward (s : State) (cause : HeatCause) : s.Onward (s.closeHeat cause) := by
  have closed : (s.closeHeat cause).heat.state = .results := by rw [closeHeat_heat]
  obtain ⟨_, _, _, _, _, _, _, -, e⟩ := closeHeat_heatOnly s cause
  exact ⟨by rw [e], by rw [e], .inr closed⟩

theorem startWindowExpires_onward (s : State) : s.Onward s.startWindowExpires := by
  unfold State.startWindowExpires
  split
  · exact .refl s
  · next d timer =>
    split
    · refine .trans ?_ (arbitrate_arbiterOnly _).onward
      have stopped : s.Onward { s with heat := { s.heat with startTimer := none } } :=
        ⟨rfl, rfl, .inl ⟨rfl, rfl, rfl, .inr rfl⟩⟩
      refine stopped.trans ?_
      exact foldl_keeps State.Onward .refl (fun _ _ _ => .trans) _
        (fun t l => (judgeStartLane_recordsOnly _ t l).race.onward) _ _
    · exact .refl s

theorem collectionExpires_onward (s : State) (lane : Nat) : s.Onward (s.collectionExpires lane) := by
  unfold State.collectionExpires
  split
  · refine ((decideCollection_raceOnly s lane false).onward.trans ?_).trans (arbitrate_arbiterOnly _).onward
    unfold State.examineClosing
    split
    · exact closeHeat_onward _ _
    · exact .refl _
  · exact .refl s

theorem exchangeExpires_onward (s : State) (lane : Nat) : s.Onward (s.exchangeExpires lane) := by
  unfold State.exchangeExpires
  split
  · exact .refl s
  · split
    · exact (judgeExchange_raceOnly s lane _).onward.trans (arbitrate_arbiterOnly _).onward
    · exact .refl s

theorem limitExpires_onward (s : State) : s.Onward s.limitExpires := by
  unfold State.limitExpires
  split
  · exact (closeHeat_onward s _).trans (arbitrate_arbiterOnly _).onward
  · exact .refl s

/-! ### An expiry taken stays taken -/

/-- What each item's own turn brings about, and no other turn undoes, holds of each item after all the turns. -/
theorem foldl_taken {α : Type} {g : State → α → State} {P : α → State → Prop} (hit : ∀ s a, P a (g s a))
    (kept : ∀ s a b, P a s → P a (g s b)) (as : List α) (s : State) {a : α} (mem : a ∈ as) : P a (as.foldl g s) := by
  have stays : ∀ (bs : List α) (t : State), P a t → P a (bs.foldl g t) := by
    intro bs
    induction bs with
    | nil => exact fun _ => id
    | cons b bs ih => exact fun t h => ih _ (kept t a b h)
  induction as generalizing s with
  | nil => cases mem
  | cons b bs ih =>
    rcases List.mem_cons.mp mem with rfl | later
    · exact stays bs _ (hit s a)
    · exact ih _ later

/-- The lane's collector is as it was, or holds no open collection with a value. -/
def State.LaneSettled (lane : Nat) (s t : State) : Prop :=
  t.Decided lane ∨ t.collector? lane = s.collector? lane

theorem State.LaneSettled.refl (lane : Nat) (s : State) : State.LaneSettled lane s s := .inr rfl

theorem State.LaneSettled.trans {lane : Nat} {s t u : State} (h : State.LaneSettled lane s t)
    (k : State.LaneSettled lane t u) : State.LaneSettled lane s u := by
  rcases k with decided | same
  · exact .inl decided
  · refine h.imp (fun decided c found => decided c ?_) same.trans
    rw [← same]
    exact found

theorem laneSettled_of_walls {lane : Nat} {s t : State} (walls : t.walls = s.walls) : State.LaneSettled lane s t :=
  .inr (collector?_congr (by rw [walls]) lane)

theorem decideCollection_settled (lane : Nat) (s : State) (l : Nat) (closing : Bool) :
    State.LaneSettled lane s (s.decideCollection l closing) := by
  obtain ⟨decided, others⟩ := decideCollection_collectors s l closing
  by_cases same : lane = l
  · exact .inl (same ▸ decided)
  · exact .inr (others lane same)

theorem closeLanes_settled (lane : Nat) (s : State) : State.LaneSettled lane s s.closeLanes := by
  unfold State.closeLanes
  refine .trans (t := Config.lanes.foldl (fun t l => t.decideCollection l true) s) ?_ (laneSettled_of_walls ?_)
  · exact foldl_keeps (State.LaneSettled lane) (.refl lane) (fun _ _ _ => .trans) _
      (fun t l => decideCollection_settled lane t l true) _ _
  · rw [foldl_walls _ (fun t l => judgeExchange_walls t l _), foldl_walls]
    intro t l
    obtain ⟨_, _, _, -, e⟩ := noFinish_recordsOnly t l
    rw [e]

theorem closeHeat_settled (lane : Nat) (s : State) (cause : HeatCause) :
    State.LaneSettled lane s (s.closeHeat cause) :=
  ((laneSettled_of_walls (closeStart_walls s)).trans (closeLanes_settled lane _)).trans
    (laneSettled_of_walls (closeHeat_walls s cause))

theorem collectionExpires_settled (lane : Nat) (s : State) (l : Nat) :
    State.LaneSettled lane s (s.collectionExpires l) := by
  unfold State.collectionExpires
  split
  · refine .trans (.trans (decideCollection_settled lane s l false) ?_) (laneSettled_of_walls (arbitrate_walls _))
    unfold State.examineClosing
    split
    · exact closeHeat_settled lane _ _
    · exact .refl lane _
  · exact .refl lane s

theorem exchangeExpires_walls (s : State) (l : Nat) : (s.exchangeExpires l).walls = s.walls := by
  unfold State.exchangeExpires
  split
  · rfl
  · split
    · rw [arbitrate_walls, judgeExchange_walls]
    · rfl

theorem limitExpires_settled (lane : Nat) (s : State) : State.LaneSettled lane s s.limitExpires := by
  unfold State.limitExpires
  split
  · exact (closeHeat_settled lane s _).trans (laneSettled_of_walls (arbitrate_walls _))
  · exact .refl lane s

/-- No collection of the lane that holds a value is due. -/
def State.CollectionTaken (lane : Nat) (s : State) : Prop :=
  ∀ c, s.collector? lane = some c → c.state = .collecting → c.pad ≠ none ∨ c.buttons ≠ [] → s.expired c.timer = false

theorem expired_congr {s t : State} (deck : t.deckTime = s.deckTime) (e : Option DeckTime) : t.expired e = s.expired e := by
  unfold State.expired
  rw [deck]

theorem State.CollectionTaken.settled {lane : Nat} {s t : State} (h : s.CollectionTaken lane)
    (k : State.LaneSettled lane s t) (deck : t.deckTime = s.deckTime) : t.CollectionTaken lane := by
  intro c found collecting value
  rcases k with decided | same
  · obtain ⟨pad, buttons⟩ := decided c found collecting
    exact (value.elim (· pad) (· buttons)).elim
  · rw [expired_congr deck]
    exact h c (same ▸ found) collecting value

theorem collectionExpires_all (s : State) {lane : Nat} (mem : lane ∈ Config.lanes) :
    (Config.lanes.foldl State.collectionExpires s).CollectionTaken lane := by
  refine foldl_taken (P := State.CollectionTaken) (fun t l c found collecting value => ?_) (fun t a b h => ?_) _ _ mem
  · rw [expired_congr (collectionExpires_onward t l).1]
    rcases collectionExpires_taken t l c found collecting with waits | ⟨pad, buttons⟩
    · exact waits
    · exact (value.elim (· pad) (· buttons)).elim
  · exact h.settled (collectionExpires_settled a t b) (collectionExpires_onward t b).1

/-! ### The exchange windows (R81) -/

/-- No open exchange window of the lane is due. -/
def State.WindowTaken (lane : Nat) (s : State) : Prop :=
  ∀ o, s.openExchange lane = some o → timerDue s.deckTime o.timer = false

theorem exchangeExpires_other (s : State) {lane l : Nat} (other : lane ≠ l) :
    (s.exchangeExpires l).openExchange lane = s.openExchange lane := by
  unfold State.exchangeExpires
  split
  · rfl
  · split
    · rw [openExchange_congr (arbitrate_exchanges _), judgeExchange_windows_ne s other]
    · rfl

theorem exchangeExpires_all (s : State) {lane : Nat} (mem : lane ∈ Config.lanes) :
    (Config.lanes.foldl State.exchangeExpires s).WindowTaken lane := by
  have hit : ∀ (t : State) (l : Nat), (t.exchangeExpires l).WindowTaken l := fun t l o found => by
    rw [(exchangeExpires_onward t l).1]
    exact exchangeExpires_taken found
  refine foldl_taken (P := State.WindowTaken) hit (fun t a b h => ?_) _ _ mem
  by_cases same : a = b
  · exact same ▸ hit t a
  · intro o found
    rw [(exchangeExpires_onward t b).1]
    exact h o (exchangeExpires_other t same ▸ found)

/-- A close leaves no exchange window open (R86). -/
theorem closeLanes_windows (s : State) {lane : Nat} (mem : lane ∈ Config.lanes) :
    s.closeLanes.openExchange lane = none := by
  unfold State.closeLanes
  refine foldl_taken (P := fun l t => t.openExchange l = none) (fun t l => judgeExchange_closed t l _)
    (fun t a b h => ?_) _ _ mem
  by_cases same : a = b
  · exact same ▸ judgeExchange_closed t a _
  · rw [judgeExchange_windows_ne t same]
    exact h

theorem stopClock_exchanges (s : State) (t : HeatTime) : (s.stopClock t).exchanges = s.exchanges := by
  unfold State.stopClock State.makePending
  split <;> rfl

theorem fireEnd_exchanges (s : State) : s.fireEnd.exchanges = s.exchanges := by
  obtain ⟨_, _, _, _, -, e⟩ := fireEnd_pulseOnly s
  rw [e]

theorem closeHeat_exchanges (s : State) (cause : HeatCause) :
    (s.closeHeat cause).exchanges = s.closeStart.closeLanes.exchanges := by
  unfold State.closeHeat
  generalize s.closeStart.closeLanes = u
  dsimp only
  split
  · rw [fireEnd_exchanges, stopClock_exchanges]
    rfl
  · rw [stopClock_exchanges]
    rfl

theorem State.WindowTaken.limit {lane : Nat} {s : State} (h : s.WindowTaken lane) (mem : lane ∈ Config.lanes) :
    s.limitExpires.WindowTaken lane := by
  unfold State.limitExpires
  split
  · intro o found
    rw [openExchange_congr (arbitrate_exchanges _), openExchange_congr (closeHeat_exchanges s _),
      closeLanes_windows _ mem] at found
    cases found
  · exact h

/-! ### The clock and the rows (R158, R162, R163) -/

/-- Deck Time, the intake, the heat, the walls and the exchanges are as they were. -/
def State.RaceStands (s t : State) : Prop :=
  t.deckTime = s.deckTime ∧ t.intake = s.intake ∧ t.heat = s.heat ∧ t.walls = s.walls ∧ t.exchanges = s.exchanges

theorem State.RaceStands.refl (s : State) : s.RaceStands s := ⟨rfl, rfl, rfl, rfl, rfl⟩

theorem State.RaceStands.trans {s t u : State} (h : s.RaceStands t) (k : t.RaceStands u) : s.RaceStands u := by
  obtain ⟨a, b, c, d, e⟩ := h
  obtain ⟨a', b', c', d', e'⟩ := k
  exact ⟨a'.trans a, b'.trans b, c'.trans c, d'.trans d, e'.trans e⟩

theorem State.ArbiterOnly.stands {s t : State} (h : s.ArbiterOnly t) : s.RaceStands t := by
  obtain ⟨_, _, _, _, _, _, _, rfl⟩ := h
  exact .refl _

theorem State.PulseOnly.stands {s t : State} (h : s.PulseOnly t) : s.RaceStands t := by
  obtain ⟨_, _, _, _, -, rfl⟩ := h
  exact .refl _

theorem stepExpires_pulseOnly (s : State) : s.PulseOnly s.stepExpires := by
  unfold State.stepExpires
  split
  · exact .refl s
  · split
    · exact stepBoundary_pulseOnly s _
    · exact .refl s

theorem clockExpires_stands (s : State) : s.RaceStands s.clockExpires := by
  unfold State.clockExpires
  split
  · exact .refl s
  · next e _ =>
    split
    · refine .trans ?_ (arbitrate_arbiterOnly _).stands
      obtain ⟨_, pended⟩ := makePending_pendingOnly
        { s with composer := { s.composer with clockTimer := some (e + Config.clockInterval) } } .clock
      rw [pended]
      exact .refl s
    · exact .refl s

/-- A due clock timer runs on 10,000 ticks beyond its expiry value (R158). -/
theorem clockExpires_next {s : State} {e : DeckTime} (running : s.heat.state = .running)
    (timer : s.composer.clockTimer = some e) (due : timerDue s.deckTime e = true) :
    s.clockExpires.composer.clockTimer = some (e + 10000) := by
  rw [clockExpires_eq running timer due, (arbitrate_clock _).1]
  obtain ⟨_, pended⟩ := makePending_pendingOnly
    { s with composer := { s.composer with clockTimer := some (e + 10000) } } .clock
  rw [pended]

theorem refreshes_arbiterOnly (rows : List Nat) (s : State) : s.ArbiterOnly (rows.foldl State.refreshExpires s) :=
  foldl_keeps State.ArbiterOnly .refl (fun _ _ _ => .trans) _ refreshExpires_arbiterOnly rows s

theorem State.ArbiterOnly.refreshDue {s t : State} (h : s.ArbiterOnly t) (row : Nat) :
    t.refreshDue row = s.refreshDue row := by
  obtain ⟨_, _, _, _, _, _, _, rfl⟩ := h
  rfl

/-- After the refreshes a due row is claimed for (R162, R163). -/
theorem refreshExpires_all (s : State) {row : Nat} (inside : row < 16)
    (due : (Config.boardRows.foldl State.refreshExpires s).refreshDue row = true) :
    (Config.boardRows.foldl State.refreshExpires s).Claimed := by
  have claims : ∀ (t : State) (r : Nat), t.refreshExpires r = t ∨ (t.refreshExpires r).Claimed := by
    intro t r
    unfold State.refreshExpires
    split
    · exact .inr (arbitrate_claimed (examineShifter_claimed t))
    · exact .inl rfl
  have taken := foldl_taken (P := fun r t => r < 16 → t.refreshDue r = true → t.Claimed) (g := State.refreshExpires)
    (fun t r below due => ?_) (fun t a b h below due => ?_) Config.boardRows s ((mem_boardRows row).mpr inside)
  · exact taken inside due
  · rw [(refreshExpires_arbiterOnly t r).refreshDue] at due
    unfold State.refreshExpires
    rw [if_pos (by rw [due]; simpa using below)]
    exact arbitrate_claimed (examineShifter_claimed t)
  · rcases claims t b with same | claimed
    · rw [same] at due ⊢
      exact h below due
    · exact claimed

/-! ### The expiries of a tick, in their order (R2; log entry 5) -/

/-- The tick's state after the silence and the expiries of the race, before the heat limit. -/
def State.raceTaken (s : State) : State :=
  Config.lanes.foldl State.exchangeExpires
    (Config.lanes.foldl State.collectionExpires s.silenceExpires.startWindowExpires)

/-- The tick's state before the pulse step. -/
def State.boardTaken (s : State) : State :=
  Config.boardRows.foldl State.refreshExpires s.raceTaken.limitExpires.clockExpires

theorem takeDue_eq (s : State) : s.takeDue = s.boardTaken.stepExpires := rfl

theorem silenceExpires_race (s : State) : s.silenceExpires.deckTime = s.deckTime
    ∧ s.silenceExpires.heat = s.heat ∧ s.silenceExpires.composer.clockTimer = s.composer.clockTimer
    ∧ (s.silenceExpires.intake.link = .up → s.expired s.silenceExpires.intake.silenceTimer = false) := by
  unfold State.silenceExpires
  split
  · obtain ⟨a, cut⟩ := cutFrame_intake
      { s with intake := { s.intake with link := .outage, silenceTimer := none, outageStart := s.deckTime } }
    obtain ⟨_, _, _, _, _, _, _, arbitrated⟩ := arbitrate_arbiterOnly s.beginOutage
    rw [arbitrated, State.beginOutage, cut]
    exact ⟨rfl, rfl, rfl, fun _ => rfl⟩
  · next waits =>
    refine ⟨rfl, rfl, rfl, fun up => ?_⟩
    simpa [up] using waits

theorem startWindowExpires_taken (s : State) (running : s.startWindowExpires.heat.state = .running) :
    s.expired s.startWindowExpires.heat.startTimer = false := by
  unfold State.startWindowExpires at running ⊢
  cases timer : s.heat.startTimer with
  | none =>
    simp only [timer]
    rfl
  | some e =>
    simp only [timer] at running ⊢
    split
    · obtain ⟨_, _, _, _, _, _, _, arbitrated⟩ := arbitrate_arbiterOnly (s.judgeStart e)
      rw [arbitrated, judgeStart_heat]
      rfl
    · next waits =>
      rw [if_neg waits] at running
      rw [timer]
      simpa [State.expired, running] using waits

theorem limitExpires_closes {s : State} (due : (s.expired s.heat.limitTimer && s.heat.state == .running) = true) :
    s.limitExpires.heat.state = .results := by
  have closes : s.limitExpires = (s.closeHeat .closeLimit).arbitrate := if_pos due
  rw [closes, ((arbitrate_arbiterOnly _).stands).2.2.1, closeHeat_heat]

theorem limitExpires_taken (s : State) (running : s.limitExpires.heat.state = .running) :
    s.limitExpires = s ∧ s.expired s.heat.limitTimer = false := by
  by_cases due : (s.expired s.heat.limitTimer && s.heat.state == .running) = true
  · have closed : s.limitExpires.heat.state = .results := limitExpires_closes due
    exact absurd (closed.symm.trans running) (by decide)
  · have same : s.limitExpires = s := if_neg due
    rw [same] at running
    exact ⟨same, by simpa [running] using due⟩

/-- A heat that still runs after an expiry ran before it, on the same timers. -/
theorem State.Onward.running {s t : State} (h : s.Onward t) (runs : t.heat.state = .running) :
    s.heat.state = .running ∧ t.heat.limitTimer = s.heat.limitTimer ∧ t.composer.clockTimer = s.composer.clockTimer
      ∧ (t.heat.startTimer = s.heat.startTimer ∨ t.heat.startTimer = none) := by
  obtain ⟨-, -, ⟨state, rest⟩ | closed⟩ := h
  · exact ⟨state.symm.trans runs, rest⟩
  · exact absurd (closed.symm.trans runs) (by decide)

theorem raceTaken_onward (s : State) : s.silenceExpires.startWindowExpires.Onward s.raceTaken :=
  (foldl_keeps State.Onward .refl (fun _ _ _ => .trans) _ collectionExpires_onward _ _).trans
    (foldl_keeps State.Onward .refl (fun _ _ _ => .trans) _ exchangeExpires_onward _ _)

theorem boardTaken_keeps (s : State) : s.Keeps s.boardTaken := by
  have started := (silenceExpires_keeps s).trans (startWindowExpires_keeps _)
  have collected := started.trans (foldl_state_keeps _ collectionExpires_keeps Config.lanes _)
  have exchanged := collected.trans (foldl_state_keeps _ exchangeExpires_keeps Config.lanes _)
  have clocked := (exchanged.trans (limitExpires_keeps _)).trans (clockExpires_keeps _)
  exact clocked.trans (foldl_state_keeps _ refreshExpires_keeps Config.boardRows _)

/-- The expiries that follow the heat limit leave the race alone. -/
theorem takeDue_stands (s : State) : s.raceTaken.limitExpires.RaceStands s.takeDue := by
  rw [takeDue_eq]
  exact ((clockExpires_stands _).trans (refreshes_arbiterOnly _ _).stands).trans (stepExpires_pulseOnly _).stands

/-- The expiries of the race up to the heat limit, from the state that the silence left. -/
theorem limitTaken_onward (s : State) : s.silenceExpires.Onward s.raceTaken.limitExpires :=
  ((startWindowExpires_onward _).trans (raceTaken_onward s)).trans (limitExpires_onward _)

theorem takeDue_deckTime (s : State) : s.takeDue.deckTime = s.deckTime :=
  (takeDue_stands s).1.trans ((limitTaken_onward s).1.trans (silenceExpires_race s).1)

/-- A heat that runs on after the tick has reached no limit and has no timer due. -/
theorem takeDue_running {s : State} (runs : s.takeDue.heat.state = .running) :
    s.raceTaken.heat.state = .running ∧ s.raceTaken.limitExpires = s.raceTaken
      ∧ s.expired s.takeDue.heat.startTimer = false ∧ s.expired s.takeDue.heat.limitTimer = false := by
  obtain ⟨-, -, heat, -, -⟩ := takeDue_stands s
  obtain ⟨kept, limit⟩ := limitExpires_taken s.raceTaken (heat ▸ runs)
  rw [kept] at heat
  have raced : s.raceTaken.heat.state = .running := heat ▸ runs
  have deck : s.raceTaken.deckTime = s.deckTime :=
    ((startWindowExpires_onward _).trans (raceTaken_onward s)).1.trans (silenceExpires_race s).1
  obtain ⟨started, -, -, timer⟩ := (raceTaken_onward s).running raced
  refine ⟨raced, kept, ?_, ?_⟩
  · rw [heat]
    rcases timer with same | off
    · rw [same, ← expired_congr (silenceExpires_race s).1]
      exact startWindowExpires_taken _ started
    · rw [off]
      rfl
  · rw [heat, ← expired_congr deck]
    exact limit

theorem raceTaken_collections (s : State) {lane : Nat} (mem : lane ∈ Config.lanes) :
    s.raceTaken.limitExpires.CollectionTaken lane := by
  unfold State.raceTaken
  obtain ⟨t, value⟩ : ∃ t, t = Config.lanes.foldl State.collectionExpires s.silenceExpires.startWindowExpires := ⟨_, rfl⟩
  have taken : t.CollectionTaken lane := value ▸ collectionExpires_all _ mem
  rw [← value]
  have exchanged : State.LaneSettled lane t (Config.lanes.foldl State.exchangeExpires t) :=
    laneSettled_of_walls (foldl_walls _ exchangeExpires_walls _ _)
  have moved := (foldl_keeps State.Onward .refl (fun _ _ _ => .trans) _ exchangeExpires_onward Config.lanes t).trans
    (limitExpires_onward _)
  exact taken.settled (exchanged.trans (limitExpires_settled lane _)) moved.1

theorem raceTaken_windows (s : State) {lane : Nat} (mem : lane ∈ Config.lanes) :
    s.raceTaken.limitExpires.WindowTaken lane :=
  State.WindowTaken.limit (exchangeExpires_all _ mem) mem

theorem State.PulseOnly.board {s t : State} (h : s.PulseOnly t) : (∀ row, t.refreshDue row = s.refreshDue row)
    ∧ t.shifter.emptyHalf = s.shifter.emptyHalf ∧ t.shifterClaims = s.shifterClaims := by
  obtain ⟨_, _, _, _, -, rfl⟩ := h
  exact ⟨fun _ => rfl, rfl, rfl⟩

theorem rowDue_of_refresh {s : State} {row : Nat} (due : s.refreshDue row = true) : s.rowDue row = true := by
  unfold State.rowDue
  rw [due, Bool.or_true]

theorem boardTaken_claimed {s : State} {row : Nat} (inside : row < 16) (due : s.boardTaken.refreshDue row = true) :
    s.boardTaken.Claimed := refreshExpires_all _ inside due

theorem takeDue_claims {s : State} {row : Nat} (inside : row < 16) (due : s.takeDue.refreshDue row = true)
    (half : s.takeDue.shifter.emptyHalf.isSome = true) : s.takeDue.shifterClaims = true := by
  obtain ⟨refresh, halves, claims⟩ := (stepExpires_pulseOnly s.boardTaken).board
  rw [← takeDue_eq] at refresh halves claims
  rw [refresh] at due
  rw [halves] at half
  rw [claims]
  exact boardTaken_claimed inside due ⟨half, row, inside, rowDue_of_refresh due⟩

theorem State.CollectionTaken.stands {lane : Nat} {s t : State} (h : s.CollectionTaken lane) (k : s.RaceStands t) :
    t.CollectionTaken lane := by
  obtain ⟨deck, -, -, walls, -⟩ := k
  exact h.settled (laneSettled_of_walls walls) deck

theorem State.WindowTaken.stands {lane : Nat} {s t : State} (h : s.WindowTaken lane) (k : s.RaceStands t) :
    t.WindowTaken lane := by
  obtain ⟨deck, -, -, -, exchanges⟩ := k
  intro o found
  rw [deck]
  exact h o (openExchange_congr exchanges lane ▸ found)

theorem takeDue_silence {s : State} (up : s.takeDue.intake.link = .up) :
    s.expired s.takeDue.intake.silenceTimer = false := by
  obtain ⟨-, intake, -⟩ := takeDue_stands s
  obtain ⟨-, -, -, silence⟩ := silenceExpires_race s
  have same : s.takeDue.intake = s.silenceExpires.intake := intake.trans (limitTaken_onward s).2.1
  rw [same] at up ⊢
  exact silence up

/-- No expiry that its rule takes is left due behind a tick (R2). -/
theorem takeDue_noneLeft (s : State) : s.takeDue.NoneLeft := by
  have deck := takeDue_deckTime s
  refine ⟨fun up => ?_, fun runs => ?_, fun lane inside => ?_, fun lane inside => ?_, fun row => takeDue_claims⟩
  · exact (expired_congr deck _).trans (takeDue_silence up)
  · obtain ⟨-, -, start, limit⟩ := takeDue_running runs
    exact ⟨(expired_congr deck _).trans start, (expired_congr deck _).trans limit⟩
  · exact (raceTaken_collections s ((mem_lanes lane).mpr inside)).stands (takeDue_stands s)
  · exact (raceTaken_windows s ((mem_lanes lane).mpr inside)).stands (takeDue_stands s)

theorem State.PulseOnly.clockTimer {s t : State} (h : s.PulseOnly t) :
    t.composer.clockTimer = s.composer.clockTimer := by
  obtain ⟨_, _, _, _, -, rfl⟩ := h
  rfl

theorem State.ArbiterOnly.clockTimer {s t : State} (h : s.ArbiterOnly t) :
    t.composer.clockTimer = s.composer.clockTimer := by
  obtain ⟨_, _, _, _, _, _, _, rfl⟩ := h
  rfl

theorem boardTaken_clock (s : State) :
    s.boardTaken.composer.clockTimer = s.raceTaken.limitExpires.clockExpires.composer.clockTimer := by
  unfold State.boardTaken
  generalize s.raceTaken.limitExpires.clockExpires = t
  exact (refreshes_arbiterOnly Config.boardRows t).clockTimer

/-- The clock of a heat that runs on is timed on from its expiry value (R158). -/
theorem takeDue_clock {s : State} {e : DeckTime} (timer : s.composer.clockTimer = some e)
    (due : timerDue s.deckTime e = true) (runs : s.takeDue.heat.state = .running) :
    s.takeDue.composer.clockTimer = some (e + 10000) := by
  obtain ⟨raced, kept, -, -⟩ := takeDue_running runs
  obtain ⟨deck₀, -, clock₀, -⟩ := silenceExpires_race s
  have moved := (startWindowExpires_onward s.silenceExpires).trans (raceTaken_onward s)
  obtain ⟨-, -, clock, -⟩ := moved.running raced
  have ran : s.raceTaken.clockExpires.composer.clockTimer = some (e + 10000) :=
    clockExpires_next raced (clock.trans (clock₀.trans timer)) (by rw [moved.1, deck₀]; exact due)
  rw [takeDue_eq, (stepExpires_pulseOnly s.boardTaken).clockTimer, boardTaken_clock, kept, ran]

/-- A heat that has reached its limit is closed by the tick (R12, R25). -/
theorem takeDue_limit {s : State} (running : s.heat.state = .running) (limit : s.expired s.heat.limitTimer = true) :
    s.takeDue.heat.state = .results := by
  obtain ⟨-, -, heat, -, -⟩ := takeDue_stands s
  obtain ⟨deck₀, heat₀, -, -⟩ := silenceExpires_race s
  obtain ⟨deck, -, race⟩ := (startWindowExpires_onward s.silenceExpires).trans (raceTaken_onward s)
  rw [heat]
  rcases race with ⟨state, timer, -, -⟩ | closed
  · refine limitExpires_closes ?_
    rw [expired_congr (deck.trans deck₀), timer, state, heat₀, limit, running]
    rfl
  · rcases (limitExpires_onward s.raceTaken).2.2 with ⟨state, -⟩ | closed'
    · exact state.trans closed
    · exact closed'

/-! ### Modular Deck Time (R1, R2, R5 to R7) -/

theorem timerDue_iff_pending (now expiry : DeckTime) : timerDue now expiry = false ↔
    1 ≤ (expiry.toNat + 2 ^ 32 - now.toNat) % 2 ^ 32
      ∧ (expiry.toNat + 2 ^ 32 - now.toNat) % 2 ^ 32 ≤ 2 ^ 31 - 1 := by
  have ahead : (expiry - now).toNat = (expiry.toNat + 2 ^ 32 - now.toNat) % 2 ^ 32 := by
    have small := now.isLt
    rw [BitVec.toNat_sub]
    congr 1
    omega
  unfold timerDue
  rw [ahead]
  simp only [Bool.or_eq_false_iff, beq_eq_false_iff_ne, decide_eq_false_iff_not]
  omega

theorem heatTimeFrom_eq (epoch x : DeckTime) : heatTimeFrom epoch x =
    if (x.toNat + 2 ^ 32 - epoch.toNat) % 2 ^ 32 < 2 ^ 31 then (((x.toNat + 2 ^ 32 - epoch.toNat) % 2 ^ 32 : Nat) : Int)
    else (((x.toNat + 2 ^ 32 - epoch.toNat) % 2 ^ 32 : Nat) : Int) - 2 ^ 32 := by
  have since : (x - epoch).toNat = (x.toNat + 2 ^ 32 - epoch.toNat) % 2 ^ 32 := by
    have small := epoch.isLt
    rw [BitVec.toNat_sub]
    congr 1
    omega
  unfold heatTimeFrom
  rw [BitVec.toInt_eq_toNat_cond, since]
  refine if small : (x.toNat + 2 ^ 32 - epoch.toNat) % 2 ^ 32 < 2 ^ 31 then ?_ else ?_
  · rw [if_pos small, if_pos (by omega)]
  · rw [if_neg small, if_neg (by omega)]
    rfl

theorem edgeDeck_fresh (stamp : DeckTime) (delay : Byte) {edge : List Byte} (fresh : wordAt edge 1 ≠ 65535) :
    ∃ d, edgeDeck stamp delay edge = some d
      ∧ d.toNat = (stamp.toNat + 2 * 2 ^ 32 - wordAt edge 1 - delay.toNat) % 2 ^ 32 := by
  refine ⟨_, if_neg fresh, ?_⟩
  have age : wordAt edge 1 < 2 ^ 16 := by
    unfold wordAt byteAt
    have high := (edge.getD 1 0).isLt
    have low := (edge.getD (1 + 1) 0).isLt
    omega
  have late := delay.isLt
  have now := stamp.isLt
  unfold ticks
  rw [BitVec.toNat_sub, BitVec.toNat_sub, BitVec.toNat_ofNat, BitVec.toNat_ofNat]
  omega

theorem exec_tick_live {s t : State} (live : s.Live) (taken : s.takeDue = t) :
    exec .tick s = .next { t with deckTime := t.deckTime + 1 } := by
  rw [exec_tick_run, run_live live, taken]

/-- Settles O4. -/
theorem deckTimeArithmetic : Obligations.DeckTimeArithmetic := by
  unfold Obligations.DeckTimeArithmetic
  refine ⟨fun s live => ?_, fun s live quiet => ?_, fun d => BitVec.toNat_add d 1, timerDue_iff_pending,
    heatTimeFrom_eq, fun stamp delay edge stale => if_pos stale, fun stamp delay edge => edgeDeck_fresh stamp delay⟩
  · refine ⟨s.takeDue, ?_, takeDue_deckTime s, takeDue_noneLeft s, takeDue_limit,
      fun e timer due runs => takeDue_clock timer due runs, fun sound r running => ?_⟩
    · rw [exec_tick_live live rfl, takeDue_deckTime]
    · have deck : s.boardTaken.deckTime = s.deckTime := by
        rw [← takeDue_deckTime s, takeDue_eq]
        exact (stepExpires_pulseOnly s.boardTaken).stands.1.symm
      rw [← deck]
      rw [takeDue_eq] at running
      exact stepExpires_taken ((boardTaken_keeps s).pulse sound) r running
  · exact exec_tick_live live (takeDue_idle quiet)

end Sys2Proof.Machine
end

