-- ==== Sys2Proof/Proofs/ClosingSteps.lean ====
section
/-! The steps of a close, lane by lane: what each writes of a lane's status, finish, reaction and collector, and what it
hands over (R28, R66, R86, R93). -/

namespace Sys2Proof.Machine

/-! ### What a close writes of a record -/

/-- What a close writes of a record: the status, the finish and the reaction. -/
def LaneRecord.core (r : LaneRecord) : LaneStatus × Option HeatTime × Option HeatTime := (r.status, r.finish, r.reaction)

/-- That of a lane's record. -/
def State.core (s : State) (lane : Nat) : Option (LaneStatus × Option HeatTime × Option HeatTime) :=
  (s.record? lane).map LaneRecord.core

theorem core_congr {s t : State} (results : t.results = s.results) (l : Nat) : t.core l = s.core l := by
  unfold State.core
  rw [record?_congr results]

theorem map_core_unplaced (r : Option LaneRecord) :
    (r.map LaneRecord.unplaced).map LaneRecord.core = r.map LaneRecord.core := by
  cases r <;> rfl

/-- After a change of one lane's record. -/
theorem core_of_changed {s t : State} {lane : Nat} {f : LaneRecord → LaneRecord} (changed : t.unplaced = s.changed lane f)
    (lanes : ∀ r, (f r).lane = r.lane) (l : Nat) :
    t.core l = if l = lane then (s.record? l).map fun r => (f r).core else s.core l := by
  have found : (t.record? l).map LaneRecord.unplaced
      = ((writeRecord s.results lane f).find? (·.lane == l)).map LaneRecord.unplaced := find_of_unplaced changed l
  have same : t.core l = ((writeRecord s.results lane f).find? (·.lane == l)).map LaneRecord.core := by
    rw [← map_core_unplaced, ← found, map_core_unplaced]
    rfl
  rw [same]
  by_cases own : l = lane
  · subst own
    rw [if_pos rfl]
    cases held : s.record? l with
    | none =>
      rw [writeRecord_none held]
      exact congrArg (Option.map LaneRecord.core) held
    | some r => rw [find_writeRecord lanes held]; rfl
  · rw [if_neg own, find_writeRecord_ne lanes own]
    rfl

theorem core_of_kept {s t : State} {lane : Nat} {f : LaneRecord → LaneRecord} (changed : t.unplaced = s.changed lane f)
    (lanes : ∀ r, (f r).lane = r.lane) (kept : ∀ r, (f r).core = r.core) (l : Nat) : t.core l = s.core l := by
  rw [core_of_changed changed lanes]
  split
  · exact congrArg (fun g => (s.record? l).map g) (funext kept)
  · rfl

/-! ### A step of a close -/

/-- What every step of a close keeps: the blocks outside the race, the pending fields, the lanes with a record, and those
with an exchange collector. -/
structure State.CloseStep (s t : State) : Prop where
  race : s.RaceOnly t
  pends : s.PendsMore t
  lanes : t.results.map (·.lane) = s.results.map (·.lane)
  windowLanes : t.exchanges.map (·.lane) = s.exchanges.map (·.lane)

theorem State.CloseStep.refl (s : State) : s.CloseStep s := ⟨.refl s, .refl s, rfl, rfl⟩

theorem State.CloseStep.trans {s t u : State} (h : s.CloseStep t) (k : t.CloseStep u) : s.CloseStep u :=
  ⟨h.race.trans k.race, h.pends.trans k.pends, k.lanes.trans h.lanes, k.windowLanes.trans h.windowLanes⟩

theorem State.CloseStep.nodup {s t : State} (h : s.CloseStep t) (nodup : (s.results.map (·.lane)).Nodup) :
    (t.results.map (·.lane)).Nodup := by
  rw [h.lanes]
  exact nodup

theorem foldl_closeStep {g : State → Nat → State} (step : ∀ s l, State.CloseStep s (g s l)) (ls : List Nat) (s : State) :
    s.CloseStep (ls.foldl g s) :=
  foldl_keeps State.CloseStep .refl (fun _ _ _ => .trans) g step ls s

theorem commit_closeStep (s : State) (lane : Nat) {f : LaneRecord → LaneRecord} (lanes : ∀ r, (f r).lane = r.lane)
    (reach names : LaneRecord → LaneRecord → Bool) (rep : LaneRecord → Option Report) :
    s.CloseStep (s.commit lane f reach names rep) :=
  ⟨(commit_recordsOnly s lane f reach names rep).race, commit_pendsMore s lane f reach names rep,
    commit_lanes s lane lanes reach names rep, congrArg _ (commit_exchanges ..)⟩

theorem setWindow_closeStep (s : State) (lane : Nat) (w : Option OpenExchange) : s.CloseStep (s.setWindow lane w) := by
  refine ⟨setWindow_raceOnly s lane w, ⟨rfl, fun _ => id⟩, rfl, ?_⟩
  rw [setWindow_exchanges, List.map_map]
  refine List.map_congr_left fun x _ => ?_
  simp only [Function.comp_apply]
  split <;> rfl

theorem setCollector_closeStep (s : State) (c : Collector) : s.CloseStep (s.setCollector c) :=
  ⟨setCollector_raceOnly s c, ⟨rfl, fun _ => id⟩, rfl, rfl⟩

theorem store_closeStep (s : State) (a : ArrivalRecord) : s.CloseStep (s.store a) :=
  ⟨store_raceOnly s a, ⟨rfl, fun _ => id⟩, rfl, rfl⟩

/-! ### A window judged (R86) -/

theorem judged_core (r : LaneRecord) (k : Nat) (e : ExchangeRecord) : (r.judged k e).core = r.core := by
  unfold LaneRecord.judged LaneRecord.setExchange
  split <;> rfl

theorem judgeExchange_closeStep (s : State) (lane : Nat) (d : DeckTime) : s.CloseStep (s.judgeExchange lane d) := by
  cases open_ : s.openExchange lane with
  | none =>
    rw [judgeExchange_none open_]
    exact .refl s
  | some o =>
    rw [judgeExchange_some open_]
    exact (commit_closeStep s lane (fun r => judged_lane r _ _) _ _ _).trans (setWindow_closeStep _ _ _)

theorem judgeExchange_core (s : State) (lane : Nat) (d : DeckTime) (l : Nat) :
    (s.judgeExchange lane d).core l = s.core l := by
  cases open_ : s.openExchange lane with
  | none => rw [judgeExchange_none open_]
  | some o =>
    exact core_of_kept (judgeExchange_facts open_ d).1 (fun r => judged_lane r _ _) (fun r => judged_core r _ _) l

/-! ### A lane without a finish (R28) -/

/-- A record without a finish. -/
def LaneRecord.unfinished (r : LaneRecord) : LaneRecord := { r with status := .noFinish }

theorem unfinished_lane (r : LaneRecord) : r.unfinished.lane = r.lane := rfl

theorem noFinish_swam {s : State} {lane : Nat} {r : LaneRecord} (held : s.record? lane = some r)
    (swims : r.status = .swimming) : s.noFinish lane =
      s.commit lane LaneRecord.unfinished touchesPlacer unnamed fun _ => none := by
  unfold State.noFinish
  simp only [held, swims, if_true]
  rfl

theorem noFinish_other {s : State} {lane : Nat} (other : ∀ r, s.record? lane = some r → r.status ≠ .swimming) :
    s.noFinish lane = s := by
  unfold State.noFinish
  split
  · rfl
  · next r held => exact if_neg (other r held)

theorem noFinish_closeStep (s : State) (lane : Nat) : s.CloseStep (s.noFinish lane) := by
  by_cases swims : ∃ r, s.record? lane = some r ∧ r.status = .swimming
  · obtain ⟨r, held, swims⟩ := swims
    rw [noFinish_swam held swims]
    exact commit_closeStep s lane unfinished_lane _ _ _
  · rw [noFinish_other fun r held yes => swims ⟨r, held, yes⟩]
    exact .refl s

/-- What the step makes of a SWIMMING lane. -/
def coreUnfinished (k : LaneStatus × Option HeatTime × Option HeatTime) : LaneStatus × Option HeatTime × Option HeatTime :=
  if k.1 = .swimming then (.noFinish, k.2) else k

theorem noFinish_core (s : State) (lane l : Nat) :
    (s.noFinish lane).core l = if l = lane then (s.core l).map coreUnfinished else s.core l := by
  by_cases swims : ∃ r, s.record? lane = some r ∧ r.status = .swimming
  · obtain ⟨r, held, swims⟩ := swims
    rw [noFinish_swam held swims, core_of_changed (commit_unplaced _ _ _ _ _ _) unfinished_lane]
    refine if own : l = lane then ?_ else ?_
    · subst own
      rw [if_pos rfl, if_pos rfl, State.core, held, Option.map_some, Option.map_some, Option.map_some, coreUnfinished,
        if_pos (show r.core.1 = .swimming from swims)]
      rfl
    · rw [if_neg own, if_neg own]
  · have other : ∀ r, s.record? lane = some r → r.status ≠ .swimming := fun r held yes => swims ⟨r, held, yes⟩
    rw [noFinish_other other]
    refine if own : l = lane then ?_ else (if_neg own).symm
    subst own
    rw [if_pos rfl, State.core]
    cases held : s.record? l with
    | none => rfl
    | some r => exact congrArg some (if_neg (other r held)).symm

/-- A finish time always shows its point, so it is not the text of a lane without a finish (R14, R159). -/
theorem timeText_ne_noFinish (h : Nat) : timeText h ≠ textNt := by
  have point : (0x2E : Byte) ∈ timeText h := by
    unfold timeText
    dsimp only
    split <;> simp [glyphPoint]
  intro same
  rw [same] at point
  revert point
  decide

/-- A lane that becomes NO_FINISH is handed over: its time is shown as "NT" (R93, R105). -/
theorem noFinish_pending {s : State} (nodup : (s.results.map (·.lane)).Nodup) {lane : Nat} {r : LaneRecord}
    (held : s.record? lane = some r) (swims : r.status = .swimming) : (s.noFinish lane).LanePending lane := by
  rw [noFinish_swam held swims]
  refine commit_altered_pending unfinished_lane nodup fun same => ?_
  obtain ⟨t, value⟩ : ∃ t, t = s.commit lane LaneRecord.unfinished touchesPlacer unnamed fun _ => none := ⟨_, rfl⟩
  have core := core_of_changed (value ▸ commit_unplaced _ _ _ _ _ _) unfinished_lane lane
  rw [if_pos rfl, held, Option.map_some] at core
  rw [← value, held, Option.map_some] at same
  obtain ⟨q, found, status⟩ := Option.map_eq_some_iff.mp core
  rw [found, Option.map_some, Option.some.injEq] at same
  have ended : q.status = .noFinish := congrArg Prod.fst status
  have text : q.timeFieldText = r.timeFieldText := congrArg BoardValues.time same
  unfold LaneRecord.timeFieldText at text
  rw [ended, swims] at text
  simp only [reduceCtorEq, if_false, if_true] at text
  split at text
  · exact timeText_ne_noFinish _ text.symm
  · exact absurd text (by decide)

/-! ### A collection decided at a close (R66) -/

/-- The arrival that a decision of the collector gives. -/
def State.arrivalOf (s : State) (c : Collector) : Option Arrival :=
  if c.state = .collecting then decideArrival (s.plan.trustWindow * 100) c.pad (backupValue c.buttons) else none

/-- The finish that a decision of the lane's collection gives. -/
def State.finishOf (s : State) (lane : Nat) : Option Arrival :=
  (s.collector? lane).bind fun c => if s.laps ≤ c.lap then s.arrivalOf c else none

/-- What a finish writes. -/
def coreFinished (a : Option Arrival) (k : LaneStatus × Option HeatTime × Option HeatTime) :
    LaneStatus × Option HeatTime × Option HeatTime :=
  match a with
  | some a => (.final, some a.time, k.2.2)
  | none => k

theorem lapped_lane (s : State) (c : Collector) (a : Arrival) (r : LaneRecord) : (s.lapped c a r).lane = r.lane := rfl

theorem lapTold_core (s : State) (c : Collector) (a : Arrival) (l : Nat) : (s.lapTold c a).core l = s.core l := by
  refine core_of_kept (lane := c.lane) (f := s.lapped c a) ?_ (fun _ => rfl) (fun _ => rfl) l
  unfold State.unplaced State.changed
  rw [(lapTold_facts s c a).1]

theorem lapTold_closeStep (s : State) (c : Collector) (a : Arrival) : s.CloseStep (s.lapTold c a) := by
  obtain ⟨results, -, -, exchanges⟩ := lapTold_facts s c a
  refine ⟨lapTold_raceOnly s c a, ?_, ?_, by rw [exchanges]⟩
  · have counted : s.PendsMore ((s.store (c.record a)).note c.lane (s.lapped c a)) :=
      (store_closeStep s (c.record a)).pends.trans (commit_pendsMore _ _ _ _ _ _)
    unfold State.lapTold
    dsimp only
    split
    · exact counted.trans ⟨rfl, fun _ => id⟩
    · exact counted
  · rw [results, writeRecord_lanes _ _ _ (lapped_lane s c a)]

theorem decideLap_closeStep (s : State) (c : Collector) (a : Arrival) (closing : Bool) :
    s.CloseStep (s.decideLap c a closing) := by
  have told := lapTold_closeStep s c a
  cases at_ : exchangeAt s.plan.relay s.laps c.lap with
  | none =>
    rw [decideLap_plain at_]
    exact told.trans (setCollector_closeStep _ _)
  | some k =>
    rw [decideLap_exchange at_, handoff_eq]
    exact ((told.trans (judgeExchange_closeStep _ _ _)).trans (setWindow_closeStep _ _ _)).trans (setCollector_closeStep _ _)

theorem decideLap_core (s : State) (c : Collector) (a : Arrival) (closing : Bool) (l : Nat) :
    (s.decideLap c a closing).core l = s.core l := by
  cases at_ : exchangeAt s.plan.relay s.laps c.lap with
  | none =>
    rw [decideLap_plain at_]
    exact lapTold_core s c a l
  | some k =>
    rw [decideLap_exchange at_]
    exact (judgeExchange_core (s.lapTold c a) c.lane s.deckTime l).trans (lapTold_core s c a l)

theorem decideLap_collector {s : State} {c : Collector} (found : s.collector? c.lane = some c) (a : Arrival) :
    (s.decideLap c a true).collector? c.lane = some c.close := by
  obtain ⟨-, -, walls, -⟩ := lapTold_facts s c a
  have before : (s.lapTold c a).collector? c.lane = some c :=
    (collector?_congr (by rw [walls, store_collectors]) _).trans found
  cases at_ : exchangeAt s.plan.relay s.laps c.lap with
  | none =>
    rw [decideLap_plain at_]
    exact collector?_setCollector before rfl
  | some k =>
    rw [decideLap_exchange at_]
    exact collector?_setCollector ((collector?_congr (by rw [handoff_walls]) _).trans before) rfl

theorem finished_lane (s : State) (c : Collector) (a : Arrival) (r : LaneRecord) : (s.finished c a r).lane = r.lane := rfl

theorem decideFinish_closeStep (s : State) (c : Collector) (a : Arrival) : s.CloseStep (s.decideFinish c a) := by
  rw [decideFinish_eq]
  exact ((store_closeStep s _).trans (commit_closeStep _ _ (finished_lane s c a) _ _ _)).trans
    (setCollector_closeStep _ _)

/-- A decision that has nothing to decide. -/
theorem decideCollection_none {s : State} {lane : Nat} (nothing : ∀ c, s.collector? lane = some c → s.arrivalOf c = none)
    (closing : Bool) : s.decideCollection lane closing = s := by
  unfold State.decideCollection
  split
  · rfl
  · next c found =>
    have absent := nothing c found
    unfold State.arrivalOf at absent
    split
    · next collecting =>
      rw [if_pos collecting] at absent
      split
      · rfl
      · next a decided => exact absurd (absent.symm.trans decided) (by simp)
    · rfl

/-- A decision does nothing, decides a lap below the last, or decides the finish. -/
theorem decideCollection_cases (s : State) (lane : Nat) (closing : Bool) :
    (s.decideCollection lane closing = s ∧ ∀ c, s.collector? lane = some c → s.arrivalOf c = none)
      ∨ ∃ c a, s.collector? lane = some c ∧ s.arrivalOf c = some a
        ∧ ((c.lap < s.laps ∧ s.decideCollection lane closing = s.decideLap c a closing)
          ∨ (s.laps ≤ c.lap ∧ s.decideCollection lane closing = s.decideFinish c a)) := by
  by_cases some_ : ∃ c a, s.collector? lane = some c ∧ s.arrivalOf c = some a
  · obtain ⟨c, a, found, arrival⟩ := some_
    refine .inr ⟨c, a, found, arrival, ?_⟩
    unfold State.arrivalOf at arrival
    split at arrival
    · next collecting =>
      rcases Nat.lt_or_ge c.lap s.laps with below | last
      · exact .inl ⟨below, decideCollection_lap found collecting arrival below closing⟩
      · exact .inr ⟨last, decideCollection_finish found collecting arrival last closing⟩
    · cases arrival
  · have nothing : ∀ c, s.collector? lane = some c → s.arrivalOf c = none := fun c found => by
      cases arrival : s.arrivalOf c with
      | none => rfl
      | some a => exact absurd ⟨c, a, found, arrival⟩ some_
    exact .inl ⟨decideCollection_none nothing closing, nothing⟩

theorem decideCollection_closeStep (s : State) (lane : Nat) (closing : Bool) :
    s.CloseStep (s.decideCollection lane closing) := by
  rcases decideCollection_cases s lane closing with ⟨same, -⟩ | ⟨c, a, -, -, ⟨-, lap⟩ | ⟨-, finish⟩⟩
  · rw [same]
    exact .refl s
  · exact lap ▸ decideLap_closeStep s c a closing
  · exact finish ▸ decideFinish_closeStep s c a

theorem decideCollection_core (s : State) (lane : Nat) (closing : Bool) (l : Nat) :
    (s.decideCollection lane closing).core l =
      if l = lane then (s.core l).map (coreFinished (s.finishOf lane)) else s.core l := by
  have kept : ∀ k : Option (LaneStatus × Option HeatTime × Option HeatTime), k.map (coreFinished none) = k := fun k => by
    cases k <;> rfl
  have unfinished : s.finishOf lane = none → s.core l =
      if l = lane then (s.core l).map (coreFinished (s.finishOf lane)) else s.core l := fun none_ => by
    rw [none_, kept, ite_self]
  rcases decideCollection_cases s lane closing with ⟨same, nothing⟩ | ⟨c, a, found, arrival, ⟨below, lap⟩ | ⟨last, finish⟩⟩
  · rw [same]
    refine unfinished (Option.bind_eq_none_iff.mpr fun c found => ?_)
    rw [nothing c found, ite_self]
  · rw [lap, decideLap_core]
    refine unfinished ?_
    unfold State.finishOf
    rw [found, Option.bind_some, if_neg (Nat.not_le.mpr below)]
  · obtain rfl : c.lane = lane := collector?_lane found
    have finishes : s.finishOf c.lane = some a := by
      unfold State.finishOf
      rw [found, Option.bind_some, if_pos last, arrival]
    rw [finish, core_of_changed (decideFinish_facts s c a).1 (finished_lane s c a), finishes, State.core, Option.map_map]
    rfl

theorem decideCollection_collector {s : State} {lane : Nat} {c : Collector} (found : s.collector? lane = some c) :
    (s.decideCollection lane true).collector? lane =
      some (if (s.arrivalOf c).isSome = true then { c with state := .closed, timer := none } else c) := by
  rcases decideCollection_cases s lane true with ⟨same, nothing⟩ | ⟨d, a, held, arrival, decided⟩
  · rw [same, found, nothing c found]
    rfl
  · obtain rfl : d = c := Option.some.inj (held.symm.trans found)
    obtain rfl : d.lane = lane := collector?_lane held
    rw [arrival, Option.isSome_some, if_pos rfl]
    rcases decided with ⟨-, lap⟩ | ⟨-, finish⟩
    · rw [lap]
      exact decideLap_collector held a
    · rw [finish]
      exact (decideFinish_walls held a).2.1

theorem decideCollection_pending {s : State} {lane : Nat} {a : Arrival} (finishes : s.finishOf lane = some a)
    {r : LaneRecord} (held : s.record? lane = some r) (closing : Bool) :
    (s.decideCollection lane closing).LanePending lane := by
  unfold State.finishOf at finishes
  obtain ⟨c, found, arrival⟩ := Option.bind_eq_some_iff.mp finishes
  obtain rfl : c.lane = lane := collector?_lane found
  split at arrival
  · next last =>
    unfold State.arrivalOf at arrival
    split at arrival
    · next collecting =>
      rw [decideCollection_finish found collecting arrival last]
      exact decideFinish_pending held a
    · cases arrival
  · cases arrival

end Sys2Proof.Machine
end

