-- ==== Sys2Proof/Proofs/HeatCloses.lean ====
section
/-! A close of the heat, whatever its cause, and the events that close it (R24 to R28, R66, R86, R93, R158, R174). -/

namespace Sys2Proof.Machine

/-! ### One lane among the steps that take all lanes in turn -/

/-- Steps that take each lane once, split at the turn of one lane. -/
theorem foldl_split {l : Nat} {ls : List Nat} (mem : l ∈ ls) (once : ls.Nodup) :
    ∃ before after : List Nat, l ∉ before ∧ l ∉ after
    ∧ ∀ (g : State → Nat → State) (s : State), ls.foldl g s = after.foldl g (g (before.foldl g s) l) := by
  obtain ⟨before, after, rfl⟩ := List.append_of_mem mem
  obtain ⟨-, later, apart⟩ := List.nodup_append.mp once
  refine ⟨before, after, fun early => apart l early l List.mem_cons_self rfl, (List.nodup_cons.mp later).1, fun g s => ?_⟩
  rw [List.foldl_append, List.foldl_cons]

theorem foldl_away {β : Type} (view : State → β) {g : State → Nat → State} {l : Nat}
    (others : ∀ s m, m ≠ l → view (g s m) = view s) {ls : List Nat} (away : l ∉ ls) (s : State) :
    view (ls.foldl g s) = view s := by
  induction ls generalizing s with
  | nil => rfl
  | cons m ls ih =>
    rw [List.mem_cons, not_or] at away
    obtain ⟨head, tail⟩ := away
    rw [List.foldl_cons, ih tail, others s m (Ne.symm head)]

/-- The state at a lane's turn among all lanes: what a step of another lane leaves is as before all of them, and as after
them once the lane's own step is made. -/
theorem foldl_turn {β : Type} (view : State → β) {g : State → Nat → State} (step : ∀ s l, State.CloseStep s (g s l)) {l : Nat}
    (others : ∀ s m, m ≠ l → view (g s m) = view s) (inside : l < 10) (s : State) : ∃ u, s.CloseStep u
      ∧ view u = view s ∧ State.CloseStep (g u l) (Config.lanes.foldl g s)
      ∧ view (Config.lanes.foldl g s) = view (g u l) := by
  obtain ⟨before, after, early, late, split⟩ := foldl_split ((mem_lanes l).mpr inside) (by decide)
  refine ⟨before.foldl g s, foldl_closeStep step before s, foldl_away view others early s, ?_, ?_⟩
  · rw [split]
    exact foldl_closeStep step after _
  · rw [split]
    exact foldl_away view others late _

/-! ### Step 1: a start still to be judged (R28, R43) -/

theorem closeStart_shape (s : State) : ∃ rs o q, o.reportDest = s.out.reportDest ∧ s.closeStart =
    { s with
      heat := { s.heat with startTimer := none }, results := rs, out := o
      composer := { s.composer with queue := q } } := by
  unfold State.closeStart
  split
  · exact judgeStart_shape s _
  · next off =>
    have absent : s.heat.startTimer = none := by simpa using off
    refine ⟨s.results, s.out, s.composer.queue, rfl, ?_⟩
    rw [← absent]

theorem find_map_same {f : LaneRecord → LaneRecord} (lanes : ∀ r, (f r).lane = r.lane) (rs : List LaneRecord) (l : Nat) :
    (rs.map f).find? (·.lane == l) = (rs.find? (·.lane == l)).map f := by
  have same : ((·.lane == l) ∘ f) = (·.lane == l) := by
    funext r
    simp only [Function.comp_apply, lanes]
  rw [List.find?_map, same]

theorem closeStart_unplaced {s : State} (sound : s.ResultsSound) : s.closeStart.unplaced = (s.results.map fun r =>
    if s.heat.startTimer.isSome = true then s.startJudged (s.heatTime s.deckTime) r else r).map LaneRecord.unplaced := by
  unfold State.closeStart
  rw [List.map_map]
  split
  · next waits =>
    rw [judgeStart_unplaced sound, State.unplaced, List.map_map]
    refine List.map_congr_left fun r _ => ?_
    simp only [Function.comp_apply, startJudged_unplaced]
  · next off =>
    refine List.map_congr_left fun r _ => rfl

theorem closeStart_lanes {s : State} (sound : s.ResultsSound) :
    s.closeStart.results.map (·.lane) = s.results.map (·.lane) := by
  rw [lanes_of_unplaced (closeStart_unplaced sound), List.map_map]
  refine List.map_congr_left fun r _ => ?_
  simp only [Function.comp_apply]
  split
  · exact startJudged_lane s _ r
  · rfl

/-- What step 1 writes of a record. -/
theorem closeStart_core {s : State} (sound : s.ResultsSound) {r : LaneRecord} (mem : r ∈ s.results) :
    s.closeStart.core r.lane = some (r.status, r.finish, if s.heat.startTimer = none ∨ r.status = .dns then r.reaction
      else s.reaction r.lane (s.heatTime s.deckTime)) := by
  have found := find_of_unplaced (closeStart_unplaced sound) r.lane
  rw [find_map_same (fun r => by split; exacts [startJudged_lane s _ r, rfl]), find_lane_eq sound.1 mem] at found
  have core := congrArg (Option.map LaneRecord.core) found
  rw [map_core_unplaced, map_core_unplaced] at core
  refine core.trans ?_
  rw [Option.map_some, Option.map_some]
  cases timer : s.heat.startTimer with
  | none => simp [LaneRecord.core]
  | some e =>
    by_cases gone : r.status = .dns <;> simp [LaneRecord.core, State.startJudged, gone]

theorem closeStart_pending {s : State} (sound : s.ResultsSound) (waits : s.heat.startTimer.isSome = true)
    {r : LaneRecord} (mem : r ∈ s.results) (swam : r.status ≠ .dns) : s.closeStart.LanePending r.lane := by
  unfold State.closeStart
  rw [if_pos waits]
  exact judgeStart_pending sound _ mem swam

/-! ### Steps 2 to 4 (R28, R66, R86) -/

/-- Step 2: the open collections decided. -/
def State.decideLanes (s : State) : State := Config.lanes.foldl (fun t l => t.decideCollection l true) s

/-- Step 3: the lanes without a finish. -/
def State.endLanes (s : State) : State := Config.lanes.foldl State.noFinish s

/-- Step 4: the exchange windows judged. -/
def State.judgeLanes (s : State) : State := Config.lanes.foldl (fun t l => t.judgeExchange l t.deckTime) s

theorem closeLanes_eq (s : State) : s.closeLanes = s.decideLanes.endLanes.judgeLanes := rfl

theorem decideLanes_closeStep (s : State) : s.CloseStep s.decideLanes :=
  foldl_closeStep (fun t l => decideCollection_closeStep t l true) _ s

theorem endLanes_closeStep (s : State) : s.CloseStep s.endLanes := foldl_closeStep noFinish_closeStep _ s

theorem judgeLanes_closeStep (s : State) : s.CloseStep s.judgeLanes :=
  foldl_closeStep (fun t l => judgeExchange_closeStep t l _) _ s

theorem closeLanes_closeStep (s : State) : s.CloseStep s.closeLanes :=
  ((decideLanes_closeStep s).trans (endLanes_closeStep _)).trans (judgeLanes_closeStep _)

theorem plan_congr {s t : State} (heat : t.heat.plan = s.heat.plan) : t.plan = s.plan := by
  unfold State.plan
  rw [heat]

/-- A decision depends on the plan, the course and the lane's collector. -/
theorem arrivalOf_congr {s t : State} (heat : t.heat.plan = s.heat.plan) (c : Collector) :
    t.arrivalOf c = s.arrivalOf c := by
  unfold State.arrivalOf
  rw [plan_congr heat]

theorem finishOf_congr {s t : State} (heat : t.heat.plan = s.heat.plan) (mgmt : t.mgmt = s.mgmt) {l : Nat}
    (collector : t.collector? l = s.collector? l) : t.finishOf l = s.finishOf l := by
  unfold State.finishOf State.laps
  simp only [collector, plan_congr heat, mgmt, arrivalOf_congr heat]

theorem decideLanes_lane {s : State} {l : Nat} (inside : l < 10) :
    s.decideLanes.core l = (s.core l).map (coreFinished (s.finishOf l))
      ∧ (∀ c, s.collector? l = some c → s.decideLanes.collector? l =
          some (if (s.arrivalOf c).isSome = true then { c with state := .closed, timer := none } else c))
      ∧ (∀ r, s.record? l = some r → (s.finishOf l).isSome = true → s.decideLanes.LanePending l) := by
  have others : ∀ (t : State) m, m ≠ l → ((t.decideCollection m true).core l, (t.decideCollection m true).collector? l)
      = (t.core l, t.collector? l) := fun t m other => by
    rw [decideCollection_core, if_neg other.symm, (decideCollection_collectors t m true).2 l other.symm]
  obtain ⟨u, early, view, late, after⟩ := foldl_turn (fun t => (t.core l, t.collector? l))
    (fun t m => decideCollection_closeStep t m true) others inside s
  obtain ⟨core, collector⟩ := Prod.mk.inj view
  obtain ⟨core', collector'⟩ := Prod.mk.inj after
  obtain ⟨heat, -, -, -, -, -, -, mgmt⟩ := early.race.rest
  have plan : u.heat.plan = s.heat.plan := by rw [heat]
  have finish := finishOf_congr plan mgmt collector
  refine ⟨?_, fun c found => ?_, fun r held finishes => ?_⟩
  · refine core'.trans ?_
    rw [decideCollection_core, if_pos rfl, finish, core]
  · refine collector'.trans ?_
    rw [decideCollection_collector (collector.trans found), arrivalOf_congr plan]
  · obtain ⟨a, finishes⟩ := Option.isSome_iff_exists.mp finishes
    have there : (u.core l).isSome = true := by
      rw [core, State.core, held]
      rfl
    obtain ⟨q, found⟩ := Option.isSome_iff_exists.mp ((Option.isSome_map).symm.trans there)
    exact (decideCollection_pending (finish.trans finishes) found true).more late.pends

theorem endLanes_lane {s : State} (nodup : (s.results.map (·.lane)).Nodup) {l : Nat} (inside : l < 10) :
    s.endLanes.core l = (s.core l).map coreUnfinished
      ∧ (∀ k, s.core l = some k → k.1 = .swimming → s.endLanes.LanePending l) := by
  have others : ∀ (t : State) m, m ≠ l → (t.noFinish m).core l = t.core l := fun t m other => by
    rw [noFinish_core, if_neg other.symm]
  obtain ⟨u, early, core, late, after⟩ := foldl_turn (fun t => t.core l) noFinish_closeStep others inside s
  refine ⟨?_, fun k held swims => ?_⟩
  · refine after.trans ?_
    rw [noFinish_core, if_pos rfl, core]
  · obtain ⟨r, found, rfl⟩ := Option.map_eq_some_iff.mp (core.trans held)
    exact (noFinish_pending (early.nodup nodup) found swims).more late.pends

theorem judgeLanes_core (s : State) (l : Nat) : s.judgeLanes.core l = s.core l := by
  unfold State.judgeLanes
  generalize Config.lanes = ls
  induction ls generalizing s with
  | nil => rfl
  | cons m ls ih => rw [List.foldl_cons, ih, judgeExchange_core]

theorem closeLanes_core {s : State} (nodup : (s.results.map (·.lane)).Nodup) {l : Nat} (inside : l < 10) :
    s.closeLanes.core l = ((s.core l).map (coreFinished (s.finishOf l))).map coreUnfinished := by
  rw [closeLanes_eq, judgeLanes_core, (endLanes_lane ((decideLanes_closeStep s).nodup nodup) inside).1,
    (decideLanes_lane inside).1]

theorem closeLanes_collector {s : State} {l : Nat} (inside : l < 10) {c : Collector} (found : s.collector? l = some c) :
    s.closeLanes.collector? l =
      some (if (s.arrivalOf c).isSome = true then { c with state := .closed, timer := none } else c) := by
  refine (collector?_congr (s := s.decideLanes) ?_ l).trans ((decideLanes_lane inside).2.1 c found)
  rw [closeLanes_eq, State.judgeLanes, State.endLanes, foldl_walls _ (fun t m => judgeExchange_walls t m _), foldl_walls]
  intro t m
  obtain ⟨_, _, _, -, e⟩ := noFinish_recordsOnly t m
  rw [e]

/-- A lane whose status steps 2 and 3 change is handed over. -/
theorem closeLanes_pending {s : State} (nodup : (s.results.map (·.lane)).Nodup) {l : Nat} (inside : l < 10)
    {k : LaneStatus × Option HeatTime × Option HeatTime} (held : s.core l = some k)
    (changes : (s.finishOf l).isSome = true ∨ k.1 = .swimming) : s.closeLanes.LanePending l := by
  obtain ⟨core, -, pending⟩ := decideLanes_lane (s := s) inside
  obtain ⟨r, record, rfl⟩ := Option.map_eq_some_iff.mp held
  rw [closeLanes_eq]
  cases finish : s.finishOf l with
  | some a =>
    exact ((pending r record (by rw [finish]; rfl)).more (endLanes_closeStep _).pends).more (judgeLanes_closeStep _).pends
  | none =>
    have swims : r.core.1 = .swimming := changes.resolve_left (by rw [finish]; decide)
    rw [finish, held, Option.map_some] at core
    exact ((endLanes_lane ((decideLanes_closeStep s).nodup nodup) inside).2 _ core swims).more
      (judgeLanes_closeStep _).pends

/-! ### The end of a close (R28, R158, R174) -/

/-- The race ended, before program 2 is fired. -/
def State.endRace (s : State) (cause : HeatCause) : State :=
  { s with
    heat := { s.heat with state := .results, limitTimer := none }
    out := s.out.report (.heatState .results cause)
    composer :=
      { queue := if s.composer.queue.contains .clock then s.composer.queue else s.composer.queue ++ [.clock]
        clockRunning := false, clockHeld := s.heatTime s.deckTime, clockTimer := none } }

theorem stopClock_eq (s : State) (held : HeatTime) : s.stopClock held = { s with composer :=
    { queue := if s.composer.queue.contains .clock then s.composer.queue else s.composer.queue ++ [.clock]
      clockRunning := false, clockHeld := held, clockTimer := none } } := by
  have shown : s.board.layout.hides .clock = false := rfl
  unfold State.stopClock State.makePending
  simp only [shown, Bool.false_or]
  split <;> rfl

theorem closeHeat_eq (s : State) (cause : HeatCause) : s.closeHeat cause =
    if cause = .closeAllFinal then (s.closeStart.closeLanes.endRace cause).fireEnd
    else s.closeStart.closeLanes.endRace cause := by
  unfold State.closeHeat
  generalize s.closeStart.closeLanes = u
  dsimp only
  have ended : (State.enterHeat { u with heat := { u.heat with limitTimer := none } } .results cause).stopClock
      ((State.enterHeat { u with heat := { u.heat with limitTimer := none } } .results cause).heatTime u.deckTime)
        = u.endRace cause := stopClock_eq _ _
  exact congrArg (fun v : State => if cause = .closeAllFinal then v.fireEnd else v) ended

theorem endRace_pendsMore (s : State) (cause : HeatCause) : s.PendsMore (s.endRace cause) := by
  refine ⟨rfl, fun x mem => ?_⟩
  show x ∈ if s.composer.queue.contains .clock then s.composer.queue else s.composer.queue ++ [.clock]
  split
  · exact mem
  · exact List.mem_append_left _ mem

theorem fireEnd_empty {s : State} (steps : (s.pulse.program 2).steps = []) : s.fireEnd = s := by
  unfold State.fireEnd
  rw [steps]
  rfl

theorem fireEnd_skips {s : State} (steps : (s.pulse.program 2).steps ≠ []) (runs : s.pulse.running.isSome = true) :
    s.fireEnd = { s with pulse := { s.pulse with skipped := satAdd 16 s.pulse.skipped 1 } } := by
  unfold State.fireEnd
  rw [if_neg (by simpa using steps), if_pos runs]

theorem fireEnd_begins {s : State} {x : PulseStep} {xs : List PulseStep} (steps : (s.pulse.program 2).steps = x :: xs)
    (idle : s.pulse.running = none) : s.fireEnd = { s with pulse := { s.pulse with
      running := some { program := 2, repeatNo := 1, step := 1, completed := 0, timer := s.stepExpiry x } } } := by
  unfold State.fireEnd
  rw [if_neg (by rw [steps]; simp), if_neg (by rw [idle]; simp), beginProgram_cons steps]

theorem fireEnd_shape (s : State) : ∃ p, s.fireEnd = { s with pulse := p } := by
  cases steps : (s.pulse.program 2).steps with
  | nil => exact ⟨s.pulse, fireEnd_empty steps⟩
  | cons x xs =>
    cases runs : s.pulse.running with
    | none => exact ⟨_, fireEnd_begins steps runs⟩
    | some r => exact ⟨_, fireEnd_skips (by rw [steps]; simp) (by rw [runs]; rfl)⟩

theorem closeHeat_shape (s : State) (cause : HeatCause) :
    ∃ p, s.closeHeat cause = { s.closeStart.closeLanes.endRace cause with pulse := p } := by
  rw [closeHeat_eq]
  generalize s.closeStart.closeLanes.endRace cause = u
  split
  · exact fireEnd_shape u
  · exact ⟨u.pulse, rfl⟩

/-- The race as it ends: what the steps of a close leave alone. -/
theorem closed_shape (s : State) : ∃ rs w x o q, o.reportDest = s.out.reportDest ∧ s.closeStart.closeLanes =
    { s with
      heat := { s.heat with startTimer := none }, results := rs, walls := w, exchanges := x, out := o
      composer := { s.composer with queue := q } } := by
  obtain ⟨_, _, _, dest, started⟩ := closeStart_shape s
  obtain ⟨rs, w, x, o, q, dest', closed⟩ := closeLanes_raceOnly s.closeStart
  refine ⟨rs, w, x, o, q, ?_, ?_⟩
  · rw [dest', started, dest]
  · rw [closed, started]

/-! ### A close as a whole (R28) -/

theorem closeHeat_results (s : State) (cause : HeatCause) :
    (s.closeHeat cause).results = s.closeStart.closeLanes.results := by
  obtain ⟨p, e⟩ := closeHeat_shape s cause
  rw [e]
  generalize s.closeStart.closeLanes = u
  rfl

theorem closeHeat_pendsMore (s : State) (cause : HeatCause) : s.closeStart.closeLanes.PendsMore (s.closeHeat cause) := by
  obtain ⟨p, e⟩ := closeHeat_shape s cause
  refine (endRace_pendsMore _ cause).trans ?_
  rw [e]
  generalize s.closeStart.closeLanes.endRace cause = u
  exact ⟨rfl, fun _ => id⟩

theorem closeHeat_lanes {s : State} (sound : s.ResultsSound) (cause : HeatCause) :
    (s.closeHeat cause).results.map (·.lane) = s.results.map (·.lane) := by
  rw [closeHeat_results, (closeLanes_closeStep _).lanes, closeStart_lanes sound]

theorem closeStart_finishOf (s : State) (l : Nat) : s.closeStart.finishOf l = s.finishOf l := by
  have collector : s.closeStart.collector? l = s.collector? l := collector?_congr (by rw [closeStart_walls]) l
  obtain ⟨_, _, _, -, e⟩ := closeStart_shape s
  exact finishOf_congr (by rw [e]) (by rw [e]) collector

/-- What a close writes of a lane's record. -/
theorem closeHeat_core {s : State} (sound : s.ResultsSound) (cause : HeatCause) {r : LaneRecord} (mem : r ∈ s.results) :
    (s.closeHeat cause).core r.lane = some (coreUnfinished (coreFinished (s.finishOf r.lane)
      (r.status, r.finish, if s.heat.startTimer = none ∨ r.status = .dns then r.reaction
        else s.reaction r.lane (s.heatTime s.deckTime)))) := by
  have nodup : (s.closeStart.results.map (·.lane)).Nodup := by
    rw [closeStart_lanes sound]
    exact sound.1
  rw [core_congr (closeHeat_results s cause), closeLanes_core nodup (sound.2 r mem).1, closeStart_core sound mem,
    closeStart_finishOf]
  rfl

theorem closeHeat_collector {s : State} {l : Nat} (inside : l < 10) {c : Collector} (found : s.collector? l = some c)
    (cause : HeatCause) : (s.closeHeat cause).collector? l =
      some (if (s.arrivalOf c).isSome = true then { c with state := .closed, timer := none } else c) := by
  have before : s.closeStart.collector? l = some c := (collector?_congr (by rw [closeStart_walls]) l).trans found
  have plan : s.closeStart.heat.plan = s.heat.plan := by rw [closeStart_heat]
  have after : (s.closeHeat cause).collector? l = s.closeStart.closeLanes.collector? l :=
    collector?_congr (by rw [closeHeat_walls]) l
  rw [after, closeLanes_collector inside before, arrivalOf_congr plan]

/-- A close leaves no window open, whatever the lane (R86). -/
theorem closeHeat_windows {s : State} (below : ∀ x ∈ s.exchanges, x.lane < 10)
    (nodup : (s.exchanges.map (·.lane)).Nodup) (cause : HeatCause) :
    ∀ x ∈ (s.closeHeat cause).exchanges, x.window = none := by
  have started : s.closeStart.exchanges = s.exchanges := by
    obtain ⟨_, _, _, -, e⟩ := closeStart_shape s
    rw [e]
  have lanes := (closeLanes_closeStep s.closeStart).windowLanes
  rw [started] at lanes
  rw [closeHeat_exchanges]
  intro x mem
  have inside : x.lane < 10 := by
    have here : x.lane ∈ s.exchanges.map (·.lane) := by
      rw [← lanes]
      exact List.mem_map_of_mem mem
    obtain ⟨y, held, same⟩ := List.mem_map.mp here
    rw [← same]
    exact below y held
  have shut := closeLanes_windows s.closeStart ((mem_lanes x.lane).mpr inside)
  have once : (s.closeStart.closeLanes.exchanges.map (·.lane)).Nodup := by
    rw [lanes]
    exact nodup
  obtain ⟨y, found⟩ : ∃ y, s.closeStart.closeLanes.exchanges.find? (·.lane == x.lane) = some y :=
    Option.isSome_iff_exists.mp (List.find?_isSome.mpr ⟨x, mem, by simp⟩)
  have same : y = x := List.inj_on_of_nodup_map once (List.mem_of_find?_eq_some found) mem
    (by simpa using List.find?_some found)
  unfold State.openExchange at shut
  rw [found, same] at shut
  exact shut

/-- A lane whose status a close changes, or whose start it judges, is handed over (R93, R160). -/
theorem closeHeat_handedOver {s : State} (sound : s.ResultsSound) (cause : HeatCause) {r : LaneRecord}
    (mem : r ∈ s.results) (changes : (s.finishOf r.lane).isSome = true ∨ r.status = .swimming
      ∨ (s.heat.startTimer.isSome = true ∧ r.status ≠ .dns)) : (s.closeHeat cause).HandedOver r.lane := by
  have nodup : (s.closeStart.results.map (·.lane)).Nodup := by
    rw [closeStart_lanes sound]
    exact sound.1
  have core := closeStart_core sound mem
  have pending : s.closeStart.closeLanes.LanePending r.lane := by
    rcases changes with finishes | swims | ⟨waits, swam⟩
    · exact closeLanes_pending nodup (sound.2 r mem).1 core (.inl (by rw [closeStart_finishOf]; exact finishes))
    · exact closeLanes_pending nodup (sound.2 r mem).1 core (.inr swims)
    · exact (closeStart_pending sound waits mem swam).more (closeLanes_closeStep _).pends
  exact (pending.more (closeHeat_pendsMore s cause)).handedOver

/-- Program 2 at a close (R174). -/
theorem closeHeat_pulse (s : State) (cause : HeatCause) :
    (cause ≠ .closeAllFinal ∨ (s.pulse.program 2).steps = [] → (s.closeHeat cause).pulse = s.pulse)
      ∧ ∀ x xs, cause = .closeAllFinal → (s.pulse.program 2).steps = x :: xs →
        (s.pulse.running.isSome = true →
            (s.closeHeat cause).pulse = { s.pulse with skipped := satAdd 16 s.pulse.skipped 1 })
          ∧ (s.pulse.running = none → (s.closeHeat cause).pulse = { s.pulse with
              running := some { program := 2, repeatNo := 1, step := 1, completed := 0, timer := s.stepExpiry x } }) := by
  obtain ⟨v, value⟩ : ∃ v, v = s.closeStart.closeLanes.endRace cause := ⟨_, rfl⟩
  have same : v.pulse = s.pulse ∧ ∀ x, v.stepExpiry x = s.stepExpiry x := by
    obtain ⟨_, _, _, _, _, -, e⟩ := closed_shape s
    rw [value, e]
    exact ⟨rfl, fun _ => rfl⟩
  obtain ⟨pulse, expiry⟩ := same
  rw [closeHeat_eq, ← value, ← pulse]
  refine ⟨fun quiet => ?_, fun x xs all steps => ?_⟩
  · split
    · next all => rw [fireEnd_empty (quiet.resolve_left (not_not_intro all))]
    · rfl
  · rw [if_pos all]
    refine ⟨fun runs => ?_, fun idle => ?_⟩
    · rw [fireEnd_skips (by rw [steps]; simp) runs]
    · rw [fireEnd_begins steps idle, expiry]

/-- What a close leaves alone, and the clock and the frames it leaves. -/
theorem closeHeat_rest (s : State) (cause : HeatCause) :
    (s.closeHeat cause).composer =
        { queue := if s.closeStart.closeLanes.composer.queue.contains .clock then s.closeStart.closeLanes.composer.queue
            else s.closeStart.closeLanes.composer.queue ++ [.clock]
          clockRunning := false, clockHeld := s.heatTime s.deckTime, clockTimer := none }
      ∧ (s.closeHeat cause).out = s.closeStart.closeLanes.out.report (.heatState .results cause)
      ∧ (s.closeHeat cause).starts = s.starts ∧ (s.closeHeat cause).intake = s.intake
      ∧ (s.closeHeat cause).nodes = s.nodes ∧ (s.closeHeat cause).mgmt = s.mgmt ∧ s.SameMeet (s.closeHeat cause) := by
  obtain ⟨u, value⟩ : ∃ u, u = s.closeStart.closeLanes := ⟨_, rfl⟩
  obtain ⟨_, shape⟩ := closeHeat_shape s cause
  obtain ⟨rs, w, x, o, q, dest, e⟩ := closed_shape s
  rw [shape, ← value]
  rw [← value] at e
  have time : u.heatTime u.deckTime = s.heatTime s.deckTime := by rw [e]; rfl
  have out : u.out.reportDest = s.out.reportDest := by rw [e]; exact dest
  have blocks : u.starts = s.starts ∧ u.intake = s.intake ∧ u.nodes = s.nodes ∧ u.mgmt = s.mgmt ∧ u.board = s.board := by
    rw [e]
    exact ⟨rfl, rfl, rfl, rfl, rfl⟩
  obtain ⟨starts, intake, nodes, mgmt, board⟩ := blocks
  have dest' : (u.endRace cause).out.reportDest = s.out.reportDest := (LoopOut.report_reportDest _ _).trans out
  refine ⟨?_, rfl, starts, intake, nodes, mgmt, congrArg _ mgmt, congrArg _ mgmt, dest', congrArg _ board, congrArg _ board,
    congrArg _ board, congrArg _ board, congrArg _ board⟩
  rw [← time]
  rfl

/-! ### The events that close a heat (R26) -/

/-- A closed heat: RESULTS, no timer, and the clock stopped. -/
def State.Closed (t : State) : Prop :=
  t.heat.state = .results ∧ t.heat.startTimer = none ∧ t.heat.limitTimer = none ∧ t.composer.clockRunning = false

theorem closeHeat_closed (s : State) (cause : HeatCause) : (s.closeHeat cause).Closed := by
  obtain ⟨composer, -⟩ := closeHeat_rest s cause
  unfold State.Closed
  rw [closeHeat_heat, composer]
  exact ⟨rfl, rfl, rfl, rfl⟩

theorem State.Closed.arbitrate {s : State} (h : s.Closed) : s.arbitrate.Closed := by
  obtain ⟨state, start, limit, clock⟩ := h
  unfold State.Closed
  rw [arbitrate_heat, (arbitrate_clock s).2.1]
  exact ⟨state, start, limit, clock⟩

theorem State.Closed.popHead {s : State} (h : s.Closed) : s.popHead.Closed := h

theorem examined_closed {s : State} (running : s.heat.state = .running)
    (closed : ∀ r ∈ s.results, r.status = .final ∨ r.status = .noFinish ∨ r.status = .dns) :
    s.examineClosing.arbitrate.Closed := by
  rw [examineClosing_closed running closed]
  exact (closeHeat_closed s _).arbitrate

/-- A collection with a value decides an arrival. -/
theorem decideArrival_of_value {c : Collector} (value : c.pad ≠ none ∨ c.buttons ≠ []) (trust : Nat) :
    ∃ a, decideArrival trust c.pad (backupValue c.buttons) = some a := by
  cases decided : decideArrival trust c.pad (backupValue c.buttons) with
  | some a => exact ⟨a, rfl⟩
  | none =>
    obtain ⟨pad, backup⟩ := decideArrival_none decided
    exact (value.elim (· pad) (· (backupValue_none backup))).elim

/-- The finish of the last open lane closes the heat. -/
theorem lastFinish_closes {s : State} {lane : Nat} {c : Collector} (live : s.Live) (running : s.heat.state = .running)
    (found : s.collector? lane = some c) (collecting : c.state = .collecting) (value : c.pad ≠ none ∨ c.buttons ≠ [])
    (due : s.expired c.timer = true) (last : s.laps ≤ c.lap)
    (lastOpen : ∀ q ∈ s.results, q.lane ≠ lane → q.status = .final ∨ q.status = .noFinish ∨ q.status = .dns) :
    ∃ t, exec (.lapCollectionExpiry lane) s = .next t ∧ t.Closed := by
  obtain ⟨a, arrival⟩ := decideArrival_of_value value s.plan.trustTicks
  obtain rfl : c.lane = lane := collector?_lane found
  refine ⟨_, exec_collection_due live found collecting due, ?_⟩
  rw [decideCollection_finish found collecting arrival last]
  refine examined_closed ?_ fun r mem => ?_
  · rw [(decideFinish_raceOnly s c a).rest.1]
    exact running
  · obtain ⟨y, held, same⟩ := decideFinish_mem mem
    rw [status_of_unplaced same]
    split
    · exact .inl rfl
    · next other => exact lastOpen y held other

/-- MARK_DNS of the last open lane of a RUNNING heat closes it. -/
theorem lastDns_closes {s : State} {f : Frame} {lane : Nat} {r : LaneRecord} (asked : s.Asks f 0x0D (sized 1))
    (running : s.heat.state = .running) (at_ : byteAt f.request.fields 0 = lane) (inside : lane < 10)
    (inUse : s.laneInUse lane = true) (held : s.record? lane = some r) (swims : r.status = .swimming)
    (fresh : r.lapCount = 0)
    (lastOpen : ∀ q ∈ s.results, q.lane ≠ lane → q.status = .final ∨ q.status = .noFinish ∨ q.status = .dns) :
    ∃ t, exec .markDns s = .next t ∧ t.Closed := by
  subst at_
  refine ⟨_, exec_asked (exec_markDns_run s) asked, ?_⟩
  rw [markDns_lane inside inUse (.inr running) held ⟨.inr swims, fresh⟩, markLaneDns_eq]
  refine State.Closed.popHead (examined_closed ?_ fun q mem => ?_)
  · rw [(lostLane_rest s f.request _ (.refl _)).2.1]
    exact running
  · obtain ⟨y, there, same⟩ := lostLane_mem mem
    rw [status_of_unplaced same]
    split
    · exact .inr (.inr rfl)
    · next other => exact lastOpen y there other

theorem begun_begins (s : State) : s.begun.heat.state = .running ∧ s.begun.results = s.results.map LaneRecord.started := by
  obtain ⟨v, value⟩ : ∃ v, v = State.startSet ((s.senseLine s.mgmt.settings.startLine true).notePrevious true) := ⟨_, rfl⟩
  have results : v.results = s.results.map LaneRecord.started := by
    rw [value]
    rfl
  have begun : s.begun = (v.firePreempting 0).enterHeat .running .start := by
    rw [value]
    rfl
  obtain ⟨_, _, _, _, -, fired⟩ := firePreempting_pulseOnly v 0
  rw [begun, fired, ← results]
  exact ⟨rfl, rfl⟩

/-- A start with every lane DNS closes the heat at once. -/
theorem start_closes {s : State} (live : s.Live) (armed : s.heat.state = .armed) (low : s.pulse.startPrevious = false)
    (gone : ∀ r ∈ s.results, r.status = .dns) : ∃ t, exec .startLineRisingEdge s = .next t ∧ t.Closed := by
  obtain ⟨running, results⟩ := begun_begins s
  refine ⟨_, exec_start live armed low, examined_closed running fun q mem => ?_⟩
  rw [results] at mem
  obtain ⟨r, held, rfl⟩ := List.mem_map.mp mem
  have stays : r.started = r := if_neg (by rw [gone r held]; decide)
  rw [stays]
  exact .inr (.inr (gone r held))

/-- Settles O22: the steps of a close, the heat limit, and the closing condition. -/
theorem heatCloses : Obligations.HeatCloses := by
  refine ⟨fun s cause sound below nodup _ => ?_, fun s live running limit => ?_, fun s => examineClosing_closed,
    fun s => ⟨fun lane c live running found collecting value due last => lastFinish_closes live running found collecting value
        due last,
      fun f lane r asked running at_ inside inUse held swims fresh => lastDns_closes asked running at_ inside inUse held swims
        fresh,
      start_closes⟩,
    fun s quiet => ?_⟩
  · obtain ⟨composer, out, starts, intake, nodes, mgmt, meet⟩ := closeHeat_rest s cause
    obtain ⟨silent, fires⟩ := closeHeat_pulse s cause
    have written : ∀ r ∈ s.results, ∀ q, (s.closeHeat cause).record? r.lane = some q → q.core =
        coreUnfinished (coreFinished (s.finishOf r.lane) (r.status, r.finish,
          if s.heat.startTimer = none ∨ r.status = .dns then r.reaction
          else s.reaction r.lane (s.heatTime s.deckTime))) := fun r mem q found => by
      have core := closeHeat_core sound cause mem
      rw [State.core, found, Option.map_some, Option.some.injEq] at core
      exact core
    refine ⟨closeHeat_heat s cause, closeHeat_lanes sound cause, fun r mem => ?_,
      fun l inside c found => closeHeat_collector inside found cause, closeHeat_windows below nodup cause,
      by rw [composer], by rw [composer], by rw [composer], by rw [composer], fun r mem q found changes => ?_, out, silent,
      fun x xs all steps => ?_, starts, intake, nodes, mgmt, meet⟩
    · have core := closeHeat_core sound cause mem
      obtain ⟨q, found, -⟩ := Option.map_eq_some_iff.mp core
      have written := written r mem q found
      refine ⟨q, found, ?_⟩
      show q.status = (if (s.finishOf r.lane).isSome = true then _ else _) ∧ q.finish = (match s.finishOf r.lane with
        | some a => some a.time
        | none => r.finish) ∧ _
      cases finish : s.finishOf r.lane with
      | some a =>
        rw [finish] at written
        exact ⟨congrArg Prod.fst written, congrArg (·.2.1) written, congrArg (·.2.2) written⟩
      | none =>
        rw [finish] at written
        unfold coreUnfinished coreFinished at written
        dsimp only at written
        simp only [Option.isSome_none, Bool.false_eq_true, if_false]
        split at written
        · next swims =>
          rw [if_pos swims]
          exact ⟨congrArg Prod.fst written, congrArg (·.2.1) written, congrArg (·.2.2) written⟩
        · next other =>
          rw [if_neg other]
          exact ⟨congrArg Prod.fst written, congrArg (·.2.1) written, congrArg (·.2.2) written⟩
    · refine closeHeat_handedOver sound cause mem ?_
      rcases changes with status | judged
      · have written := written r mem q found
        cases finish : s.finishOf r.lane with
        | some a => exact .inl rfl
        | none =>
          rw [finish] at written
          refine .inr (.inl (Decidable.byContradiction fun other => status ?_))
          unfold coreUnfinished coreFinished at written
          rw [if_neg other] at written
          exact congrArg Prod.fst written
      · exact .inr (.inr judged)
    · obtain ⟨skips, begins⟩ := fires x xs all steps
      refine ⟨skips, fun idle => ?_⟩
      rw [begins idle]
      exact ⟨rfl, rfl⟩
  · rw [exec_heatLimitExpiry_run, run_live live]
    have due : (s.expired s.heat.limitTimer && s.heat.state == .running) = true := by
      rw [limit, running]
      rfl
    exact congrArg _ (if_pos due)
  · rcases quiet with waits | ⟨r, mem, swims⟩
    · exact examineClosing_idle waits
    · refine examineClosing_open mem ?_
      rcases swims with e | e <;> rw [e] <;> decide

end Sys2Proof.Machine
end
